-- ==== Sys2Proof/Word.lean ====
section
/-! DEFINITION. The word types of the QP-2 and their plainest arithmetic. -/

namespace Sys2Proof

/-- A byte of a record, of a request's data or of a pixel. -/
abbrev Byte := BitVec 8

/-- The 64-bit value of one beat (R135, R191). -/
abbrev Word := BitVec 64

/-- A 40-bit frame-memory address (00_scope.md, Conventions). -/
abbrev Addr := BitVec 40

/-- The line counter and every stamp taken from it (R80). -/
abbrev Line := BitVec 32

/-- One more, stopping at `top` (00_scope.md: "A saturating counter stops at its maximum value"). -/
def satInc (top n : Nat) : Nat := min top (n + 1)

/-- How many parts of size `d` cover `n` (the `ceil(n / d)` of R5, R77 and R108). -/
def ceilDiv (n d : Nat) : Nat := (n + d - 1) / d

/-- `a − b` of two line counts, modulo 2^32, saturating at 65,535 (R47, R93). -/
def lineGap (a b : Line) : Nat := min 65535 (a - b).toNat

end Sys2Proof
end

