-- ==== Sys2Proof/Machine/Table.lean ====
section
/-! DEFINITION. A fixed number of like things, indexed by `Fin`: a list that carries its length. -/

namespace Sys2Proof

/-- `n` entries of type `α`. -/
structure Table (α : Type) (n : Nat) where
  list : List α
  len  : list.length = n
deriving DecidableEq, Repr

variable {α β γ : Type} {n : Nat}

/-- Entry `i`. -/
def Table.get (t : Table α n) (i : Fin n) : α :=
  t.list[i.val]'(by rw [t.len]; exact i.isLt)

/-- The table with entry `i` replaced. -/
def Table.set (t : Table α n) (i : Fin n) (a : α) : Table α n :=
  ⟨t.list.set i.val a, by rw [List.length_set, t.len]⟩

/-- The table with entry `i` changed by `f`. -/
def Table.modify (t : Table α n) (i : Fin n) (f : α → α) : Table α n :=
  t.set i (f (t.get i))

/-- The table of `n` entries `a`. -/
def Table.replicate (n : Nat) (a : α) : Table α n :=
  ⟨List.replicate n a, List.length_replicate⟩

/-- Every entry changed by `f`. -/
def Table.map (f : α → β) (t : Table α n) : Table β n :=
  ⟨t.list.map f, by rw [List.length_map, t.len]⟩

/-- Every entry changed by `f`, which also sees its number. -/
def Table.mapIdx (f : Nat → α → β) (t : Table α n) : Table β n :=
  ⟨t.list.zipIdx.map fun p => f p.2 p.1, by rw [List.length_map, List.length_zipIdx, t.len]⟩

/-- Two tables joined entry by entry. -/
def Table.zipWith (f : α → β → γ) (t : Table α n) (u : Table β n) : Table γ n :=
  ⟨List.zipWith f t.list u.list, by rw [List.length_zipWith, t.len, u.len, min_self]⟩

/-- The lowest number whose entry meets `p`. -/
def Table.find (p : α → Bool) (t : Table α n) : Option (Fin n) :=
  (List.finRange n).find? fun i => p (t.get i)

/-- How many entries meet `p`. -/
def Table.count (p : α → Bool) (t : Table α n) : Nat := t.list.countP p

/-- Does an entry meet `p`? -/
def Table.any (p : α → Bool) (t : Table α n) : Bool := t.list.any p

end Sys2Proof
end

