-- ==== Sys2Proof/Config.lean ====
section
/-! DEFINITION. What the manual fixes as sizes, and the one value it leaves open. -/

namespace Sys2Proof.Config

/-- The most entries the Write Tracking Table holds (R27). -/
def wttSize : Nat := 64

/-- The most requests the forwarding buffer holds (R137). -/
def forwardSize : Nat := 16

/-- The most entries the Present Queue holds (R52). -/
def queueSize : Nat := 4

/-- The most records the frame-record queue holds (R185). -/
def frameQueueSize : Nat := 4

/-- The age at which a report claim goes ahead of PASS and FETCH (R151). -/
def reportAgeLimit : Nat := 32

/-- The most bands of a surface (R1). -/
def maxBands : Nat := 128

/-- The first address of the command page of WSEL 0 (R154). -/
def commandPageBase : Nat := 0xFFFFF00000

/-- The first address beyond the 40-bit address space (R4, R173). -/
def addressLimit : Nat := 2 ^ 40

/-- DESIGN CHOICE (log 5). The value of a data beat that a READ_DATA response should carry and does not:
R136 says a READ_DATA carries one beat per beat of its request, and states nothing of a shorter one.
`draw` numbers the response, `beat` the absent beat. It has no body: nothing can be proved of it. -/
opaque absentBeat (draw beat : Nat) : BitVec 64

end Sys2Proof.Config
end

