-- ==== Sys2Proof/Syntax.lean ====
section
/-! DEFINITION. The commands of the QP-2: one constructor for each row of spec/opcode_table.json, and the
link traffic they carry (R135, R136). -/

namespace Sys2Proof

/-- The kind of a request (R135). -/
inductive ReqKind
  | read | write
deriving DecidableEq, Repr

/-- One data beat of a WRITE: 8 bytes with their 8 byte enables (R135). -/
structure Beat where
  data    : BitVec 64
  enables : BitVec 8
deriving DecidableEq, Repr

/-- A request on the C-port (R135). `beats` is its length in beats of 8 bytes. -/
structure Request where
  kind  : ReqKind
  tag   : Fin 256
  addr  : Addr
  beats : Nat
  data  : List Beat
deriving DecidableEq, Repr

/-- The kind of a response (R136). -/
inductive RespKind
  | readData | writeAck
deriving DecidableEq, Repr

/-- The status of a response (R136). -/
inductive Status
  | ok | error
deriving DecidableEq, Repr

/-- The three command words of the command page (R155). -/
inductive Lane
  | render | present | control
deriving DecidableEq, Repr

/-- The steps of the part, one for each row of spec/opcode_table.json. -/
inductive Instr
  /-- POWER_ON_RESET (R98): the end of a reset by the RESET pin, with the levels its other input pins have then. -/
  | powerOnReset (wsel : BitVec 4) (linkUp crst : Bool)
  /-- LINK_RESET (R146): CRST is asserted. -/
  | linkReset
  /-- CRST_RELEASE (R146). -/
  | crstRelease
  /-- LINK_UP_CHANGE (R128): LINK_UP has `level`; `sent` transfers of the line in progress had gone (R129). -/
  | linkUpChange (level : Bool) (sent : Nat)
  /-- REQUEST_ACCEPT (R138): `arriving`, if a request arrives, joins the C-port; the request at its head is tried. -/
  | requestAccept (arriving : Option Request)
  /-- OPEN_FRAME (R10) of the identifier field. -/
  | openFrame (id : BitVec 8)
  /-- RELEASE (R35, R36): argument A is the first band, B the last. -/
  | release (id : BitVec 8) (first last : BitVec 16)
  /-- ABANDON (R12). -/
  | abandon (id : BitVec 8)
  /-- PRESENT (R56): argument A holds mode and LATEST, B the admission count. -/
  | present (id : BitVec 8) (a b : BitVec 16)
  /-- WITHDRAW (R60). -/
  | withdraw (id : BitVec 8)
  /-- COMMIT(SURFACE, entry) (R3 to R7). -/
  | commitSurface (entry : BitVec 16)
  /-- COMMIT(TIMING, entry) (R75 to R79). -/
  | commitTiming (entry : BitVec 16)
  /-- COMMIT(FETCH, entry) (R101, R102). -/
  | commitFetch (entry : BitVec 16)
  /-- COMMIT(NOTICE, entry) (R186). -/
  | commitNotice (entry : BitVec 16)
  /-- COMMIT(MARKER, entry) (R131). -/
  | commitMarker (entry : BitVec 16)
  /-- COMMIT(REPORT, entry) (R173, R174). -/
  | commitReport (entry : BitVec 16)
  /-- OUTPUT_ON (R95). -/
  | outputOn
  /-- OUTPUT_OFF (R96). -/
  | outputOff
  /-- CLEAR_EVENTS (R176): bit 0 of B asks for the causes, C is the flag mask. -/
  | clearEvents (b c : BitVec 16)
  /-- VIEW_SELECT (R184): argument A is the page. -/
  | viewSelect (a : BitVec 16)
  /-- SOFT_RESET (R168). -/
  | softReset
  /-- UNKNOWN (R160): a lane beat whose code belongs to no lane. -/
  | unknown (lane : Lane) (code : BitVec 8)
  /-- WRONG_LANE (R160): a lane beat whose code belongs to another lane. -/
  | wrongLane (lane : Lane) (code : BitVec 8)
  /-- TABLE_INDEX (R164): a whole beat on that word. -/
  | tableIndex (value : BitVec 64)
  /-- TABLE_DATA (R165): a whole beat on that word. -/
  | tableData (value : BitVec 64)
  /-- REPORT_NOW (R162): a whole beat on that word. -/
  | reportNow (value : BitVec 64)
  /-- MISPLACED_WRITE (R156): a misplaced beat. -/
  | misplacedWrite
  /-- CONSOLE_RESPONSE (R144): an M-port response on tag 0 to 255. -/
  | consoleResponse (tag : Fin 256) (kind : RespKind) (status : Status) (data : List (BitVec 64))
  /-- FETCH_RESPONSE (R112 to R115): an M-port response on tag 256 + `n`. -/
  | fetchResponse (n : Fin 64) (kind : RespKind) (status : Status) (data : List (BitVec 64))
  /-- REPORT_ACK (R179): a WRITE_ACK on tag 320 + `n`. -/
  | reportAck (n : Fin 16) (status : Status)
  /-- STRAY_RESPONSE (R143): a READ_DATA on a report tag, or any response on tags 336 to 511. -/
  | strayResponse (tag : Fin 512) (kind : RespKind) (status : Status)
  /-- GRANT (R151). -/
  | grant
  /-- CHANNEL_FREE (R149). -/
  | channelFree
  /-- STATUS_WRITE_BEGIN (R182). -/
  | statusWriteBegin
  /-- LINE_BOUNDARY (R80): a boundary that begins a further SETTLE, FRONT_MIN or BACK_BLANK line. -/
  | lineBoundary
  /-- SETTLE_DONE (R82): the boundary that ends the last SETTLE line. -/
  | settleDone
  /-- FRONT_MIN_END (R84): the boundary that ends the F_min-th line. -/
  | frontMinEnd
  /-- STRETCH_BOUNDARY (R85): a line boundary in STRETCH. -/
  | stretchBoundary
  /-- STRETCH_EXPIRY (R86): the boundary at which the front blank reaches F_max lines. -/
  | stretchExpiry
  /-- ACTIVE_START (R89): the boundary at which active line 0 begins. -/
  | activeStart
  /-- ACTIVE_LINE (R117): the boundary at which a later active line begins. -/
  | activeLine
  /-- END_OF_ACTIVE (R91): the boundary that ends active line H − 1. -/
  | endOfActive
deriving DecidableEq, Repr

end Sys2Proof
end

