-- ==== Sys2Proof/Machine/State.lean ====
section
/-! DEFINITION. The whole state of the QP-2, block by block as 00_scope.md lists its owners, and its value
after power-on reset. -/

namespace Sys2Proof.Machine

/-- A step of the machine never stops with a fault: no rule of the spec stops the engine (DEDUCED, log 27). It has no
constructor, so no meaning can raise one. -/
inductive Fault
deriving DecidableEq, Repr

/-- Why a step is not made. -/
inductive Refusal
  /-- Raised by an arm of `exec` whose command has no meaning yet; no arm does so now. Safe: nothing follows. -/
  | notModelled (mnemonic : String)
deriving DecidableEq, Repr

/-! ## Traffic Classifier (R137) -/

/-- The C-port state (R137). -/
inductive CPort
  | live | inReset
deriving DecidableEq, Repr

/-- The cause of a link fault (R153). -/
inductive FaultCause
  | crossing | tagReuse | trackReuse | noRequest | fetchTag | reportRead | unusedTag | reportTag
deriving DecidableEq, Repr

/-- The last link fault: its cause and its tag, 0 to 511 (R143). -/
structure LinkFault where
  cause : FaultCause
  tag   : Nat
deriving DecidableEq, Repr

/-- The queued and issued counts of a console tag (R137). -/
structure TagCount where
  queued : Nat := 0
  issued : Nat := 0
deriving DecidableEq, Repr

/-- A response returned on the C-port (R136, R144). -/
structure Response where
  tag    : Fin 256
  kind   : RespKind
  status : Status
  data   : List (BitVec 64)
deriving DecidableEq, Repr

/-- The Traffic Classifier. -/
structure Classifier where
  /-- LIVE or IN_RESET (R137). -/
  cport    : CPort
  /-- The level of the CRST line: true while it is asserted (R146). -/
  crst     : Bool
  /-- The requests that have arrived on the C-port and are not accepted, head first (R138; DESIGN CHOICE, log 4).
  A power-on reset drops them (DESIGN CHOICE, log 35). -/
  arrivals : List Request
  /-- The forwarding buffer, oldest first (R141). -/
  forward  : List Request
  /-- The tag table (R137). -/
  tags     : Table TagCount 256
  /-- The discard set: true for a tag in it (R147). -/
  discard  : Table Bool 256
  /-- The last link fault (R143, R153). -/
  fault    : Option LinkFault
  /-- The response that the latest CONSOLE_RESPONSE returned on the C-port, if it returned one (R144; DESIGN CHOICE, log 15). -/
  returned : Option Response
deriving DecidableEq, Repr

/-! ## Command Decoder (R159, R163, R164, R154) -/

/-- The result codes of R160, in the order of their numbers. -/
inductive Result
  | ok | adjusted | busy | badSurface | badState | duplicate | queueFull | range | sizeMismatch | overlap
  | unknown | wrongLane
deriving DecidableEq, Repr

/-- A lane record (R159). -/
structure LaneRecord where
  taken  : BitVec 16
  code   : BitVec 8
  result : Result
deriving DecidableEq, Repr

/-- The table index (R164). -/
structure TableIndex where
  table : BitVec 8
  entry : BitVec 8
  field : BitVec 8
deriving DecidableEq, Repr

/-- The staging copies of the six tables, each staged field 32 bits (R163). -/
structure Staging where
  surface : Table (Table (BitVec 32) 7) 8
  timing  : Table (BitVec 32) 9
  fetch   : Table (BitVec 32) 6
  notice  : Table (Table (BitVec 32) 5) 8
  marker  : Table (BitVec 32) 2
  report  : Table (BitVec 32) 3
deriving DecidableEq, Repr

/-- The Command Decoder. -/
structure Decoder where
  render  : LaneRecord
  present : LaneRecord
  control : LaneRecord
  index   : TableIndex
  staging : Staging
  /-- The WSEL value sampled at power-on reset (R154). -/
  wsel    : BitVec 4
deriving DecidableEq, Repr

/-! ## Surface Table (R1) -/

/-- The pixel formats of R2. -/
inductive Format
  | p32 | p64
deriving DecidableEq, Repr

/-- The place of a surface in the frame lifecycle (R1). -/
inductive SurfState
  | free | rendering | queued | scanning | held
deriving DecidableEq, Repr

/-- The geometry of a surface record, and whether it is defined (R1). -/
structure Geometry where
  defined : Bool
  base    : Addr
  pitch   : Nat
  width   : Nat
  height  : Nat
  format  : Format
  /-- The band height Hb. -/
  hb      : Nat
  /-- The band count Nb. -/
  nb      : Nat
deriving DecidableEq, Repr

/-- A surface record (R1). -/
structure Surface where
  geo   : Geometry
  state : SurfState
  gen   : BitVec 8
  late  : Nat
deriving DecidableEq, Repr

/-- The geometry of an undefined surface (R1). -/
def Geometry.undefined : Geometry :=
  { defined := false, base := 0, pitch := 0, width := 0, height := 0, format := .p32, hb := 16, nb := 0 }

/-! ## Band Tracker (R22, R27, R31) -/

/-- The release status of a band (R22). -/
inductive Release
  | opened | draining | ready
deriving DecidableEq, Repr

/-- The scan status of a band (R24). -/
inductive Scan
  | unscanned | scanned | missed
deriving DecidableEq, Repr

/-- A band record (R22). -/
structure Band where
  status  : Release
  pending : Nat
  scan    : Scan
  stamp   : Option Line
  fault   : Bool
deriving DecidableEq, Repr

/-- The cleared form of a band record (R22, R9). -/
def Band.cleared : Band :=
  { status := .opened, pending := 0, scan := .unscanned, stamp := none, fault := false }

/-- The 128 band records of a surface. -/
abbrev Bands := Table Band 128

/-- The cleared records of a surface (R9). -/
def Bands.cleared : Bands := Table.replicate 128 Band.cleared

/-- What a Write Tracking Table entry holds beside its tag (R27). -/
structure Tracked where
  surface : Fin 8
  gen     : BitVec 8
  band    : Fin 128
deriving DecidableEq, Repr

/-- The Band Tracker. -/
structure BandTracker where
  bands : Table Bands 8
  /-- The Write Tracking Table by C-port tag: no two entries share a tag (R27). -/
  wtt   : Table (Option Tracked) 256
  /-- A stall episode is in progress (R31). -/
  stall : Bool
deriving DecidableEq, Repr

/-! ## Present Queue (R52) -/

/-- The mode of a present (R52). -/
inductive Mode
  | race | whole | split
deriving DecidableEq, Repr

/-- A present entry (R52). -/
structure Entry where
  surface   : Fin 8
  mode      : Mode
  admission : Nat
  latest    : Bool
  arrival   : Line
  number    : BitVec 16
deriving DecidableEq, Repr

/-- The Present Queue. -/
structure PresentQueue where
  /-- The entries, oldest first. -/
  queue     : List Entry
  count     : BitVec 16
  lastTaken : BitVec 16
deriving DecidableEq, Repr

/-! ## Raster Timer (R74, R80, R81, R94) -/

/-- A timing set as installed, with its derived values (R74). -/
structure TimingSet where
  w     : Nat
  h     : Nat
  ht    : Nat
  clock : Nat
  s     : Nat
  fp    : Nat
  fhi   : Nat
  flo   : Nat
  settle : Nat
  vtMin : Nat
  vtMax : Nat
  fMin  : Nat
  fMax  : Nat
  floorRaised    : Bool
  rangeCollapsed : Bool
deriving DecidableEq, Repr

/-- The raster states (section 4.5). -/
inductive Raster
  | off | settle | frontMin | stretch | backBlank | active
deriving DecidableEq, Repr

/-- The kinds of a frame (R86, R87). -/
inductive FrameKind
  | new | repeated | fill
deriving DecidableEq, Repr

/-- The working record of the current frame (R81, R94, R185). The fields that the front blank's end fixes are
absent before it. -/
structure WorkingRecord where
  kind        : Option FrameKind
  source      : Option (Fin 8)
  /-- The split-in surface and the split band (R90). -/
  split       : Option (Fin 8 × Nat)
  front       : Nat
  skipped     : Bool
  lag         : Option Nat
  misses      : Nat
  firstMissed : Option Nat
  leastMargin : Option Nat
  late        : Nat
  fetchLate   : Nat
  fetchError  : Nat
  dropped     : Nat
  activeLine  : Line
  cut         : Bool
deriving DecidableEq, Repr

/-- A working record as it is opened (R81, R94). -/
def WorkingRecord.empty : WorkingRecord :=
  { kind := none, source := none, split := none, front := 0, skipped := false, lag := none, misses := 0,
    firstMissed := none, leastMargin := none, late := 0, fetchLate := 0, fetchError := 0, dropped := 0,
    activeLine := 0, cut := false }

/-- What the end of a front blank fixes for its frame (R87, R104): the decision kind, the band grid Hb_g and
Nb_g, and the frame's lead Lf_f. -/
structure FrameControl where
  decision : FrameKind
  hb       : Nat
  nb       : Nat
  lead     : Nat
deriving DecidableEq, Repr

/-- A present lag being measured: the arrival stamp, and the active line at which it is complete (R93). -/
structure LagPending where
  arrival : Line
  line    : Nat
deriving DecidableEq, Repr

/-- The Raster Timer. -/
structure RasterTimer where
  timing     : Option TimingSet
  pendingSet : Option TimingSet
  raster     : Raster
  /-- The number, from 0, of the current line within the raster state. -/
  pos        : Nat
  /-- The current line has ended, and the boundary that ends it is being taken: what comes first there sees the LC of
  the line that begins (R47, section 11.2; DESIGN CHOICE, log 33). -/
  ended      : Bool
  offPending : Bool
  /-- LC at the current line (R80). -/
  lc         : Line
  frameCount : BitVec 32
  record     : Option WorkingRecord
  frame      : Option FrameControl
  lag        : Option LagPending
deriving DecidableEq, Repr

/-! ## Scanout Fetcher (R100, R104, R107, R111, R116) -/

/-- Three 10-bit channels (section 5.6). -/
structure Pixel where
  red   : BitVec 10
  green : BitVec 10
  blue  : BitVec 10
deriving DecidableEq, Repr

/-- The error modes of R100. -/
inductive ErrorMode
  | fill | prior
deriving DecidableEq, Repr

/-- A set of fetch settings (R100). -/
structure FetchSet where
  lead : Nat
  mode : ErrorMode
  fill : Pixel
  /-- Pixels per transfer. -/
  ppt  : Nat
deriving DecidableEq, Repr

/-- A surface source: what the Band Tracker hands over with its decision (R105). -/
structure SurfaceSource where
  surface : Fin 8
  base    : Addr
  pitch   : Nat
  format  : Format
deriving DecidableEq, Repr

/-- The source of a band (R105). -/
inductive BandSource
  | fill
  | surface (src : SurfaceSource)
deriving DecidableEq, Repr

/-- The status of a burst (R107). A returned burst holds its converted pixels. -/
inductive Burst
  | notIssued
  | inFlight
  | returned (pixels : List Pixel)
  | failed
deriving DecidableEq, Repr

/-- A slot of the line buffer (R107). A fill slot has no bursts. -/
structure Slot where
  line   : Nat
  source : BandSource
  bursts : List Burst
deriving DecidableEq, Repr

/-- The state of an outstanding read (R111). -/
inductive ReadState
  | inFlight | discard
deriving DecidableEq, Repr

/-- What an entry of the outstanding read table holds beside its tag (R111). -/
structure ReadEntry where
  line  : Nat
  burst : Nat
  state : ReadState
deriving DecidableEq, Repr

/-- The Scanout Fetcher. -/
structure Fetcher where
  inForce : FetchSet
  waiting : Option FetchSet
  /-- The band source list: an entry that no fetch point has recorded yet is absent (R104, R105). -/
  sources : List (Option BandSource)
  /-- The line buffer, oldest line first (R107). -/
  buffer  : List Slot
  /-- The outstanding read table: entry n is that of M-port tag 256 + n (R111). -/
  reads   : Table (Option ReadEntry) 64
  /-- The prior line (R116). -/
  prior   : Option (List Pixel)
deriving DecidableEq, Repr

/-! ## Pixel Output Port (R124, R131) -/

/-- The port states (R128). -/
inductive PortState
  | down | waiting | sending
deriving DecidableEq, Repr

/-- The marker functions, in the order of their codes (R131). -/
inductive MarkerFn
  | off | frameStart | active | stretch | bandMiss | repeated | summary
deriving DecidableEq, Repr

/-- The kinds of a blank-line token (R126). -/
inductive Token
  | settle | front | stretch | back
deriving DecidableEq, Repr

/-- One transfer of an active line, and whether it carries the frame-start marker (R125). -/
structure Transfer where
  pixels     : List Pixel
  frameStart : Bool
deriving DecidableEq, Repr

/-- What the port sends in the current line (R125, R126, R129). -/
inductive PortLine
  /-- Nothing: the line is dropped whole, or there is no line. -/
  | nothing
  | token (kind : Token)
  | active (transfers : List Transfer)
deriving DecidableEq, Repr

/-- The Pixel Output Port. -/
structure PixelPort where
  ppt     : Nat
  /-- The level of the LINK_UP input. -/
  linkUp  : Bool
  /-- The recorded link level: true for high (R128). -/
  level   : Bool
  state   : PortState
  routing : Table MarkerFn 2
  /-- The starting boundary of the current line carried a missed band decision (R133). -/
  missed  : Bool
  /-- What is sent in the current line. -/
  sent    : PortLine
deriving DecidableEq, Repr

/-! ## Report Writer (R172, R175, R177, R178, R182, R185 to R187) -/

/-- The sixteen events, in the order of their flags (R175). -/
inductive Event
  | bandMiss | lateWrite | writeFault | linkProtocol | trackStall | presentDropped | repeated | fetchLate
  | fetchError | outputChange | linkReset | misplacedWrite | commandRefused | settleDone | reportFault | fillFrame
deriving DecidableEq, Repr

/-- The sources of a notice (R186). -/
inductive Source
  | flag (e : Event)
  | frameStart
  | frameEnd
  | presentTaken
deriving DecidableEq, Repr

/-- The reset causes (R177). SOFT is clear in a part that no soft reset has come to (DESIGN CHOICE, log 37). -/
structure Causes where
  power : Bool
  link  : Bool
  soft  : Bool
deriving DecidableEq, Repr

/-- The eight counters (R178). -/
structure Counters where
  bandMisses  : Nat := 0
  repeats     : Nat := 0
  fillFrames  : Nat := 0
  lateWrites  : Nat := 0
  drops       : Nat := 0
  fetchLate   : Nat := 0
  fetchErrors : Nat := 0
  trackStalls : Nat := 0
deriving DecidableEq, Repr

/-- An entry of the notice table (R186). -/
structure NoticeEntry where
  source  : Source
  addr    : Addr
  value   : BitVec 32
  enabled : Bool
deriving DecidableEq, Repr

/-- The release condition of a waiting notice (R187). -/
inductive Condition
  /-- Its condition is met: it is ready to issue. -/
  | released
  /-- It waits for the end of a status write whose snapshot is still to be taken. -/
  | nextWrite
  /-- It waits for the end of the status write in progress, whose snapshot followed its occurrence. -/
  | thisWrite
  /-- It waits for the acknowledgement of the record of that frame number. -/
  | record (frame : BitVec 32)
deriving DecidableEq, Repr

/-- A finished frame record with its frame number and its slot in the frame log (R185). -/
structure FrameRecord where
  number : BitVec 32
  slot   : BitVec 6
  body   : WorkingRecord
deriving DecidableEq, Repr

/-- A status write in progress (R182): the bytes of its snapshot and how far it has gone. `cutShort` is set
when a COMMIT(REPORT) has discarded the bursts not yet issued (R174). -/
structure StatusWrite where
  view         : List Byte
  record       : List Byte
  viewIssued   : Nat
  viewAcked    : Nat
  recordIssued : Bool
  cutShort     : Bool
deriving DecidableEq, Repr

/-- What a held report tag's write is (R179). -/
inductive ReportWrite
  | viewBurst
  | statusBurst
  | record (frame : BitVec 32)
  | notice (source : Source)
deriving DecidableEq, Repr

/-- The Report Writer. -/
structure ReportWriter where
  base     : Addr
  enable   : Bool
  flags    : BitVec 16
  summary  : Bool
  causes   : Causes
  counters : Counters
  notices  : Table NoticeEntry 8
  /-- The notice waiting set (R187). -/
  waiting  : Table (Option Condition) 8
  /-- The frame-record queue, oldest first (R185). -/
  frames   : List FrameRecord
  /-- The frame log's write index (R185). -/
  logIndex : BitVec 6
  dirty    : Bool
  /-- The view page selection (R184). -/
  page     : Fin 11
  sequence : BitVec 32
  write    : Option StatusWrite
  /-- Report tag 320 + n and the write that holds it (R179). -/
  tags     : Table (Option ReportWrite) 16
deriving DecidableEq, Repr

/-! ## Memory Arbiter (R149) -/

/-- A request on the M-port (R135, R136). -/
structure MRequest where
  kind  : ReqKind
  tag   : Fin 512
  addr  : Addr
  beats : Nat
  data  : List Beat
deriving DecidableEq, Repr

/-- The claimants of R150. -/
inductive Claimant
  | fetchUrgent | pass | fetch | report
deriving DecidableEq, Repr

/-- A request being placed on the M-port, and whose it is (R149). -/
structure Placing where
  claimant : Claimant
  request  : MRequest
deriving DecidableEq, Repr

/-- The Memory Arbiter: the channel is FREE when nothing is being placed. -/
structure Arbiter where
  channel : Option Placing
  age     : Nat
deriving DecidableEq, Repr

/-! ## The state -/

/-- The state of the QP-2. `pending` and `freeDraw` are the model's own fields (DESIGN CHOICE, logs 1 and 5). -/
structure State where
  tc : Classifier
  cd : Decoder
  st : Table Surface 8
  bt : BandTracker
  pq : PresentQueue
  rtm : RasterTimer
  sf : Fetcher
  po : PixelPort
  rw : ReportWriter
  ma : Arbiter
  /-- The commands that wait, first in first out. -/
  pending : List Instr
  /-- How many responses have drawn on the free value. -/
  freeDraw : Nat
deriving DecidableEq, Repr

/-- The lane record after power-on and soft reset (R159). -/
def LaneRecord.zero : LaneRecord := { taken := 0, code := 0, result := .ok }

/-- A surface record after power-on reset (R1). -/
def Surface.powerOn : Surface := { geo := .undefined, state := .free, gen := 0, late := 0 }

/-- The staging copies after power-on reset (R163). -/
def Staging.zero : Staging :=
  { surface := .replicate 8 (.replicate 7 0), timing := .replicate 9 0, fetch := .replicate 6 0,
    notice := .replicate 8 (.replicate 5 0), marker := .replicate 2 0, report := .replicate 3 0 }

/-- Black: the fill colour after power-on reset (R100). -/
def Pixel.black : Pixel := { red := 0, green := 0, blue := 0 }

/-- A notice entry after power-on reset: source 0, not enabled (R186). -/
def NoticeEntry.idle : NoticeEntry := { source := .flag .bandMiss, addr := 0, value := 0, enabled := false }

/-- The machine right after power-on reset (R1, R45, R52, R98, R121, R124, R137, R149, R170, R189), with its
input pins at the levels of log 8 (DESIGN CHOICE): straps 0, LINK_UP low, CRST released. No request waits on the
C-port, for which the spec gives no value (DESIGN CHOICE, log 35), and no soft reset has come before: the SOFT
cause is clear (DESIGN CHOICE, log 37). -/
def State.reset : State :=
  { tc := { cport := .live, crst := false, arrivals := [], forward := [], tags := .replicate 256 {}
            discard := .replicate 256 false, fault := none, returned := none }
    cd := { render := .zero, present := .zero, control := .zero, index := { table := 0, entry := 0, field := 0 }
            staging := .zero, wsel := 0 }
    st := .replicate 8 .powerOn
    bt := { bands := .replicate 8 .cleared, wtt := .replicate 256 none, stall := false }
    pq := { queue := [], count := 0, lastTaken := 0 }
    rtm := { timing := none, pendingSet := none, raster := .off, pos := 0, ended := false, offPending := false
             lc := 0, frameCount := 0, record := none, frame := none, lag := none }
    sf := { inForce := { lead := 8, mode := .fill, fill := .black, ppt := 4 }, waiting := none, sources := []
            buffer := [], reads := .replicate 64 none, prior := none }
    po := { ppt := 4, linkUp := false, level := false, state := .down, routing := .replicate 2 .off
            missed := false, sent := .nothing }
    rw := { base := 0, enable := false, flags := 0, summary := false
            causes := { power := true, link := true, soft := false }, counters := {}
            notices := .replicate 8 .idle, waiting := .replicate 8 none, frames := [], logIndex := 0
            dirty := false, page := 0, sequence := 0, write := none, tags := .replicate 16 none }
    ma := { channel := none, age := 0 }
    pending := [], freeDraw := 0 }

end Sys2Proof.Machine
end

