-- ==== Sys2Proof/Machine/Operands.lean ====
section
/-! DEFINITION. The operand forms: surface numbers, addresses and bands, the fields of a PRESENT, the staged
entries with their ranges and clamps, and the refresh arithmetic of a timing set. -/

namespace Sys2Proof.Machine

/-- The surface an identifier names: none for 8 or more (R161). -/
def surfaceNumber (id : BitVec 8) : Option (Fin 8) :=
  if h : id.toNat < 8 then some ⟨id.toNat, h⟩ else none

/-- An entry number as an index into `n` entries (R166). -/
def entryNumber (n : Nat) (e : BitVec 16) : Option (Fin n) :=
  if h : e.toNat < n then some ⟨e.toNat, h⟩ else none

/-! ## Addresses and bands (R2, R20, R139, R154) -/

/-- Bytes per pixel (R2). -/
def Format.bytes (f : Format) : Nat :=
  match f with
  | .p32 => 4
  | .p64 => 8

/-- The first address past the extent (R2). -/
def Geometry.extentEnd (g : Geometry) : Nat := g.base.toNat + g.pitch * g.height

/-- Does the extent of a defined surface hold the address (R2)? -/
def Geometry.holds (g : Geometry) (a : Addr) : Bool :=
  g.defined && decide (g.base.toNat ≤ a.toNat) && decide (a.toNat < g.extentEnd)

/-- The line of an address inside the extent (R20). -/
def Geometry.lineOf (g : Geometry) (a : Addr) : Nat := (a.toNat - g.base.toNat) / g.pitch

/-- The record of band `b`: band numbers are below 128 (R22). -/
def bandNumber (b : Nat) : Fin 128 := Fin.ofNat 128 b

/-- The band of an address inside the extent (R20). -/
def Geometry.bandOf (g : Geometry) (a : Addr) : Fin 128 := bandNumber (g.lineOf a / g.hb)

/-- The first address of the command page (R154). -/
def commandPage (wsel : BitVec 4) : Nat := Config.commandPageBase + 0x1000 * wsel.toNat

/-- Does an address lie in the command page (R139)? -/
def inCommandPage (wsel : BitVec 4) (a : Nat) : Bool :=
  decide (commandPage wsel ≤ a) && decide (a < commandPage wsel + 0x1000)

/-- Do two byte ranges, each a first address and a size, share a byte (R6, R173)? -/
def overlaps (a m b n : Nat) : Bool := decide (a < b + n) && decide (b < a + m)

/-- Does a burst of this first address and this many beats cross a 4 KiB boundary (R135, R139)? -/
def crosses (a beats : Nat) : Bool := decide (4096 < a % 4096 + 8 * beats)

/-! ## PRESENT (R56, R57, R193) -/

/-- The mode field: bits 1..0 of argument A (R191). None for the value 3 (R56). -/
def presentMode (a : BitVec 16) : Option Mode :=
  match (a.extractLsb' 0 2).toNat with
  | 0 => some .race
  | 1 => some .whole
  | 2 => some .split
  | _ => none

/-- The LATEST flag: bit 8 of argument A (R57). -/
def presentLatest (a : BitVec 16) : Bool := a.getLsbD 8

/-- The admission count and the result of a PRESENT that is taken (R57). -/
def admissionOf (mode : Mode) (b nb : Nat) : Nat × Result :=
  match mode with
  | .race => if b = 0 then (1, .adjusted) else if b ≤ nb then (b, .ok) else (nb, .adjusted)
  | .whole | .split => (nb, .ok)

/-! ## The staged SURFACE entry (R3 to R5, R163, R194) -/

/-- A staged 40-bit address: the high field × 2^32 + the low field (R163). -/
def stagedAddress (low high : BitVec 32) : Nat := high.toNat * 2 ^ 32 + low.toNat

/-- A staged SURFACE entry as numbers. -/
structure StagedSurface where
  base   : Nat
  pitch  : Nat
  width  : Nat
  height : Nat
  format : Nat
  hb     : Nat
deriving DecidableEq, Repr

/-- The fields of a staged SURFACE entry (R194). -/
def stagedSurface (t : Table (BitVec 32) 7) : StagedSurface :=
  { base := stagedAddress (t.get 0) (t.get 1), pitch := (t.get 2).toNat, width := (t.get 3).toNat
    height := (t.get 4).toNat, format := (t.get 5).toNat, hb := (t.get 6).toNat }

/-- The format of a staged format value, 0 or 1 (R163). -/
def formatOf (n : Nat) : Option Format :=
  match n with
  | 0 => some .p32
  | 1 => some .p64
  | _ => none

/-- The range checks of R4 on a staged entry whose format is `f`. -/
def StagedSurface.inRange (g : StagedSurface) (f : Format) : Bool :=
  decide (g.base % 4096 = 0) && decide (320 ≤ g.width) && decide (g.width ≤ 3840) && decide (g.width % 4 = 0) &&
    decide (240 ≤ g.height) && decide (g.height ≤ 2160) && decide (1280 ≤ g.pitch) && decide (g.pitch ≤ 65536) &&
    decide (g.pitch % 256 = 0) && decide (g.width * f.bytes ≤ g.pitch) &&
    (g.hb == 16 || g.hb == 32 || g.hb == 64 || g.hb == 128) &&
    decide (g.base + g.pitch * g.height ≤ Config.addressLimit)

/-- The band height, doubled until the band count is at most 128 (R5). Three doublings reach 128, with which no
height of R4 needs more than 128 bands. -/
def raiseBandHeight (height hb : Nat) : Nat → Nat
  | 0 => hb
  | fuel + 1 => if ceilDiv height hb ≤ Config.maxBands then hb else raiseBandHeight height (2 * hb) fuel

/-- The geometry that a staged entry of format `f` defines, its band height as R5 leaves it (R7). -/
def StagedSurface.geometry (g : StagedSurface) (f : Format) : Geometry :=
  let hb := raiseBandHeight g.height g.hb 3
  { defined := true, base := BitVec.ofNat 40 g.base, pitch := g.pitch, width := g.width, height := g.height
    format := f, hb := hb, nb := ceilDiv g.height hb }

/-! ## The staged TIMING entry and the refresh arithmetic (R75 to R78) -/

/-- `n` brought into `lo` to `hi`, to the nearer end (R76). -/
def clamp (lo hi n : Nat) : Nat := max lo (min hi n)

/-- The checks of R75 on the staged W, H, HT and pixel clock. -/
def timingInRange (t : Table (BitVec 32) 9) : Bool :=
  let w := (t.get 0).toNat
  let h := (t.get 1).toNat
  let ht := (t.get 2).toNat
  let clock := (t.get 3).toNat
  decide (320 ≤ w) && decide (w ≤ 3840) && decide (w % 4 = 0) && decide (240 ≤ h) && decide (h ≤ 2160) &&
    decide (w + 16 ≤ ht) && decide (ht ≤ 8192) && decide (10000 ≤ clock) && decide (clock ≤ 1500000)

/-- The shortest vertical total (R77). -/
def shortestTotal (clock fhi ht : Nat) : Nat := ceilDiv (clock * 100000) (fhi * ht)

/-- The longest vertical total before its limit of 65,535 (R77). -/
def longestTotal (clock flo ht : Nat) : Nat := (clock * 100000) / (flo * ht)

/-- The derived values of a set of clamped fields (R77, R78): F_min by step 4, F_max by step 5, and both by the
bound of step 6. -/
def deriveTiming (w h ht clock s fp fhi flo settle : Nat) : TimingSet :=
  let vtMin := shortestTotal clock fhi ht
  let vtMax := min 65535 (longestTotal clock flo ht)
  let fMin := if (vtMin : Int) - h - s < fp then fp else vtMin - h - s
  let collapsed := decide ((vtMax : Int) - h - s < fMin)
  let fMax := if collapsed then fMin else vtMax - h - s
  let beyond := decide (65535 < h + s + fMin)
  let bound := 65535 - h - s
  { w := w, h := h, ht := ht, clock := clock, s := s, fp := fp, fhi := fhi, flo := flo, settle := settle
    vtMin := vtMin, vtMax := vtMax
    fMin := if beyond then bound else fMin
    fMax := if beyond then bound else fMax
    floorRaised := decide (65535 < longestTotal clock flo ht)
    rangeCollapsed := collapsed || beyond }

/-- The set that a staged TIMING entry installs, and whether a clamp of R76 changed a field. -/
def timingSet (t : Table (BitVec 32) 9) : TimingSet × Bool :=
  let s := (t.get 4).toNat
  let fp := (t.get 5).toNat
  let fhi := (t.get 6).toNat
  let flo := (t.get 7).toNat
  let settle := (t.get 8).toNat
  let fhi' := clamp 2000 50000 fhi
  let flo' := min fhi' (clamp 2000 50000 flo)
  (deriveTiming (t.get 0).toNat (t.get 1).toNat (t.get 2).toNat (t.get 3).toNat
      (clamp 4 255 s) (clamp 1 255 fp) fhi' flo' (clamp 0 4095 settle),
    clamp 4 255 s != s || clamp 1 255 fp != fp || fhi' != fhi || flo' != flo || clamp 0 4095 settle != settle)

/-! ## The staged FETCH entry (R101) -/

/-- The error mode of a staged value, 0 or 1 (R101). -/
def errorModeOf (n : Nat) : Option ErrorMode :=
  match n with
  | 0 => some .fill
  | 1 => some .prior
  | _ => none

/-- The installed pixels per transfer (R101). -/
def clampPpt (n : Nat) : Nat :=
  if n = 0 then 1 else if n = 3 then 2 else if 4 < n then 4 else n

/-- The installed fetch lead: 1 to 16, and at most the S of the set in force, if one is; a pending set takes no part
(R101), also where it comes into force at an entry into OFF that the commit meets, for which R102 says that either order
leaves the same set (DESIGN CHOICE, log 40). -/
def clampLead (timing : Option TimingSet) (n : Nat) : Nat :=
  match timing with
  | none => clamp 1 16 n
  | some t => min t.s (clamp 1 16 n)

/-- The fill colour of the staged channels; none if one exceeds 1023 (R101). -/
def fillOf (r g b : Nat) : Option Pixel :=
  if r ≤ 1023 ∧ g ≤ 1023 ∧ b ≤ 1023 then
    some { red := BitVec.ofNat 10 r, green := BitVec.ofNat 10 g, blue := BitVec.ofNat 10 b }
  else none

/-- The set that a staged FETCH entry installs, and whether a clamp changed a field; none where R101 refuses
it. -/
def fetchSet (timing : Option TimingSet) (t : Table (BitVec 32) 6) : Option (FetchSet × Bool) :=
  let lead := (t.get 0).toNat
  let ppt := (t.get 5).toNat
  match errorModeOf (t.get 1).toNat, fillOf (t.get 2).toNat (t.get 3).toNat (t.get 4).toNat with
  | some mode, some fill =>
    some ({ lead := clampLead timing lead, mode := mode, fill := fill, ppt := clampPpt ppt },
      clampLead timing lead != lead || clampPpt ppt != ppt)
  | _, _ => none

/-! ## The staged NOTICE, MARKER and REPORT entries (R186, R131, R173) -/

/-- The event of a flag number (R175). -/
def eventOf (n : Nat) : Option Event :=
  match n with
  | 0 => some .bandMiss
  | 1 => some .lateWrite
  | 2 => some .writeFault
  | 3 => some .linkProtocol
  | 4 => some .trackStall
  | 5 => some .presentDropped
  | 6 => some .repeated
  | 7 => some .fetchLate
  | 8 => some .fetchError
  | 9 => some .outputChange
  | 10 => some .linkReset
  | 11 => some .misplacedWrite
  | 12 => some .commandRefused
  | 13 => some .settleDone
  | 14 => some .reportFault
  | 15 => some .fillFrame
  | _ => none

/-- The source of a staged source number, 0 to 18 (R186). -/
def sourceOf (n : Nat) : Option Source :=
  match n with
  | 16 => some .frameStart
  | 17 => some .frameEnd
  | 18 => some .presentTaken
  | n => (eventOf n).map .flag

/-- A staged flag field: 0 no, 1 yes (R194). -/
def flagOf (n : Nat) : Option Bool :=
  match n with
  | 0 => some false
  | 1 => some true
  | _ => none

/-- The notice entry that a staged NOTICE entry installs; none where R186 refuses it. -/
def noticeEntry (t : Table (BitVec 32) 5) : Option NoticeEntry :=
  let addr := stagedAddress (t.get 1) (t.get 2)
  match sourceOf (t.get 0).toNat, flagOf (t.get 4).toNat with
  | some source, some enabled =>
    if addr % 4 = 0 ∧ addr < Config.addressLimit then
      some { source := source, addr := BitVec.ofNat 40 addr, value := t.get 3, enabled := enabled }
    else none
  | _, _ => none

/-- The marker function of a staged code, 0 to 6 (R131). -/
def markerOf (n : Nat) : Option MarkerFn :=
  match n with
  | 0 => some .off
  | 1 => some .frameStart
  | 2 => some .active
  | 3 => some .stretch
  | 4 => some .bandMiss
  | 5 => some .repeated
  | 6 => some .summary
  | _ => none

/-! ## LC as an event sees it (R80, log 33) -/

/-- Does the boundary that ends the current line begin another (R80)? In OFF there is no line, and the boundary that
ends the last active line enters OFF where an OUTPUT_OFF is pending (R91). -/
def RasterTimer.begins (r : RasterTimer) : Bool :=
  match r.raster with
  | .off => false
  | .active => !(r.offPending && r.timing.any fun t => decide (t.h ≤ r.pos + 1))
  | .settle | .frontMin | .stretch | .backBlank => true

/-- LC as an event sees it, and as a stamp or a snapshot takes it: that of the current line, or, once that line has
ended, that of the line its boundary begins (R25, R55, R80, section 11.2; DESIGN CHOICE, log 33). -/
def RasterTimer.now (r : RasterTimer) : Line := if r.ended && r.begins then r.lc + 1 else r.lc

/-- The current line, if there is one, ends (DESIGN CHOICE, log 33). -/
def RasterTimer.endLine (r : RasterTimer) : RasterTimer :=
  match r.raster with
  | .off => r
  | .settle | .frontMin | .stretch | .backBlank | .active => { r with ended := true }

end Sys2Proof.Machine
end

