-- ==== Sys2Proof/Machine/Format.lean ====
section
/-! DEFINITION. The bytes of the records the Report Writer writes: the status record, the frame records, the
view pages and the notices (R180, R184, R185, R196). -/

namespace Sys2Proof.Machine

/-- `v` as `n` bytes, least significant first (10_word_and_record_formats.md). -/
def bytesLE : Nat → Nat → List Byte
  | 0, _ => []
  | n + 1, v => BitVec.ofNat 8 v :: bytesLE n (v / 256)

/-- `n` reserved bytes (R196). -/
def zeros (n : Nat) : List Byte := List.replicate n 0

/-- A bit field byte from its bits, bit 0 first. The bits above those given are 0: R196 says so of the bits that a layout
marks reserved, and of the bits that it neither names nor marks it is the model's choice (DESIGN CHOICE, log 38). -/
def bitsByte (bits : List Bool) : Nat := bits.foldr (fun b n => b.toNat + 2 * n) 0

/-- Eight bytes as the data of a beat, byte k in bits 8k + 7..8k (10_word_and_record_formats.md). -/
def packWord (bytes : List Byte) : BitVec 64 :=
  BitVec.ofNat 64 (bytes.foldr (fun b n => b.toNat + 256 * n) 0)

/-- Bytes as `k` whole beats, all enables set. -/
def packBeats : Nat → List Byte → List Beat
  | 0, _ => []
  | k + 1, bytes => { data := packWord (bytes.take 8), enables := BitVec.allOnes 8 } :: packBeats k (bytes.drop 8)

/-! ## Codes (R196, R160, R131) -/

def SurfState.code (s : SurfState) : Nat :=
  match s with
  | .free => 0 | .rendering => 1 | .queued => 2 | .scanning => 3 | .held => 4

def Raster.code (r : Raster) : Nat :=
  match r with
  | .off => 0 | .settle => 1 | .frontMin => 2 | .stretch => 3 | .backBlank => 4 | .active => 5

def Release.code (r : Release) : Nat :=
  match r with
  | .opened => 0 | .draining => 1 | .ready => 2

def Scan.code (s : Scan) : Nat :=
  match s with
  | .unscanned => 0 | .scanned => 1 | .missed => 2

def FrameKind.code (k : FrameKind) : Nat :=
  match k with
  | .new => 0 | .repeated => 1 | .fill => 2

def Mode.code (m : Mode) : Nat :=
  match m with
  | .race => 0 | .whole => 1 | .split => 2

def PortState.code (p : PortState) : Nat :=
  match p with
  | .down => 0 | .waiting => 1 | .sending => 2

def CPort.code (c : CPort) : Nat :=
  match c with
  | .live => 0 | .inReset => 1

def FaultCause.code (c : FaultCause) : Nat :=
  match c with
  | .crossing => 1 | .tagReuse => 2 | .trackReuse => 3 | .noRequest => 4 | .fetchTag => 5 | .reportRead => 6
  | .unusedTag => 7 | .reportTag => 8

/-- The result codes of R160. -/
def Result.code (r : Result) : Nat :=
  match r with
  | .ok => 0 | .adjusted => 1 | .busy => 2 | .badSurface => 3 | .badState => 4 | .duplicate => 5 | .queueFull => 6
  | .range => 7 | .sizeMismatch => 8 | .overlap => 9 | .unknown => 10 | .wrongLane => 11

/-- The function codes of R131. -/
def MarkerFn.code (m : MarkerFn) : Nat :=
  match m with
  | .off => 0 | .frameStart => 1 | .active => 2 | .stretch => 3 | .bandMiss => 4 | .repeated => 5 | .summary => 6

def ErrorMode.code (m : ErrorMode) : Nat :=
  match m with
  | .fill => 0 | .prior => 1

/-! ## The status record (R180, R196) -/

/-- A lane record, 4 bytes. -/
def laneBytes (l : LaneRecord) : List Byte :=
  bytesLE 2 l.taken.toNat ++ [l.code] ++ bytesLE 1 l.result.code

/-- A surface of the status record, 8 bytes. -/
def surfaceBytes (s : Surface) : List Byte :=
  bytesLE 1 s.geo.defined.toNat ++ bytesLE 1 s.state.code ++ [s.gen] ++ bytesLE 1 s.geo.nb ++ bytesLE 2 s.late ++
    zeros 2

/-- Bytes 0x00 to 0x33: the Report Writer's part and WSEL. -/
def reportBytes (r : ReportWriter) (wsel : BitVec 4) (sequence : BitVec 32) : List Byte :=
  bytesLE 4 sequence.toNat ++ bytesLE 2 r.flags.toNat ++
  bytesLE 1 (bitsByte [r.summary, r.causes.power, r.causes.link, r.causes.soft]) ++ bytesLE 1 r.page.val ++
  bytesLE 4 r.counters.bandMisses ++ bytesLE 4 r.counters.repeats ++ bytesLE 4 r.counters.fillFrames ++
  bytesLE 4 r.counters.lateWrites ++ bytesLE 4 r.counters.drops ++ bytesLE 4 r.counters.fetchLate ++
  bytesLE 4 r.counters.fetchErrors ++ bytesLE 4 r.counters.trackStalls ++
  bytesLE 8 r.base.toNat ++ bytesLE 1 r.enable.toNat ++ bytesLE 1 wsel.toNat ++ zeros 2

/-- Bytes 0x34 to 0x43: the lane records and the table index. -/
def decoderBytes (d : Decoder) : List Byte :=
  laneBytes d.render ++ laneBytes d.present ++ laneBytes d.control ++
  [d.index.field, d.index.entry, d.index.table] ++ zeros 1

/-- Bytes 0x44 to 0x53: the queue and the raster. Bits 7..3 of byte 0x4B are 0 (DESIGN CHOICE, log 38). -/
def rasterBytes (q : PresentQueue) (r : RasterTimer) : List Byte :=
  bytesLE 1 q.queue.length ++ zeros 1 ++ bytesLE 2 q.count.toNat ++ bytesLE 2 q.lastTaken.toNat ++
  bytesLE 1 r.raster.code ++ bytesLE 1 (bitsByte [r.timing.isSome, r.pendingSet.isSome, r.offPending]) ++
  bytesLE 4 r.now.toNat ++ bytesLE 4 r.frameCount.toNat

/-- Bytes 0x54 to 0x5B: the fetcher and the port. -/
def outputBytes (f : Fetcher) (p : PixelPort) : List Byte :=
  bytesLE 1 f.inForce.lead ++ bytesLE 1 f.inForce.mode.code ++ bytesLE 1 f.inForce.ppt ++
  bytesLE 1 f.waiting.isSome.toNat ++ bytesLE 1 p.level.toNat ++ bytesLE 1 p.state.code ++
  bytesLE 1 (p.routing.get 0).code ++ bytesLE 1 (p.routing.get 1).code

/-- Bytes 0x5C to 0x7F: the traffic path. -/
def trafficBytes (t : Classifier) : List Byte :=
  bytesLE 1 t.cport.code ++ bytesLE 1 t.forward.length ++ bytesLE 2 (t.discard.count id) ++
  (match t.fault with
    | none => zeros 4
    | some f => bytesLE 1 f.cause.code ++ zeros 1 ++ bytesLE 2 f.tag) ++ zeros 28

/-- The 256 bytes of the status record of a state, with the sequence of its snapshot (R180, R196). -/
def statusRecord (s : State) (sequence : BitVec 32) : List Byte :=
  reportBytes s.rw s.cd.wsel sequence ++ decoderBytes s.cd ++ rasterBytes s.pq s.rtm ++ outputBytes s.sf s.po ++
  trafficBytes s.tc ++ (s.st.list.map surfaceBytes).flatten ++ zeros 64

/-! ## The frame record (R185, R196) -/

/-- The 64 bytes of a frame record. -/
def frameBytes (f : FrameRecord) : List Byte :=
  let r := f.body
  bytesLE 4 f.number.toNat ++ bytesLE 1 (r.kind.elim 0 FrameKind.code) ++
  bytesLE 1 (bitsByte [r.skipped, r.cut, r.source.isSome, r.split.isSome, r.lag.isSome, r.firstMissed.isSome,
    r.leastMargin.isSome]) ++
  bytesLE 1 (r.source.elim 0 Fin.val) ++ bytesLE 1 (r.split.elim 0 fun p => p.1.val) ++
  bytesLE 1 (r.split.elim 0 Prod.snd) ++ bytesLE 1 (r.firstMissed.getD 0) ++ bytesLE 2 r.front ++
  bytesLE 2 (r.lag.getD 0) ++ bytesLE 2 r.misses ++ bytesLE 2 (r.leastMargin.getD 0) ++ bytesLE 2 r.late ++
  bytesLE 2 r.fetchLate ++ bytesLE 2 r.fetchError ++ bytesLE 2 r.dropped ++ zeros 2 ++
  bytesLE 4 r.activeLine.toNat ++ zeros 32

/-! ## The view pages (R50, R51, R73, R99, R184, R196) -/

/-- A band-record entry, 16 bytes (R50). Bits 7..2 of byte 0x7 are 0 (DESIGN CHOICE, log 38). -/
def bandBytes (sequence : BitVec 32) (number : Nat) (b : Band) : List Byte :=
  bytesLE 4 sequence.toNat ++ bytesLE 1 b.status.code ++ bytesLE 1 b.pending ++ bytesLE 1 b.scan.code ++
  bytesLE 1 (bitsByte [b.fault, b.stamp.isSome]) ++ bytesLE 4 (b.stamp.elim 0 BitVec.toNat) ++ bytesLE 1 number ++
  zeros 3

/-- A Write Tracking Table position that holds an entry, 16 bytes (R51). -/
def trackedBytes (sequence : BitVec 32) (tag : Nat) (t : Tracked) : List Byte :=
  bytesLE 4 sequence.toNat ++ bytesLE 1 1 ++ bytesLE 1 t.surface.val ++ [t.gen] ++ bytesLE 1 t.band.val ++
  bytesLE 2 tag ++ zeros 6

/-- An empty position of `n` bytes: the sequence alone (R196). -/
def emptyPosition (n : Nat) (sequence : BitVec 32) : List Byte := bytesLE 4 sequence.toNat ++ zeros (n - 4)

/-- A queue position that holds an entry, 32 bytes (R73). -/
def entryBytes (sequence : BitVec 32) (position : Nat) (e : Entry) : List Byte :=
  bytesLE 4 sequence.toNat ++ bytesLE 1 1 ++ bytesLE 1 e.surface.val ++ bytesLE 1 e.mode.code ++
  bytesLE 1 e.latest.toNat ++ bytesLE 1 e.admission ++ bytesLE 1 position ++ bytesLE 2 e.number.toNat ++
  bytesLE 4 e.arrival.toNat ++ zeros 16

/-- A timing block, 64 bytes (R99). Bits 7..3 of byte 0x04 are 0 (DESIGN CHOICE, log 38). -/
def timingBytes (sequence : BitVec 32) (set : Option TimingSet) : List Byte :=
  match set with
  | none => emptyPosition 64 sequence
  | some t =>
    bytesLE 4 sequence.toNat ++ bytesLE 1 (bitsByte [true, t.floorRaised, t.rangeCollapsed]) ++ bytesLE 1 t.s ++
    bytesLE 1 t.fp ++ zeros 1 ++ bytesLE 2 t.w ++ bytesLE 2 t.h ++ bytesLE 2 t.ht ++ bytesLE 2 t.settle ++
    bytesLE 4 t.clock ++ bytesLE 2 t.fhi ++ bytesLE 2 t.flo ++ bytesLE 4 t.vtMin ++ bytesLE 4 t.vtMax ++
    bytesLE 2 t.fMin ++ bytesLE 2 t.fMax ++ zeros 28

/-- The occupied positions of the Write Tracking Table page, in ascending order of tag (R51). -/
def wttPositions (sequence : BitVec 32) (wtt : Table (Option Tracked) 256) : List (List Byte) :=
  wtt.list.zipIdx.filterMap fun p => p.1.map (trackedBytes sequence p.2)

/-- The first `n` of the positions, and empty positions of `size` bytes up to `n` (R51, R73). -/
def positions (n size : Nat) (sequence : BitVec 32) (occupied : List (List Byte)) : List Byte :=
  ((occupied ++ List.replicate n (emptyPosition size sequence)).take n).flatten

/-- The 2 KiB of a view page of a state (R184). -/
def viewPage (s : State) (sequence : BitVec 32) : List Byte :=
  let page := s.rw.page.val
  if h : page < 8 then
    ((s.bt.bands.get ⟨page, h⟩).list.zipIdx.map fun p => bandBytes sequence p.2 p.1).flatten
  else if page = 8 then
    positions 64 16 sequence (wttPositions sequence s.bt.wtt) ++ zeros 1024
  else if page = 9 then
    positions 4 32 sequence (s.pq.queue.zipIdx.map fun p => entryBytes sequence (p.2 + 1) p.1) ++ zeros 1920
  else
    timingBytes sequence s.rtm.timing ++ timingBytes sequence s.rtm.pendingSet ++ zeros 1920

/-! ## A notice write (R188, R196) -/

/-- The one beat of a notice: the four bytes from its address, the other four 0 and not enabled. -/
def noticeBeat (addr : Addr) (value : BitVec 32) : Beat :=
  if addr.toNat % 8 = 4 then { data := value ++ (0 : BitVec 32), enables := 0xF0 }
  else { data := (0 : BitVec 32) ++ value, enables := 0x0F }

/-- The 8-byte word that holds an address (R188). -/
def wordAddress (addr : Addr) : Addr := BitVec.ofNat 40 (addr.toNat / 8 * 8)

end Sys2Proof.Machine
end

