-- ==== Sys2Proof/Machine/Flags.lean ====
section
/-! DEFINITION. The event flags, their summary, the counters, the reset causes, dirtiness and the notices that
an event gives rise to (R175 to R178, R181, R186, R187). -/

namespace Sys2Proof.Machine

/-- The number of an event's flag (R175). -/
def Event.number (e : Event) : Nat :=
  match e with
  | .bandMiss => 0
  | .lateWrite => 1
  | .writeFault => 2
  | .linkProtocol => 3
  | .trackStall => 4
  | .presentDropped => 5
  | .repeated => 6
  | .fetchLate => 7
  | .fetchError => 8
  | .outputChange => 9
  | .linkReset => 10
  | .misplacedWrite => 11
  | .commandRefused => 12
  | .settleDone => 13
  | .reportFault => 14
  | .fillFrame => 15

/-- The flag of an event, as a bit of the sixteen (R175). -/
def Event.bit (e : Event) : BitVec 16 := BitVec.twoPow 16 e.number

/-- The most a counter of the status record holds (R178). -/
def counterTop : Nat := 4294967295

/-- The counter of an event rises at each occurrence; the other events have none (R175, R178). -/
def Counters.count (c : Counters) (e : Event) : Counters :=
  match e with
  | .bandMiss => { c with bandMisses := satInc counterTop c.bandMisses }
  | .repeated => { c with repeats := satInc counterTop c.repeats }
  | .fillFrame => { c with fillFrames := satInc counterTop c.fillFrames }
  | .lateWrite => { c with lateWrites := satInc counterTop c.lateWrites }
  | .presentDropped => { c with drops := satInc counterTop c.drops }
  | .fetchLate => { c with fetchLate := satInc counterTop c.fetchLate }
  | .fetchError => { c with fetchErrors := satInc counterTop c.fetchErrors }
  | .trackStall => { c with trackStalls := satInc counterTop c.trackStalls }
  | .writeFault | .linkProtocol | .outputChange | .linkReset | .misplacedWrite | .commandRefused | .settleDone
  | .reportFault => c

/-- The status record is marked dirty (R181). -/
def ReportWriter.mark (r : ReportWriter) : ReportWriter := { r with dirty := true }

/-- The waiting notice of one entry after an occurrence of a source: an enabled entry of that source without a
waiting notice gains one; a waiting notice keeps its condition (R187). -/
def gainNotice (src : Source) (cond : Condition) (entry : NoticeEntry) (waiting : Option Condition) :
    Option Condition :=
  match waiting with
  | some c => some c
  | none => if entry.enabled && entry.source == src then some cond else none

/-- An occurrence of a notice source, its notices with the given release condition (R187). -/
def ReportWriter.occur (r : ReportWriter) (src : Source) (cond : Condition) : ReportWriter :=
  { r with waiting := Table.zipWith (gainNotice src cond) r.notices r.waiting }

/-- The release condition of the notice of an event flag: the first status write whose snapshot follows, or none
while the report area is disabled (R187). -/
def ReportWriter.flagCondition (r : ReportWriter) : Condition := if r.enable then .nextWrite else .released

/-- An event sets its flag and with it the summary, and reaches its counter (R175, R176, R178). -/
def ReportWriter.flag (r : ReportWriter) (e : Event) : ReportWriter :=
  { r with flags := r.flags ||| e.bit, summary := true, counters := r.counters.count e }

/-- An event that also reaches its notices, but does not mark the record dirty: the REPORT_FAULT of a status
write (R183). -/
def ReportWriter.raiseQuietly (r : ReportWriter) (e : Event) : ReportWriter :=
  (r.flag e).occur (.flag e) r.flagCondition

/-- An event: its flag, the summary, its counter, its notices, and dirtiness (R175, R181, R187). -/
def ReportWriter.raise (r : ReportWriter) (e : Event) : ReportWriter := (r.raiseQuietly e).mark

/-- The flags of the mask are cleared; the summary clears by itself with the last of them (R176). -/
def ReportWriter.clearFlags (r : ReportWriter) (mask : BitVec 16) : ReportWriter :=
  { r with flags := r.flags &&& ~~~mask, summary := decide (r.flags &&& ~~~mask ≠ 0) }

/-- An event of the state. -/
def State.raise (s : State) (e : Event) : State := { s with rw := s.rw.raise e }

/-- The status record of the state is marked dirty. -/
def State.mark (s : State) : State := { s with rw := s.rw.mark }

/-- LINK_PROTOCOL, with its cause and tag as the last link fault (R143, R153). -/
def State.linkProtocol (s : State) (cause : FaultCause) (tag : Nat) : State :=
  { s.raise .linkProtocol with tc := { s.tc with fault := some { cause := cause, tag := tag } } }

/-- The FRAME_START and PRESENT_TAKEN sources: notices released at once, no flag, no dirtiness (R187). -/
def State.signal (s : State) (src : Source) : State := { s with rw := s.rw.occur src .released }

end Sys2Proof.Machine
end

