-- ==== Sys2Proof/Machine/Pixels.lean ====
section
/-! DEFINITION. Pixels in memory and on the port: the bursts of a line, the conversion of a burst's data, the
replacement of what did not arrive, and the transfers of a line (R108, R112, R115, R116, R118, R119, R125, R195). -/

namespace Sys2Proof.Machine

/-- The bytes of a burst that is not the last of its line (R108). -/
def burstBytes : Nat := 256

/-- Pixels per full burst: 64 for P32, 32 for P64 (R108). -/
def Format.burstPixels (f : Format) : Nat := burstBytes / f.bytes

/-- The number of bursts of a line of `w` pixels (R108). -/
def burstCount (f : Format) (w : Nat) : Nat := ceilDiv (w * f.bytes) burstBytes

/-- The pixels of burst `i` of a line of `w` pixels (R108). -/
def burstLength (f : Format) (w i : Nat) : Nat := min f.burstPixels (w - f.burstPixels * i)

/-- The address of burst `i` of line `l` of a source (R108). -/
def SurfaceSource.burstAddr (s : SurfaceSource) (l i : Nat) : Addr :=
  BitVec.ofNat 40 (s.base.toNat + l * s.pitch + burstBytes * i)

/-! ## Half precision (R119) -/

/-- `n / d` rounded to the nearest whole number, an exact half to the even neighbour (R119). -/
def roundHalfEven (n d : Nat) : Nat :=
  let q := n / d
  let r := n % d
  if d < 2 * r ∨ (2 * r = d ∧ q % 2 = 1) then q + 1 else q

/-- A non-negative finite half-precision value in units of 2^(−24), from its exponent and fraction fields. -/
def halfUnits (exponent fraction : Nat) : Nat :=
  if exponent = 0 then fraction else (1024 + fraction) * 2 ^ (exponent - 1)

/-- The 10-bit channel of a half-precision value (R119): NaN and every negative value give 0, 1.0 and more give
1023, and the rest v × 1023 rounded. -/
def halfChannel (h : BitVec 16) : BitVec 10 :=
  let exponent := (h.extractLsb' 10 5).toNat
  let fraction := (h.extractLsb' 0 10).toNat
  if exponent = 31 ∧ fraction ≠ 0 then 0
  else if h.getLsbD 15 then 0
  else if exponent = 31 ∨ 2 ^ 24 ≤ halfUnits exponent fraction then 1023
  else BitVec.ofNat 10 (roundHalfEven (halfUnits exponent fraction * 1023) (2 ^ 24))

/-- A P32 pixel: three channels, bits 31..30 unused (R118, R195). -/
def pixelP32 (v : BitVec 32) : Pixel :=
  { red := v.extractLsb' 0 10, green := v.extractLsb' 10 10, blue := v.extractLsb' 20 10 }

/-- A P64 pixel: three half-precision values, bits 63..48 unused (R119, R195). -/
def pixelP64 (v : BitVec 64) : Pixel :=
  { red := halfChannel (v.extractLsb' 0 16), green := halfChannel (v.extractLsb' 16 16)
    blue := halfChannel (v.extractLsb' 32 16) }

/-- Beat `i` of a response's data. An absent beat is a free value (DESIGN CHOICE, log 5). -/
def dataBeat (draw : Nat) (data : List (BitVec 64)) (i : Nat) : BitVec 64 :=
  match data[i]? with
  | some v => v
  | none => Config.absentBeat draw i

/-- Pixel `i` of a burst's data (R195): two P32 pixels to a beat, the first in its low half; one P64 pixel. -/
def dataPixel (f : Format) (draw : Nat) (data : List (BitVec 64)) (i : Nat) : Pixel :=
  match f with
  | .p32 => pixelP32 ((dataBeat draw data (i / 2)).extractLsb' (32 * (i % 2)) 32)
  | .p64 => pixelP64 (dataBeat draw data i)

/-- The `count` pixels of a burst's data, converted (R112). -/
def burstPixels (f : Format) (draw : Nat) (data : List (BitVec 64)) (count : Nat) : List Pixel :=
  (List.range count).map (dataPixel f draw data)

/-- The beats of a burst of `count` pixels. -/
def burstBeats (f : Format) (count : Nat) : Nat := count * f.bytes / 8

/-! ## The line at its deadline (R115, R116) -/

/-- Is a burst that stands so at the deadline late (R115)? -/
def Burst.late (b : Burst) : Bool :=
  match b with
  | .notIssued | .inFlight => true
  | .returned _ | .failed => false

/-- Is a burst settled for the completeness of its slot (R109)? -/
def Burst.settled (b : Burst) : Bool :=
  match b with
  | .returned _ | .failed => true
  | .notIssued | .inFlight => false

/-- Is a slot complete (R109)? -/
def Slot.complete (slot : Slot) : Bool :=
  match slot.source with
  | .fill => true
  | .surface _ => slot.bursts.all Burst.settled

/-- The replacement of `count` pixels from position `start` (R116). -/
def replacement (set : FetchSet) (prior : Option (List Pixel)) (start count : Nat) : List Pixel :=
  match set.mode, prior with
  | .prior, some line => (line.drop start).take count
  | .prior, none => List.replicate count set.fill
  | .fill, _ => List.replicate count set.fill

/-- The pixels that burst `i` gives to its line at the deadline (R115, R116). -/
def burstAtDeadline (set : FetchSet) (prior : Option (List Pixel)) (f : Format) (w i : Nat) (b : Burst) :
    List Pixel :=
  match b with
  | .returned pixels => pixels
  | .notIssued | .inFlight | .failed => replacement set prior (f.burstPixels * i) (burstLength f w i)

/-- The W pixels of a line at its deadline (R115, R116). -/
def lineAtDeadline (set : FetchSet) (prior : Option (List Pixel)) (w : Nat) (slot : Slot) : List Pixel :=
  match slot.source with
  | .fill => List.replicate w set.fill
  | .surface src =>
    (slot.bursts.zipIdx.map fun p => burstAtDeadline set prior src.format w p.2 p.1).flatten

/-! ## Transfers (R125) -/

/-- `k` runs of `n` pixels each. -/
def runs (n : Nat) : Nat → List Pixel → List (List Pixel)
  | 0, _ => []
  | k + 1, line => line.take n :: runs n k (line.drop n)

/-- The transfers of active line `j`: the first transfer of line 0 carries the frame-start marker (R125). -/
def lineTransfers (ppt j : Nat) (line : List Pixel) : List Transfer :=
  (runs ppt (line.length / ppt) line).zipIdx.map fun p =>
    { pixels := p.1, frameStart := decide (j = 0) && decide (p.2 = 0) }

end Sys2Proof.Machine
end

