-- ==== Sys2Proof/Machine/Ops.lean ====
section
/-! DEFINITION. The operations that several commands share: lane results, surface states, band records, the
working record, the beginning of a line, and what comes into force at a boundary or at the entry into OFF. -/

namespace Sys2Proof.Machine

/-! ## Results (R159, R160) -/

/-- Is this result a refusal: BUSY or any code after it (R160)? -/
def Result.refusal (r : Result) : Bool :=
  match r with
  | .ok | .adjusted => false
  | .busy | .badSurface | .badState | .duplicate | .queueFull | .range | .sizeMismatch | .overlap | .unknown
  | .wrongLane => true

/-- A command decoded on a lane: its taken count rises, and it keeps the code and the result (R159). -/
def LaneRecord.record (l : LaneRecord) (code : BitVec 8) (r : Result) : LaneRecord :=
  { taken := l.taken + 1, code := code, result := r }

/-- The lane records after a command on a lane (R159). -/
def Decoder.record (d : Decoder) (lane : Lane) (code : BitVec 8) (r : Result) : Decoder :=
  match lane with
  | .render => { d with render := d.render.record code r }
  | .present => { d with present := d.present.record code r }
  | .control => { d with control := d.control.record code r }

/-- A command's result: the lane record, COMMAND_REFUSED for a refusal, and dirtiness (R159, R160, R181). -/
def State.result (s : State) (lane : Lane) (code : BitVec 8) (r : Result) : State :=
  let s := { s with cd := s.cd.record lane code r }
  if r.refusal then s.raise .commandRefused else s.mark

/-! ## Surfaces (R8, R9, R13, R19) -/

/-- The lowest-numbered surface in a state. -/
def State.inState (s : State) (x : SurfState) : Option (Fin 8) := s.st.find fun f => f.state == x

/-- The SCANNING surface, if one is (R8). -/
def State.scanning (s : State) : Option (Fin 8) := s.inState .scanning

/-- The HELD surface, if one is (R8). -/
def State.held (s : State) : Option (Fin 8) := s.inState .held

/-- A change of a surface's state, which marks the status record dirty (R19). -/
def State.setSurface (s : State) (i : Fin 8) (x : SurfState) : State :=
  { s with st := s.st.modify i fun f => { f with state := x }, rw := s.rw.mark }

/-- The band records of a surface take the cleared form (R9). -/
def State.clearBands (s : State) (i : Fin 8) : State :=
  { s with bt := { s.bt with bands := s.bt.bands.set i .cleared } }

/-- A surface enters FREE, with its band records cleared in the same change (R9). -/
def State.freeSurface (s : State) (i : Fin 8) : State := (s.setSurface i .free).clearBands i

/-- The queue without the entry of a surface; the entries behind it move up (R52). -/
def PresentQueue.remove (q : PresentQueue) (i : Fin 8) : PresentQueue :=
  { q with queue := q.queue.filter fun e => decide (e.surface ≠ i) }

/-! ## Band records (R36, R40, R41, R42) -/

/-- A release of a band at `lc` (R36). -/
def Band.release (lc : Line) (b : Band) : Band :=
  match b.status with
  | .opened =>
    if b.pending = 0 then { b with status := .ready, stamp := some lc } else { b with status := .draining }
  | .draining | .ready => b

/-- The credit of an acknowledgement at `lc` (R40); one with ERROR status sets the fault (R41). -/
def Band.credit (lc : Line) (error : Bool) (b : Band) : Band :=
  let b := { b with pending := b.pending - 1, fault := b.fault || error }
  if b.status = .draining ∧ b.pending = 0 then { b with status := .ready, stamp := some lc } else b

/-- A link reset closes the band's drain at `lc` (R42). -/
def Band.closeDrain (lc : Line) (b : Band) : Band :=
  match b.status with
  | .draining => { b with pending := 0, status := .ready, stamp := some lc, fault := true }
  | .opened | .ready => { b with pending := 0 }

/-- One band record changed. -/
def BandTracker.modifyBand (t : BandTracker) (i : Fin 8) (b : Fin 128) (f : Band → Band) : BandTracker :=
  { t with bands := t.bands.modify i fun r => r.modify b f }

/-- One band record. -/
def BandTracker.band (t : BandTracker) (i : Fin 8) (b : Fin 128) : Band := (t.bands.get i).get b

/-! ## The working record (R94) -/

/-- A count of the working record, 16 bits and saturating (R94). -/
def count16 (n : Nat) : Nat := satInc 65535 n

/-- A change of the working record, if there is one (R94). -/
def State.onRecord (s : State) (f : WorkingRecord → WorkingRecord) : State :=
  { s with rtm := { s.rtm with record := s.rtm.record.map f } }

/-! ## The beginning of a line (R80, R126, R128) -/

/-- A boundary at which line `pos` of a raster state begins: LC counts it (R80), and a BAND_MISS level of the
line before falls (R133). -/
def State.boundary (s : State) (raster : Raster) (pos : Nat) : State :=
  { s with rtm := { s.rtm with raster := raster, pos := pos, ended := false, lc := s.rtm.lc + 1 }
           po := { s.po with missed := false } }

/-- The port at the boundary of a blank line: at a resume point a waiting port starts to send (R126, R128). -/
def PixelPort.blankLine (p : PixelPort) (kind : Token) : PixelPort :=
  match p.state with
  | .down => { p with sent := .nothing }
  | .waiting =>
    match kind with
    | .settle | .front | .stretch => { p with state := .sending, sent := .token kind }
    | .back => { p with sent := .nothing }
  | .sending => { p with sent := .token kind }

/-- The port at the boundary of active line `j` (R125, R128). -/
def PixelPort.activeLine (p : PixelPort) (j : Nat) (line : List Pixel) : PixelPort :=
  match p.state with
  | .sending => { p with sent := .active (lineTransfers p.ppt j line) }
  | .down | .waiting => { p with sent := .nothing }

/-- The port's part of a blank line. -/
def State.sendBlank (s : State) (kind : Token) : State := { s with po := s.po.blankLine kind }

/-- FRONT_MIN is entered: its first line begins and a new working record is opened (R81, R83). -/
def State.enterFrontMin (s : State) : State :=
  let s := (s.boundary .frontMin 0).sendBlank .front
  { s with rtm := { s.rtm with record := some .empty } }

/-- SETTLE is entered under a set. With a settle of 0 it lasts no lines: SETTLE_DONE is raised and FRONT_MIN
begins at once (R82). -/
def State.enterSettle (s : State) (t : TimingSet) : State :=
  if t.settle = 0 then (s.raise .settleDone).enterFrontMin else (s.boundary .settle 0).sendBlank .settle

/-! ## Settings that come into force (R92, R102, R103) -/

/-- The fetch lead is reduced to the smaller of 16 and S (R92, R103). -/
def FetchSet.limit (f : FetchSet) (t : TimingSet) : FetchSet := { f with lead := min f.lead (min 16 t.s) }

/-- A fetch set comes into force: its lead is reduced to the S of the set in force, and the port takes its pixels
per transfer (R102, R103, R127). -/
def State.fetchInForce (s : State) (f : FetchSet) : State :=
  let f := match s.rtm.timing with
    | some t => f.limit t
    | none => f
  { s with sf := { s.sf with inForce := f, waiting := none }, po := { s.po with ppt := f.ppt } }

/-- The waiting fetch set, if there is one, comes into force (R102). -/
def State.waitingInForce (s : State) : State :=
  match s.sf.waiting with
  | some f => s.fetchInForce f
  | none => s

/-- Has a surface the width and height of a timing set (R16, R59)? -/
def Geometry.fits (g : Geometry) (t : TimingSet) : Bool := g.width == t.w && g.height == t.h

/-- Does the entry's surface fit the set? -/
def State.entryFits (s : State) (t : TimingSet) (e : Entry) : Bool := (s.st.get e.surface).geo.fits t

/-- A queue entry's surface is freed and the drop raised: the entry itself has left the queue (R67, R70). -/
def State.dropSurface (s : State) (e : Entry) : State := (s.freeSurface e.surface).raise .presentDropped

/-- The HELD surface is freed unless it fits the set (R16). -/
def State.freeHeldMisfit (s : State) (t : TimingSet) : State :=
  match s.held with
  | some i => if (s.st.get i).geo.fits t then s else s.freeSurface i
  | none => s

/-- The queue entries that do not fit the set are dropped; no frame's dropped count changes (R70). -/
def State.dropMisfits (s : State) (t : TimingSet) : State :=
  let kept := { s with pq := { s.pq with queue := s.pq.queue.filter (s.entryFits t) } }
  (s.pq.queue.filter fun e => !s.entryFits t e).foldl State.dropSurface kept

/-- A timing set comes into force (R92): no set is then pending, surfaces and entries of another size go, and
the fetch leads are reduced. -/
def State.timingInForce (s : State) (t : TimingSet) : State :=
  let s := { s with rtm := { s.rtm with timing := some t, pendingSet := none }
                    sf := { s.sf with inForce := s.sf.inForce.limit t, waiting := s.sf.waiting.map fun f : FetchSet => f.limit t } }
  (s.freeHeldMisfit t).dropMisfits t

/-- The pending timing set, if there is one, comes into force (R92). -/
def State.pendingInForce (s : State) : State :=
  match s.rtm.pendingSet with
  | some t => s.timingInForce t
  | none => s

/-- The raster enters OFF: no line begins, an open working record is discarded (R81), a pending timing set and a
waiting fetch set come into force (R92, R122), and the port sends nothing (R126). -/
def State.enterOff (s : State) : State :=
  let s := { s with rtm := { s.rtm with raster := .off, pos := 0, ended := false, offPending := false
                                        record := none, frame := none, lag := none }
                    po := { s.po with sent := .nothing, missed := false } }
  s.pendingInForce.waitingInForce

end Sys2Proof.Machine
end

