-- ==== Sys2Proof/Machine/Writes.lean ====
section
/-! DEFINITION. The Report Writer's writes and the claims on the M-port: which write is ready, its issue, the
grant order and its ageing (R179, R182, R185, R187, R188, R109, R110, R141, R149 to R152). -/

namespace Sys2Proof.Machine

/-! ## The Report Writer's ready write (R179) -/

/-- A report write that is ready to issue (R179). -/
inductive ReadyWrite
  /-- The oldest frame record, and the records behind it. -/
  | frame (f : FrameRecord) (rest : List FrameRecord)
  /-- The next view-page burst of the status write. -/
  | view (w : StatusWrite)
  /-- The status record burst. -/
  | status (w : StatusWrite)
  /-- The released notice of an entry. -/
  | notice (e : Fin 8)
deriving DecidableEq, Repr

/-- How many bursts a view page takes (R172). -/
def viewBursts : Nat := 8

/-- The next burst of a status write: the eight view bursts, then, once all are acknowledged, the status record
burst (R182); none after it was cut short (R174). -/
def StatusWrite.readyBurst (w : StatusWrite) : Option ReadyWrite :=
  if w.cutShort then none
  else if w.viewIssued < viewBursts then some (.view w)
  else if viewBursts ≤ w.viewAcked ∧ w.recordIssued = false then some (.status w)
  else none

/-- The first ready write in the order of R179. -/
def ReportWriter.ready (r : ReportWriter) : Option ReadyWrite :=
  match r.frames with
  | f :: rest => some (.frame f rest)
  | [] =>
    match r.write.bind StatusWrite.readyBurst with
    | some burst => some burst
    | none => (r.waiting.find fun c => c == some .released).map .notice

/-- The lowest free report tag, as its distance from 320 (R179). -/
def ReportWriter.freeTag (r : ReportWriter) : Option (Fin 16) := r.tags.find Option.isNone

/-- Does the Report Writer present the REPORT claim (R179, R150)? -/
def ReportWriter.claims (r : ReportWriter) : Bool := r.ready.isSome && r.freeTag.isSome

/-- M-port tag 320 + n (R136). -/
def reportTag (n : Fin 16) : Fin 512 := ⟨320 + n.val, by omega⟩

/-- A WRITE of whole beats under a report tag. -/
def reportRequest (n : Fin 16) (addr : Nat) (bytes : List Byte) (beats : Nat) : MRequest :=
  { kind := .write, tag := reportTag n, addr := BitVec.ofNat 40 addr, beats := beats, data := packBeats beats bytes }

/-- The issue of a ready write under a report tag: the request, and the Report Writer after it (R179, R182, R185,
R188, with the layout of R172). -/
def ReportWriter.issue (r : ReportWriter) (n : Fin 16) (w : ReadyWrite) : MRequest × ReportWriter :=
  match w with
  | .frame f rest =>
    (reportRequest n (r.base.toNat + 0x1000 + 64 * f.slot.toNat) (frameBytes f) 8,
      { r with frames := rest, tags := r.tags.set n (some (.record f.number)) })
  | .view w =>
    (reportRequest n (r.base.toNat + 0x100 + 256 * w.viewIssued) ((w.view.drop (256 * w.viewIssued)).take 256) 32,
      { r with write := some { w with viewIssued := w.viewIssued + 1 }, tags := r.tags.set n (some .viewBurst) })
  | .status w =>
    (reportRequest n r.base.toNat w.record 32,
      { r with write := some { w with recordIssued := true }, tags := r.tags.set n (some .statusBurst) })
  | .notice e =>
    let entry := r.notices.get e
    ({ kind := .write, tag := reportTag n, addr := wordAddress entry.addr, beats := 1
       data := [noticeBeat entry.addr entry.value] },
      { r with waiting := r.waiting.set e none, tags := r.tags.set n (some (.notice entry.source)) })

/-! ## Status writes and releases (R174, R182, R187) -/

/-- A notice held behind a status write whose snapshot is now taken waits for the end of that write (R187). -/
def Condition.atSnapshot (c : Condition) : Condition :=
  match c with
  | .nextWrite => .thisWrite
  | .released => .released
  | .thisWrite => .thisWrite
  | .record f => .record f

/-- The end of the status write in progress releases the notices that waited for it (R187). -/
def Condition.atWriteEnd (c : Condition) : Condition :=
  match c with
  | .thisWrite => .released
  | .released => .released
  | .nextWrite => .nextWrite
  | .record f => .record f

/-- A frame record acknowledged, discarded or lost releases the notice that waited for it (R185, R187). -/
def Condition.atRecord (frame : BitVec 32) (c : Condition) : Condition :=
  match c with
  | .record f => if f = frame then .released else .record f
  | .released => .released
  | .nextWrite => .nextWrite
  | .thisWrite => .thisWrite

/-- Notices held behind status writes are held afresh at a COMMIT(REPORT) (R174). -/
def Condition.heldAfresh (enable : Bool) (c : Condition) : Condition :=
  match c with
  | .nextWrite | .thisWrite => if enable then .nextWrite else .released
  | .released => .released
  | .record f => .record f

/-- Every waiting notice's condition changed. -/
def ReportWriter.onNotices (r : ReportWriter) (f : Condition → Condition) : ReportWriter :=
  { r with waiting := r.waiting.map fun c => c.map f }

/-- The status write in progress ends (R182). -/
def ReportWriter.endWrite (r : ReportWriter) : ReportWriter :=
  { r with write := none }.onNotices Condition.atWriteEnd

/-- The bursts of a status write that are issued and not acknowledged. -/
def StatusWrite.outstanding (w : StatusWrite) : Nat := w.viewIssued - w.viewAcked + w.recordIssued.toNat

/-- The bursts of a status write not yet issued are discarded; it ends when its issued bursts have been
acknowledged, at once if there are none (R174; DEDUCED, log 13). -/
def StatusWrite.cut (w : StatusWrite) : Option StatusWrite :=
  if w.outstanding = 0 then none else some { w with cutShort := true }

/-- The use of the report area in force ends, and the area is then enabled or not (R174). -/
def ReportWriter.endArea (r : ReportWriter) (base : Addr) (enable : Bool) : ReportWriter :=
  let r := r.frames.foldl (fun r f => r.onNotices (Condition.atRecord f.number)) r
  { r with frames := [], write := r.write.bind StatusWrite.cut, base := base, enable := enable }.onNotices
    (Condition.heldAfresh enable)

/-! ## The fetcher's claim (R109, R110) -/

/-- The index of the first burst that is not issued. -/
def firstNotIssued : List Burst → Option Nat
  | [] => none
  | b :: rest =>
    match b with
    | .notIssued => some 0
    | .inFlight | .returned _ | .failed => (firstNotIssued rest).map (· + 1)

/-- The next burst: the first NOT_ISSUED one from the head of the buffer, with its slot and its source (R109). -/
def nextBurst : List Slot → Option (Slot × SurfaceSource × Nat)
  | [] => none
  | slot :: rest =>
    match slot.source, firstNotIssued slot.bursts with
    | .surface src, some i => some (slot, src, i)
    | _, _ => nextBurst rest

/-- The lowest free fetch tag, as its distance from 256 (R110). -/
def Fetcher.freeTag (f : Fetcher) : Option (Fin 64) := f.reads.find Option.isNone

/-- Does the fetcher present a claim (R109)? -/
def Fetcher.claims (f : Fetcher) : Bool := (nextBurst f.buffer).isSome && f.freeTag.isSome

/-- M-port tag 256 + n (R136). -/
def fetchTag (n : Fin 64) : Fin 512 := ⟨256 + n.val, by omega⟩

/-- The status of one burst of line `l` changed. -/
def setBurst (l i : Nat) (b : Burst) (buffer : List Slot) : List Slot :=
  buffer.map fun slot => if slot.line = l then { slot with bursts := slot.bursts.set i b } else slot

/-- The READ of burst `i` of a slot for a line of `w` pixels (R108, R110). -/
def burstRequest (n : Fin 64) (slot : Slot) (src : SurfaceSource) (w i : Nat) : MRequest :=
  { kind := .read, tag := fetchTag n, addr := src.burstAddr slot.line i
    beats := burstBeats src.format (burstLength src.format w i), data := [] }

/-! ## Grants (R150 to R152) -/

/-- Is the buffer short of two complete slots, so that the fetcher's claim is urgent (R109)? -/
def Fetcher.urgent (f : Fetcher) : Bool := decide (f.buffer.countP Slot.complete < 2)

/-- The claim that a grant gives the channel to (R151). -/
def State.granted (s : State) : Option Claimant :=
  if s.sf.claims && s.sf.urgent then some .fetchUrgent
  else if s.rw.claims && decide (Config.reportAgeLimit ≤ s.ma.age) then some .report
  else if !s.tc.forward.isEmpty then some .pass
  else if s.sf.claims then some .fetch
  else if s.rw.claims then some .report
  else none

/-- The report wait age after a grant to another claimant (R149, R152). -/
def State.aged (s : State) : Nat := if s.rw.claims then satInc Config.reportAgeLimit s.ma.age else 0

/-- While the Report Writer presents no claim the age is 0 (R149). -/
def State.settleAge (s : State) : State :=
  if s.rw.claims then s else { s with ma := { s.ma with age := 0 } }

/-- A console request as it stands on the M-port: unchanged (R141). -/
def onMPort (r : Request) : MRequest :=
  { kind := r.kind, tag := ⟨r.tag.val, by omega⟩, addr := r.addr, beats := r.beats, data := r.data }

/-- One less queued and one more issued, up to 255 (R137, R141). -/
def TagCount.issue (c : TagCount) : TagCount := { queued := c.queued - 1, issued := satInc 255 c.issued }

/-- The PASS grant: the head of the forwarding buffer is issued unchanged (R141). -/
def State.grantPass (s : State) : State :=
  match s.tc.forward with
  | [] => s
  | r :: rest =>
    { s with tc := { s.tc with forward := rest, tags := s.tc.tags.modify r.tag TagCount.issue }
             ma := { channel := some { claimant := .pass, request := onMPort r }, age := s.aged } }

/-- A fetch grant of a grade: the next burst's READ with the lowest free fetch tag (R110). -/
def State.grantFetch (s : State) (grade : Claimant) : State :=
  match nextBurst s.sf.buffer, s.sf.freeTag with
  | some (slot, src, i), some n =>
    let w := s.rtm.timing.elim 0 TimingSet.w
    { s with sf := { s.sf with buffer := setBurst slot.line i .inFlight s.sf.buffer
                               reads := s.sf.reads.set n (some { line := slot.line, burst := i, state := .inFlight }) }
             ma := { channel := some { claimant := grade, request := burstRequest n slot src w i }, age := s.aged } }
  | _, _ => s

/-- The REPORT grant: the first ready write with the lowest free report tag; the age becomes 0 (R152, R179). -/
def State.grantReport (s : State) : State :=
  match s.rw.ready, s.rw.freeTag with
  | some w, some n =>
    let issued := s.rw.issue n w
    { s with rw := issued.2, ma := { channel := some { claimant := .report, request := issued.1 }, age := 0 } }
  | _, _ => s

end Sys2Proof.Machine
end

