-- ==== Sys2Proof/Machine/Memory.lean ====
section
/-! DEFINITION. The M-port's other steps: FETCH_RESPONSE (R112 to R115), REPORT_ACK (R179, R182, R183, R185, R188),
STATUS_WRITE_BEGIN (R182), GRANT (R151) and CHANNEL_FREE (R149). -/

namespace Sys2Proof.Machine

/-! ## Responses on fetch tags (R112 to R115) -/

/-- A fetch tag is freed. -/
def State.freeRead (s : State) (n : Fin 64) : State :=
  { s with sf := { s.sf with reads := s.sf.reads.set n none } }

/-- The burst of a read takes a status in its slot. -/
def State.setReadBurst (s : State) (e : ReadEntry) (b : Burst) : State :=
  { s with sf := { s.sf with buffer := setBurst e.line e.burst b s.sf.buffer } }

/-- The surface source of the slot of a line, if the buffer holds one. -/
def Fetcher.lineSource (f : Fetcher) (l : Nat) : Option SurfaceSource :=
  (f.buffer.find? fun slot => decide (slot.line = l)).bind fun slot =>
    match slot.source with
    | .surface src => some src
    | .fill => none

/-- The data of a burst is converted and placed (R112). A response that carries fewer beats than its read asked
for draws on the free value (DESIGN CHOICE, log 5). -/
def State.completeBurst (s : State) (e : ReadEntry) (data : List (BitVec 64)) : State :=
  match s.sf.lineSource e.line with
  | none => s
  | some src =>
    let count := burstLength src.format (s.rtm.timing.elim 0 TimingSet.w) e.burst
    let s' := s.setReadBurst e (.returned (burstPixels src.format s.freeDraw data count))
    if data.length < burstBeats src.format count then { s' with freeDraw := s.freeDraw + 1 } else s'

/-- A failed read (R113): its burst is FAILED, FETCH_ERROR is raised and the frame counts it. -/
def State.failBurst (s : State) (e : ReadEntry) : State :=
  ((s.setReadBurst e .failed).raise .fetchError).onRecord fun r => { r with fetchError := count16 r.fetchError }

/-- A READ_DATA for an entry of the outstanding read table (R112, R113, R115). -/
def State.readData (s : State) (e : ReadEntry) (status : Status) (data : List (BitVec 64)) : State :=
  match e.state with
  | .discard => s
  | .inFlight =>
    match status with
    | .ok => s.completeBurst e data
    | .error => s.failBurst e

/-- FETCH_RESPONSE on tag 256 + `n`: a WRITE_ACK, or a response without an entry, is a protocol fault (R114). -/
def fetchResponse (n : Fin 64) (kind : RespKind) (status : Status) (data : List (BitVec 64)) (s : State) : State :=
  match kind, s.sf.reads.get n with
  | .writeAck, _ => s.linkProtocol .fetchTag (256 + n.val)
  | .readData, none => s.linkProtocol .fetchTag (256 + n.val)
  | .readData, some e => (s.freeRead n).readData e status data

/-! ## Acknowledgements on report tags (R179, R182, R183, R185, R188) -/

/-- A view burst of the status write is acknowledged; a write cut short ends with its last outstanding burst
(R182, R174). -/
def ReportWriter.ackView (r : ReportWriter) : ReportWriter :=
  match r.write with
  | none => r
  | some w =>
    let w := { w with viewAcked := w.viewAcked + 1 }
    let r := { r with write := some w }
    if w.cutShort = true ∧ w.outstanding = 0 then r.endWrite else r

/-- REPORT_FAULT of a failed notice: where the notice's own source was REPORT_FAULT, it creates no notice for an
entry of that source (R188). -/
def ReportWriter.noticeFault (r : ReportWriter) (source : Source) : ReportWriter :=
  if source = .flag .reportFault then (r.flag .reportFault).mark else r.raise .reportFault

/-- The REPORT_FAULT of an ERROR acknowledgement of a report write (R183, R185, R188). -/
def ReportWriter.ackFault (r : ReportWriter) (w : ReportWrite) : ReportWriter :=
  match w with
  | .viewBurst | .statusBurst => r.raiseQuietly .reportFault
  | .record _ => r.raise .reportFault
  | .notice source => r.noticeFault source

/-- What an acknowledgement of a report write advances (R182, R185). -/
def ReportWriter.ackWrite (r : ReportWriter) (w : ReportWrite) : ReportWriter :=
  match w with
  | .viewBurst => r.ackView
  | .statusBurst => r.endWrite
  | .record frame => r.onNotices (Condition.atRecord frame)
  | .notice _ => r

/-- REPORT_ACK on tag 320 + `n` (R179; the fault comes before the release, DEDUCED, log 31). -/
def reportAck (n : Fin 16) (status : Status) (s : State) : State :=
  match s.rw.tags.get n with
  | none => s.linkProtocol .reportTag (320 + n.val)
  | some w =>
    let r := { s.rw with tags := s.rw.tags.set n none }
    let r := match status with
      | .ok => r
      | .error => r.ackFault w
    { s with rw := r.ackWrite w }

/-! ## The beginning of a status write (R182) -/

/-- STATUS_WRITE_BEGIN: the sequence rises, the snapshot and the view page are taken, the record is clean, and the
notices of events before the snapshot wait for this write (R182, R187). -/
def statusWriteBegin (s : State) : State :=
  if s.rw.enable = true ∧ s.rw.dirty = true ∧ s.rw.write = none then
    let sequence := s.rw.sequence + 1
    let w : StatusWrite := { view := viewPage s sequence, record := statusRecord s sequence, viewIssued := 0
                             viewAcked := 0, recordIssued := false, cutShort := false }
    let r := { s.rw with sequence := sequence, dirty := false, write := some w }
    { s with rw := r.onNotices Condition.atSnapshot }
  else s

/-! ## The Memory Arbiter (R149 to R152) -/

/-- GRANT: while the channel is FREE, the first presented claim of R151 is granted. -/
def grant (s : State) : State :=
  match s.ma.channel with
  | some _ => s
  | none =>
    match s.granted with
    | none => s
    | some .fetchUrgent => s.grantFetch .fetchUrgent
    | some .pass => s.grantPass
    | some .fetch => s.grantFetch .fetch
    | some .report => s.grantReport

/-- CHANNEL_FREE: the granted request has been placed (R149). -/
def channelFree (s : State) : State := { s with ma := { s.ma with channel := none } }

/-- FETCH_RESPONSE. -/
def execFetchResponse (n : Fin 64) (kind : RespKind) (status : Status) (data : List (BitVec 64)) (s : State) :
    Host.Outcome State Fault Refusal :=
  .next (fetchResponse n kind status data s)

/-- REPORT_ACK. -/
def execReportAck (n : Fin 16) (status : Status) (s : State) : Host.Outcome State Fault Refusal :=
  .next (reportAck n status s)

/-- STATUS_WRITE_BEGIN. -/
def execStatusWriteBegin (s : State) : Host.Outcome State Fault Refusal := .next (statusWriteBegin s)

/-- GRANT. -/
def execGrant (s : State) : Host.Outcome State Fault Refusal := .next (grant s)

/-- CHANNEL_FREE. -/
def execChannelFree (s : State) : Host.Outcome State Fault Refusal := .next (channelFree s)

end Sys2Proof.Machine
end

