-- ==== Sys2Proof/Machine/Selection.lean ====
section
/-! DEFINITION. Flip selection: admissibility, the choice of an entry, and its taking with its drops (R62 to R68,
R15). -/

namespace Sys2Proof.Machine

/-- Are the leading `n` bands of a surface READY? -/
def BandTracker.leadingReady (t : BandTracker) (i : Fin 8) (n : Nat) : Bool :=
  ((t.bands.get i).list.take n).all fun b => b.status == .ready

/-- Is an entry admissible (R62)? -/
def State.admissible (s : State) (e : Entry) : Bool :=
  match e.mode with
  | .race => s.bt.leadingReady e.surface e.admission
  | .whole | .split => s.bt.leadingReady e.surface (s.st.get e.surface).geo.nb

/-- Is an entry a candidate at a mid-active decision point of band height `hb` (R66)? -/
def State.splitCandidate (s : State) (hb : Nat) (e : Entry) : Bool :=
  e.mode == .split && s.admissible e && (s.st.get e.surface).geo.hb == hb

/-- The newest candidate that carries LATEST: the entries older than it, itself, and the newer ones (R65). -/
def newestLatest (cand : Entry → Bool) : List Entry → Option (List Entry × Entry × List Entry)
  | [] => none
  | e :: rest =>
    match newestLatest cand rest with
    | some (older, x, newer) => some (e :: older, x, newer)
    | none => if cand e && e.latest then some ([], e, rest) else none

/-- The entry to be taken, with the entries older and newer than it: the newest LATEST candidate, else the head
if it is a candidate, else none (R65, R66). -/
def pick (cand : Entry → Bool) (queue : List Entry) : Option (List Entry × Entry × List Entry) :=
  match newestLatest cand queue with
  | some choice => some choice
  | none =>
    match queue with
    | [] => none
    | e :: rest => if cand e then some ([], e, rest) else none

/-- An older entry is dropped by a selection: beside its surface and the event, the frame's dropped count rises
(R67). -/
def State.dropOlder (s : State) (e : Entry) : State :=
  (s.dropSurface e).onRecord fun r => { r with dropped := count16 r.dropped }

/-- The taking of an entry is one change: the older entries are dropped, the newer stay, its surface becomes
SCANNING, its number becomes the last taken number and PRESENT_TAKEN is signalled (R67, R68). -/
def State.takeEntry (s : State) (older : List Entry) (e : Entry) (newer : List Entry) : State :=
  let s := { s with pq := { s.pq with queue := newer, lastTaken := e.number } }
  let s := (older.foldl State.dropOlder s).setSurface e.surface .scanning
  s.signal .presentTaken

/-- The surface that was SCANNING, if one was, becomes FREE (R15). -/
def State.freeScanning (s : State) : State :=
  match s.scanning with
  | some i => s.freeSurface i
  | none => s

/-- A front-blank selection (R65): the entry taken and the state after it, or nothing taken. -/
def State.frontSelection (s : State) : Option (Entry × State) :=
  match pick s.admissible s.pq.queue with
  | some (older, e, newer) => some (e, s.takeEntry older e newer)
  | none => none

/-- A mid-active selection for a band height (R66, R68): a taken entry replaces the SCANNING surface. -/
def State.splitSelection (s : State) (hb : Nat) : Option (Entry × State) :=
  match pick (s.splitCandidate hb) s.pq.queue with
  | some (older, e, newer) => some (e, s.freeScanning.takeEntry older e newer)
  | none => none

end Sys2Proof.Machine
end

