-- ==== Sys2Proof/Machine/Scanout.lean ====
section
/-! DEFINITION. The band decision, the fetch points, the beginning of lines, their deadlines and their hand-over
(R46 to R48, R104 to R109, R115 to R117), and the decision points inside the active period (R90). -/

namespace Sys2Proof.Machine

/-! ## The band decision (R46 to R48) -/

/-- A surface as the source of a band: its number, base, pitch and format (R46, R105). -/
def State.sourceOf (s : State) (i : Fin 8) : BandSource :=
  let g := (s.st.get i).geo
  .surface { surface := i, base := g.base, pitch := g.pitch, format := g.format }

/-- The HELD surface as a source, or fill if none is HELD (R46). -/
def State.heldSource (s : State) : BandSource :=
  match s.held with
  | some i => s.sourceOf i
  | none => .fill

/-- A margin joins the least margin of the record (R47). -/
def leastOf (margin : Nat) (least : Option Nat) : Option Nat :=
  match least with
  | some m => some (min m margin)
  | none => some margin

/-- The band is READY at its fetch point: SCANNED, its margin handed to the record (R47). A READY band has a
stamp (R25); without one its margin is 0 (DESIGN CHOICE, log 22). -/
def State.scanBand (s : State) (i : Fin 8) (b : Nat) : State :=
  let margin := lineGap s.rtm.lc (((s.bt.band i (bandNumber b)).stamp).getD s.rtm.lc)
  let s := { s with bt := s.bt.modifyBand i (bandNumber b) fun r => { r with scan := .scanned } }
  s.onRecord fun r => { r with leastMargin := leastOf margin r.leastMargin }

/-- The band is not READY at its fetch point: MISSED, raised and counted (R48), and the BAND_MISS level rises
(R133). -/
def State.missBand (s : State) (i : Fin 8) (b : Nat) : State :=
  let s := { s with bt := s.bt.modifyBand i (bandNumber b) fun r => { r with scan := .missed }
                    po := { s.po with missed := true } }
  (s.raise .bandMiss).onRecord fun r =>
    { r with misses := count16 r.misses, firstMissed := some (r.firstMissed.getD b) }

/-- The band decision of band `b` for a decision kind (R46): its source and the state after it. -/
def State.decideBand (s : State) (kind : FrameKind) (b : Nat) : BandSource × State :=
  match kind with
  | .repeated => (s.heldSource, s)
  | .fill => (.fill, s)
  | .new =>
    match s.scanning with
    | none => (.fill, s)
    | some i =>
      match (s.bt.band i (bandNumber b)).status with
      | .ready => (s.sourceOf i, s.scanBand i b)
      | .opened | .draining => (s.heldSource, s.missBand i b)

/-- The fetch point of band `b`: its decision is recorded in the band source list (R105). -/
def State.fetchPoint (s : State) (c : FrameControl) (b : Nat) : State :=
  let d := s.decideBand c.decision b
  { d.2 with sf := { d.2.sf with sources := d.2.sf.sources.set b (some d.1) } }

/-! ## The line buffer (R106 to R109) -/

/-- The slot of line `l` from the source of its band: fill, or the line's bursts (R106, R108). -/
def slotOf (w l : Nat) (source : BandSource) : Slot :=
  match source with
  | .fill => { line := l, source := .fill, bursts := [] }
  | .surface src => { line := l, source := .surface src, bursts := List.replicate (burstCount src.format w) .notIssued }

/-- The source recorded for a band; a band not recorded gives fill (DESIGN CHOICE, log 22). -/
def Fetcher.sourceAt (f : Fetcher) (b : Nat) : BandSource := (f.sources.getD b none).getD .fill

/-- The fetch start of line `l`: its slot joins the buffer (R106, R107). -/
def State.fetchStart (s : State) (t : TimingSet) (c : FrameControl) (l : Nat) : State :=
  if l < t.h then
    { s with sf := { s.sf with buffer := s.sf.buffer ++ [slotOf t.w l (s.sf.sourceAt (l / c.hb))] } }
  else s

/-! ## The back blank (R88, R104) -/

/-- The back-blank line at whose boundary band 0's fetch point lies: S − Lf (R88). -/
def firstPointLine (t : TimingSet) (c : FrameControl) : Nat := t.s - c.lead

/-- The fetch point of band 0, at its back-blank line (R88). -/
def State.firstPoint (s : State) (t : TimingSet) (c : FrameControl) (n : Nat) : State :=
  if n = firstPointLine t c then s.fetchPoint c 0 else s

/-- Back-blank line `n` begins: the fetch point of band 0 at line S − Lf, and from there one fetch start a line
(R88, R104). -/
def State.backLine (s : State) (t : TimingSet) (c : FrameControl) (n : Nat) : State :=
  let s := s.firstPoint t c n
  if firstPointLine t c ≤ n then s.fetchStart t c (n - firstPointLine t c) else s

/-- The front blank ends and BACK_BLANK begins: the record's kind, source, F and stretch-skipped indication, the
frame's decision kind, band grid and lead, and the empty source list are fixed, and back-blank line 0 begins
(R87, R88, R104). -/
def State.beginBackBlank (s : State) (t : TimingSet) (kind : FrameKind) (source : Option (Fin 8)) (front : Nat)
    (skipped : Bool) (hb nb : Nat) : State :=
  let c : FrameControl := { decision := kind, hb := hb, nb := nb, lead := s.sf.inForce.lead }
  let s := (s.boundary .backBlank 0).onRecord fun r =>
    { r with kind := some kind, source := source, front := front, skipped := skipped }
  let s := { s with rtm := { s.rtm with frame := some c }
                    sf := { s.sf with sources := List.replicate nb none } }
  (s.backLine t c 0).sendBlank .back

/-- The band height of a FILL frame's grid: the least of 16, 32, 64 and 128 that needs at most 128 bands (R87). -/
def fillGrid (h : Nat) : Nat := raiseBandHeight h 16 3

/-- The front blank ends with a taken entry: a NEW frame of its surface, whose present lag will be complete at
active line 0 (R84, R85, R87, R93). -/
def State.beginNew (s : State) (t : TimingSet) (e : Entry) (front : Nat) (skipped : Bool) : State :=
  let g := (s.st.get e.surface).geo
  let s := { s with rtm := { s.rtm with lag := some { arrival := e.arrival, line := 0 } } }
  s.beginBackBlank t .new (some e.surface) front skipped g.hb g.nb

/-- The front blank expires: a REPEAT of the HELD surface, or a FILL frame (R86, R87). -/
def State.expire (s : State) (t : TimingSet) (front : Nat) : State :=
  match s.held with
  | some i =>
    let g := (s.st.get i).geo
    (s.raise .repeated).beginBackBlank t .repeated (some i) front false g.hb g.nb
  | none =>
    (s.raise .fillFrame).beginBackBlank t .fill none front false (fillGrid t.h) (ceilDiv t.h (fillGrid t.h))

/-! ## The active period (R89, R90, R93, R115 to R117) -/

/-- The band, from 1 to Nb_g − 1, whose fetch point is the boundary of active line `j` (R89). -/
def FrameControl.bandAt (c : FrameControl) (j : Nat) : Option Nat :=
  let l := j + c.lead
  if l % c.hb = 0 ∧ 1 ≤ l / c.hb ∧ l / c.hb < c.nb then some (l / c.hb) else none

/-- At the boundary of the first line that the taken surface supplies, the present lag is complete (R93). -/
def State.completeLag (s : State) (j : Nat) : State :=
  match s.rtm.lag with
  | some p =>
    if p.line = j then
      let s := s.onRecord fun r => { r with lag := some (lineGap s.rtm.lc p.arrival) }
      { s with rtm := { s.rtm with lag := none } }
    else s
  | none => s

/-- A frame is cut when its record says so (R97). -/
def State.cut (s : State) : Bool := s.rtm.record.elim false WorkingRecord.cut

/-- The mid-active decision point of band `k` (R90): a taken entry is a split, from which the decision kind is
NEW. -/
def State.midActive (s : State) (c : FrameControl) (k : Nat) : State :=
  if s.cut then s
  else
    match s.splitSelection c.hb with
    | none => s
    | some (e, s) =>
      let s := s.onRecord fun r => { r with split := some (e.surface, k) }
      { s with rtm := { s.rtm with frame := some { c with decision := .new }
                                   lag := some { arrival := e.arrival, line := k * c.hb } } }

/-- A late burst: FETCH_LATE is raised, and the frame counts it (R115). -/
def State.lateBurst (s : State) : State :=
  (s.raise .fetchLate).onRecord fun r => { r with fetchLate := count16 r.fetchLate }

/-- A read of line `j` still in flight is discarded (R115). -/
def discardLine (j : Nat) (e : Option ReadEntry) : Option ReadEntry :=
  match e with
  | some r => some (if r.line = j ∧ r.state = .inFlight then { r with state := .discard } else r)
  | none => none

/-- The deadline and the hand-over of line `j`: late bursts are raised and their reads discarded, the line's
pixels settled, handed to the port, and kept as the prior line (R115 to R117). -/
def State.handOver (s : State) (t : TimingSet) (j : Nat) (slot : Slot) (rest : List Slot) : State :=
  let line := lineAtDeadline s.sf.inForce s.sf.prior t.w slot
  let s := (slot.bursts.filter Burst.late).foldl (fun s _ => s.lateBurst) s
  { s with sf := { s.sf with buffer := rest, prior := some line, reads := s.sf.reads.map (discardLine j) }
           po := s.po.activeLine j line }

/-- The slot at the head of the buffer and the slots behind it. The buffer holds line `j` at its deadline (R107);
were it empty, the line would be fill (DESIGN CHOICE, log 22). -/
def headSlot (j : Nat) (buffer : List Slot) : Slot × List Slot :=
  match buffer with
  | slot :: rest => (slot, rest)
  | [] => ({ line := j, source := .fill, bursts := [] }, [])

/-- The mid-active decision point of the band whose fetch point is the boundary of line `j`, if it is one (R89). -/
def State.decisionPoint (s : State) (c : FrameControl) (j : Nat) : State :=
  match c.bandAt j with
  | some k => s.midActive c k
  | none => s

/-- Step 1 of R117: at line 0 a waiting fetch set comes into force. -/
def State.settingsAt (s : State) (j : Nat) : State := if j = 0 then s.waitingInForce else s

/-- Steps 2 and 3 of R117: the deadline and the hand-over of the line at the head of the buffer. -/
def State.lineDeadline (s : State) (t : TimingSet) (j : Nat) : State :=
  s.handOver t j (headSlot j s.sf.buffer).1 (headSlot j s.sf.buffer).2

/-- Step 4 of R117: the fetch point of the band whose fetch point is the boundary of line `j`, if it is one. -/
def State.bandPoint (s : State) (c : FrameControl) (j : Nat) : State :=
  match c.bandAt j with
  | some k => s.fetchPoint c k
  | none => s

/-- Active line `j` begins (R117, and R89, R90, R93 for the Raster Timer's part): settings at line 0, deadline,
hand-over, fetch point, fetch start. -/
def State.activeLine (s : State) (t : TimingSet) (c : FrameControl) (j : Nat) : State :=
  let s := (((s.completeLag j).decisionPoint c j).settingsAt j).lineDeadline t j
  let c := s.rtm.frame.getD c
  (s.bandPoint c j).fetchStart t c (j + c.lead)

end Sys2Proof.Machine
end

