-- ==== Sys2Proof/Machine/Raster.lean ====
section
/-! DEFINITION. The line boundaries of the raster: LINE_BOUNDARY, SETTLE_DONE, FRONT_MIN_END, STRETCH_BOUNDARY,
STRETCH_EXPIRY, ACTIVE_START, ACTIVE_LINE and END_OF_ACTIVE (chapter 4). A boundary of another kind than the
state's next one does not come: it changes nothing (DESIGN CHOICE, log 2). -/

namespace Sys2Proof.Machine

/-- A boundary that begins a further line of the same blank state (R80, R82, R83, R88). -/
def lineBoundary (s : State) : State :=
  match s.rtm.timing with
  | none => s
  | some t =>
    let n := s.rtm.pos + 1
    match s.rtm.raster with
    | .settle => if n < t.settle then (s.boundary .settle n).sendBlank .settle else s
    | .frontMin => if n < t.fMin then (s.boundary .frontMin n).sendBlank .front else s
    | .backBlank =>
      match s.rtm.frame with
      | some c => if n < t.s then ((s.boundary .backBlank n).backLine t c n).sendBlank .back else s
      | none => s
    | .off | .stretch | .active => s

/-- The last SETTLE line ends: SETTLE_DONE is raised and FRONT_MIN is entered (R82). -/
def settleDone (s : State) : State :=
  match s.rtm.timing with
  | none => s
  | some t =>
    if s.rtm.raster = .settle ∧ t.settle ≤ s.rtm.pos + 1 then (s.raise .settleDone).enterFrontMin else s

/-- The F_min-th line ends: a front-blank selection, and a NEW frame with its stretch skipped, or STRETCH, or,
when F_min is F_max, the expiry (R84). -/
def frontMinEnd (s : State) : State :=
  match s.rtm.timing with
  | none => s
  | some t =>
    if s.rtm.raster = .frontMin ∧ t.fMin ≤ s.rtm.pos + 1 then
      match s.frontSelection with
      | some (e, s) => s.beginNew t e t.fMin true
      | none =>
        if t.fMin < t.fMax then (s.boundary .stretch 0).sendBlank .stretch else s.expire t t.fMin
    else s

/-- The front-blank lines sent at the boundary that ends the current STRETCH line (R85). -/
def frontLines (t : TimingSet) (pos : Nat) : Nat := t.fMin + pos + 1

/-- What a stretch boundary at `front` lines does: a taken entry ends the stretch, another STRETCH line begins, or
at F_max lines the stretch expires (R85, R86). -/
def State.stretchLine (s : State) (t : TimingSet) (front : Nat) : State :=
  match s.frontSelection with
  | some (e, s) => s.beginNew t e front false
  | none =>
    if front < t.fMax then (s.boundary .stretch (s.rtm.pos + 1)).sendBlank .stretch else s.expire t front

/-- A line boundary in STRETCH (R85). -/
def stretchBoundary (s : State) : State :=
  match s.rtm.timing with
  | none => s
  | some t => if s.rtm.raster = .stretch then s.stretchLine t (frontLines t s.rtm.pos) else s

/-- The boundary at which the front blank reaches F_max lines (R86). -/
def stretchExpiry (s : State) : State :=
  match s.rtm.timing with
  | none => s
  | some t =>
    if s.rtm.raster = .stretch ∧ t.fMax ≤ frontLines t s.rtm.pos then s.stretchLine t (frontLines t s.rtm.pos) else s

/-- Active line 0 begins: its LC is recorded and FRAME_START signalled (R89), and the line's own steps follow
(R117). -/
def activeStart (s : State) : State :=
  match s.rtm.timing, s.rtm.frame with
  | some t, some c =>
    if s.rtm.raster = .backBlank ∧ t.s ≤ s.rtm.pos + 1 then
      let s := s.boundary .active 0
      let s := s.onRecord fun r => { r with activeLine := s.rtm.lc }
      (s.signal .frameStart).activeLine t c 0
    else s
  | _, _ => s

/-- A later active line begins (R117). -/
def activeLine (s : State) : State :=
  match s.rtm.timing, s.rtm.frame with
  | some t, some c =>
    let n := s.rtm.pos + 1
    if s.rtm.raster = .active ∧ n < t.h then (s.boundary .active n).activeLine t c n else s
  | _, _ => s

/-- The finished record takes its frame number and its slot; it joins the frame-record queue, or is discarded
while the area is disabled, or lost to a full queue, which releases its FRAME_END notice at once (R81, R185,
R187). -/
def ReportWriter.takeRecord (r : ReportWriter) (number : BitVec 32) (body : WorkingRecord) : ReportWriter :=
  let record : FrameRecord := { number := number, slot := r.logIndex, body := body }
  let r := { r with logIndex := r.logIndex + 1 }
  if r.enable = true ∧ r.frames.length < Config.frameQueueSize then
    { r with frames := r.frames ++ [record] }.occur .frameEnd (.record number)
  else r.occur .frameEnd .released

/-- Step 1 of R91: the record is handed over, the frame count rises, the status record is marked dirty. -/
def State.handRecord (s : State) : State :=
  { s with rw := (s.rw.takeRecord s.rtm.frameCount (s.rtm.record.getD .empty)).mark
           rtm := { s.rtm with record := none, frameCount := s.rtm.frameCount + 1 } }

/-- Step 2 of R91: the SCANNING surface becomes HELD and the surface HELD before it FREE (R14). -/
def State.settleSurfaces (s : State) : State :=
  match s.scanning with
  | none => s
  | some i =>
    let s := match s.held with
      | some h => s.freeSurface h
      | none => s
    s.setSurface i .held

/-- The fetcher and the frame's control at the end of an active period: list, buffer and prior line are empty
(R105, R107, R116, R117). -/
def State.endFrame (s : State) : State :=
  { s with sf := { s.sf with sources := [], buffer := [], prior := none }
           rtm := { s.rtm with frame := none, lag := none } }

/-- Steps 3 and 4 of R91: a pending set comes into force, then a pending OUTPUT_OFF takes the raster OFF; else
SETTLE begins if a set came into force, and FRONT_MIN otherwise. -/
def State.nextFrame (s : State) : State :=
  match s.rtm.pendingSet with
  | some t => let s := s.timingInForce t; if s.rtm.offPending then s.enterOff else s.enterSettle t
  | none => if s.rtm.offPending then s.enterOff else s.enterFrontMin

/-- The last active line ends (R91). -/
def endOfActive (s : State) : State :=
  match s.rtm.timing with
  | none => s
  | some t =>
    if s.rtm.raster = .active ∧ t.h ≤ s.rtm.pos + 1 then s.handRecord.settleSurfaces.endFrame.nextFrame else s

/-- LINE_BOUNDARY. -/
def execLineBoundary (s : State) : Host.Outcome State Fault Refusal := .next (lineBoundary s)

/-- SETTLE_DONE. -/
def execSettleDone (s : State) : Host.Outcome State Fault Refusal := .next (settleDone s)

/-- FRONT_MIN_END. -/
def execFrontMinEnd (s : State) : Host.Outcome State Fault Refusal := .next (frontMinEnd s)

/-- STRETCH_BOUNDARY. -/
def execStretchBoundary (s : State) : Host.Outcome State Fault Refusal := .next (stretchBoundary s)

/-- STRETCH_EXPIRY. -/
def execStretchExpiry (s : State) : Host.Outcome State Fault Refusal := .next (stretchExpiry s)

/-- ACTIVE_START. -/
def execActiveStart (s : State) : Host.Outcome State Fault Refusal := .next (activeStart s)

/-- ACTIVE_LINE. -/
def execActiveLine (s : State) : Host.Outcome State Fault Refusal := .next (activeLine s)

/-- END_OF_ACTIVE. -/
def execEndOfActive (s : State) : Host.Outcome State Fault Refusal := .next (endOfActive s)

end Sys2Proof.Machine
end

