-- ==== Sys2Proof/Machine/Resets.lean ====
section
/-! DEFINITION. The input pins: POWER_ON_RESET, LINK_RESET, CRST_RELEASE and LINK_UP_CHANGE (R98, R128 to R130,
R146, R42). -/

namespace Sys2Proof.Machine

/-! ## LINK_UP (R128 to R130) -/

/-- The line in progress is cut: the first `sent` transfers of an active line stand, and so does a token (R129). -/
def PortLine.cut (sent : Nat) (l : PortLine) : PortLine :=
  match l with
  | .nothing => .nothing
  | .token kind => .token kind
  | .active transfers => .active (transfers.take sent)

/-- The port at a change of LINK_UP to `level` (R128). A fall cuts the line in progress while the port is sending it
(R129); after a fall and a rise within one line the port is WAITING, and what it had sent of that line stands. -/
def PixelPort.linkChange (p : PixelPort) (level : Bool) (sent : Nat) : PixelPort :=
  let p := { p with linkUp := level, level := level }
  if level then
    match p.state with
    | .down => { p with state := .waiting }
    | .waiting | .sending => p
  else
    match p.state with
    | .sending => { p with state := .down, sent := p.sent.cut sent }
    | .down | .waiting => { p with state := .down }

/-- The LINK_UP input has `level`: a change updates the recorded link level and raises OUTPUT_CHANGE (R128,
R130). -/
def linkUpChange (level : Bool) (sent : Nat) (s : State) : State :=
  if level = s.po.level then s
  else { s with po := s.po.linkChange level sent }.raise .outputChange

/-! ## Power-on reset -/

/-- The C-port state that a level of CRST gives: IN_RESET while it is asserted (R137). -/
def cportOf (crst : Bool) : CPort := if crst then .inReset else .live

/-- A power-on reset sets POWER and LINK, and keeps SOFT (R177). -/
def Causes.powerOn (c : Causes) : Causes := { c with power := true, link := true }

/-- The end of a power-on reset with these levels on the input pins (R154, R137, R124). The requests that wait on the
C-port are dropped (DESIGN CHOICE, log 35). POWER and LINK are set (R177, R189), and a SOFT cause that is set stays
set, as R177 says of resets of other kinds. The waiting commands and the model's draw counter are not the block's, and
stay (DESIGN CHOICE, log 26). -/
def powerOnReset (wsel : BitVec 4) (linkUp crst : Bool) (s : State) : State :=
  let r := State.reset
  linkUpChange linkUp 0
    { r with tc := { r.tc with cport := cportOf crst, crst := crst }
             cd := { r.cd with wsel := wsel }
             rw := { r.rw with causes := s.rw.causes.powerOn }
             pending := s.pending
             freeDraw := s.freeDraw }

/-! ## Link reset (R146, R42) -/

/-- The Traffic Classifier at an assertion of CRST (R146). -/
def Classifier.linkReset (t : Classifier) : Classifier :=
  { t with cport := .inReset, crst := true, arrivals := [], forward := []
           discard := Table.zipWith (fun held c => held || decide (0 < c.issued)) t.discard t.tags
           tags := .replicate 256 {} }

/-- The band records of a surface at a link reset: those of a FREE surface stay (R42). -/
def closeDrains (lc : Line) (f : Surface) (bands : Bands) : Bands :=
  if f.state = .free then bands else bands.map (Band.closeDrain lc)

/-- The Band Tracker closes every drain (R42), and a stall episode ends with its write (R31). -/
def BandTracker.linkReset (t : BandTracker) (lc : Line) (st : Table Surface 8) : BandTracker :=
  { bands := Table.zipWith (closeDrains lc) st t.bands, wtt := .replicate 256 none, stall := false }

/-- CRST is asserted: a link reset, where it was released before (R146, R177). -/
def linkReset (s : State) : State :=
  if s.tc.crst then s
  else
    let s := { s with tc := s.tc.linkReset, bt := s.bt.linkReset s.rtm.now s.st }.raise .linkReset
    { s with rw := { s.rw with causes := { s.rw.causes with link := true } } }

/-- CRST is released: the C-port is LIVE again (R146). -/
def crstRelease (s : State) : State := { s with tc := { s.tc with cport := .live, crst := false } }

/-- POWER_ON_RESET. -/
def execPowerOnReset (wsel : BitVec 4) (linkUp crst : Bool) (s : State) : Host.Outcome State Fault Refusal :=
  .next (powerOnReset wsel linkUp crst s)

/-- LINK_RESET. -/
def execLinkReset (s : State) : Host.Outcome State Fault Refusal := .next (linkReset s)

/-- CRST_RELEASE. -/
def execCrstRelease (s : State) : Host.Outcome State Fault Refusal := .next (crstRelease s)

/-- LINK_UP_CHANGE. -/
def execLinkUpChange (level : Bool) (sent : Nat) (s : State) : Host.Outcome State Fault Refusal :=
  .next (linkUpChange level sent s)

end Sys2Proof.Machine
end

