-- ==== Sys2Proof/Decode.lean ====
section
/-! DEFINITION. What the beats of the command page spell (R155, R160 to R166, R191 to R193), and the word
decoding the host asks for. -/

namespace Sys2Proof

/-- The command that a word spells by the bits of spec/opcode_table.json: the table gives no row any bits, so
none (DEDUCED, log 28). -/
def decodeTableWord (nbits w : Nat) : Option Instr :=
  match nbits, w with
  | _, _ => none

/-- The lane whose code this is (R161, R162), if any. -/
def codeLane (code : BitVec 8) : Option Lane :=
  if 0x01 ≤ code.toNat ∧ code.toNat ≤ 0x03 then some .render
  else if 0x10 ≤ code.toNat ∧ code.toNat ≤ 0x11 then some .present
  else if 0x20 ≤ code.toNat ∧ code.toNat ≤ 0x25 then some .control
  else none

/-- What a beat of the command page is. -/
inductive Decoded
  /-- A command of the table. -/
  | command (i : Instr)
  /-- A COMMIT whose table id is not from 1 to 6: refused with RANGE by the decoder itself (R166). -/
  | commitNoTable
  /-- An inert beat (R157). -/
  | inert
deriving DecidableEq, Repr

/-- The COMMIT of a table id (R163, R166). -/
def decodeCommit (id : BitVec 8) (entry : BitVec 16) : Decoded :=
  if id = 1 then .command (.commitSurface entry)
  else if id = 2 then .command (.commitTiming entry)
  else if id = 3 then .command (.commitFetch entry)
  else if id = 4 then .command (.commitNotice entry)
  else if id = 5 then .command (.commitMarker entry)
  else if id = 6 then .command (.commitReport entry)
  else .commitNoTable

/-- The command of a code that belongs to a lane, with the fields its row of R191 names. -/
def decodeCommand (code id : BitVec 8) (a b c : BitVec 16) : Decoded :=
  if code = 0x01 then .command (.openFrame id)
  else if code = 0x02 then .command (.release id a b)
  else if code = 0x03 then .command (.abandon id)
  else if code = 0x10 then .command (.present id a b)
  else if code = 0x11 then .command (.withdraw id)
  else if code = 0x20 then decodeCommit id a
  else if code = 0x21 then .command .outputOn
  else if code = 0x22 then .command .outputOff
  else if code = 0x23 then .command (.clearEvents b c)
  else if code = 0x24 then .command (.viewSelect a)
  else .command .softReset

/-- A whole beat on a lane word (R160, with the layout of R191). -/
def decodeLane (lane : Lane) (w : Word) : Decoded :=
  let code := w.extractLsb' 56 8
  match codeLane code with
  | none => .command (.unknown lane code)
  | some l =>
    if l = lane then
      decodeCommand code (w.extractLsb' 48 8) (w.extractLsb' 32 16) (w.extractLsb' 16 16) (w.extractLsb' 0 16)
    else .command (.wrongLane lane code)

/-- The whole beat on the action or parameter word at an offset below 0x030 (R155). -/
def decodeWhole (offset : Nat) (w : Word) : Decoded :=
  if offset = 0x000 then decodeLane .render w
  else if offset = 0x008 then decodeLane .present w
  else if offset = 0x010 then decodeLane .control w
  else if offset = 0x018 then .command (.tableIndex w)
  else if offset = 0x020 then .command (.tableData w)
  else .command (.reportNow w)

/-- A beat at an offset of the command page, by the categories of R155 and R156. -/
def decodeBeat (offset : Nat) (b : Beat) : Decoded :=
  if offset < 0x030 then
    if b.enables = BitVec.allOnes 8 then decodeWhole offset b.data else .command .misplacedWrite
  else if offset < 0x100 then .command .misplacedWrite
  else .inert

/-- A command word of R191 from its five fields. -/
def commandWord (code id : BitVec 8) (a b c : BitVec 16) : Word := code ++ id ++ a ++ b ++ c

/-- The lane and the word of a lane command, its unread fields 0 (R191). A command that is no lane command has
none. -/
def encodeLane (i : Instr) : Option (Lane × Word) :=
  match i with
  | .openFrame id => some (.render, commandWord 0x01 id 0 0 0)
  | .release id first last => some (.render, commandWord 0x02 id first last 0)
  | .abandon id => some (.render, commandWord 0x03 id 0 0 0)
  | .present id a b => some (.present, commandWord 0x10 id a b 0)
  | .withdraw id => some (.present, commandWord 0x11 id 0 0 0)
  | .commitSurface e => some (.control, commandWord 0x20 1 e 0 0)
  | .commitTiming e => some (.control, commandWord 0x20 2 e 0 0)
  | .commitFetch e => some (.control, commandWord 0x20 3 e 0 0)
  | .commitNotice e => some (.control, commandWord 0x20 4 e 0 0)
  | .commitMarker e => some (.control, commandWord 0x20 5 e 0 0)
  | .commitReport e => some (.control, commandWord 0x20 6 e 0 0)
  | .outputOn => some (.control, commandWord 0x21 0 0 0 0)
  | .outputOff => some (.control, commandWord 0x22 0 0 0 0)
  | .clearEvents b c => some (.control, commandWord 0x23 0 0 b c)
  | .viewSelect a => some (.control, commandWord 0x24 0 a 0 0)
  | .softReset => some (.control, commandWord 0x25 0 0 0 0)
  | .unknown lane code => some (lane, commandWord code 0 0 0 0)
  | .wrongLane lane code => some (lane, commandWord code 0 0 0 0)
  | .powerOnReset _ _ _ | .linkReset | .crstRelease | .linkUpChange _ _ | .requestAccept _
  | .tableIndex _ | .tableData _ | .reportNow _ | .misplacedWrite
  | .consoleResponse _ _ _ _ | .fetchResponse _ _ _ _ | .reportAck _ _ | .strayResponse _ _ _
  | .grant | .channelFree | .statusWriteBegin | .lineBoundary | .settleDone | .frontMinEnd
  | .stretchBoundary | .stretchExpiry | .activeStart | .activeLine | .endOfActive => none

end Sys2Proof
end

