-- ==== Sys2Proof/Machine/Commits.lean ====
section
/-! DEFINITION. The commits of the six tables, code 0x20 on the control lane (R166): SURFACE (R3 to R7), TIMING
(R75 to R79), FETCH (R101, R102), NOTICE (R186), MARKER (R131) and REPORT (R173, R174). -/

namespace Sys2Proof.Machine

/-- A COMMIT's result, on the control lane with code 0x20 (R166). -/
def State.commitResult (s : State) (r : Result) : State := s.result .control 0x20 r

/-- A COMMIT whose table id is not from 1 to 6 (R166; DEDUCED, log 18). -/
def commitNoTable (s : State) : State := s.commitResult .range

/-! ## COMMIT(SURFACE) -/

/-- Do `size` bytes from `base` share a byte with the extent of a defined surface that `among` names (R6, R173)? -/
def State.meetsSurface (s : State) (among : Fin 8 → Bool) (base size : Nat) : Bool :=
  (List.finRange 8).any fun j =>
    let g := (s.st.get j).geo
    among j && g.defined && overlaps base size g.base.toNat (g.pitch * g.height)

/-- Do they share a byte with the command page (R6, R173)? -/
def State.meetsPage (s : State) (base size : Nat) : Bool := overlaps base size (commandPage s.cd.wsel) 0x1000

/-- How many bytes the report area covers (R172). -/
def reportAreaSize : Nat := 8192

/-- Do they share a byte with the report area, while it is enabled (R6)? -/
def State.meetsReportArea (s : State) (base size : Nat) : Bool :=
  s.rw.enable && overlaps base size s.rw.base.toNat reportAreaSize

/-- Does a staged extent for surface `i` overlap another defined surface, the command page or the enabled report
area (R6)? -/
def State.surfaceOverlap (s : State) (i : Fin 8) (base size : Nat) : Bool :=
  s.meetsSurface (fun j => j != i) base size || s.meetsPage base size || s.meetsReportArea base size

/-- The geometry of a surface record is replaced; state, generation and late-write count stay (R7). -/
def State.installGeometry (s : State) (i : Fin 8) (g : Geometry) : State :=
  { s with st := s.st.modify i fun f => { f with geo := g }, rw := s.rw.mark }

/-- COMMIT(SURFACE, s) of a staged height other than 0: the checks of R4 to R6 and the install of R7. -/
def State.defineSurface (s : State) (i : Fin 8) (g : StagedSurface) : State :=
  match formatOf g.format with
  | none => s.commitResult .range
  | some f =>
    if g.inRange f then
      if s.surfaceOverlap i g.base (g.pitch * g.height) then s.commitResult .overlap
      else
        (s.installGeometry i (g.geometry f)).commitResult (if (g.geometry f).hb = g.hb then .ok else .adjusted)
    else s.commitResult .range

/-- COMMIT(SURFACE, entry), with its checks in the order of R3 to R6. -/
def commitSurface (entry : BitVec 16) (s : State) : State :=
  match entryNumber 8 entry with
  | none => s.commitResult .badSurface
  | some i =>
    if (s.st.get i).state ≠ .free then s.commitResult .badState
    else
      let g := stagedSurface (s.cd.staging.surface.get i)
      if g.height = 0 then (s.installGeometry i .undefined).commitResult .ok else s.defineSurface i g

/-! ## COMMIT(TIMING) -/

/-- A set that is taken comes into force at once while the raster is OFF, and is pending otherwise (R79). -/
def State.installTiming (s : State) (t : TimingSet) : State :=
  match s.rtm.raster with
  | .off => s.timingInForce t
  | .settle | .frontMin | .stretch | .backBlank | .active => { s with rtm := { s.rtm with pendingSet := some t } }

/-- COMMIT(TIMING, entry), with its checks in the order of R166 and R75. -/
def commitTiming (entry : BitVec 16) (s : State) : State :=
  if entry ≠ 0 then s.commitResult .range
  else if s.rtm.raster ≠ .off ∧ s.rtm.pendingSet.isSome = true then s.commitResult .busy
  else if timingInRange s.cd.staging.timing then
    let set := timingSet s.cd.staging.timing
    (s.installTiming set.1).commitResult (if set.2 then .adjusted else .ok)
  else s.commitResult .range

/-! ## COMMIT(FETCH) -/

/-- A set that is taken comes into force at once while the raster is OFF, and waits otherwise (R102; its lead: DESIGN
CHOICE, log 40). -/
def State.installFetch (s : State) (f : FetchSet) : State :=
  match s.rtm.raster with
  | .off => s.fetchInForce f
  | .settle | .frontMin | .stretch | .backBlank | .active => { s with sf := { s.sf with waiting := some f } }

/-- COMMIT(FETCH, entry), with its checks in the order of R166 and R101. -/
def commitFetch (entry : BitVec 16) (s : State) : State :=
  if entry ≠ 0 then s.commitResult .range
  else
    match fetchSet s.rtm.timing s.cd.staging.fetch with
    | none => s.commitResult .range
    | some (f, changed) => (s.installFetch f).commitResult (if changed then .adjusted else .ok)

/-! ## COMMIT(NOTICE) -/

/-- A notice entry is installed and its waiting notice removed (R186). -/
def State.installNotice (s : State) (e : Fin 8) (n : NoticeEntry) : State :=
  { s with rw := { s.rw with notices := s.rw.notices.set e n, waiting := s.rw.waiting.set e none } }

/-- COMMIT(NOTICE, entry) (R186). -/
def commitNotice (entry : BitVec 16) (s : State) : State :=
  match entryNumber 8 entry with
  | none => s.commitResult .range
  | some e =>
    match noticeEntry (s.cd.staging.notice.get e) with
    | none => s.commitResult .range
    | some n => ((s.installNotice e n).commitResult .ok).settleAge

/-! ## COMMIT(MARKER) -/

/-- COMMIT(MARKER, entry) (R131). -/
def commitMarker (entry : BitVec 16) (s : State) : State :=
  match entryNumber 2 entry with
  | none => s.commitResult .range
  | some e =>
    match markerOf (s.cd.staging.marker.get e).toNat with
    | none => s.commitResult .range
    | some m => { s with po := { s.po with routing := s.po.routing.set e m } }.commitResult .ok

/-! ## COMMIT(REPORT) -/

/-- The use of the area in force ends in one change with the install (R173, R174). -/
def State.installReport (s : State) (base : Addr) (enable : Bool) : State :=
  { s with rw := s.rw.endArea base enable }

/-- COMMIT(REPORT) with enable 1: the checks of R173 on the staged base. -/
def State.enableReport (s : State) (base : Nat) : State :=
  if base % 4096 ≠ 0 ∨ Config.addressLimit < base + reportAreaSize then s.commitResult .range
  else if s.meetsPage base reportAreaSize || s.meetsSurface (fun _ => true) base reportAreaSize then
    s.commitResult .overlap
  else ((s.installReport (BitVec.ofNat 40 base) true).commitResult .ok).settleAge

/-- COMMIT(REPORT, entry), with its checks in the order of R166 and R173. -/
def commitReport (entry : BitVec 16) (s : State) : State :=
  if entry ≠ 0 then s.commitResult .range
  else
    let t := s.cd.staging.report
    match flagOf (t.get 2).toNat with
    | none => s.commitResult .range
    | some false => ((s.installReport s.rw.base false).commitResult .ok).settleAge
    | some true => s.enableReport (stagedAddress (t.get 0) (t.get 1))

/-- COMMIT_SURFACE. -/
def execCommitSurface (entry : BitVec 16) (s : State) : Host.Outcome State Fault Refusal :=
  .next (commitSurface entry s)

/-- COMMIT_TIMING. -/
def execCommitTiming (entry : BitVec 16) (s : State) : Host.Outcome State Fault Refusal :=
  .next (commitTiming entry s)

/-- COMMIT_FETCH. -/
def execCommitFetch (entry : BitVec 16) (s : State) : Host.Outcome State Fault Refusal :=
  .next (commitFetch entry s)

/-- COMMIT_NOTICE. -/
def execCommitNotice (entry : BitVec 16) (s : State) : Host.Outcome State Fault Refusal :=
  .next (commitNotice entry s)

/-- COMMIT_MARKER. -/
def execCommitMarker (entry : BitVec 16) (s : State) : Host.Outcome State Fault Refusal :=
  .next (commitMarker entry s)

/-- COMMIT_REPORT. -/
def execCommitReport (entry : BitVec 16) (s : State) : Host.Outcome State Fault Refusal :=
  .next (commitReport entry s)

end Sys2Proof.Machine
end

