-- ==== Sys2Proof/Machine/Control.lean ====
section
/-! DEFINITION. The other commands of the control lane and the other beats of the command page: OUTPUT_ON,
OUTPUT_OFF, CLEAR_EVENTS, VIEW_SELECT, SOFT_RESET, UNKNOWN, WRONG_LANE, TABLE_INDEX, TABLE_DATA, REPORT_NOW and
MISPLACED_WRITE. -/

namespace Sys2Proof.Machine

/-! ## Output on and off (R95, R96) -/

/-- OUTPUT_ON, code 0x21 (R95). -/
def outputOn (s : State) : State :=
  match s.rtm.timing with
  | none => s.result .control 0x21 .badState
  | some t =>
    match s.rtm.raster with
    | .off => (s.enterSettle t).result .control 0x21 .ok
    | .settle | .frontMin | .stretch | .backBlank | .active => s.result .control 0x21 .ok

/-- What OUTPUT_OFF does to the raster (R96). -/
def State.stopRaster (s : State) : State :=
  match s.rtm.raster with
  | .off => s
  | .settle | .frontMin | .stretch => s.enterOff
  | .backBlank | .active => { s with rtm := { s.rtm with offPending := true } }

/-- OUTPUT_OFF, code 0x22: always taken (R96). -/
def outputOff (s : State) : State := s.stopRaster.result .control 0x22 .ok

/-! ## Events and the view page (R176, R184) -/

/-- No reset cause. -/
def Causes.none : Causes := { power := false, link := false, soft := false }

/-- CLEAR_EVENTS, code 0x23: bit 0 of B clears the reset causes too (R176, R177). -/
def clearEvents (b c : BitVec 16) (s : State) : State :=
  let rw := s.rw.clearFlags c
  { s with rw := { rw with causes := if b.getLsbD 0 then .none else rw.causes } }.result .control 0x23 .ok

/-- VIEW_SELECT, code 0x24: a page above 10 is refused (R184). -/
def viewSelect (a : BitVec 16) (s : State) : State :=
  match entryNumber 11 a with
  | some page => { s with rw := { s.rw with page := page } }.result .control 0x24 .ok
  | none => s.result .control 0x24 .range

/-! ## Soft reset (R168, with R18, R44, R72, R97, R120, R189) -/

/-- A surface record after a soft reset (R18). -/
def Surface.softReset (f : Surface) : Surface := { f with state := .free, gen := f.gen + 1 }

/-- A soft reset cuts the frame in BACK_BLANK or ACTIVE (R97). -/
def RasterTimer.cutFrame (r : RasterTimer) : RasterTimer :=
  match r.raster with
  | .backBlank | .active => { r with record := r.record.map fun w => { w with cut := true } }
  | .off | .settle | .frontMin | .stretch => r

/-- A read in flight is set to discard (R120). -/
def ReadEntry.abandon (e : ReadEntry) : ReadEntry := { e with state := .discard }

/-- A slot of the line buffer turned to a fill slot of the same line (R120; DESIGN CHOICE, log 36). -/
def Slot.fillOf (slot : Slot) : Slot := { line := slot.line, source := .fill, bursts := [] }

/-- A soft reset's part of the Scanout Fetcher (R120). The line buffer keeps its slots, each a fill slot of its line, as
R120 and the table of R168 say; R107 says that a soft reset empties it (DESIGN CHOICE, log 36). -/
def Fetcher.softReset (f : Fetcher) : Fetcher :=
  { f with reads := f.reads.map fun e => e.map ReadEntry.abandon
           sources := f.sources.map fun x => x.map fun _ => .fill
           buffer := f.buffer.map Slot.fillOf }

/-- A soft reset's part of the Report Writer: flags, summary and counters cleared, the SOFT cause set (R189). -/
def ReportWriter.softReset (r : ReportWriter) : ReportWriter :=
  { r.clearFlags (BitVec.allOnes 16) with counters := {}, causes := { r.causes with soft := true } }

/-- SOFT_RESET, code 0x25: every block's part, the lane records at zero, then the command's own result (R168). -/
def softReset (s : State) : State :=
  { s with cd := { s.cd with render := .zero, present := .zero, control := .zero }
           st := s.st.map Surface.softReset
           bt := { s.bt with bands := .replicate 8 .cleared, wtt := .replicate 256 none }
           pq := { s.pq with queue := [] }
           rtm := s.rtm.cutFrame
           sf := s.sf.softReset
           rw := s.rw.softReset }.result .control 0x25 .ok

/-! ## Refused beats (R160) -/

/-- UNKNOWN: the code belongs to no lane. -/
def unknown (lane : Lane) (code : BitVec 8) (s : State) : State := s.result lane code .unknown

/-- WRONG_LANE: the code belongs to another lane. -/
def wrongLane (lane : Lane) (code : BitVec 8) (s : State) : State := s.result lane code .wrongLane

/-! ## Staging (R163 to R165) -/

/-- The table index of a TABLE_INDEX beat (R192). -/
def indexOf (value : BitVec 64) : TableIndex :=
  { table := value.extractLsb' 16 8, entry := value.extractLsb' 8 8, field := value.extractLsb' 0 8 }

/-- TABLE_INDEX sets all three numbers of the table index (R164). -/
def tableIndex (value : BitVec 64) (s : State) : State := { s with cd := { s.cd with index := indexOf value } }

/-- One field of a table with its index as a number; none beyond its fields (R165). -/
def stageField {n : Nat} (t : Table (BitVec 32) n) (f : Nat) (v : BitVec 32) : Option (Table (BitVec 32) n) :=
  if h : f < n then some (t.set ⟨f, h⟩ v) else none

/-- One field of one entry; none beyond the entries or the fields (R165). -/
def stageEntry {k n : Nat} (t : Table (Table (BitVec 32) n) k) (e f : Nat) (v : BitVec 32) :
    Option (Table (Table (BitVec 32) n) k) :=
  if h : e < k then (stageField (t.get ⟨e, h⟩) f v).map fun row => t.set ⟨e, h⟩ row else none

/-- The staging copies after a value is staged at an index; none where the index names no field (R163, R165). -/
def Staging.stage (g : Staging) (ix : TableIndex) (v : BitVec 32) : Option Staging :=
  let e := ix.entry.toNat
  let f := ix.field.toNat
  match ix.table.toNat with
  | 1 => (stageEntry g.surface e f v).map fun t => { g with surface := t }
  | 2 => if e = 0 then (stageField g.timing f v).map fun t => { g with timing := t } else none
  | 3 => if e = 0 then (stageField g.fetch f v).map fun t => { g with fetch := t } else none
  | 4 => (stageEntry g.notice e f v).map fun t => { g with notice := t }
  | 5 => if f = 0 then (stageField g.marker e v).map fun t => { g with marker := t } else none
  | 6 => if e = 0 then (stageField g.report f v).map fun t => { g with report := t } else none
  | _ => none

/-- TABLE_DATA stages the low 32 bits and raises the field index; refused, with code 0xFF on the control lane,
where the index names no field (R165). -/
def tableData (value : BitVec 64) (s : State) : State :=
  match s.cd.staging.stage s.cd.index (value.extractLsb' 0 32) with
  | some g => { s with cd := { s.cd with staging := g, index := { s.cd.index with field := s.cd.index.field + 1 } } }
  | none => s.result .control 0xFF .range

/-! ## REPORT_NOW and misplaced beats (R162, R156) -/

/-- REPORT_NOW, whatever its value, marks the status record dirty (R162). -/
def reportNow (_value : BitVec 64) (s : State) : State := s.mark

/-- A misplaced beat raises MISPLACED_WRITE (R156). -/
def misplacedWrite (s : State) : State := s.raise .misplacedWrite

/-- OUTPUT_ON. -/
def execOutputOn (s : State) : Host.Outcome State Fault Refusal := .next (outputOn s)

/-- OUTPUT_OFF. -/
def execOutputOff (s : State) : Host.Outcome State Fault Refusal := .next (outputOff s)

/-- CLEAR_EVENTS. -/
def execClearEvents (b c : BitVec 16) (s : State) : Host.Outcome State Fault Refusal := .next (clearEvents b c s)

/-- VIEW_SELECT. -/
def execViewSelect (a : BitVec 16) (s : State) : Host.Outcome State Fault Refusal := .next (viewSelect a s)

/-- SOFT_RESET. -/
def execSoftReset (s : State) : Host.Outcome State Fault Refusal := .next (softReset s)

/-- UNKNOWN. -/
def execUnknown (lane : Lane) (code : BitVec 8) (s : State) : Host.Outcome State Fault Refusal :=
  .next (unknown lane code s)

/-- WRONG_LANE. -/
def execWrongLane (lane : Lane) (code : BitVec 8) (s : State) : Host.Outcome State Fault Refusal :=
  .next (wrongLane lane code s)

/-- TABLE_INDEX. -/
def execTableIndex (value : BitVec 64) (s : State) : Host.Outcome State Fault Refusal := .next (tableIndex value s)

/-- TABLE_DATA. -/
def execTableData (value : BitVec 64) (s : State) : Host.Outcome State Fault Refusal := .next (tableData value s)

/-- REPORT_NOW. -/
def execReportNow (value : BitVec 64) (s : State) : Host.Outcome State Fault Refusal := .next (reportNow value s)

/-- MISPLACED_WRITE. -/
def execMisplacedWrite (s : State) : Host.Outcome State Fault Refusal := .next (misplacedWrite s)

end Sys2Proof.Machine
end

