-- ==== Sys2Proof/Machine/Lifecycle.lean ====
section
/-! DEFINITION. The commands of the render and present lanes: OPEN_FRAME, RELEASE, ABANDON, PRESENT and WITHDRAW
(chapters 1 to 3). -/

namespace Sys2Proof.Machine

/-- The defined surface an identifier names; none is BAD_SURFACE (R10, R12, R35, R56, R60). -/
def State.definedSurface (s : State) (id : BitVec 8) : Option (Fin 8) :=
  match surfaceNumber id with
  | some i => if (s.st.get i).geo.defined then some i else none
  | none => none

/-! ## OPEN_FRAME (R10) -/

/-- Does the Write Tracking Table hold an entry naming the surface with a generation? -/
def BandTracker.tracks (t : BandTracker) (i : Fin 8) (gen : BitVec 8) : Bool :=
  t.wtt.any fun e => e.elim false fun w => w.surface == i && w.gen == gen

/-- A new use of a surface (R10): its generation rises, it becomes RENDERING, its late-write count becomes 0 and
its band records take the cleared form. -/
def State.openSurface (s : State) (i : Fin 8) : State :=
  { s with st := s.st.modify i fun f => { f with state := .rendering, gen := f.gen + 1, late := 0 }
           rw := s.rw.mark }.clearBands i

/-- OPEN_FRAME, code 0x01 on the render lane (R10). -/
def openFrame (id : BitVec 8) (s : State) : State :=
  match s.definedSurface id with
  | none => s.result .render 0x01 .badSurface
  | some i =>
    let f := s.st.get i
    if f.state ≠ .free then s.result .render 0x01 .badState
    else if s.bt.tracks i (f.gen + 1) then s.result .render 0x01 .busy
    else (s.openSurface i).result .render 0x01 .ok

/-! ## RELEASE (R35, R36) -/

/-- The bands from `first` to `last` of a surface released at `lc` (R36). -/
def Bands.release (lc : Line) (first last : Nat) (t : Bands) : Bands :=
  t.mapIdx fun b r => if first ≤ b ∧ b ≤ last then r.release lc else r

/-- RELEASE, code 0x02 on the render lane: a last band of Nb or more acts as Nb − 1 (R35). -/
def release (id : BitVec 8) (first last : BitVec 16) (s : State) : State :=
  match s.definedSurface id with
  | none => s.result .render 0x02 .badSurface
  | some i =>
    let f := s.st.get i
    if f.state = .free then s.result .render 0x02 .badState
    else if f.geo.nb ≤ first.toNat then s.result .render 0x02 .range
    else if last.toNat < first.toNat then s.result .render 0x02 .range
    else
      let bands := s.bt.bands.modify i (Bands.release s.rtm.now first.toNat (min last.toNat (f.geo.nb - 1)))
      { s with bt := { s.bt with bands := bands } }.result .render 0x02 .ok

/-! ## ABANDON (R12) -/

/-- A surface leaves its use: FREE with its records cleared, its queue entry removed with it (R12). -/
def State.abandonSurface (s : State) (i : Fin 8) : State :=
  { s.freeSurface i with pq := s.pq.remove i }

/-- ABANDON, code 0x03 on the render lane (R12). -/
def abandon (id : BitVec 8) (s : State) : State :=
  match s.definedSurface id with
  | none => s.result .render 0x03 .badSurface
  | some i =>
    match (s.st.get i).state with
    | .free | .scanning | .held => s.result .render 0x03 .badState
    | .rendering | .queued => (s.abandonSurface i).result .render 0x03 .ok

/-! ## PRESENT (R56 to R58) -/

/-- Does the surface have the size of the timing set in force? False while none is (R56, R59). -/
def State.sizeMatches (s : State) (i : Fin 8) : Bool :=
  s.rtm.timing.elim false fun t => (s.st.get i).geo.fits t

/-- An entry joins the tail with the next present number and LC as its arrival stamp, and its surface becomes
QUEUED (R54, R55, R58). -/
def State.enqueue (s : State) (i : Fin 8) (mode : Mode) (latest : Bool) (admission : Nat) : State :=
  let number := s.pq.count + 1
  let e : Entry := { surface := i, mode := mode, admission := admission, latest := latest, arrival := s.rtm.now
                     number := number }
  { s with pq := { s.pq with queue := s.pq.queue ++ [e], count := number } }.setSurface i .queued

/-- PRESENT, code 0x10 on the present lane, with its checks in the order of R56. -/
def present (id : BitVec 8) (a b : BitVec 16) (s : State) : State :=
  match s.definedSurface id with
  | none => s.result .present 0x10 .badSurface
  | some i =>
    match presentMode a with
    | none => s.result .present 0x10 .range
    | some mode =>
      match (s.st.get i).state with
      | .queued => s.result .present 0x10 .duplicate
      | .free | .scanning | .held => s.result .present 0x10 .badState
      | .rendering =>
        if Config.queueSize ≤ s.pq.queue.length then s.result .present 0x10 .queueFull
        else if s.sizeMatches i then
          let admission := admissionOf mode b.toNat (s.st.get i).geo.nb
          (s.enqueue i mode (presentLatest a) admission.1).result .present 0x10 admission.2
        else s.result .present 0x10 .sizeMismatch

/-! ## WITHDRAW (R60) -/

/-- WITHDRAW, code 0x11 on the present lane (R60). -/
def withdraw (id : BitVec 8) (s : State) : State :=
  match s.definedSurface id with
  | none => s.result .present 0x11 .badSurface
  | some i =>
    if (s.st.get i).state = .queued then
      ({ s with pq := s.pq.remove i }.setSurface i .rendering).result .present 0x11 .ok
    else s.result .present 0x11 .badState

/-- OPEN_FRAME. -/
def execOpenFrame (id : BitVec 8) (s : State) : Host.Outcome State Fault Refusal := .next (openFrame id s)

/-- RELEASE. -/
def execRelease (id : BitVec 8) (first last : BitVec 16) (s : State) : Host.Outcome State Fault Refusal :=
  .next (release id first last s)

/-- ABANDON. -/
def execAbandon (id : BitVec 8) (s : State) : Host.Outcome State Fault Refusal := .next (abandon id s)

/-- PRESENT. -/
def execPresent (id : BitVec 8) (a b : BitVec 16) (s : State) : Host.Outcome State Fault Refusal :=
  .next (present id a b s)

/-- WITHDRAW. -/
def execWithdraw (id : BitVec 8) (s : State) : Host.Outcome State Fault Refusal := .next (withdraw id s)

end Sys2Proof.Machine
end

