-- ==== Sys2Proof/Machine/Traffic.lean ====
section
/-! DEFINITION. The console's traffic: REQUEST_ACCEPT (R138 to R140, with R29 to R34 and R155 to R160),
CONSOLE_RESPONSE (R144, with R39 to R41) and STRAY_RESPONSE (R143). -/

namespace Sys2Proof.Machine

/-! ## The command page (R139, R155, R158) -/

/-- What one beat of a command-page write does. The steps that no beat spells do nothing here. -/
def runCommand (i : Instr) (s : State) : State :=
  match i with
  | .openFrame id => openFrame id s
  | .release id first last => release id first last s
  | .abandon id => abandon id s
  | .present id a b => present id a b s
  | .withdraw id => withdraw id s
  | .commitSurface e => commitSurface e s
  | .commitTiming e => commitTiming e s
  | .commitFetch e => commitFetch e s
  | .commitNotice e => commitNotice e s
  | .commitMarker e => commitMarker e s
  | .commitReport e => commitReport e s
  | .outputOn => outputOn s
  | .outputOff => outputOff s
  | .clearEvents b c => clearEvents b c s
  | .viewSelect a => viewSelect a s
  | .softReset => softReset s
  | .unknown lane code => unknown lane code s
  | .wrongLane lane code => wrongLane lane code s
  | .tableIndex v => tableIndex v s
  | .tableData v => tableData v s
  | .reportNow v => reportNow v s
  | .misplacedWrite => misplacedWrite s
  | .powerOnReset _ _ _ | .linkReset | .crstRelease | .linkUpChange _ _ | .requestAccept _
  | .consoleResponse _ _ _ _ | .fetchResponse _ _ _ _ | .reportAck _ _ | .strayResponse _ _ _
  | .grant | .channelFree | .statusWriteBegin | .lineBoundary | .settleDone | .frontMinEnd
  | .stretchBoundary | .stretchExpiry | .activeStart | .activeLine | .endOfActive => s

/-- A decoded beat carried out (R155, R166, R157). -/
def runDecoded (d : Decoded) (s : State) : State :=
  match d with
  | .command i => runCommand i s
  | .commitNoTable => commitNoTable s
  | .inert => s

/-- Beat `i` of a write from address `a`: decoded if it lies in the command page (R139, R158). -/
def runBeat (a : Nat) (s : State) (p : Beat × Nat) : State :=
  let at_ := a + 8 * p.2
  if inCommandPage s.cd.wsel at_ then runDecoded (decodeBeat (at_ - commandPage s.cd.wsel) p.1) s else s

/-- The beats of a command-page write, decoded in beat order (R158). -/
def State.decodeBeats (s : State) (r : Request) : State := r.data.zipIdx.foldl (runBeat r.addr.toNat) s

/-! ## The offer to the Band Tracker (R29 to R34) -/

/-- What becomes of a request's offer to the Band Tracker. -/
inductive Offer
  /-- The request is not offered: it is no write to the extent of a defined surface that is not FREE (R139). -/
  | notOffered
  /-- Late: a write to a DRAINING or READY band of the surface (R32). -/
  | late (i : Fin 8)
  /-- The Write Tracking Table holds an entry with the tag (R33). -/
  | reuse
  /-- The Write Tracking Table is full (R31). -/
  | full
  /-- To be tracked (R30). -/
  | track (i : Fin 8) (b : Fin 128)
deriving DecidableEq, Repr

/-- The defined surface, not FREE, whose extent holds an address (R139). Extents do not overlap (R6; DESIGN CHOICE, log 24). -/
def State.surfaceAt (s : State) (a : Addr) : Option (Fin 8) :=
  s.st.find fun f => f.geo.holds a && f.state != .free

/-- Is a request a command-page write (R139)? -/
def State.toPage (s : State) (r : Request) : Bool := r.kind == .write && inCommandPage s.cd.wsel r.addr.toNat

/-- How many entries the Write Tracking Table holds (R27). -/
def BandTracker.occupancy (t : BandTracker) : Nat := t.wtt.count Option.isSome

/-- The Band Tracker's decision on a write to surface `i`, by the checks of R29 in their order. -/
def State.decideOffer (s : State) (r : Request) (i : Fin 8) : Offer :=
  let b := (s.st.get i).geo.bandOf r.addr
  match (s.bt.band i b).status with
  | .draining | .ready => .late i
  | .opened =>
    if (s.bt.wtt.get r.tag).isSome then .reuse
    else if Config.wttSize ≤ s.bt.occupancy then .full
    else .track i b

/-- The offer of a request (R139, R29). -/
def State.offer (s : State) (r : Request) : Offer :=
  match r.kind with
  | .read => .notOffered
  | .write =>
    if s.toPage r then .notOffered
    else
      match s.surfaceAt r.addr with
      | none => .notOffered
      | some i => s.decideOffer r i

/-- A tracked write: a Write Tracking Table entry, and 1 more pending (R30). -/
def State.trackWrite (s : State) (tag : Fin 256) (i : Fin 8) (b : Fin 128) : State :=
  let t := s.bt.modifyBand i b fun r => { r with pending := r.pending + 1 }
  { s with bt := { t with wtt := t.wtt.set tag (some { surface := i, gen := (s.st.get i).gen, band := b }) } }

/-- A late write: counted in its surface, in the frame if the surface is SCANNING, and in the counter (R17,
R32). -/
def State.lateWrite (s : State) (i : Fin 8) : State :=
  let s := { s with st := s.st.modify i fun f => { f with late := satInc 65535 f.late } }
  let s := if (s.st.get i).state = .scanning then s.onRecord fun r => { r with late := count16 r.late } else s
  s.raise .lateWrite

/-- The outcome of an accepted request's offer (R30, R32, R33, R34). -/
def State.takeOffer (s : State) (tag : Fin 256) (o : Offer) : State :=
  match o with
  | .notOffered | .full => s
  | .late i => s.lateWrite i
  | .reuse => s.linkProtocol .trackReuse tag.val
  | .track i b => s.trackWrite tag i b

/-! ## Acceptance (R138 to R140) -/

/-- Is a console tag outstanding (R137)? -/
def Classifier.outstanding (t : Classifier) (tag : Fin 256) : Bool :=
  decide (0 < (t.tags.get tag).queued) || decide (0 < (t.tags.get tag).issued)

/-- Does the Traffic Classifier itself raise the reuse of the tag: not where the Band Tracker finds the write late
or reusing a tracked tag (R140)? -/
def State.raisesReuse (s : State) (tag : Fin 256) (o : Offer) : Bool :=
  match o with
  | .late _ | .reuse => false
  | .notOffered | .full | .track _ _ => s.tc.outstanding tag

/-- Conditions 1 to 3 of R138. -/
def State.admits (s : State) (r : Request) : Bool :=
  s.tc.cport == .live && decide (s.tc.forward.length < Config.forwardSize) && !s.tc.discard.get r.tag

/-- The head request's acceptance, in the order of R138: the burst check, the tag check, the class's action, the
forwarding buffer, the queued count. A stall episode ends with it (R31). -/
def State.accept (s : State) (r : Request) (rest : List Request) (o : Offer) : State :=
  let s := { s with tc := { s.tc with arrivals := rest }, bt := { s.bt with stall := false } }
  let s := if crosses r.addr.toNat r.beats then s.linkProtocol .crossing r.tag.val else s
  let s := if s.raisesReuse r.tag o then s.linkProtocol .tagReuse r.tag.val else s
  let s := if s.toPage r then s.decodeBeats r else s.takeOffer r.tag o
  { s with tc := { s.tc with forward := s.tc.forward ++ [r]
                             tags := s.tc.tags.modify r.tag fun c => { c with queued := c.queued + 1 } } }

/-- The offer finds the table full: the write waits, and the first such offer begins a stall episode (R31). -/
def State.stallWrite (s : State) : State :=
  if s.bt.stall then s else { s with bt := { s.bt with stall := true } }.raise .trackStall

/-- The request at the head of the C-port is accepted if R138 allows it. A stalled write is offered afresh at every try,
also before an entry of the table has left: if its surface has become FREE it is then accepted untracked, where R31
offers it again each time an entry leaves (DESIGN CHOICE, log 39). -/
def State.tryHead (s : State) : State :=
  match s.tc.arrivals with
  | [] => s
  | r :: rest =>
    if s.admits r then
      match s.offer r with
      | .full => s.stallWrite
      | .notOffered => s.accept r rest .notOffered
      | .late i => s.accept r rest (.late i)
      | .reuse => s.accept r rest .reuse
      | .track i b => s.accept r rest (.track i b)
    else s

/-- REQUEST_ACCEPT: an arriving request joins the C-port, and the request at its head is tried (R138; DESIGN CHOICE, log 4). -/
def requestAccept (arriving : Option Request) (s : State) : State :=
  { s with tc := { s.tc with arrivals := s.tc.arrivals ++ arriving.toList } }.tryHead

/-! ## Responses on console tags (R144, R39 to R41) -/

/-- The Band Tracker is shown an acknowledgement: its entry goes, and credits its band where the surface is in the
use the entry names (R40); an ERROR raises WRITE_FAULT (R41). -/
def State.acknowledge (s : State) (tag : Fin 256) (status : Status) : State :=
  match s.bt.wtt.get tag with
  | none => s
  | some w =>
    let s := { s with bt := { s.bt with wtt := s.bt.wtt.set tag none } }
    let s := if status = .error then s.raise .writeFault else s
    let f := s.st.get w.surface
    if f.state ≠ .free ∧ f.gen = w.gen then
      { s with bt := s.bt.modifyBand w.surface w.band (Band.credit s.rtm.now (status == .error)) }
    else s

/-- What is returned on the C-port: nothing while it is IN_RESET (R145). -/
def Classifier.returnOn (t : Classifier) (r : Response) : Classifier :=
  { t with returned := if t.cport = .live then some r else none }

/-- CONSOLE_RESPONSE (R144). -/
def consoleResponse (tag : Fin 256) (kind : RespKind) (status : Status) (data : List (BitVec 64)) (s : State) :
    State :=
  let s := { s with tc := { s.tc with returned := none } }
  if s.tc.discard.get tag then { s with tc := { s.tc with discard := s.tc.discard.set tag false } }
  else if (s.tc.tags.get tag).issued = 0 then s.linkProtocol .noRequest tag.val
  else
    let s := { s with tc := { s.tc with tags := s.tc.tags.modify tag fun c => { c with issued := c.issued - 1 } } }
    let s := match kind with
      | .writeAck => s.acknowledge tag status
      | .readData => s
    { s with tc := s.tc.returnOn { tag := tag, kind := kind, status := status, data := data } }

/-- STRAY_RESPONSE: no block takes it (R143). -/
def strayResponse (tag : Fin 512) (kind : RespKind) (_status : Status) (s : State) : State :=
  if 336 ≤ tag.val then s.linkProtocol .unusedTag tag.val
  else if 320 ≤ tag.val ∧ kind = .readData then s.linkProtocol .reportRead tag.val
  else s

/-- REQUEST_ACCEPT. -/
def execRequestAccept (arriving : Option Request) (s : State) : Host.Outcome State Fault Refusal :=
  .next (requestAccept arriving s)

/-- CONSOLE_RESPONSE. -/
def execConsoleResponse (tag : Fin 256) (kind : RespKind) (status : Status) (data : List (BitVec 64)) (s : State) :
    Host.Outcome State Fault Refusal :=
  .next (consoleResponse tag kind status data s)

/-- STRAY_RESPONSE. -/
def execStrayResponse (tag : Fin 512) (kind : RespKind) (status : Status) (s : State) :
    Host.Outcome State Fault Refusal :=
  .next (strayResponse tag kind status s)

end Sys2Proof.Machine
end

