-- ==== Sys2Proof/Machine/Dispatch.lean ====
section
/-! DEFINITION. What each command does: one arm for each constructor of Instr. -/

namespace Sys2Proof.Machine

def exec (i : Instr) (s : State) : Host.Outcome State Fault Refusal :=
  match i with
  | .powerOnReset wsel linkUp crst => Sys2Proof.Machine.execPowerOnReset wsel linkUp crst s
  | .linkReset => Sys2Proof.Machine.execLinkReset s
  | .crstRelease => Sys2Proof.Machine.execCrstRelease s
  | .linkUpChange level sent => Sys2Proof.Machine.execLinkUpChange level sent s
  | .requestAccept arriving => Sys2Proof.Machine.execRequestAccept arriving s
  | .openFrame id => Sys2Proof.Machine.execOpenFrame id s
  | .release id first last => Sys2Proof.Machine.execRelease id first last s
  | .abandon id => Sys2Proof.Machine.execAbandon id s
  | .present id a b => Sys2Proof.Machine.execPresent id a b s
  | .withdraw id => Sys2Proof.Machine.execWithdraw id s
  | .commitSurface entry => Sys2Proof.Machine.execCommitSurface entry s
  | .commitTiming entry => Sys2Proof.Machine.execCommitTiming entry s
  | .commitFetch entry => Sys2Proof.Machine.execCommitFetch entry s
  | .commitNotice entry => Sys2Proof.Machine.execCommitNotice entry s
  | .commitMarker entry => Sys2Proof.Machine.execCommitMarker entry s
  | .commitReport entry => Sys2Proof.Machine.execCommitReport entry s
  | .outputOn => Sys2Proof.Machine.execOutputOn s
  | .outputOff => Sys2Proof.Machine.execOutputOff s
  | .clearEvents b c => Sys2Proof.Machine.execClearEvents b c s
  | .viewSelect a => Sys2Proof.Machine.execViewSelect a s
  | .softReset => Sys2Proof.Machine.execSoftReset s
  | .unknown lane code => Sys2Proof.Machine.execUnknown lane code s
  | .wrongLane lane code => Sys2Proof.Machine.execWrongLane lane code s
  | .tableIndex value => Sys2Proof.Machine.execTableIndex value s
  | .tableData value => Sys2Proof.Machine.execTableData value s
  | .reportNow value => Sys2Proof.Machine.execReportNow value s
  | .misplacedWrite => Sys2Proof.Machine.execMisplacedWrite s
  | .consoleResponse tag kind status data => Sys2Proof.Machine.execConsoleResponse tag kind status data s
  | .fetchResponse n kind status data => Sys2Proof.Machine.execFetchResponse n kind status data s
  | .reportAck n status => Sys2Proof.Machine.execReportAck n status s
  | .strayResponse tag kind status => Sys2Proof.Machine.execStrayResponse tag kind status s
  | .grant => Sys2Proof.Machine.execGrant s
  | .channelFree => Sys2Proof.Machine.execChannelFree s
  | .statusWriteBegin => Sys2Proof.Machine.execStatusWriteBegin s
  | .lineBoundary => Sys2Proof.Machine.execLineBoundary s
  | .settleDone => Sys2Proof.Machine.execSettleDone s
  | .frontMinEnd => Sys2Proof.Machine.execFrontMinEnd s
  | .stretchBoundary => Sys2Proof.Machine.execStretchBoundary s
  | .stretchExpiry => Sys2Proof.Machine.execStretchExpiry s
  | .activeStart => Sys2Proof.Machine.execActiveStart s
  | .activeLine => Sys2Proof.Machine.execActiveLine s
  | .endOfActive => Sys2Proof.Machine.execEndOfActive s

end Sys2Proof.Machine
end

