-- ==== Sys2Proof/Machine/Markers.lean ====
section
/-! DEFINITION. The levels of the marker lines (R131 to R134): each is computed from the state, at every moment. -/

namespace Sys2Proof.Machine

/-- Is the frame's kind, as fixed at the end of its front blank, REPEAT or FILL (R132)? -/
def RasterTimer.repeats (r : RasterTimer) : Bool :=
  match r.record.bind WorkingRecord.kind with
  | some .repeated | some .fill => true
  | some .new | none => false

/-- The level of a marker function: true for high (R131 to R134). -/
def State.functionLevel (s : State) (m : MarkerFn) : Bool :=
  match m with
  | .off => false
  | .frameStart => s.rtm.raster == .active && s.rtm.pos == 0
  | .active => s.rtm.raster == .active
  | .stretch => s.rtm.raster == .stretch
  | .bandMiss => s.po.missed
  | .repeated => s.rtm.raster == .active && s.rtm.repeats
  | .summary => s.rw.summary

/-- The level of MK0 or MK1 (R131). -/
def State.markerLevel (s : State) (line : Fin 2) : Bool := s.functionLevel (s.po.routing.get line)

end Sys2Proof.Machine
end

