-- ==== Sys2Proof/Safety.lean ====
section
/-! DEFINITION. What counts as a safe state: the laws of the device that the spec numbers, and what ties the parts
of the state together between two steps. -/

namespace Sys2Proof.Safety

open Sys2Proof.Machine

/-! ## Surfaces, bands and the Write Tracking Table (laws 1 to 4) -/

/-- Does an entry of the Write Tracking Table name this surface, generation and band (R28)? -/
def names (i : Fin 8) (gen : BitVec 8) (b : Fin 128) (e : Option Tracked) : Bool :=
  e == some { surface := i, gen := gen, band := b }

/-- Law 1 (R28): a band's pending count is the number of entries that name its surface, the surface's generation
and the band; in a FREE surface it is 0. -/
def PendingCounted (s : State) : Prop :=
  ∀ (i : Fin 8) (b : Fin 128), (s.bt.band i b).pending =
    if (s.st.get i).state = .free then 0 else s.bt.wtt.count (names i (s.st.get i).gen b)

/-- The band records of a FREE surface hold the cleared form (R9). -/
def FreeCleared (s : State) : Prop := ∀ i : Fin 8, (s.st.get i).state = .free → s.bt.bands.get i = Bands.cleared

/-- Laws 2 and 3 with R25, of one band record: READY has no pending write, SCANNED is READY, and the stamp is there
exactly while the band is READY. -/
def BandLawful (b : Band) : Prop :=
  (b.status = .ready → b.pending = 0) ∧ (b.scan = .scanned → b.status = .ready) ∧
    (b.stamp.isSome = true ↔ b.status = .ready)

/-- Laws 2 and 3 (R23, R24) and R25, of every band record. -/
def BandsLawful (s : State) : Prop := ∀ (i : Fin 8) (b : Fin 128), BandLawful (s.bt.band i b)

/-- Law 4 (R27): at most 64 entries; one per tag is in the table's type. -/
def TableBounded (s : State) : Prop := s.bt.occupancy ≤ Config.wttSize

/-- Band tracking is safe. -/
def Tracking (s : State) : Prop := PendingCounted s ∧ FreeCleared s ∧ BandsLawful s ∧ TableBounded s

/-! ## The queue and the surface states (laws 5 to 7) -/

/-- Law 5 (R53): at most 4 entries, no surface twice, and a surface QUEUED exactly while it has an entry. -/
def QueueLawful (s : State) : Prop :=
  s.pq.queue.length ≤ Config.queueSize ∧ (s.pq.queue.map Entry.surface).Nodup ∧
    ∀ i : Fin 8, (s.st.get i).state = .queued ↔ i ∈ s.pq.queue.map Entry.surface

/-- At most one surface is in a state. -/
def AtMostOne (s : State) (x : SurfState) : Prop :=
  ∀ i j : Fin 8, (s.st.get i).state = x → (s.st.get j).state = x → i = j

/-- Is the raster in BACK_BLANK or ACTIVE, where a frame is under way? -/
def inFrame (r : Raster) : Bool :=
  match r with
  | .backBlank | .active => true
  | .off | .settle | .frontMin | .stretch => false

/-- Law 6 (R8), and no surface is SCANNING outside BACK_BLANK and ACTIVE. -/
def ScanLawful (s : State) : Prop :=
  AtMostOne s .scanning ∧ AtMostOne s .held ∧
    (inFrame s.rtm.raster = false → ∀ i : Fin 8, (s.st.get i).state ≠ .scanning)

/-- The states of law 7. -/
def SurfState.sized (x : SurfState) : Bool :=
  match x with
  | .queued | .scanning | .held => true
  | .free | .rendering => false

/-- Law 7 (R16): a QUEUED, SCANNING or HELD surface has the size of the timing set in force. -/
def SizesLawful (s : State) : Prop :=
  ∀ i : Fin 8, SurfState.sized (s.st.get i).state = true →
    ∃ t, s.rtm.timing = some t ∧ (s.st.get i).geo.fits t = true

/-- Presentation is safe. -/
def Presentation (s : State) : Prop := QueueLawful s ∧ ScanLawful s ∧ SizesLawful s

/-! ## Extents (R1, R4 to R6) -/

/-- A defined surface's geometry is one that COMMIT(SURFACE) can install (R1, R4, R5). -/
def GeometryLawful (g : Geometry) : Prop :=
  g.base.toNat % 4096 = 0 ∧ 1280 ≤ g.pitch ∧ g.pitch ≤ 65536 ∧ g.pitch % 256 = 0 ∧
    320 ≤ g.width ∧ g.width ≤ 3840 ∧ g.width % 4 = 0 ∧ 240 ≤ g.height ∧ g.height ≤ 2160 ∧
    g.width * g.format.bytes ≤ g.pitch ∧ (g.hb = 16 ∨ g.hb = 32 ∨ g.hb = 64 ∨ g.hb = 128) ∧
    g.nb = ceilDiv g.height g.hb ∧ g.nb ≤ Config.maxBands ∧ g.extentEnd ≤ Config.addressLimit

/-- Do the extents of two geometries share no byte? -/
def apart (g h : Geometry) : Prop := g.extentEnd ≤ h.base.toNat ∨ h.extentEnd ≤ g.base.toNat

/-- Does an extent share no byte with `size` bytes from `base`? -/
def clearOf (g : Geometry) (base size : Nat) : Prop := g.extentEnd ≤ base ∨ base + size ≤ g.base.toNat

/-- Every defined surface has a lawful geometry; its extent shares no byte with another's, with the command page or
with the enabled report area (R6, R173); an undefined surface is FREE and has the geometry of R1. -/
def Extents (s : State) : Prop :=
  (∀ i : Fin 8, (s.st.get i).geo.defined = true → GeometryLawful (s.st.get i).geo) ∧
  (∀ i : Fin 8, (s.st.get i).geo.defined = false →
    (s.st.get i).state = .free ∧ (s.st.get i).geo = Geometry.undefined) ∧
  (∀ i j : Fin 8, i ≠ j → (s.st.get i).geo.defined = true → (s.st.get j).geo.defined = true →
    apart (s.st.get i).geo (s.st.get j).geo) ∧
  (∀ i : Fin 8, (s.st.get i).geo.defined = true → clearOf (s.st.get i).geo (commandPage s.cd.wsel) 0x1000) ∧
  (∀ i : Fin 8, (s.st.get i).geo.defined = true → s.rw.enable = true →
    clearOf (s.st.get i).geo s.rw.base.toNat reportAreaSize) ∧
  (s.rw.enable = true → s.rw.base.toNat % 4096 = 0 ∧ s.rw.base.toNat + reportAreaSize ≤ Config.addressLimit)

/-! ## The raster (laws 8 and 9) -/

/-- Law 8 (R78), with the ranges of R74. -/
def TimingLawful (t : TimingSet) : Prop :=
  320 ≤ t.w ∧ t.w ≤ 3840 ∧ t.w % 4 = 0 ∧ 240 ≤ t.h ∧ t.h ≤ 2160 ∧ t.w + 16 ≤ t.ht ∧ t.ht ≤ 8192 ∧
    10000 ≤ t.clock ∧ t.clock ≤ 1500000 ∧ 4 ≤ t.s ∧ t.s ≤ 255 ∧ 1 ≤ t.fp ∧ t.fp ≤ 255 ∧
    2000 ≤ t.flo ∧ t.flo ≤ t.fhi ∧ t.fhi ≤ 50000 ∧ t.settle ≤ 4095 ∧
    1 ≤ t.fMin ∧ t.fMin ≤ t.fMax ∧ t.h + t.s + t.fMax ≤ 65535

/-- The line's place within the raster state, and what goes with each state: a record from FRONT_MIN on (R81), the
frame's control in BACK_BLANK and ACTIVE (R87), a set in force outside OFF, and nothing pending and no line
ended in OFF (R75, R80, R96). -/
def RasterPlaced (r : RasterTimer) : Prop :=
  match r.raster, r.timing with
  | .off, _ =>
    r.record = none ∧ r.frame = none ∧ r.pendingSet = none ∧ r.offPending = false ∧ r.ended = false
  | .settle, some t => r.pos < t.settle ∧ r.record = none ∧ r.frame = none ∧ r.offPending = false
  | .frontMin, some t => r.pos < t.fMin ∧ r.record.isSome = true ∧ r.frame = none ∧ r.offPending = false
  | .stretch, some t =>
    t.fMin + r.pos + 1 ≤ t.fMax ∧ r.record.isSome = true ∧ r.frame = none ∧ r.offPending = false
  | .backBlank, some t => r.pos < t.s ∧ r.record.isSome = true ∧ r.frame.isSome = true
  | .active, some t => r.pos < t.h ∧ r.record.isSome = true ∧ r.frame.isSome = true
  | _, none => False

/-- Law 9 (R83): the F of a working record whose kind is fixed lies between the F_min and F_max of the set in
force, and a kind is fixed exactly while a frame is under way. -/
def FrontLawful (r : RasterTimer) : Prop :=
  ∀ w, r.record = some w →
    (w.kind.isSome = inFrame r.raster) ∧
      (w.kind.isSome = true → ∃ t, r.timing = some t ∧ t.fMin ≤ w.front ∧ w.front ≤ t.fMax)

/-! ## The fetcher (law 10) -/

/-- Law 10 (R103): a fetch lead is 1 to 16, and at most the S of the set in force. -/
def LeadLawful (timing : Option TimingSet) (lead : Nat) : Prop :=
  1 ≤ lead ∧ lead ≤ 16 ∧ ∀ t, timing = some t → lead ≤ t.s

/-- The lines the buffer holds (R107): none outside a frame, lines 0 on as the back blank begins them, and after
the hand-over of active line j the lines j + 1 to j + Lf_f that the frame has. -/
def bufferLines (r : RasterTimer) : List Nat :=
  match r.raster, r.timing, r.frame with
  | .backBlank, some t, some c => List.range (r.pos + 1 + c.lead - t.s)
  | .active, some t, some c => List.range' (r.pos + 1) (min c.lead (t.h - (r.pos + 1)))
  | _, _, _ => []

/-- The raster, the record, the leads and the line buffer are safe (laws 8, 9 and 10). -/
def Rastering (s : State) : Prop :=
  (∀ t, s.rtm.timing = some t → TimingLawful t) ∧ (∀ t, s.rtm.pendingSet = some t → TimingLawful t) ∧
  RasterPlaced s.rtm ∧ FrontLawful s.rtm ∧
  LeadLawful s.rtm.timing s.sf.inForce.lead ∧
  (∀ f, s.sf.waiting = some f → LeadLawful s.rtm.timing f.lead) ∧
  (∀ c, s.rtm.frame = some c → LeadLawful s.rtm.timing c.lead) ∧
  s.sf.buffer.map Slot.line = bufferLines s.rtm

/-- A slot is whole: a fill slot has no bursts; a surface slot has a burst for every 256 bytes of its line, and a
RETURNED burst all its pixels (R107, R108, R112). -/
def SlotWhole (w : Nat) (slot : Slot) : Prop :=
  match slot.source with
  | .fill => slot.bursts = []
  | .surface src =>
    slot.bursts.length = burstCount src.format w ∧
      ∀ i pixels, slot.bursts[i]? = some (.returned pixels) → pixels.length = burstLength src.format w i

/-- Every slot of the buffer is whole, and the prior line has W pixels (R107, R116). -/
def LinesWhole (s : State) : Prop :=
  (∀ t, s.rtm.timing = some t → ∀ slot ∈ s.sf.buffer, SlotWhole t.w slot) ∧
  (∀ t, s.rtm.timing = some t → ∀ line, s.sf.prior = some line → line.length = t.w) ∧
  (inFrame s.rtm.raster = false → s.sf.prior = none)

/-- Is this one of the band heights of R4, R5 and R87? -/
def BandHeight (hb : Nat) : Prop := hb = 16 ∨ hb = 32 ∨ hb = 64 ∨ hb = 128

/-- Every surface's band height, and that of the frame's grid, is one of the four (R1, R5, R87). -/
def GridLawful (s : State) : Prop :=
  (∀ i : Fin 8, BandHeight (s.st.get i).geo.hb) ∧ ∀ c, s.rtm.frame = some c → BandHeight c.hb

/-- The raster is safe, its lines are whole and its grid is lawful. -/
def Scanout (s : State) : Prop := Rastering s ∧ LinesWhole s ∧ GridLawful s

/-- A read in flight: tag 256 + n. -/
def InFlight (s : State) (n : Fin 64) (e : ReadEntry) : Prop := s.sf.reads.get n = some e ∧ e.state = .inFlight

/-- Every read in flight has its burst, IN_FLIGHT, in the buffer, and no two have the same (R110, R111). -/
def ReadsMatched (s : State) : Prop :=
  (∀ n e, InFlight s n e → ∃ slot ∈ s.sf.buffer, slot.line = e.line ∧ slot.bursts[e.burst]? = some .inFlight) ∧
  (∀ m n e f, InFlight s m e → InFlight s n f → e.line = f.line → e.burst = f.burst → m = n)

/-- The raster is safe and its reads are matched. -/
def Fetching (s : State) : Prop := Rastering s ∧ ReadsMatched s

/-! ## The Report Writer (laws 11 and 12) -/

/-- How many report tags hold a write of a kind (R179). -/
def tagsHolding (r : ReportWriter) (w : ReportWrite) : Nat := r.tags.count fun x => x == some w

/-- A status write in progress has issued at most its eight view bursts, the record's after all of them, and one
that was cut short still waits for a burst (R174, R182). -/
def WriteLawful (w : StatusWrite) : Prop :=
  w.viewAcked ≤ w.viewIssued ∧ w.viewIssued ≤ viewBursts ∧ (w.recordIssued = true → w.viewAcked = viewBursts) ∧
    (w.cutShort = true → 0 < w.outstanding)

/-- Every report tag's write is one the Report Writer waits for, and every waiting notice has something that will
release it (R174, R179, R182, R185, R187). -/
def ReportsLawful (r : ReportWriter) : Prop :=
  tagsHolding r .viewBurst = r.write.elim 0 (fun w => w.viewIssued - w.viewAcked) ∧
  tagsHolding r .statusBurst = r.write.elim 0 (fun w => w.recordIssued.toNat) ∧
  (∀ w, r.write = some w → WriteLawful w) ∧
  (∀ e : Fin 8, r.waiting.get e = some .thisWrite → ∃ w, r.write = some w ∧ w.cutShort = false) ∧
  (∀ (e : Fin 8) frame, r.waiting.get e = some (.record frame) →
    frame ∈ r.frames.map FrameRecord.number ∨ 0 < tagsHolding r (.record frame)) ∧
  (r.enable = false → r.frames = [] ∧ (∀ w, r.write = some w → w.cutShort = true) ∧
    ∀ e : Fin 8, r.waiting.get e ≠ some .nextWrite)

/-- While the Report Writer presents no claim the report wait age is 0 (R149). -/
def AgeLawful (s : State) : Prop := s.rw.claims = false → s.ma.age = 0

/-- Reporting is safe. -/
def Reporting (s : State) : Prop := ReportsLawful s.rw ∧ AgeLawful s

/-- Law 11 (R185): the frame log's write index is the frame count modulo 64. -/
def LogLawful (s : State) : Prop := s.rw.logIndex.toNat = s.rtm.frameCount.toNat % 64

/-- Law 12 (R176): the summary is set exactly while a flag is. -/
def SummaryLawful (s : State) : Prop := s.rw.summary = true ↔ s.rw.flags ≠ 0

/-- The lists, counts and ages that the spec bounds keep their bounds (R1, R137, R141, R149, R178, R185), and laws
11 and 12 hold. -/
def Bounded (s : State) : Prop :=
  LogLawful s ∧ SummaryLawful s ∧ s.rw.frames.length ≤ Config.frameQueueSize ∧
  s.ma.age ≤ Config.reportAgeLimit ∧ (∀ i : Fin 8, (s.st.get i).late ≤ 65535) ∧
  s.rw.counters.bandMisses ≤ counterTop ∧ s.rw.counters.repeats ≤ counterTop ∧
  s.rw.counters.fillFrames ≤ counterTop ∧ s.rw.counters.lateWrites ≤ counterTop ∧
  s.rw.counters.drops ≤ counterTop ∧ s.rw.counters.fetchLate ≤ counterTop ∧
  s.rw.counters.fetchErrors ≤ counterTop ∧ s.rw.counters.trackStalls ≤ counterTop

/-! ## The traffic path (R137, R144 to R147) -/

/-- The tag table, the discard set and the forwarding buffer agree (R137, R144, R146). -/
def Traffic (s : State) : Prop :=
  s.tc.forward.length ≤ Config.forwardSize ∧
  (∀ tag : Fin 256, (s.tc.tags.get tag).queued = s.tc.forward.countP fun r => r.tag == tag) ∧
  (∀ tag : Fin 256, (s.tc.tags.get tag).issued ≤ 255) ∧
  (∀ tag : Fin 256, s.tc.discard.get tag = true →
    (s.tc.tags.get tag).queued = 0 ∧ (s.tc.tags.get tag).issued = 0) ∧
  (s.tc.cport = .inReset ↔ s.tc.crst = true) ∧
  (s.tc.cport = .inReset → s.tc.forward = [] ∧ ∀ tag : Fin 256, (s.tc.tags.get tag).issued = 0) ∧
  (s.bt.stall = true → s.tc.arrivals ≠ [] ∧ s.tc.cport = .live)

/-- A safe state: every law of the device. -/
def Safe (s : State) : Prop :=
  Tracking s ∧ Presentation s ∧ Extents s ∧ Scanout s ∧ Fetching s ∧ Reporting s ∧ Bounded s ∧ Traffic s

/-! ## What claims say of events and results -/

/-- What an occurrence of a notice source leaves of one entry's waiting notice (R187): a waiting notice stays; an
enabled entry of the source gains one with the condition given. -/
def Notified (x : Source) (c : Condition) (before after : ReportWriter) : Prop :=
  ∀ e : Fin 8, after.waiting.get e =
    if (before.waiting.get e).isSome = true then before.waiting.get e
    else if (before.notices.get e).enabled = true ∧ (before.notices.get e).source = x then some c else none

/-- The Report Writer after an event (R175, R176, R178, R181, R187): its flag and the summary are set, its counter
rises, its notices wait, the record is dirty, and nothing else changes. -/
def EventTaken (e : Event) (before after : ReportWriter) : Prop :=
  after.flags = before.flags ||| BitVec.twoPow 16 e.number ∧ after.summary = true ∧
    after.counters = before.counters.count e ∧ after.dirty = true ∧
    Notified (.flag e) (if before.enable then .nextWrite else .released) before after ∧
    after = { before with flags := after.flags, summary := after.summary, counters := after.counters
                          dirty := after.dirty, waiting := after.waiting }

/-- The Report Writer after the status record was marked dirty, and nothing else (R181). -/
def Dirtied (before after : ReportWriter) : Prop := after = { before with dirty := true }

/-- The lane record of a lane. -/
def laneOf (d : Decoder) (l : Lane) : LaneRecord :=
  match l with
  | .render => d.render
  | .present => d.present
  | .control => d.control

/-- Is a result one of those that take the command (R160)? -/
def taken (r : Result) : Bool := r == .ok || r == .adjusted

/-- The state after a command's result, from the state `u` that the command's effect left (R159, R160, R181): the
lane's record counts the command and keeps its code and result, the other lanes' records and the rest of the
decoder stay; a refusal raises COMMAND_REFUSED, every other result marks the record dirty; nothing else changes. -/
def Resulted (u t : State) (l : Lane) (code : BitVec 8) (r : Result) : Prop :=
  laneOf t.cd l = { taken := (laneOf u.cd l).taken + 1, code := code, result := r } ∧
    (∀ m, m ≠ l → laneOf t.cd m = laneOf u.cd m) ∧
    t.cd = { u.cd with render := t.cd.render, present := t.cd.present, control := t.cd.control } ∧
    (if taken r then Dirtied u.rw t.rw else EventTaken .commandRefused u.rw t.rw) ∧
    t = { u with cd := t.cd, rw := t.rw }

/-- The state after a link fault, and nothing else (R143, R153): LINK_PROTOCOL, with the cause and the tag kept. -/
def LinkFaulted (cause : FaultCause) (tag : Nat) (u t : State) : Prop :=
  t.tc = { u.tc with fault := some { cause := cause, tag := tag } } ∧ EventTaken .linkProtocol u.rw t.rw ∧
    t = { u with tc := t.tc, rw := t.rw }

/-- The Report Writer after `n` occurrences of an event, one after another (R175, R178, R181, R187). -/
def EventTimes (e : Event) (n : Nat) (before after : ReportWriter) : Prop :=
  (n = 0 → after = before) ∧
  (0 < n → after.flags = before.flags ||| BitVec.twoPow 16 e.number ∧ after.summary = true ∧
    after.counters = (fun c => Counters.count c e)^[n] before.counters ∧ after.dirty = true ∧
    Notified (.flag e) (if before.enable then .nextWrite else .released) before after ∧
    after = { before with flags := after.flags, summary := after.summary, counters := after.counters
                          dirty := after.dirty, waiting := after.waiting })

/-! ## What claims say of the lanes (R191) -/

/-- Is a command one that a lane word spells (R160, R191)? -/
def LaneCommand (i : Instr) : Prop :=
  match i with
  | .openFrame _ | .release _ _ _ | .abandon _ | .present _ _ _ | .withdraw _
  | .commitSurface _ | .commitTiming _ | .commitFetch _ | .commitNotice _ | .commitMarker _ | .commitReport _
  | .outputOn | .outputOff | .clearEvents _ _ | .viewSelect _ | .softReset
  | .unknown _ _ | .wrongLane _ _ => True
  | .powerOnReset _ _ _ | .linkReset | .crstRelease | .linkUpChange _ _ | .requestAccept _
  | .tableIndex _ | .tableData _ | .reportNow _ | .misplacedWrite
  | .consoleResponse _ _ _ _ | .fetchResponse _ _ _ _ | .reportAck _ _ | .strayResponse _ _ _
  | .grant | .channelFree | .statusWriteBegin | .lineBoundary | .settleDone | .frontMinEnd
  | .stretchBoundary | .stretchExpiry | .activeStart | .activeLine | .endOfActive => False

/-! ## What claims say of lines (R80, R126, R128) -/

/-- The port at the boundary of a blank line, by the table of R128: a waiting port starts at a resume point, a
sending port sends one token of the line's kind, and otherwise the line is dropped (R126). -/
def BlankSent (kind : Token) (before after : PixelPort) : Prop :=
  after = { before with state := after.state, sent := after.sent } ∧
    (before.state = .down → after.state = .down ∧ after.sent = .nothing) ∧
    (before.state = .waiting → kind = .back → after.state = .waiting ∧ after.sent = .nothing) ∧
    (before.state = .waiting → kind ≠ .back → after.state = .sending ∧ after.sent = .token kind) ∧
    (before.state = .sending → after.state = .sending ∧ after.sent = .token kind)

/-- A blank line begins, line `pos` of a raster state: LC counts it (R80), a BAND_MISS level of the line before
falls (R133), the port has its boundary, and nothing else changes. -/
def BlankBegun (kind : Token) (raster : Raster) (pos : Nat) (s t : State) : Prop :=
  t.rtm = { s.rtm with raster := raster, pos := pos, ended := false, lc := s.rtm.lc + 1 } ∧
    BlankSent kind { s.po with missed := false } t.po ∧ t = { s with rtm := t.rtm, po := t.po }

/-- FRONT_MIN begins: its first line, and an empty working record (R81, R83). -/
def FrontMinBegun (s t : State) : Prop :=
  ∃ u, BlankBegun .front .frontMin 0 s u ∧ t = { u with rtm := { u.rtm with record := some .empty } }

/-- SETTLE begins under a set. With a settle of 0 SETTLE_DONE is raised and FRONT_MIN begins at once (R82). -/
def SettleBegun (tm : TimingSet) (s t : State) : Prop :=
  (0 < tm.settle → BlankBegun .settle .settle 0 s t) ∧
  (tm.settle = 0 → ∃ u, EventTaken .settleDone s.rw u.rw ∧ u = { s with rw := u.rw } ∧ FrontMinBegun u t)

/-! ## What claims say of settings that come into force (R16, R70, R92, R102, R103) -/

/-- Has a surface another size than a timing set? -/
def misfit (s : State) (tm : TimingSet) (i : Fin 8) : Prop :=
  ¬ ((s.st.get i).geo.width = tm.w ∧ (s.st.get i).geo.height = tm.h)

/-- The surfaces that a timing set frees: those of another size that are HELD or have a queue entry (R16, R70). -/
def freedBy (s : State) (tm : TimingSet) (i : Fin 8) : Prop :=
  misfit s tm i ∧ ((s.st.get i).state = .held ∨ ∃ e ∈ s.pq.queue, e.surface = i)

/-- The queue entries whose surface has the size of a timing set, in their order (R70). -/
def fitting (s : State) (tm : TimingSet) : List Entry :=
  s.pq.queue.filter fun e =>
    (s.st.get e.surface).geo.width == tm.w && (s.st.get e.surface).geo.height == tm.h

/-- A surface is freed, with its band records cleared (R9), and another is left as it is. -/
def Freed (freed : Fin 8 → Prop) (s t : State) : Prop :=
  ∀ i : Fin 8,
    (freed i → t.st.get i = { s.st.get i with state := .free } ∧ t.bt.bands.get i = Bands.cleared) ∧
    (¬ freed i → t.st.get i = s.st.get i ∧ t.bt.bands.get i = s.bt.bands.get i)

/-- A timing set comes into force (R92): it replaces the set in force and none is pending; the HELD surface and the
queue entries of another size go, PRESENT_DROPPED once for each entry (R16, R70); the fetch leads are reduced
(R103); nothing else changes. -/
def TimingInForce (tm : TimingSet) (s t : State) : Prop :=
  t.rtm = { s.rtm with timing := some tm, pendingSet := none } ∧
  t.sf = { s.sf with inForce := { s.sf.inForce with lead := min s.sf.inForce.lead (min 16 tm.s) }
                     waiting := s.sf.waiting.map fun f => { f with lead := min f.lead (min 16 tm.s) } } ∧
  Freed (freedBy s tm) s t ∧
  t.pq = { s.pq with queue := fitting s tm } ∧
  (∃ r, (r = s.rw ∨ Dirtied s.rw r) ∧ ((∃ i, freedBy s tm i) → t.rw.dirty = true) ∧
    ((∀ i, ¬ freedBy s tm i) → r = s.rw) ∧
    EventTimes .presentDropped (s.pq.queue.length - (fitting s tm).length) r t.rw) ∧
  t = { s with rtm := t.rtm, sf := t.sf, st := t.st, bt := { s.bt with bands := t.bt.bands }, pq := t.pq, rw := t.rw }

/-- A fetch set comes into force (R102, R103, R127): its lead at most the smaller of 16 and the S of the set in
force, no set waiting, the port given its pixels per transfer. -/
def FetchInForce (f : FetchSet) (s t : State) : Prop :=
  let lead := s.rtm.timing.elim f.lead fun tm => min f.lead (min 16 tm.s)
  t = { s with sf := { s.sf with inForce := { f with lead := lead }, waiting := none }
               po := { s.po with ppt := f.ppt } }

/-- The raster enters OFF (R81, R92, R96, R102, R126): no line begins, an open record is discarded, the port sends
nothing, and then a pending timing set and a waiting fetch set come into force. -/
def EnteredOff (s t : State) : Prop :=
  ∃ v w : State,
    v = { s with rtm := { s.rtm with raster := .off, pos := 0, ended := false, offPending := false, record := none
                                     frame := none, lag := none }
                 po := { s.po with sent := .nothing, missed := false } } ∧
    (s.rtm.pendingSet = none → w = v) ∧ (∀ tm, s.rtm.pendingSet = some tm → TimingInForce tm v w) ∧
    (w.sf.waiting = none → t = w) ∧ (∀ f, w.sf.waiting = some f → FetchInForce f w t)

/-! ## What claims say of the report area and its notices (R174) -/

/-- The use of the report area ends and a new base and enable are installed (R174): waiting records are discarded
and their notices released; a status write in progress issues no further burst, and ends if none is outstanding;
notices held behind status writes are held afresh. -/
def AreaEnded (base : Addr) (enable : Bool) (before after : ReportWriter) : Prop :=
  after.frames = [] ∧ after.base = base ∧ after.enable = enable ∧
  (∀ w, before.write = some w → w.viewIssued - w.viewAcked + w.recordIssued.toNat = 0 → after.write = none) ∧
  (∀ w, before.write = some w → 0 < w.viewIssued - w.viewAcked + w.recordIssued.toNat →
    after.write = some { w with cutShort := true }) ∧
  (before.write = none → after.write = none) ∧
  (∀ e : Fin 8, after.waiting.get e =
    match before.waiting.get e with
    | some (.record f) => if f ∈ before.frames.map FrameRecord.number then some .released else some (.record f)
    | some .nextWrite | some .thisWrite => if enable then some .nextWrite else some .released
    | some .released => some .released
    | none => none) ∧
  after = { before with frames := after.frames, base := after.base, enable := after.enable, write := after.write
                        waiting := after.waiting }

/-! ## The staged fields (R163) -/

/-- A field of a row of staged fields, if it has one of that number. -/
def fieldAt {n : Nat} (row : Table (BitVec 32) n) (f : Nat) : Option (BitVec 32) := row.list[f]?

/-- The staged field that a table id, an entry and a field index name, if they name one (R163, R165). -/
def stagedField (g : Staging) (table entry field : Nat) : Option (BitVec 32) :=
  match table with
  | 1 => (g.surface.list[entry]?).bind fun row => fieldAt row field
  | 2 => if entry = 0 then fieldAt g.timing field else none
  | 3 => if entry = 0 then fieldAt g.fetch field else none
  | 4 => (g.notice.list[entry]?).bind fun row => fieldAt row field
  | 5 => if field = 0 then fieldAt g.marker entry else none
  | 6 => if entry = 0 then fieldAt g.report field else none
  | _ => none

/-! ## What claims say of the console's requests (R138 to R140) -/

/-- Conditions 1 to 3 of R138. -/
def Admitted (s : State) (r : Request) : Prop :=
  s.tc.cport = .live ∧ s.tc.forward.length < 16 ∧ s.tc.discard.get r.tag = false

/-- Is a console tag outstanding (R137)? -/
def Outstanding (s : State) (tag : Fin 256) : Prop := 0 < (s.tc.tags.get tag).queued ∨ 0 < (s.tc.tags.get tag).issued

/-- Does the command page hold an address (R154)? -/
def InPage (s : State) (a : Nat) : Prop :=
  0xFFFFF00000 + 0x1000 * s.cd.wsel.toNat ≤ a ∧ a < 0xFFFFF00000 + 0x1000 * s.cd.wsel.toNat + 0x1000

/-- Does the extent of surface `i`, defined and not FREE, hold an address (R2, R139)? -/
def InExtent (s : State) (i : Fin 8) (a : Addr) : Prop :=
  let g := (s.st.get i).geo
  g.defined = true ∧ (s.st.get i).state ≠ .free ∧ g.base.toNat ≤ a.toNat ∧ a.toNat < g.base.toNat + g.pitch * g.height

/-- Does a request break the 4 KiB rule (R135, R139)? -/
def Crossing (r : Request) : Prop := 4096 < r.addr.toNat % 4096 + 8 * r.beats

/-- The request at the head is taken from the C-port, and a stall episode ends with it (R31, R138). -/
def headTaken (rest : List Request) (s : State) : State :=
  { s with tc := { s.tc with arrivals := rest }, bt := { s.bt with stall := false } }

/-- Steps 1 and 2 of an acceptance (R138 to R140): the burst check, and the tag check where it is the Traffic
Classifier's. -/
def Checked (r : Request) (reuse : Prop) (s u : State) : Prop :=
  ∃ v, (Crossing r → LinkFaulted .crossing r.tag.val s v) ∧ (¬ Crossing r → v = s) ∧
    (reuse → LinkFaulted .tagReuse r.tag.val v u) ∧ (¬ reuse → u = v)

/-- Steps 4 and 5 of an acceptance (R138): the request joins the forwarding buffer and its tag's queued count
rises. -/
def Forwarded (r : Request) (u t : State) : Prop :=
  t = { u with tc := { u.tc with forward := u.tc.forward ++ [r], tags := t.tc.tags } } ∧
    ∀ tag : Fin 256, t.tc.tags.get tag =
      if tag = r.tag then { u.tc.tags.get tag with queued := (u.tc.tags.get tag).queued + 1 } else u.tc.tags.get tag

/-- A beat of the command page carried out: its command's step, RANGE for a COMMIT of no table (R166), or
nothing (R157). -/
def BeatRun (d : Decoded) (s t : State) : Prop :=
  match d with
  | .command i => exec i s = .next t
  | .commitNoTable => Resulted s t .control 0x20 .range
  | .inert => t = s

/-- The beats of a write from address `a`, in beat order: those in the page at `page` are carried out (R139,
R158). -/
def BeatsRun (page a : Nat) (beats : List Beat) (s t : State) : Prop :=
  match beats with
  | [] => t = s
  | b :: rest =>
    ∃ u, (page ≤ a ∧ a < page + 0x1000 → BeatRun (decodeBeat (a - page) b) s u) ∧
      (¬ (page ≤ a ∧ a < page + 0x1000) → u = s) ∧ BeatsRun page (a + 8) rest u t

/-! ## What claims say of the M-port (R109, R149 to R151, R179, R182) -/

/-- Is a slot complete: a fill slot, or one whose every burst is RETURNED or FAILED (R109)? -/
def Complete (slot : Slot) : Prop := slot.source = .fill ∨ ∀ b ∈ slot.bursts, b = .failed ∨ ∃ pixels, b = .returned pixels

/-- Does a slot hold a burst still to be issued? -/
def ToIssue (slot : Slot) : Prop := slot.source ≠ .fill ∧ Burst.notIssued ∈ slot.bursts

/-- Does the fetcher present its claim (R109)? -/
def FetchClaims (s : State) : Prop :=
  (∃ slot ∈ s.sf.buffer, ToIssue slot) ∧ ∃ n : Fin 64, s.sf.reads.get n = none

/-- Is that claim urgent: does the buffer hold fewer than two complete slots (R109)? -/
def Urgent (s : State) : Prop :=
  ∀ i j : Nat, i < j → ∀ a b, s.sf.buffer[i]? = some a → s.sf.buffer[j]? = some b → ¬ (Complete a ∧ Complete b)

/-- Is a burst of a status write ready (R182, R174)? -/
def BurstReady (w : StatusWrite) : Prop :=
  w.cutShort = false ∧ (w.viewIssued < 8 ∨ (8 ≤ w.viewAcked ∧ w.recordIssued = false))

/-- Does the Report Writer present its claim (R179)? -/
def ReportClaims (s : State) : Prop :=
  (s.rw.frames ≠ [] ∨ (∃ w, s.rw.write = some w ∧ BurstReady w) ∨ ∃ e : Fin 8, s.rw.waiting.get e = some .released) ∧
    ∃ n : Fin 16, s.rw.tags.get n = none

/-- The claimant that a grant takes, by the order of R151; none while no claim is presented. The age is at most
32. -/
def Granted (s : State) (x : Option Claimant) : Prop :=
  let aged := ReportClaims s ∧ 32 ≤ s.ma.age
  let pass := s.tc.forward ≠ []
  (FetchClaims s → Urgent s → x = some .fetchUrgent) ∧
    (¬ (FetchClaims s ∧ Urgent s) → aged → x = some .report) ∧
    (¬ (FetchClaims s ∧ Urgent s) → ¬ aged → pass → x = some .pass) ∧
    (¬ aged → ¬ pass → FetchClaims s → ¬ Urgent s → x = some .fetch) ∧
    (¬ FetchClaims s → ¬ pass → ReportClaims s → x = some .report) ∧
    (¬ FetchClaims s → ¬ pass → ¬ ReportClaims s → x = none)

/-- The report wait age after a grant to another claimant (R149, R152). -/
def AgedBy (s : State) (age : Nat) : Prop :=
  (ReportClaims s → age = min 32 (s.ma.age + 1)) ∧ (¬ ReportClaims s → age = 0)

/-- The entry `n` is the lowest free one of a table. -/
def LowestFree {α : Type} {k : Nat} (table : Table (Option α) k) (n : Fin k) : Prop :=
  table.get n = none ∧ ∀ m : Fin k, m < n → table.get m ≠ none

/-- A status write ends (R182, R187): the notices that waited for it are released. -/
def WriteEnded (before after : ReportWriter) : Prop :=
  (∀ e : Fin 8, after.waiting.get e =
    if before.waiting.get e = some .thisWrite then some .released else before.waiting.get e) ∧
    after = { before with write := none, waiting := after.waiting }

/-! ## What claims say of selections (R62, R65 to R68) -/

/-- Is an entry admissible: are its leading bands READY, for a RACE entry those of its admission count and
otherwise all of its surface (R62)? -/
def Admissible (s : State) (e : Entry) : Prop :=
  ∀ b : Fin 128, b.val < (if e.mode = .race then e.admission else (s.st.get e.surface).geo.nb) →
    (s.bt.band e.surface b).status = .ready

/-- Is an entry a candidate of a mid-active decision point of band height `hb` (R66)? -/
def SplitCandidate (s : State) (hb : Nat) (e : Entry) : Prop :=
  e.mode = .split ∧ Admissible s e ∧ (s.st.get e.surface).geo.hb = hb

/-- The entry that a selection takes, with the older and the newer ones: the newest candidate that carries LATEST,
or else the head if it is a candidate (R65). -/
def Chosen (candidate : Entry → Prop) (queue older : List Entry) (e : Entry) (newer : List Entry) : Prop :=
  queue = older ++ e :: newer ∧ candidate e ∧
    ((e.latest = true ∧ ∀ x ∈ newer, ¬ (candidate x ∧ x.latest = true)) ∨
      (older = [] ∧ ∀ x ∈ queue, ¬ (candidate x ∧ x.latest = true)))

/-- A selection takes nothing: no candidate carries LATEST, and the head is no candidate (R65). -/
def NoneChosen (candidate : Entry → Prop) (queue : List Entry) : Prop :=
  (∀ x ∈ queue, ¬ (candidate x ∧ x.latest = true)) ∧ ∀ e rest, queue = e :: rest → ¬ candidate e

/-- A count of the working record after `n` more occurrences (R94). -/
def countTimes (n c : Nat) : Nat := (fun x => min 65535 (x + 1))^[n] c

/-- An entry is taken (R67, R68): the older entries' surfaces are FREE, PRESENT_DROPPED is raised and the frame's
dropped count rises for each; the taken surface is SCANNING, its number the last taken, and PRESENT_TAKEN is
signalled. -/
def EntryTaken (older : List Entry) (e : Entry) (newer : List Entry) (s t : State) : Prop :=
  t.pq = { s.pq with queue := newer, lastTaken := e.number } ∧
  (∀ i : Fin 8, t.st.get i = { s.st.get i with
    state := if i = e.surface then .scanning else if i ∈ older.map Entry.surface then .free
             else (s.st.get i).state }) ∧
  (∀ i : Fin 8, t.bt.bands.get i = if i ∈ older.map Entry.surface then Bands.cleared else s.bt.bands.get i) ∧
  (∃ r, EventTimes .presentDropped older.length s.rw r ∧ Notified .presentTaken .released r t.rw ∧
    t.rw = { r with dirty := true, waiting := t.rw.waiting }) ∧
  t.rtm = { s.rtm with record := s.rtm.record.map fun w => { w with dropped := countTimes older.length w.dropped } } ∧
  t = { s with pq := t.pq, st := t.st, bt := { s.bt with bands := t.bt.bands }, rw := t.rw, rtm := t.rtm }

/-- The surface that was SCANNING, if one was, is FREE with its records cleared (R15). -/
def ScanningFreed (s t : State) : Prop :=
  Freed (fun i => (s.st.get i).state = .scanning) s t ∧ (t.rw = s.rw ∨ Dirtied s.rw t.rw) ∧
    t = { s with st := t.st, bt := { s.bt with bands := t.bt.bands }, rw := t.rw }

/-! ## What claims say of fetch points, lines and frames (R46, R87 to R90, R93, R104 to R107, R115 to R117) -/

/-- A surface as the source of a band (R105). -/
def asSource (s : State) (i : Fin 8) : BandSource :=
  let g := (s.st.get i).geo
  .surface { surface := i, base := g.base, pitch := g.pitch, format := g.format }

/-- The fetch point of band `b`: the band decision is made (R46; see BandDecision) and recorded (R105). -/
def PointTaken (c : FrameControl) (b : Nat) (s t : State) : Prop :=
  let d := s.decideBand c.decision b
  t = { d.2 with sf := { d.2.sf with sources := d.2.sf.sources.set b (some d.1) } }

/-- The fetch start of line `l`, if the frame has it (R106): its slot joins the buffer, from the source recorded
for its band, with a burst for every 256 bytes of a surface's line (R107, R108). A band with no record gives fill
(log 22). -/
def LineFetched (tm : TimingSet) (c : FrameControl) (l : Nat) (s t : State) : Prop :=
  (tm.h ≤ l → t = s) ∧
  (l < tm.h → ∃ slot : Slot, slot.line = l ∧ slot.source = (s.sf.sources.getD (l / c.hb) none).getD .fill ∧
    (slot.source = .fill → slot.bursts = []) ∧
    (∀ src, slot.source = .surface src →
      slot.bursts = List.replicate ((tm.w * (if src.format = .p32 then 4 else 8) + 255) / 256) .notIssued) ∧
    t = { s with sf := { s.sf with buffer := s.sf.buffer ++ [slot] } })

/-- The front blank ends and the first BACK_BLANK line begins (R87, R88, R104): the record's kind, source, F and
stretch-skipped indication and the frame's control are fixed, the source list is made ready, and band 0's fetch
point comes at once where the lead reaches S. -/
def BackBlankBegun (tm : TimingSet) (c : FrameControl) (source : Option (Fin 8)) (front : Nat) (skipped : Bool)
    (s t : State) : Prop :=
  ∃ u v, BlankBegun .back .backBlank 0 s u ∧
    v = { u with
      rtm := { u.rtm with
        record := u.rtm.record.map fun w =>
          { w with kind := some c.decision, source := source, front := front, skipped := skipped }
        frame := some c }
      sf := { u.sf with sources := List.replicate c.nb none } } ∧
    (0 < tm.s - c.lead → t = v) ∧
    (tm.s - c.lead = 0 → ∃ x, PointTaken c 0 v x ∧ LineFetched tm c 0 x t)

/-- The front blank ends with a taken entry: a NEW frame of its surface, whose present lag is complete at active
line 0 (R84, R85, R87, R93). -/
def NewBegun (tm : TimingSet) (older : List Entry) (e : Entry) (newer : List Entry) (front : Nat) (skipped : Bool)
    (s t : State) : Prop :=
  let g := (s.st.get e.surface).geo
  ∃ u v, EntryTaken older e newer s u ∧
    v = { u with rtm := { u.rtm with lag := some { arrival := e.arrival, line := 0 } } } ∧
    BackBlankBegun tm { decision := .new, hb := g.hb, nb := g.nb, lead := s.sf.inForce.lead } (some e.surface) front
      skipped v t

/-- The front blank expires (R86, R87): a REPEAT of the HELD surface on its grid, or, with none HELD, a FILL frame on
the least grid of at most 128 bands. -/
def Expired (tm : TimingSet) (front : Nat) (s t : State) : Prop :=
  (∀ i : Fin 8, (s.st.get i).state = .held → ∃ u, EventTaken .repeated s.rw u.rw ∧ u = { s with rw := u.rw } ∧
    BackBlankBegun tm
      { decision := .repeated, hb := (s.st.get i).geo.hb, nb := (s.st.get i).geo.nb, lead := s.sf.inForce.lead }
      (some i) front false u t) ∧
  ((∀ i : Fin 8, (s.st.get i).state ≠ .held) → ∃ u, EventTaken .fillFrame s.rw u.rw ∧ u = { s with rw := u.rw } ∧
    let hb := if tm.h ≤ 2048 then 16 else 32
    BackBlankBegun tm { decision := .fill, hb := hb, nb := (tm.h + hb - 1) / hb, lead := s.sf.inForce.lead } none
      front false u t)

/-- Is the boundary of active line `n` the fetch point of band `k` (R89)? -/
def AtPoint (c : FrameControl) (n k : Nat) : Prop := k * c.hb = n + c.lead ∧ 1 ≤ k ∧ k < c.nb

/-- The present lag is complete at the boundary of the line that its selection named (R93). -/
def LagCompleted (n : Nat) (s t : State) : Prop :=
  (∀ p, s.rtm.lag = some p → p.line = n →
    t = { s with rtm := { s.rtm with
      record := s.rtm.record.map fun w => { w with lag := some (min 65535 (s.rtm.lc - p.arrival).toNat) }
      lag := none } }) ∧
  ((∀ p, s.rtm.lag = some p → p.line ≠ n) → t = s)

/-- The mid-active decision point of band `k` (R66, R90): none in a frame cut by soft reset (R97); a taken entry
replaces the SCANNING surface, and the bands from `k` on are decided as those of a NEW frame. -/
def PointDecided (c : FrameControl) (k : Nat) (s t : State) : Prop :=
  let cut := ∃ w, s.rtm.record = some w ∧ w.cut = true
  (cut → t = s) ∧
  (¬ cut → NoneChosen (SplitCandidate s c.hb) s.pq.queue → t = s) ∧
  (¬ cut → ∀ older e newer, Chosen (SplitCandidate s c.hb) s.pq.queue older e newer →
    ∃ u v, ScanningFreed s u ∧ EntryTaken older e newer u v ∧
      t = { v with rtm := { v.rtm with
        record := v.rtm.record.map fun w => { w with split := some (e.surface, k) }
        frame := some { c with decision := .new }
        lag := some { arrival := e.arrival, line := k * c.hb } } })

/-- The transfers of active line `n` (R125): pixels-per-transfer pixels each, in order; the first of line 0 carries
the frame-start marker. -/
def Transferred (ppt n : Nat) (line : List Pixel) (transfers : List Transfer) : Prop :=
  transfers.length = line.length / ppt ∧
    ∀ i x, transfers[i]? = some x → x.pixels = (line.drop (ppt * i)).take ppt ∧ (x.frameStart = true ↔ n = 0 ∧ i = 0)

/-- Is a burst late at its line's deadline (R115)? -/
def lateAtDeadline (b : Burst) : Bool := b = .notIssued ∨ b = .inFlight

/-- The deadline and the hand-over of line `n`, from the slot at the head of the buffer (R115 to R117): its late
bursts are raised and counted, its reads in flight discarded, its pixels (see DeadlineLine) kept as the prior line
and sent while the port is SENDING (R125, R128). -/
def LineHanded (tm : TimingSet) (n : Nat) (s t : State) : Prop :=
  ∀ slot rest, s.sf.buffer = slot :: rest →
    let late := slot.bursts.countP lateAtDeadline
    let line := lineAtDeadline s.sf.inForce s.sf.prior tm.w slot
    t.sf = { s.sf with buffer := rest, prior := some line, reads := t.sf.reads } ∧
    (∀ m : Fin 64, t.sf.reads.get m = (s.sf.reads.get m).map fun e =>
      { e with state := if e.line = n then .discard else e.state }) ∧
    t.rtm = { s.rtm with record := s.rtm.record.map fun w => { w with fetchLate := countTimes late w.fetchLate } } ∧
    EventTimes .fetchLate late s.rw t.rw ∧
    t.po = { s.po with sent := t.po.sent } ∧
    (s.po.state ≠ .sending → t.po.sent = .nothing) ∧
    (s.po.state = .sending → ∃ transfers, t.po.sent = .active transfers ∧ Transferred s.po.ppt n line transfers) ∧
    t = { s with sf := t.sf, rtm := t.rtm, rw := t.rw, po := t.po }

/-- Active line `n` begins, the boundary itself done (R117 in its order, with R90 and R93 before it): the present lag,
the mid-active decision point, a waiting fetch set at line 0, the deadline and hand-over, the fetch point, the fetch
start of line n + Lf_f. -/
def LineBegun (tm : TimingSet) (c : FrameControl) (n : Nat) (s t : State) : Prop :=
  ∃ u v x y d, LagCompleted n s u ∧
    (∀ k, AtPoint c n k → PointDecided c k u v) ∧ ((∀ k, ¬ AtPoint c n k) → v = u) ∧ v.rtm.frame = some d ∧
    (n = 0 → (v.sf.waiting = none → x = v) ∧ ∀ f, v.sf.waiting = some f → FetchInForce f v x) ∧ (n ≠ 0 → x = v) ∧
    LineHanded tm n x y ∧
    (∀ k, AtPoint c n k → ∃ z, PointTaken d k y z ∧ LineFetched tm c (n + c.lead) z t) ∧
    ((∀ k, ¬ AtPoint c n k) → LineFetched tm c (n + c.lead) y t)

/-! ## What claims say of the end of a frame (R91) -/

/-- The finished record is handed over (R81, R185, R187): it takes the frame number and the slot at the write index;
with the area enabled and fewer than four waiting it joins the frame-record queue, and its FRAME_END notice waits for
it; otherwise the notice is released at once. -/
def RecordHanded (number : BitVec 32) (body : WorkingRecord) (before after : ReportWriter) : Prop :=
  let queued := before.enable = true ∧ before.frames.length < 4
  (queued → after.frames = before.frames ++ [{ number := number, slot := before.logIndex, body := body }] ∧
    Notified .frameEnd (.record number) before after) ∧
  (¬ queued → after.frames = before.frames ∧ Notified .frameEnd .released before after) ∧
  after = { before with frames := after.frames, waiting := after.waiting, logIndex := before.logIndex + 1
                        dirty := true }

/-- The SCANNING surface, if one is, becomes HELD, and the surface HELD before it FREE with its records cleared
(R14). -/
def Settled (s t : State) : Prop :=
  let scanned := ∃ i : Fin 8, (s.st.get i).state = .scanning
  (∀ i : Fin 8, ((s.st.get i).state = .scanning → t.st.get i = { s.st.get i with state := .held } ∧
      t.bt.bands.get i = s.bt.bands.get i) ∧
    (scanned → (s.st.get i).state = .held → t.st.get i = { s.st.get i with state := .free } ∧
      t.bt.bands.get i = Bands.cleared) ∧
    ((s.st.get i).state ≠ .scanning → ((s.st.get i).state ≠ .held ∨ ¬ scanned) →
      t.st.get i = s.st.get i ∧ t.bt.bands.get i = s.bt.bands.get i)) ∧
  (t.rw = s.rw ∨ Dirtied s.rw t.rw) ∧
  t = { s with st := t.st, bt := { s.bt with bands := t.bt.bands }, rw := t.rw }

/-! ## What claims say of pixels and records (R119, R196) -/

/-- The value of a finite half-precision number that is not negative, from its exponent and fraction. -/
def halfValue (exponent fraction : Nat) : ℚ :=
  if exponent = 0 then fraction / 2 ^ 24 else (1 + fraction / 2 ^ 10) * 2 ^ exponent / 2 ^ 15

/-- The number that `size` bytes from an offset hold, least significant first (R196). -/
def numberAt (bytes : List Byte) (offset size : Nat) : Nat :=
  ((bytes.drop offset).take size).foldr (fun b n => b.toNat + 256 * n) 0

/-- Do the bytes hold each of these fields: an offset, a size and a value of at most that size? -/
def Holds (bytes : List Byte) (fields : List (Nat × Nat × Nat)) : Prop :=
  ∀ f ∈ fields, numberAt bytes f.1 f.2.1 = f.2.2 % 256 ^ f.2.1

end Sys2Proof.Safety
end

