-- ==== Sys2Proof/WellFormed.lean ====
section
/-! DEFINITION. The commands that can come to the block: what R135, R136, R143 and R160 say of their operands.
`exec` is total on the others too. -/

namespace Sys2Proof

/-- A request in the form of R135: an 8-byte aligned address, 1 to 32 beats, and for a WRITE one data beat per
beat of length. -/
def Request.wf (r : Request) : Bool :=
  r.addr.toNat % 8 == 0 && 1 ≤ r.beats && r.beats ≤ 32 &&
    match r.kind with
    | .read => r.data.isEmpty
    | .write => r.data.length == r.beats

/-- The data a response of this kind may carry (R136). -/
def responseData (kind : RespKind) (data : List (BitVec 64)) : Bool :=
  match kind with
  | .readData => 1 ≤ data.length && data.length ≤ 32
  | .writeAck => data.isEmpty

/-- A response that no block takes (R143). -/
def strayTag (tag : Nat) (kind : RespKind) : Bool :=
  (320 ≤ tag && tag < 336 && kind == .readData) || 336 ≤ tag

/-- A command whose operands the spec allows. -/
def Instr.wf (i : Instr) : Bool :=
  match i with
  | .requestAccept none => true
  | .requestAccept (some r) => r.wf
  | .unknown _ code => codeLane code == none
  | .wrongLane lane code => codeLane code != none && codeLane code != some lane
  | .consoleResponse _ kind _ data => responseData kind data
  | .fetchResponse _ kind _ data => responseData kind data
  | .strayResponse tag kind _ => strayTag tag.val kind
  | .powerOnReset _ _ _ | .linkReset | .crstRelease | .linkUpChange _ _
  | .openFrame _ | .release _ _ _ | .abandon _ | .present _ _ _ | .withdraw _
  | .commitSurface _ | .commitTiming _ | .commitFetch _ | .commitNotice _ | .commitMarker _ | .commitReport _
  | .outputOn | .outputOff | .clearEvents _ _ | .viewSelect _ | .softReset
  | .tableIndex _ | .tableData _ | .reportNow _ | .misplacedWrite | .reportAck _ _
  | .grant | .channelFree | .statusWriteBegin | .lineBoundary | .settleDone | .frontMinEnd
  | .stretchBoundary | .stretchExpiry | .activeStart | .activeLine | .endOfActive => true

end Sys2Proof
end

