-- ==== Sys2Proof/Certificates/Slice0/Obligations.lean ====
section
/-! DEFINITION. What is stated of the model: each command's own effect, the laws of the device kept by every step, and
the formats. Where a statement rests on a choice of the model its docstring names the log entry. -/

open Sys2Proof Sys2Proof.Machine Sys2Proof.Safety

/-- The command at the front of the queue is carried out with the queue's rest. On an empty queue the block idles, and
a raster that is not OFF runs its current line to its end: the model's choices (logs 1 and 33; see LineCounter). -/
def Obligations.StepRunsFrontCommand : Prop :=
  ∀ (c : Instr) (rest : List Instr) (s : State),
    (s.pending = c :: rest → step s = exec c { s with pending := rest }) ∧ (s.pending = [] → step s =
      .next { s with rtm := { s.rtm with ended := if s.rtm.raster = .off then s.rtm.ended else true } })

/-- Every command completes from every state, and leaves the queue of waiting commands alone. These are the model's
choices: that no command ever stops, one that no sender may send included, is log 27 (DEDUCED, unsafe) with log 29; that
the queue is the sender's, and outlives a power-on reset too, is logs 1 and 26. -/
def Obligations.EveryCommandCompletes : Prop :=
  ∀ (c : Instr) (s : State), ∃ t, exec c s = .next t ∧ t.pending = s.pending

/-- OPEN_FRAME: the checks of R10 in their order, and a new use of the surface. -/
def Obligations.OpenFrame : Prop :=
  ∀ (id : BitVec 8) (s : State), ∃ t, exec (.openFrame id) s = .next t ∧
    (8 ≤ id.toNat → Resulted s t .render 0x01 .badSurface) ∧
    ∀ i : Fin 8, id.toNat = i.val →
      let f := s.st.get i
      let remembered := ∃ tag w, s.bt.wtt.get tag = some w ∧ w.surface = i ∧ w.gen = f.gen + 1
      (f.geo.defined = false → Resulted s t .render 0x01 .badSurface) ∧
      (f.geo.defined = true → f.state ≠ .free → Resulted s t .render 0x01 .badState) ∧
      (f.geo.defined = true → f.state = .free → remembered → Resulted s t .render 0x01 .busy) ∧
      (f.geo.defined = true → f.state = .free → ¬ remembered →
        Resulted { s with st := s.st.set i { f with state := .rendering, gen := f.gen + 1, late := 0 }
                          bt := { s.bt with bands := s.bt.bands.set i Bands.cleared } } t .render 0x01 .ok)

/-- RELEASE: the checks of R35 in their order; every band of the clamped range that is OPEN becomes READY with the
stamp LC, or DRAINING while writes are pending, and no other band changes (R36). That the stamp is LC as an event sees
it, that of the line that begins once the current one has ended, is the model's choice (log 33, DESIGN CHOICE; see
LineCounter). -/
def Obligations.Release : Prop :=
  ∀ (id : BitVec 8) (first last : BitVec 16) (s : State), ∃ t, exec (.release id first last) s = .next t ∧
    (8 ≤ id.toNat → Resulted s t .render 0x02 .badSurface) ∧
    ∀ i : Fin 8, id.toNat = i.val →
      let f := s.st.get i
      if f.geo.defined = false then Resulted s t .render 0x02 .badSurface
      else if f.state = .free then Resulted s t .render 0x02 .badState
      else if f.geo.nb ≤ first.toNat then Resulted s t .render 0x02 .range
      else if last.toNat < first.toNat then Resulted s t .render 0x02 .range
      else ∃ u, Resulted u t .render 0x02 .ok ∧ u = { s with bt := { s.bt with bands := u.bt.bands } } ∧
        ∀ (j : Fin 8) (b : Fin 128),
          let r := s.bt.band j b
          u.bt.band j b =
            if j = i ∧ first.toNat ≤ b.val ∧ b.val ≤ min last.toNat (f.geo.nb - 1) ∧ r.status = .opened then
              if r.pending = 0 then { r with status := .ready, stamp := some s.rtm.now }
              else { r with status := .draining }
            else r

/-- ABANDON: the checks of R12; the surface becomes FREE with its band records cleared and loses its queue entry. -/
def Obligations.Abandon : Prop :=
  ∀ (id : BitVec 8) (s : State), ∃ t, exec (.abandon id) s = .next t ∧
    (8 ≤ id.toNat → Resulted s t .render 0x03 .badSurface) ∧
    ∀ i : Fin 8, id.toNat = i.val →
      let f := s.st.get i
      if f.geo.defined = false then Resulted s t .render 0x03 .badSurface
      else if f.state = .free ∨ f.state = .scanning ∨ f.state = .held then Resulted s t .render 0x03 .badState
      else
        Resulted { s with st := s.st.set i { f with state := .free }
                          bt := { s.bt with bands := s.bt.bands.set i Bands.cleared }
                          pq := { s.pq with queue := s.pq.queue.filter fun e => e.surface ≠ i } } t .render 0x03 .ok

/-- PRESENT: the checks of R56 in their order, the entry of R57, and the change of R58. That the arrival stamp (R55) is
LC as an event sees it, that of the line that begins once the current one has ended, is the model's choice (log 33,
DESIGN CHOICE; see LineCounter). -/
def Obligations.Present : Prop :=
  ∀ (id : BitVec 8) (a b : BitVec 16) (s : State), ∃ t, exec (.present id a b) s = .next t ∧
    (8 ≤ id.toNat → Resulted s t .present 0x10 .badSurface) ∧
    ∀ i : Fin 8, id.toNat = i.val →
      let f := s.st.get i
      let field := a.toNat % 4
      let sized := ∃ tm, s.rtm.timing = some tm ∧ f.geo.width = tm.w ∧ f.geo.height = tm.h
      if f.geo.defined = false then Resulted s t .present 0x10 .badSurface
      else if field = 3 then Resulted s t .present 0x10 .range
      else if f.state = .queued then Resulted s t .present 0x10 .duplicate
      else if f.state ≠ .rendering then Resulted s t .present 0x10 .badState
      else if 4 ≤ s.pq.queue.length then Resulted s t .present 0x10 .queueFull
      else
        (¬ sized → Resulted s t .present 0x10 .sizeMismatch) ∧
        (sized →
          let e : Entry :=
            { surface := i
              mode := if field = 0 then .race else if field = 1 then .whole else .split
              admission := if field = 0 then if b.toNat = 0 then 1 else min b.toNat f.geo.nb else f.geo.nb
              latest := a.getLsbD 8
              arrival := s.rtm.now
              number := s.pq.count + 1 }
          Resulted { s with st := s.st.set i { f with state := .queued }
                            pq := { s.pq with queue := s.pq.queue ++ [e], count := s.pq.count + 1 } } t .present 0x10
            (if field = 0 ∧ (b.toNat = 0 ∨ f.geo.nb < b.toNat) then .adjusted else .ok))

/-- WITHDRAW: the checks of R60; the entry leaves the queue and its surface is RENDERING again. -/
def Obligations.Withdraw : Prop :=
  ∀ (id : BitVec 8) (s : State), ∃ t, exec (.withdraw id) s = .next t ∧
    (8 ≤ id.toNat → Resulted s t .present 0x11 .badSurface) ∧
    ∀ i : Fin 8, id.toNat = i.val →
      let f := s.st.get i
      if f.geo.defined = false then Resulted s t .present 0x11 .badSurface
      else if f.state ≠ .queued then Resulted s t .present 0x11 .badState
      else
        Resulted { s with st := s.st.set i { f with state := .rendering }
                          pq := { s.pq with queue := s.pq.queue.filter fun e => e.surface ≠ i } } t .present 0x11 .ok

/-- COMMIT(SURFACE): the checks of R3, R4 and R6 in their order; a height of 0 undefines, and otherwise the staged
geometry is installed with the band height of R5; state, generation and late-write count stay (R7). A staged address is
taken whole, never cut to 40 bits (log 6, DEDUCED). -/
def Obligations.CommitSurface : Prop :=
  ∀ (entry : BitVec 16) (s : State), ∃ t, exec (.commitSurface entry) s = .next t ∧
    (8 ≤ entry.toNat → Resulted s t .control 0x20 .badSurface) ∧
    ∀ i : Fin 8, entry.toNat = i.val →
      let f := s.st.get i
      let g := s.cd.staging.surface.get i
      let base := (g.get 1).toNat * 2 ^ 32 + (g.get 0).toNat
      let pitch := (g.get 2).toNat
      let width := (g.get 3).toNat
      let height := (g.get 4).toNat
      let format := (g.get 5).toNat
      let hb := (g.get 6).toNat
      let bpp := if format = 0 then 4 else 8
      let outOfRange := base % 4096 ≠ 0 ∨ width < 320 ∨ 3840 < width ∨ width % 4 ≠ 0 ∨ height < 240 ∨ 2160 < height ∨
        1 < format ∨ pitch < 1280 ∨ 65536 < pitch ∨ pitch % 256 ≠ 0 ∨ pitch < width * bpp ∨
        (hb ≠ 16 ∧ hb ≠ 32 ∧ hb ≠ 64 ∧ hb ≠ 128) ∨ 2 ^ 40 < base + pitch * height
      let meets := fun a n => base < a + n ∧ a < base + pitch * height
      let clash := (∃ j : Fin 8, j ≠ i ∧ (s.st.get j).geo.defined = true ∧
          meets (s.st.get j).geo.base.toNat ((s.st.get j).geo.pitch * (s.st.get j).geo.height)) ∨
        meets (0xFFFFF00000 + 0x1000 * s.cd.wsel.toNat) 4096 ∨ (s.rw.enable = true ∧ meets s.rw.base.toNat 8192)
      let raised := if height ≤ 128 * hb then hb else 32
      let undefined : Geometry := { defined := false, base := 0, pitch := 0, width := 0, height := 0, format := .p32
                                    hb := 16, nb := 0 }
      let defined : Geometry := { defined := true, base := BitVec.ofNat 40 base, pitch := pitch, width := width
                                  height := height, format := if format = 0 then .p32 else .p64, hb := raised
                                  nb := (height + raised - 1) / raised }
      (f.state ≠ .free → Resulted s t .control 0x20 .badState) ∧
      (f.state = .free → height = 0 →
        Resulted { s with st := s.st.set i { f with geo := undefined } } t .control 0x20 .ok) ∧
      (f.state = .free → height ≠ 0 → outOfRange → Resulted s t .control 0x20 .range) ∧
      (f.state = .free → height ≠ 0 → ¬ outOfRange → clash → Resulted s t .control 0x20 .overlap) ∧
      (f.state = .free → height ≠ 0 → ¬ outOfRange → ¬ clash →
        Resulted { s with st := s.st.set i { f with geo := defined } } t .control 0x20
          (if raised = hb then .ok else .adjusted))

/-- COMMIT(TIMING): the checks of R166 and R75 in their order; a set that is taken comes into force at once while the
raster is OFF, and is pending otherwise (R79). The installed set is that of `timingSet` (see TimingArithmetic). At
most one surface is HELD (law 6). -/
def Obligations.CommitTiming : Prop :=
  ∀ (entry : BitVec 16) (s : State), AtMostOne s .held → ∃ t, exec (.commitTiming entry) s = .next t ∧
    let g := s.cd.staging.timing
    let w := (g.get 0).toNat
    let h := (g.get 1).toNat
    let ht := (g.get 2).toNat
    let clock := (g.get 3).toNat
    let outOfRange := w < 320 ∨ 3840 < w ∨ w % 4 ≠ 0 ∨ h < 240 ∨ 2160 < h ∨ ht < w + 16 ∨ 8192 < ht ∨
      clock < 10000 ∨ 1500000 < clock
    let r : Result := if (timingSet g).2 then .adjusted else .ok
    if entry ≠ 0 then Resulted s t .control 0x20 .range
    else if s.rtm.raster ≠ .off ∧ s.rtm.pendingSet ≠ none then Resulted s t .control 0x20 .busy
    else
      (outOfRange → Resulted s t .control 0x20 .range) ∧
      (¬ outOfRange → s.rtm.raster = .off →
        ∃ u, TimingInForce (timingSet g).1 s u ∧ Resulted u t .control 0x20 r) ∧
      (¬ outOfRange → s.rtm.raster ≠ .off →
        Resulted { s with rtm := { s.rtm with pendingSet := some (timingSet g).1 } } t .control 0x20 r)

/-- The set that a staged TIMING entry gives: the clamps of R76, the totals of R77 in exact integer division, and the
front blank limits of R78. -/
def Obligations.TimingArithmetic : Prop :=
  ∀ g : Table (BitVec 32) 9,
    let t := (timingSet g).1
    let n := t.clock * 100000
    let longest := n / (t.flo * t.ht)
    let shortest := (n + t.fhi * t.ht - 1) / (t.fhi * t.ht)
    let fMin : Int := if (t.vtMin : Int) - t.h - t.s < t.fp then t.fp else t.vtMin - t.h - t.s
    let fMax : Int := t.vtMax - t.h - t.s
    (t.w = (g.get 0).toNat ∧ t.h = (g.get 1).toNat ∧ t.ht = (g.get 2).toNat ∧ t.clock = (g.get 3).toNat) ∧
    (t.s = max 4 (min 255 (g.get 4).toNat) ∧ t.fp = max 1 (min 255 (g.get 5).toNat) ∧
      t.settle = min 4095 (g.get 8).toNat ∧ t.fhi = max 2000 (min 50000 (g.get 6).toNat) ∧
      t.flo = min t.fhi (max 2000 (min 50000 (g.get 7).toNat))) ∧
    ((timingSet g).2 = true ↔ ¬ (t.s = (g.get 4).toNat ∧ t.fp = (g.get 5).toNat ∧ t.fhi = (g.get 6).toNat ∧
      t.flo = (g.get 7).toNat ∧ t.settle = (g.get 8).toNat)) ∧
    (t.vtMin = shortest ∧ t.vtMax = min 65535 longest ∧ (t.floorRaised = true ↔ 65535 < longest)) ∧
    (t.h ≤ 2160 →
      if 65535 < t.h + t.s + fMin then
        t.fMin = 65535 - t.h - t.s ∧ t.fMax = 65535 - t.h - t.s ∧ t.rangeCollapsed = true
      else t.fMin = fMin ∧ t.fMax = max fMin fMax ∧ (t.rangeCollapsed = true ↔ fMax < fMin))

/-- COMMIT(FETCH): the checks of R166 and R101, the clamps of R101, and the install of R102. That the lead is clamped
to the S in force at the commit, also where the commit meets an entry into OFF that brings in a larger S, is the
model's choice (log 40). -/
def Obligations.CommitFetch : Prop :=
  ∀ (entry : BitVec 16) (s : State), ∃ t, exec (.commitFetch entry) s = .next t ∧
    let g := s.cd.staging.fetch
    let lead := (g.get 0).toNat
    let ppt := (g.get 5).toNat
    let capped := max 1 (min 16 lead)
    let lead' := s.rtm.timing.elim capped fun tm => min capped tm.s
    let ppt' := if ppt = 0 then 1 else if ppt = 3 then 2 else min ppt 4
    let set : FetchSet :=
      { lead := lead', mode := if (g.get 1).toNat = 0 then .fill else .prior, ppt := ppt'
        fill := { red := BitVec.ofNat 10 (g.get 2).toNat, green := BitVec.ofNat 10 (g.get 3).toNat
                  blue := BitVec.ofNat 10 (g.get 4).toNat } }
    let r : Result := if lead' = lead ∧ ppt' = ppt then .ok else .adjusted
    if entry ≠ 0 then Resulted s t .control 0x20 .range
    else if 1 < (g.get 1).toNat then Resulted s t .control 0x20 .range
    else if 1023 < (g.get 2).toNat ∨ 1023 < (g.get 3).toNat ∨ 1023 < (g.get 4).toNat then
      Resulted s t .control 0x20 .range
    else if s.rtm.raster = .off then
      Resulted { s with sf := { s.sf with inForce := set, waiting := none }, po := { s.po with ppt := ppt' } } t
        .control 0x20 r
    else Resulted { s with sf := { s.sf with waiting := some set } } t .control 0x20 r

/-- COMMIT(NOTICE): the checks of R186 in their order; the entry is installed and its waiting notice removed. While no
claim of the Report Writer is then left, the report wait age is 0 (R149), in this very command (log 14, DEDUCED). A
staged address is taken whole (log 6, DEDUCED). -/
def Obligations.CommitNotice : Prop :=
  ∀ (entry : BitVec 16) (s : State), ∃ t, exec (.commitNotice entry) s = .next t ∧
    (8 ≤ entry.toNat → Resulted s t .control 0x20 .range) ∧
    ∀ e : Fin 8, entry.toNat = e.val →
      let g := s.cd.staging.notice.get e
      let source := (g.get 0).toNat
      let addr := (g.get 2).toNat * 2 ^ 32 + (g.get 1).toNat
      if 18 < source ∨ 1 < (g.get 4).toNat ∨ addr % 4 ≠ 0 ∨ 2 ^ 40 ≤ addr then Resulted s t .control 0x20 .range
      else ∃ (u : State) (x : Source), Resulted u t .control 0x20 .ok ∧
        (∀ v : Event, source = v.number → x = .flag v) ∧ (source = 16 → x = .frameStart) ∧
        (source = 17 → x = .frameEnd) ∧ (source = 18 → x = .presentTaken) ∧
        u.rw = { s.rw with
          notices := s.rw.notices.set e { source := x, addr := BitVec.ofNat 40 addr, value := g.get 3
                                          enabled := (g.get 4).toNat == 1 }
          waiting := s.rw.waiting.set e none } ∧
        u = { s with rw := u.rw, ma := { s.ma with age := if u.rw.claims then s.ma.age else 0 } }

/-- COMMIT(MARKER): the checks of R131 in their order; the function is installed at once, and MK0 or MK1 takes the
level that the new function has. -/
def Obligations.CommitMarker : Prop :=
  ∀ (entry : BitVec 16) (s : State), ∃ t, exec (.commitMarker entry) s = .next t ∧
    (2 ≤ entry.toNat → Resulted s t .control 0x20 .range) ∧
    ∀ e : Fin 2, entry.toNat = e.val →
      let code := ((s.cd.staging.marker.get e)).toNat
      if 7 ≤ code then Resulted s t .control 0x20 .range
      else ∃ m : MarkerFn, m.code = code ∧ t.markerLevel e = t.functionLevel m ∧
        Resulted { s with po := { s.po with routing := s.po.routing.set e m } } t .control 0x20 .ok

/-- COMMIT(REPORT): the checks of R166 and R173 in their order; the use of the area in force ends with the install
(R174). With enable 0 the base is kept. While no claim of the Report Writer is then left, the report wait age is 0
(R149). That this comes in this very command, that a status write with no burst outstanding ends at once, that the
notice of a record already issued waits on, and that a staged address is taken whole, are the model's readings (logs 14,
13, 32 and 6). -/
def Obligations.CommitReport : Prop :=
  ∀ (entry : BitVec 16) (s : State), ∃ t, exec (.commitReport entry) s = .next t ∧
    let g := s.cd.staging.report
    let base := (g.get 1).toNat * 2 ^ 32 + (g.get 0).toNat
    let enable := (g.get 2).toNat
    let meets := fun a n => base < a + n ∧ a < base + 8192
    let clash := meets (0xFFFFF00000 + 0x1000 * s.cd.wsel.toNat) 4096 ∨
      ∃ j : Fin 8, (s.st.get j).geo.defined = true ∧
        meets (s.st.get j).geo.base.toNat ((s.st.get j).geo.pitch * (s.st.get j).geo.height)
    let installed := fun (b : Addr) (on : Bool) => ∃ u, Resulted u t .control 0x20 .ok ∧ AreaEnded b on s.rw u.rw ∧
      u = { s with rw := u.rw, ma := { s.ma with age := if u.rw.claims then s.ma.age else 0 } }
    if entry ≠ 0 ∨ 1 < enable then Resulted s t .control 0x20 .range
    else if enable = 0 then installed s.rw.base false
    else if base % 4096 ≠ 0 ∨ 2 ^ 40 < base + 8192 then Resulted s t .control 0x20 .range
    else (clash → Resulted s t .control 0x20 .overlap) ∧ (¬ clash → installed (BitVec.ofNat 40 base) true)

/-- OUTPUT_ON (R95): refused without a timing set in force; in OFF the raster enters SETTLE (R82); in any other state
it has no effect on the raster. That a settle of 0 lines is passed within the command is the model's reading (log 9).
That a boundary clears the mark of an ended line is the model's choice (log 33). -/
def Obligations.OutputOn : Prop :=
  ∀ s : State, ∃ t, exec .outputOn s = .next t ∧
    (s.rtm.timing = none → Resulted s t .control 0x21 .badState) ∧
    ∀ tm, s.rtm.timing = some tm →
      (s.rtm.raster ≠ .off → Resulted s t .control 0x21 .ok) ∧
      (s.rtm.raster = .off → ∃ u, SettleBegun tm s u ∧ Resulted u t .control 0x21 .ok)

/-- OUTPUT_OFF (R96): always taken; nothing in OFF, the entry into OFF at once in a front blank state, and a pending
OUTPUT_OFF in BACK_BLANK and ACTIVE. At most one surface is HELD (law 6). That the line position is 0 in OFF, that what
the port sends is shown as nothing there, and that a line that had ended is then none, are the model's choices (logs
21, 15 and 33). That a waiting fetch set keeps the lead its commit clamped, where the set that comes into force has a
larger S, is the model's choice (log 40). -/
def Obligations.OutputOff : Prop :=
  ∀ s : State, AtMostOne s .held → ∃ t, exec .outputOff s = .next t ∧
    (s.rtm.raster = .off → Resulted s t .control 0x22 .ok) ∧
    (s.rtm.raster = .settle ∨ s.rtm.raster = .frontMin ∨ s.rtm.raster = .stretch →
      ∃ u, EnteredOff s u ∧ Resulted u t .control 0x22 .ok) ∧
    (s.rtm.raster = .backBlank ∨ s.rtm.raster = .active →
      Resulted { s with rtm := { s.rtm with offPending := true } } t .control 0x22 .ok)

/-- CLEAR_EVENTS (R176, R177): the flags of the mask are cleared, the summary with the last flag, and the causes where
bit 0 of B is 1; the counters and the notices stay. -/
def Obligations.ClearEvents : Prop :=
  ∀ (b c : BitVec 16) (s : State), ∃ t, exec (.clearEvents b c) s = .next t ∧
    ∃ u, Resulted u t .control 0x23 .ok ∧
      (∀ n : Nat, n < 16 → u.rw.flags.getLsbD n = (s.rw.flags.getLsbD n && !c.getLsbD n)) ∧
      (u.rw.summary = true ↔ ∃ n : Nat, n < 16 ∧ u.rw.flags.getLsbD n = true) ∧
      u.rw.causes = (if b.toNat % 2 = 1 then { power := false, link := false, soft := false } else s.rw.causes) ∧
      u = { s with rw := { s.rw with flags := u.rw.flags, summary := u.rw.summary, causes := u.rw.causes } }

/-- VIEW_SELECT (R184): a page of at most 10 is selected, and another is refused with RANGE. REPORT_NOW marks the status
record dirty whatever its value (R162). -/
def Obligations.ViewSelectAndReportNow : Prop :=
  (∀ (a : BitVec 16) (s : State), ∃ t, exec (.viewSelect a) s = .next t ∧
    (10 < a.toNat → Resulted s t .control 0x24 .range) ∧
    ∀ page : Fin 11, a.toNat = page.val →
      Resulted { s with rw := { s.rw with page := page } } t .control 0x24 .ok) ∧
  (∀ (v : BitVec 64) (s : State), exec (.reportNow v) s = .next { s with rw := { s.rw with dirty := true } })

/-- SOFT_RESET: every block's part, as the table of R168 gives it. That the line buffer keeps its slots as fill slots
(R120), where R107 says that a soft reset empties it, is the model's choice (log 36). -/
def Obligations.SoftReset : Prop :=
  ∀ s : State, ∃ t, exec .softReset s = .next t ∧ ∃ u, Resulted u t .control 0x25 .ok ∧
    (∀ l : Lane, laneOf u.cd l = { taken := 0, code := 0, result := .ok }) ∧
    (∀ i : Fin 8, u.st.get i = { s.st.get i with state := .free, gen := (s.st.get i).gen + 1 }) ∧
    (∀ (i : Fin 8) (b : Fin 128), u.bt.band i b =
      { status := .opened, pending := 0, scan := .unscanned, stamp := none, fault := false }) ∧
    (∀ tag : Fin 256, u.bt.wtt.get tag = none) ∧ u.pq.queue = [] ∧
    (∀ n : Fin 64, u.sf.reads.get n = (s.sf.reads.get n).map fun e => { e with state := .discard }) ∧
    u.sf.sources = s.sf.sources.map (fun x => x.map fun _ => .fill) ∧
    u.sf.buffer = s.sf.buffer.map (fun slot => { line := slot.line, source := .fill, bursts := [] }) ∧
    u.rtm = { s.rtm with record := if inFrame s.rtm.raster = true then s.rtm.record.map fun w => { w with cut := true }
                                   else s.rtm.record } ∧
    u.rw = { s.rw with flags := 0, summary := false, counters := {}, causes := { s.rw.causes with soft := true } } ∧
    u = { s with cd := { s.cd with render := u.cd.render, present := u.cd.present, control := u.cd.control }
                 st := u.st, bt := { s.bt with bands := u.bt.bands, wtt := u.bt.wtt }
                 pq := { s.pq with queue := u.pq.queue }, rtm := u.rtm, rw := u.rw
                 sf := { s.sf with reads := u.sf.reads, sources := u.sf.sources, buffer := u.sf.buffer } }

/-- A lane beat whose code belongs to no lane is refused with UNKNOWN, and one whose code belongs to another lane with
WRONG_LANE; its lane keeps the code (R160). A misplaced beat raises MISPLACED_WRITE and does nothing else (R156).
PageBeats says which beats these are. -/
def Obligations.RefusedBeats : Prop :=
  (∀ (lane : Lane) (code : BitVec 8) (s : State),
    (∃ t, exec (.unknown lane code) s = .next t ∧ Resulted s t lane code .unknown) ∧
    (∃ t, exec (.wrongLane lane code) s = .next t ∧ Resulted s t lane code .wrongLane)) ∧
  (∀ s : State, ∃ t, exec .misplacedWrite s = .next t ∧ EventTaken .misplacedWrite s.rw t.rw ∧
    t = { s with rw := t.rw })

/-- TABLE_INDEX sets the three numbers of the index (R164, R192). TABLE_DATA writes the low 32 bits into the field the
index names and raises the field index by 1; where the index names no field it is refused, with code 0xFF and RANGE on
the control lane (R165). -/
def Obligations.TableAccess : Prop :=
  (∀ (v : BitVec 64) (s : State), ∃ t, exec (.tableIndex v) s = .next t ∧
    t.cd.index.table.toNat = v.toNat / 2 ^ 16 % 256 ∧ t.cd.index.entry.toNat = v.toNat / 2 ^ 8 % 256 ∧
    t.cd.index.field.toNat = v.toNat % 256 ∧ t = { s with cd := { s.cd with index := t.cd.index } }) ∧
  (∀ (v : BitVec 64) (s : State), ∃ t, exec (.tableData v) s = .next t ∧
    let k := s.cd.index.table.toNat
    let e := s.cd.index.entry.toNat
    let f := s.cd.index.field.toNat
    (stagedField s.cd.staging k e f = none → Resulted s t .control 0xFF .range) ∧
    (stagedField s.cd.staging k e f ≠ none →
      (∀ k' e' f' : Nat, stagedField t.cd.staging k' e' f' =
        if k' = k ∧ e' = e ∧ f' = f then some (v.extractLsb' 0 32) else stagedField s.cd.staging k' e' f') ∧
      t.cd.index = { s.cd.index with field := s.cd.index.field + 1 } ∧
      t = { s with cd := { s.cd with staging := t.cd.staging, index := t.cd.index } }))

/-- POWER_ON_RESET leaves the values the spec gives each block's state. The levels of the input pins are its operands
(log 8): LINK_UP high is a first change of level, which raises OUTPUT_CHANGE (R124). Nothing is said of the requests
that wait on the C-port, for which the spec gives no value (log 35). The causes POWER and LINK are set, and SOFT stays
as it was (R177). -/
def Obligations.PowerOnReset : Prop :=
  ∀ (wsel : BitVec 4) (linkUp crst : Bool) (s : State), ∃ t, exec (.powerOnReset wsel linkUp crst) s = .next t ∧
    (∀ i : Fin 8, t.st.get i =
      { geo := { defined := false, base := 0, pitch := 0, width := 0, height := 0, format := .p32, hb := 16, nb := 0 }
        state := .free, gen := 0, late := 0 }) ∧
    ((∀ (i : Fin 8) (b : Fin 128), t.bt.band i b =
        { status := .opened, pending := 0, scan := .unscanned, stamp := none, fault := false }) ∧
      (∀ tag : Fin 256, t.bt.wtt.get tag = none) ∧ t.bt.stall = false) ∧
    (t.pq.queue = [] ∧ t.pq.count = 0 ∧ t.pq.lastTaken = 0) ∧
    (t.rtm.raster = .off ∧ t.rtm.timing = none ∧ t.rtm.pendingSet = none ∧ t.rtm.offPending = false ∧ t.rtm.lc = 0 ∧
      t.rtm.frameCount = 0 ∧ t.rtm.record = none) ∧
    (t.sf.inForce = { lead := 8, mode := .fill, fill := { red := 0, green := 0, blue := 0 }, ppt := 4 } ∧
      t.sf.waiting = none ∧ t.sf.sources = [] ∧ t.sf.buffer = [] ∧ (∀ n : Fin 64, t.sf.reads.get n = none) ∧
      t.sf.prior = none) ∧
    (t.po.ppt = 4 ∧ t.po.linkUp = linkUp ∧ t.po.level = linkUp ∧
      t.po.state = (if linkUp then .waiting else .down) ∧ (∀ m : Fin 2, t.po.routing.get m = .off) ∧
      t.po.sent = .nothing) ∧
    (t.tc.cport = (if crst then .inReset else .live) ∧ t.tc.forward = [] ∧ t.tc.fault = none ∧
      ∀ tag : Fin 256, t.tc.tags.get tag = { queued := 0, issued := 0 } ∧ t.tc.discard.get tag = false) ∧
    ((∀ l : Lane, laneOf t.cd l = { taken := 0, code := 0, result := .ok }) ∧
      (∀ k e f : Nat, ∀ v, stagedField t.cd.staging k e f = some v → v = 0) ∧
      t.cd.index = { table := 0, entry := 0, field := 0 } ∧ t.cd.wsel = wsel) ∧
    (t.rw.enable = false ∧ t.rw.base = 0 ∧ t.rw.counters = {} ∧
      t.rw.causes = { power := true, link := true, soft := s.rw.causes.soft } ∧ t.rw.page = 0 ∧ t.rw.sequence = 0 ∧
      t.rw.logIndex = 0 ∧ t.rw.frames = [] ∧ t.rw.write = none ∧
      (∀ e : Fin 8, t.rw.waiting.get e = none ∧
        t.rw.notices.get e = { source := .flag .bandMiss, addr := 0, value := 0, enabled := false }) ∧
      (∀ n : Fin 16, t.rw.tags.get n = none) ∧ t.rw.summary = linkUp ∧ t.rw.dirty = linkUp ∧
      t.rw.flags = if linkUp then BitVec.twoPow 16 9 else 0) ∧
    (t.ma.channel = none ∧ t.ma.age = 0)

/-- LINK_RESET, at an assertion of CRST (R146): the C-port is IN_RESET, the waiting and forwarded requests are
discarded, every issued tag joins the discard set, the Band Tracker closes every drain (R42), LINK_RESET is raised and
the LINK cause set. Holding CRST asserted makes no further link reset, and its release makes the C-port LIVE. R146
names the request waiting at the head: that every request that waits on the C-port is discarded is the model's choice
(log 4, unsafe). That a band forced READY takes LC as an event sees it is the model's choice too (log 33; see
LineCounter). -/
def Obligations.LinkReset : Prop :=
  (∀ s : State, s.tc.crst = true → exec .linkReset s = .next s) ∧
  (∀ s : State, s.tc.crst = false → ∃ t, exec .linkReset s = .next t ∧
    (t.tc.cport = .inReset ∧ t.tc.crst = true ∧ t.tc.arrivals = [] ∧ t.tc.forward = [] ∧
      (∀ tag : Fin 256, t.tc.tags.get tag = { queued := 0, issued := 0 } ∧
        t.tc.discard.get tag = (s.tc.discard.get tag || decide (0 < (s.tc.tags.get tag).issued))) ∧
      t.tc.fault = s.tc.fault ∧ t.tc.returned = s.tc.returned) ∧
    ((∀ tag : Fin 256, t.bt.wtt.get tag = none) ∧ t.bt.stall = false ∧
      ∀ (i : Fin 8) (b : Fin 128),
        let r := s.bt.band i b
        t.bt.band i b =
          if (s.st.get i).state = .free then r
          else if r.status = .draining then
            { r with pending := 0, status := .ready, stamp := some s.rtm.now, fault := true }
          else { r with pending := 0 }) ∧
    (∃ r, EventTaken .linkReset s.rw r ∧ t.rw = { r with causes := { s.rw.causes with link := true } }) ∧
    t = { s with tc := t.tc, bt := t.bt, rw := t.rw }) ∧
  (∀ s : State, exec .crstRelease s = .next { s with tc := { s.tc with cport := .live, crst := false } })

/-- LINK_UP_CHANGE (R128 to R130): each change of the level moves the port by the table of R128 and raises
OUTPUT_CHANGE; a fall while the port is SENDING cuts the line in progress after the transfers already sent, whose number
is the command's operand (log 7), and a fall while it is WAITING leaves what it had sent (R129); the same level again
changes nothing. -/
def Obligations.LinkUpChange : Prop :=
  ∀ (level : Bool) (sent : Nat) (s : State), ∃ t, exec (.linkUpChange level sent) s = .next t ∧
    (level = s.po.level → t = s) ∧
    (level ≠ s.po.level →
      EventTaken .outputChange s.rw t.rw ∧ t.po.linkUp = level ∧ t.po.level = level ∧
      (level = true → t.po.state = (if s.po.state = .down then .waiting else s.po.state) ∧ t.po.sent = s.po.sent) ∧
      (level = false → t.po.state = .down ∧
        (s.po.state = .sending → ∀ transfers, s.po.sent = .active transfers →
          t.po.sent = .active (transfers.take sent)) ∧
        (s.po.state ≠ .sending ∨ (∀ transfers, s.po.sent ≠ .active transfers) → t.po.sent = s.po.sent)) ∧
      t = { s with rw := t.rw
                   po := { s.po with linkUp := t.po.linkUp, level := t.po.level, state := t.po.state
                                     sent := t.po.sent } })

/-- REQUEST_ACCEPT where the head is not tried to the end, or no block acts on it. An arriving request joins the
C-port; with no request there, or one that conditions 1 to 3 of R138 hold back, nothing else changes. A READ, and a
WRITE outside the command page and outside every defined surface that is not FREE, is checked (R139, R140) and
forwarded. That an arriving request joins the end of a list and the head is tried once is the model's choice (log 4),
and so is that one arriving while the C-port is IN_RESET waits in that list (log 20, DEDUCED, unsafe). That a write
which waited because the table was full, and whose surface is then FREE, is accepted at the next try, no entry having
left the table, is the model's choice too (log 39). -/
def Obligations.AcceptOther : Prop :=
  ∀ (arriving : Option Request) (s : State), ∃ t, exec (.requestAccept arriving) s = .next t ∧
    let waiting := s.tc.arrivals ++ arriving.toList
    let held := { s with tc := { s.tc with arrivals := waiting } }
    (waiting = [] → t = held) ∧
    ∀ r rest, waiting = r :: rest →
      (¬ Admitted s r → t = held) ∧
      (Admitted s r → (r.kind = .read ∨ (¬ InPage s r.addr.toNat ∧ ∀ i, ¬ InExtent s i r.addr)) →
        ∃ u, Checked r (Outstanding s r.tag) (headTaken rest s) u ∧ Forwarded r u t)

/-- REQUEST_ACCEPT of a surface write to an OPEN band whose tag is in no table entry (R29 to R31). Below 64 entries it
is tracked: one more pending, and an entry with the surface, its generation and the band (R30). With 64 it waits at the
head, and the first such offer of an episode raises TRACK_STALL (R31). The extents hold the address once (R6). The list
of waiting requests, its head tried once, is the model's (log 4). So is that every try offers a waiting write afresh
(log 39). -/
def Obligations.AcceptTracked : Prop :=
  ∀ (arriving : Option Request) (s : State) (r : Request) (rest : List Request) (i : Fin 8) (b : Fin 128),
    s.tc.arrivals ++ arriving.toList = r :: rest → Admitted s r → r.kind = .write → ¬ InPage s r.addr.toNat →
    InExtent s i r.addr → (∀ j, InExtent s j r.addr → j = i) →
    b.val = (r.addr.toNat - (s.st.get i).geo.base.toNat) / (s.st.get i).geo.pitch / (s.st.get i).geo.hb →
    (s.bt.band i b).status = .opened → s.bt.wtt.get r.tag = none →
    ∃ t, exec (.requestAccept arriving) s = .next t ∧
      (s.bt.wtt.count Option.isSome < 64 → ∃ u v, Checked r (Outstanding s r.tag) (headTaken rest s) u ∧
        (∀ (j : Fin 8) (k : Fin 128), v.bt.band j k =
          if j = i ∧ k = b then { s.bt.band i b with pending := (s.bt.band i b).pending + 1 } else s.bt.band j k) ∧
        (∀ tag : Fin 256, v.bt.wtt.get tag =
          if tag = r.tag then some { surface := i, gen := (s.st.get i).gen, band := b } else s.bt.wtt.get tag) ∧
        v = { u with bt := { u.bt with bands := v.bt.bands, wtt := v.bt.wtt } } ∧ Forwarded r v t) ∧
      (64 ≤ s.bt.wtt.count Option.isSome →
        (s.bt.stall = true → t = { s with tc := { s.tc with arrivals := r :: rest } }) ∧
        (s.bt.stall = false → EventTaken .trackStall s.rw t.rw ∧
          t = { s with tc := { s.tc with arrivals := r :: rest }, bt := { s.bt with stall := true }, rw := t.rw }))

/-- REQUEST_ACCEPT of a surface write that is not tracked. To a DRAINING or READY band it is late: counted in its
surface, in the frame if the surface is SCANNING, and raised as LATE_WRITE, its tag not looked at (R32, R140). To an OPEN
band with a tag that the table holds it raises LINK_PROTOCOL, cause TRACK_REUSE (R33). It is forwarded (R34). The list of
waiting requests, its head tried once, is the model's (log 4). -/
def Obligations.AcceptUntracked : Prop :=
  ∀ (arriving : Option Request) (s : State) (r : Request) (rest : List Request) (i : Fin 8) (b : Fin 128),
    s.tc.arrivals ++ arriving.toList = r :: rest → Admitted s r → r.kind = .write → ¬ InPage s r.addr.toNat →
    InExtent s i r.addr → (∀ j, InExtent s j r.addr → j = i) →
    b.val = (r.addr.toNat - (s.st.get i).geo.base.toNat) / (s.st.get i).geo.pitch / (s.st.get i).geo.hb →
    ((s.bt.band i b).status ≠ .opened ∨ s.bt.wtt.get r.tag ≠ none) →
    ∃ t, exec (.requestAccept arriving) s = .next t ∧ ∃ u v, Checked r False (headTaken rest s) u ∧
      Forwarded r v t ∧
      ((s.bt.band i b).status ≠ .opened → EventTaken .lateWrite u.rw v.rw ∧
        v = { u with
          st := s.st.set i { s.st.get i with late := min 65535 ((s.st.get i).late + 1) }
          rtm := if (s.st.get i).state = .scanning then
              { u.rtm with record := u.rtm.record.map fun w => { w with late := min 65535 (w.late + 1) } }
            else u.rtm
          rw := v.rw }) ∧
      ((s.bt.band i b).status = .opened → LinkFaulted .trackReuse r.tag.val u v)

/-- REQUEST_ACCEPT of a command-page write (R139, R158): the burst and tag checks, then its beats in beat order, each
beat in the page carried out as its command's step, and the request forwarded. That the lane rows are these same changes
is the model's reading (log 19; a COMMIT of no table: log 18), and the list of waiting requests, its head tried once, its
choice (log 4). -/
def Obligations.AcceptCommands : Prop :=
  ∀ (arriving : Option Request) (s : State) (r : Request) (rest : List Request),
    s.tc.arrivals ++ arriving.toList = r :: rest → Admitted s r → r.kind = .write → InPage s r.addr.toNat →
    ∃ t, exec (.requestAccept arriving) s = .next t ∧
      ∃ u v, Checked r (Outstanding s r.tag) (headTaken rest s) u ∧
        BeatsRun (0xFFFFF00000 + 0x1000 * s.cd.wsel.toNat) r.addr.toNat r.data u v ∧ Forwarded r v t

/-- What a beat of the command page is, by its offset and its enables (R155 to R157), and what a whole beat on a lane
word spells: a code of the lane with the fields its row of R191 names and no others (R193), UNKNOWN for a code of no
lane and WRONG_LANE for a code of another (R160). A COMMIT of no table is one of its own (log 18). -/
def Obligations.PageBeats : Prop :=
  (∀ (offset : Nat) (b : Beat),
    let whole := b.enables = BitVec.allOnes 8
    (0x100 ≤ offset → decodeBeat offset b = .inert) ∧
    (0x030 ≤ offset → offset < 0x100 → decodeBeat offset b = .command .misplacedWrite) ∧
    (offset < 0x030 → ¬ whole → decodeBeat offset b = .command .misplacedWrite) ∧
    (whole → decodeBeat 0x000 b = decodeLane .render b.data ∧ decodeBeat 0x008 b = decodeLane .present b.data ∧
      decodeBeat 0x010 b = decodeLane .control b.data ∧ decodeBeat 0x018 b = .command (.tableIndex b.data) ∧
      decodeBeat 0x020 b = .command (.tableData b.data) ∧ decodeBeat 0x028 b = .command (.reportNow b.data))) ∧
  (∀ (lane : Lane) (w : Word),
    let code := w.toNat / 2 ^ 56
    let id := w.extractLsb' 48 8
    let a := w.extractLsb' 32 16
    let b := w.extractLsb' 16 16
    let c := w.extractLsb' 0 16
    let table := w.toNat / 2 ^ 48 % 256
    let render := code = 0x01 ∨ code = 0x02 ∨ code = 0x03
    let present := code = 0x10 ∨ code = 0x11
    let control := 0x20 ≤ code ∧ code ≤ 0x25
    let d := decodeLane lane w
    (¬ render ∧ ¬ present ∧ ¬ control ↔ d = .command (.unknown lane (BitVec.ofNat 8 code))) ∧
    ((render ∧ lane ≠ .render) ∨ (present ∧ lane ≠ .present) ∨ (control ∧ lane ≠ .control) ↔
      d = .command (.wrongLane lane (BitVec.ofNat 8 code))) ∧
    (lane = .render → (code = 0x01 → d = .command (.openFrame id)) ∧ (code = 0x02 → d = .command (.release id a b)) ∧
      (code = 0x03 → d = .command (.abandon id))) ∧
    (lane = .present → (code = 0x10 → d = .command (.present id a b)) ∧
      (code = 0x11 → d = .command (.withdraw id))) ∧
    (lane = .control →
      (code = 0x20 → (table = 1 → d = .command (.commitSurface a)) ∧ (table = 2 → d = .command (.commitTiming a)) ∧
        (table = 3 → d = .command (.commitFetch a)) ∧ (table = 4 → d = .command (.commitNotice a)) ∧
        (table = 5 → d = .command (.commitMarker a)) ∧ (table = 6 → d = .command (.commitReport a)) ∧
        (table = 0 ∨ 6 < table → d = .commitNoTable)) ∧
      (code = 0x21 → d = .command .outputOn) ∧ (code = 0x22 → d = .command .outputOff) ∧
      (code = 0x23 → d = .command (.clearEvents b c)) ∧ (code = 0x24 → d = .command (.viewSelect a)) ∧
      (code = 0x25 → d = .command .softReset)))

/-- Every lane command has a word, and its lane reads that word as that command, whatever its operands: no operand bit
is dropped (R191). -/
def Obligations.LaneRoundTrip : Prop :=
  (∀ (i : Instr) (lane : Lane) (w : Word), i.wf = true → encodeLane i = some (lane, w) →
    decodeLane lane w = .command i) ∧
  ∀ i : Instr, i.wf = true → LaneCommand i → ∃ lane w, encodeLane i = some (lane, w)

/-- CONSOLE_RESPONSE (R144): the discard set first, then a tag with nothing issued, and otherwise one issued less, a
WRITE_ACK shown to the Band Tracker (R39 to R41), and the response returned on a LIVE C-port (R145). That the model
keeps the latest response returned, and none where none was, is its own (log 15), and that a response while IN_RESET is
shown and not returned its reading (log 25). That a stamp is LC as an event sees it is the model's choice (log 33; see
LineCounter). -/
def Obligations.ConsoleResponse : Prop :=
  ∀ (tag : Fin 256) (kind : RespKind) (status : Status) (data : List (BitVec 64)) (s : State),
    ∃ t, exec (.consoleResponse tag kind status data) s = .next t ∧
      let none' := { s with tc := { s.tc with returned := none } }
      (s.tc.discard.get tag = true →
        (∀ x : Fin 256, t.tc.discard.get x = (s.tc.discard.get x && decide (x ≠ tag))) ∧
        t = { none' with tc := { none'.tc with discard := t.tc.discard } }) ∧
      (s.tc.discard.get tag = false → (s.tc.tags.get tag).issued = 0 → LinkFaulted .noRequest tag.val none' t) ∧
      (s.tc.discard.get tag = false → 0 < (s.tc.tags.get tag).issued → ∃ u : State,
        (kind = .readData ∨ s.bt.wtt.get tag = none → u = none') ∧
        (∀ w, kind = .writeAck → s.bt.wtt.get tag = some w →
          let live := (s.st.get w.surface).state ≠ .free ∧ (s.st.get w.surface).gen = w.gen
          (∀ x : Fin 256, u.bt.wtt.get x = if x = tag then none else s.bt.wtt.get x) ∧
          (∀ (j : Fin 8) (b : Fin 128),
            let r := s.bt.band j b
            let fault := r.fault || decide (status = .error)
            u.bt.band j b =
              if live ∧ j = w.surface ∧ b = w.band then
                if r.status = .draining ∧ r.pending - 1 = 0 then
                  { r with pending := r.pending - 1, fault := fault, status := .ready, stamp := some s.rtm.now }
                else { r with pending := r.pending - 1, fault := fault }
              else r) ∧
          (status = .ok → u.rw = s.rw) ∧ (status = .error → EventTaken .writeFault s.rw u.rw) ∧
          u = { none' with bt := { s.bt with bands := u.bt.bands, wtt := u.bt.wtt }, rw := u.rw }) ∧
        (∀ x : Fin 256, t.tc.tags.get x =
          if x = tag then { s.tc.tags.get x with issued := (s.tc.tags.get x).issued - 1 } else s.tc.tags.get x) ∧
        t = { u with tc := { u.tc with
          tags := t.tc.tags
          returned := if s.tc.cport = .live then
              some { tag := tag, kind := kind, status := status, data := data } else none } })

/-- FETCH_RESPONSE (R112 to R115). A WRITE_ACK, or a tag with no entry, is a fault of cause FETCH_TAG. A READ_DATA frees
its tag; in state DISCARD nothing else happens; in flight, an ERROR fails its burst and raises FETCH_ERROR, and OK makes
it RETURNED with the pixels that its data gives (R118, R195). A pixel whose beat is absent is left open (log 5). -/
def Obligations.FetchResponse : Prop :=
  ∀ (n : Fin 64) (kind : RespKind) (status : Status) (data : List (BitVec 64)) (s : State),
    ∃ t, exec (.fetchResponse n kind status data) s = .next t ∧
      (kind = .writeAck ∨ s.sf.reads.get n = none → LinkFaulted .fetchTag (256 + n.val) s t) ∧
      ∀ e, kind = .readData → s.sf.reads.get n = some e →
        let freed := s.sf.reads.set n none
        let burstSet := fun (b : Burst) => s.sf.buffer.map fun slot : Slot =>
          if slot.line = e.line then { slot with bursts := slot.bursts.set e.burst b } else slot
        (e.state = .discard → t = { s with sf := { s.sf with reads := freed } }) ∧
        (e.state = .inFlight → status = .error → EventTaken .fetchError s.rw t.rw ∧
          t = { s with
            sf := { s.sf with reads := freed, buffer := burstSet .failed }
            rtm := { s.rtm with
              record := s.rtm.record.map fun w => { w with fetchError := min 65535 (w.fetchError + 1) } }
            rw := t.rw }) ∧
        (e.state = .inFlight → status = .ok → ∀ tm src, s.rtm.timing = some tm →
          (∃ slot ∈ s.sf.buffer, slot.line = e.line) →
          (∀ slot ∈ s.sf.buffer, slot.line = e.line → slot.source = .surface src) →
          ∃ pixels : List Pixel,
            let per := if src.format = .p32 then 64 else 32
            pixels.length = min per (tm.w - per * e.burst) ∧
            (∀ k v, k < pixels.length → src.format = .p32 → data[k / 2]? = some v →
              pixels[k]? = some { red := v.extractLsb' (32 * (k % 2)) 10, green := v.extractLsb' (32 * (k % 2) + 10) 10
                                  blue := v.extractLsb' (32 * (k % 2) + 20) 10 }) ∧
            (∀ k v, k < pixels.length → src.format = .p64 → data[k]? = some v →
              pixels[k]? = some { red := halfChannel (v.extractLsb' 0 16), green := halfChannel (v.extractLsb' 16 16)
                                  blue := halfChannel (v.extractLsb' 32 16) }) ∧
            t = { s with sf := { s.sf with reads := freed, buffer := burstSet (.returned pixels) }
                         freeDraw := t.freeDraw })

/-- REPORT_ACK and STRAY_RESPONSE. An acknowledgement on a free report tag is a fault of cause REPORT_TAG (R179). One on
a held tag frees it; ERROR raises REPORT_FAULT, quietly for a status write (R183) and without a notice for its own
source for a failed REPORT_FAULT notice (R188), before the release or the end that the acknowledgement brings (log 31); a
view burst is counted, a status burst ends the write, a frame record releases its notice (R182, R185). A stray response is
a fault of cause UNUSED_TAG or REPORT_READ (R143). -/
def Obligations.ReportAck : Prop :=
  (∀ (n : Fin 16) (status : Status) (s : State), ∃ t, exec (.reportAck n status) s = .next t ∧
    (s.rw.tags.get n = none → LinkFaulted .reportTag (320 + n.val) s t) ∧
    ∀ w, s.rw.tags.get n = some w →
      ∃ r x, r = { s.rw with tags := s.rw.tags.set n none } ∧ t = { s with rw := t.rw } ∧
        (status = .ok → x = r) ∧
        (status = .error → ∃ y, EventTaken .reportFault r y ∧
          (w = .viewBurst ∨ w = .statusBurst → x = { y with dirty := r.dirty }) ∧
          (w = .notice (.flag .reportFault) → x = { y with waiting := r.waiting }) ∧
          ((∃ f, w = .record f) ∨ (∃ src, w = .notice src ∧ src ≠ .flag .reportFault) → x = y)) ∧
        (w = .viewBurst → ∀ v, x.write = some v →
          let counted := { x with write := some { v with viewAcked := v.viewAcked + 1 } }
          let ended := v.cutShort = true ∧ v.viewIssued - (v.viewAcked + 1) + v.recordIssued.toNat = 0
          (ended → WriteEnded counted t.rw) ∧ (¬ ended → t.rw = counted)) ∧
        (w = .viewBurst → x.write = none → t.rw = x) ∧
        (w = .statusBurst → WriteEnded x t.rw) ∧
        (∀ f, w = .record f → (∀ e : Fin 8, t.rw.waiting.get e =
            if x.waiting.get e = some (.record f) then some .released else x.waiting.get e) ∧
          t.rw = { x with waiting := t.rw.waiting }) ∧
        (∀ src, w = .notice src → t.rw = x)) ∧
  (∀ (tag : Fin 512) (kind : RespKind) (status : Status) (s : State),
    ∃ t, exec (.strayResponse tag kind status) s = .next t ∧
      (336 ≤ tag.val → LinkFaulted .unusedTag tag.val s t) ∧
      (320 ≤ tag.val → tag.val < 336 → kind = .readData → LinkFaulted .reportRead tag.val s t))

/-- GRANT and CHANNEL_FREE (R149, R151). While the channel is BUSY, or while no claim is presented, a grant changes
nothing (log 2); otherwise the channel is BUSY with the first claimant of R151. CHANNEL_FREE frees it. -/
def Obligations.GrantOrder : Prop :=
  (∀ s : State, ∃ t x, exec .grant s = .next t ∧ (s.ma.channel ≠ none → t = s) ∧
    (s.ma.channel = none → Granted s x ∧ (x = none → t = s) ∧
      ∀ c, x = some c → ∃ request, t.ma.channel = some { claimant := c, request := request })) ∧
  (∀ s : State, exec .channelFree s = .next { s with ma := { s.ma with channel := none } })

/-- The grant of PASS (R141, R152): the head of the forwarding buffer is issued unchanged and leaves the buffer; its
tag's queued count falls and its issued count rises, up to 255; the report wait age moves. -/
def Obligations.GrantPass : Prop :=
  ∀ (s : State) (r : Request) (rest : List Request), s.ma.channel = none → s.tc.forward = r :: rest →
    ¬ (FetchClaims s ∧ Urgent s) → ¬ (ReportClaims s ∧ 32 ≤ s.ma.age) →
    ∃ t, exec .grant s = .next t ∧ AgedBy s t.ma.age ∧
      (∃ m : MRequest, t.ma.channel = some { claimant := .pass, request := m } ∧ m.kind = r.kind ∧
        m.tag.val = r.tag.val ∧ m.addr = r.addr ∧ m.beats = r.beats ∧ m.data = r.data) ∧
      (∀ tag : Fin 256, t.tc.tags.get tag =
        if tag = r.tag then { queued := (s.tc.tags.get tag).queued - 1
                              issued := min 255 ((s.tc.tags.get tag).issued + 1) }
        else s.tc.tags.get tag) ∧
      t = { s with tc := { s.tc with forward := rest, tags := t.tc.tags }, ma := t.ma }

/-- The grant of FETCH_URGENT or FETCH (R108 to R110, R152): the next burst, the first NOT_ISSUED from the head of the
buffer, is read with the lowest free fetch tag and becomes IN_FLIGHT, with its entry in the outstanding read table. -/
def Obligations.GrantFetch : Prop :=
  ∀ (s : State) (tm : TimingSet) (ahead behind : List Slot) (slot : Slot) (src : SurfaceSource) (i : Nat) (n : Fin 64),
    s.ma.channel = none → s.rtm.timing = some tm → s.sf.buffer = ahead ++ slot :: behind →
    (∀ x ∈ ahead, ¬ ToIssue x) → slot.source = .surface src → slot.bursts[i]? = some .notIssued →
    (∀ k, k < i → slot.bursts[k]? ≠ some .notIssued) → LowestFree s.sf.reads n →
    (Urgent s ∨ (¬ (ReportClaims s ∧ 32 ≤ s.ma.age) ∧ s.tc.forward = [])) →
    ∃ t grade, exec .grant s = .next t ∧ AgedBy s t.ma.age ∧ (Urgent s → grade = .fetchUrgent) ∧
      (¬ Urgent s → grade = .fetch) ∧
      (∃ m : MRequest, t.ma.channel = some { claimant := grade, request := m } ∧ m.kind = .read ∧
        m.tag.val = 256 + n.val ∧ m.addr = BitVec.ofNat 40 (src.base.toNat + slot.line * src.pitch + 256 * i) ∧
        m.data = [] ∧
        (src.format = .p32 → m.beats = min 64 (tm.w - 64 * i) * 4 / 8) ∧
        (src.format = .p64 → m.beats = min 32 (tm.w - 32 * i))) ∧
      t = { s with
        sf := { s.sf with
          buffer := s.sf.buffer.map fun x : Slot =>
            if x.line = slot.line then { x with bursts := x.bursts.set i .inFlight } else x
          reads := s.sf.reads.set n (some { line := slot.line, burst := i, state := .inFlight }) }
        ma := t.ma }

/-- The grant of REPORT (R152, R179, R182, R185, R188): the oldest frame record, else the next burst of the status write
in progress, else the released notice of the lowest entry is issued with the lowest free report tag, at its place in the
report area (R172) or at the notice's address; the report wait age is 0. -/
def Obligations.GrantReport : Prop :=
  ∀ (s : State) (n : Fin 16), s.ma.channel = none → ¬ (FetchClaims s ∧ Urgent s) → LowestFree s.rw.tags n →
    (32 ≤ s.ma.age ∨ (s.tc.forward = [] ∧ ¬ FetchClaims s)) →
    let issued := fun (t : State) (addr beats : Nat) (data : List Beat) (r : ReportWriter) (w : ReportWrite) =>
      t = { s with
        rw := { r with tags := s.rw.tags.set n (some w) }
        ma := { channel := some { claimant := .report
                                  request := { kind := .write, tag := ⟨320 + n.val, by omega⟩
                                               addr := BitVec.ofNat 40 addr, beats := beats, data := data } }
                age := 0 } }
    (∀ f rest, s.rw.frames = f :: rest → ∃ t, exec .grant s = .next t ∧
      issued t (s.rw.base.toNat + 0x1000 + 64 * f.slot.toNat) 8 (packBeats 8 (frameBytes f))
        { s.rw with frames := rest } (.record f.number)) ∧
    (∀ w, s.rw.frames = [] → s.rw.write = some w → BurstReady w → ∃ t, exec .grant s = .next t ∧
      (w.viewIssued < 8 → issued t (s.rw.base.toNat + 0x100 + 256 * w.viewIssued) 32
        (packBeats 32 ((w.view.drop (256 * w.viewIssued)).take 256))
        { s.rw with write := some { w with viewIssued := w.viewIssued + 1 } } .viewBurst) ∧
      (8 ≤ w.viewIssued → issued t s.rw.base.toNat 32 (packBeats 32 w.record)
        { s.rw with write := some { w with recordIssued := true } } .statusBurst)) ∧
    (∀ e : Fin 8, s.rw.frames = [] → (∀ w, s.rw.write = some w → ¬ BurstReady w) →
      s.rw.waiting.get e = some .released → (∀ d : Fin 8, d < e → s.rw.waiting.get d ≠ some .released) →
      ∃ t beat, exec .grant s = .next t ∧
        issued t ((s.rw.notices.get e).addr.toNat / 8 * 8) 1 [beat]
          { s.rw with waiting := s.rw.waiting.set e none } (.notice (s.rw.notices.get e).source) ∧
        let upper := (s.rw.notices.get e).addr.toNat % 8 = 4
        ∀ k < 8, (beat.enables.getLsbD k = true ↔ (4 ≤ k ↔ upper)) ∧
          beat.data.extractLsb' (8 * k) 8 =
            if (4 ≤ k ↔ upper) then (s.rw.notices.get e).value.extractLsb' (8 * (k % 4)) 8 else 0)

/-- STATUS_WRITE_BEGIN (R182): with the area enabled, the record dirty and no write in progress, the sequence rises, the
record and the selected view page are snapshot, the record is clean, and the notices of earlier events wait for this
write (R187). Otherwise nothing begins (log 2). -/
def Obligations.StatusWriteBegin : Prop :=
  ∀ s : State, ∃ t, exec .statusWriteBegin s = .next t ∧
    let due := s.rw.enable = true ∧ s.rw.dirty = true ∧ s.rw.write = none
    (¬ due → t = s) ∧
    (due →
      (∀ e : Fin 8, t.rw.waiting.get e =
        if s.rw.waiting.get e = some .nextWrite then some .thisWrite else s.rw.waiting.get e) ∧
      t = { s with rw := { s.rw with
        sequence := s.rw.sequence + 1
        dirty := false
        waiting := t.rw.waiting
        write := some { view := viewPage s (s.rw.sequence + 1), record := statusRecord s (s.rw.sequence + 1)
                        viewIssued := 0, viewAcked := 0, recordIssued := false, cutShort := false } } })

/-- LINE_BOUNDARY and SETTLE_DONE (R80, R82, R83, R88, R104). A further SETTLE, FRONT_MIN or BACK_BLANK line begins
while the state has one left; in BACK_BLANK band 0's fetch point comes at line S − Lf_f, and one fetch start a line
from there. The boundary that ends the last SETTLE line raises SETTLE_DONE and begins FRONT_MIN. A boundary of another
kind than the raster's next one does not come, and changes nothing (log 2). That a boundary clears the mark of an ended
line is the model's choice (log 33). -/
def Obligations.BlankLines : Prop :=
  ∀ s : State, ∃ t u, exec .lineBoundary s = .next t ∧ exec .settleDone s = .next u ∧
    (s.rtm.timing = none → t = s ∧ u = s) ∧
    ∀ tm, s.rtm.timing = some tm →
      let n := s.rtm.pos + 1
      (s.rtm.raster = .settle → n < tm.settle → BlankBegun .settle .settle n s t ∧ u = s) ∧
      (s.rtm.raster = .settle → tm.settle ≤ n → t = s ∧
        ∃ v, EventTaken .settleDone s.rw v.rw ∧ v = { s with rw := v.rw } ∧ FrontMinBegun v u) ∧
      (s.rtm.raster ≠ .settle → u = s) ∧
      (s.rtm.raster = .frontMin → (n < tm.fMin → BlankBegun .front .frontMin n s t) ∧ (tm.fMin ≤ n → t = s)) ∧
      (s.rtm.raster = .backBlank → ∀ c, s.rtm.frame = some c →
        let first := tm.s - c.lead
        (tm.s ≤ n → t = s) ∧
        (n < tm.s → ∃ v, BlankBegun .back .backBlank n s v ∧ (n < first → t = v) ∧
          (n = first → ∃ x, PointTaken c 0 v x ∧ LineFetched tm c 0 x t) ∧
          (first < n → LineFetched tm c (n - first) v t))) ∧
      (s.rtm.raster = .off ∨ s.rtm.raster = .stretch ∨ s.rtm.raster = .active → t = s)

/-- FRONT_MIN_END (R84, R86): the boundary that ends the F_min-th line makes a front-blank selection. A taken entry
begins a NEW frame with its stretch skipped; otherwise STRETCH is entered, or, when F_min is F_max, the front blank
expires. Where the boundary is not due it changes nothing, which is the model's choice (log 2). At most one surface is
HELD (law 6), and the set's H is at most 2160 (R75). That a boundary clears the mark of an ended line is the model's
choice (log 33). -/
def Obligations.FrontMinEnd : Prop :=
  ∀ s : State, AtMostOne s .held → ∃ t, exec .frontMinEnd s = .next t ∧
    ∀ tm, s.rtm.timing = some tm → tm.h ≤ 2160 →
      let due := s.rtm.raster = .frontMin ∧ tm.fMin ≤ s.rtm.pos + 1
      (¬ due → t = s) ∧
      (due → (∀ older e newer, Chosen (Admissible s) s.pq.queue older e newer →
          NewBegun tm older e newer tm.fMin true s t) ∧
        (NoneChosen (Admissible s) s.pq.queue → (tm.fMin < tm.fMax → BlankBegun .stretch .stretch 0 s t) ∧
          (tm.fMax ≤ tm.fMin → Expired tm tm.fMin s t)))

/-- STRETCH_BOUNDARY and STRETCH_EXPIRY (R85, R86): a line boundary in STRETCH makes a front-blank selection, with F
the front-blank lines sent. A taken entry begins a NEW frame; otherwise another STRETCH line begins, or, at F_max
lines, the front blank expires. That both rows do the same at F_max lines is the model's choice (log 12), and so is
that outside STRETCH both, and below F_max STRETCH_EXPIRY, change nothing (log 2). At most one surface is HELD (law 6),
and the set's H is at most 2160 (R75). That a boundary clears the mark of an ended line is the model's choice (log 33).
-/
def Obligations.StretchEnd : Prop :=
  ∀ s : State, AtMostOne s .held → ∃ t u, exec .stretchBoundary s = .next t ∧ exec .stretchExpiry s = .next u ∧
    (s.rtm.raster ≠ .stretch → t = s ∧ u = s) ∧
    ∀ tm, s.rtm.timing = some tm → tm.h ≤ 2160 → s.rtm.raster = .stretch →
      let front := tm.fMin + s.rtm.pos + 1
      (front < tm.fMax → u = s) ∧ (tm.fMax ≤ front → u = t) ∧
      (∀ older e newer, Chosen (Admissible s) s.pq.queue older e newer → NewBegun tm older e newer front false s t) ∧
      (NoneChosen (Admissible s) s.pq.queue →
        (front < tm.fMax → BlankBegun .stretch .stretch (s.rtm.pos + 1) s t) ∧
        (tm.fMax ≤ front → Expired tm front s t))

/-- What a selection takes (R62, R65, R66): `pick` gives the newest candidate that carries LATEST, else the head if it is
a candidate, and else nothing; and the candidates of a front blank and of a decision point are those of R62 and R66. -/
def Obligations.SelectionChoice : Prop :=
  (∀ (candidate : Entry → Bool) (queue : List Entry),
    (∀ older e newer, pick candidate queue = some (older, e, newer) ↔
      Chosen (fun x => candidate x = true) queue older e newer) ∧
    (pick candidate queue = none ↔ NoneChosen (fun x => candidate x = true) queue)) ∧
  (∀ (s : State) (e : Entry) (hb : Nat), (s.admissible e = true ↔ Admissible s e) ∧
    (s.splitCandidate hb e = true ↔ SplitCandidate s hb e))

/-- The band decision (R46 to R48). A REPEAT takes its band from the HELD surface and a FILL takes fill. A NEW frame
takes a READY band from the SCANNING surface, SCANNED, its margin joining the record's least; a band that is not READY is
MISSED: BAND_MISS is raised and counted, the band comes from the HELD surface or is fill, and the BAND_MISS level rises
(R133). With no surface SCANNING it is fill. At most one surface is SCANNING and at most one HELD (law 6). -/
def Obligations.BandDecision : Prop :=
  ∀ (s : State) (b : Fin 128), AtMostOne s .scanning → AtMostOne s .held →
    let fallback := fun x : BandSource => (∀ i : Fin 8, (s.st.get i).state = .held → x = asSource s i) ∧
      ((∀ i : Fin 8, (s.st.get i).state ≠ .held) → x = .fill)
    (fallback (s.decideBand .repeated b.val).1 ∧ (s.decideBand .repeated b.val).2 = s) ∧
    s.decideBand .fill b.val = (.fill, s) ∧
    ((∀ i : Fin 8, (s.st.get i).state ≠ .scanning) → s.decideBand .new b.val = (.fill, s)) ∧
    ∀ i : Fin 8, (s.st.get i).state = .scanning →
      let x := (s.decideBand .new b.val).1
      let t := (s.decideBand .new b.val).2
      let r := s.bt.band i b
      let scan := fun y : Scan => ∀ (j : Fin 8) (k : Fin 128), t.bt.band j k =
        if j = i ∧ k = b then { r with scan := y } else s.bt.band j k
      (r.status = .ready → ∀ stamp, r.stamp = some stamp →
        let margin := min 65535 (s.rtm.lc - stamp).toNat
        x = asSource s i ∧ scan .scanned ∧
        t = { s with
          bt := { s.bt with bands := t.bt.bands }
          rtm := { s.rtm with record := s.rtm.record.map fun w =>
            { w with leastMargin := some (min margin (w.leastMargin.getD margin)) } } }) ∧
      (r.status ≠ .ready → fallback x ∧ scan .missed ∧ EventTaken .bandMiss s.rw t.rw ∧
        t = { s with
          bt := { s.bt with bands := t.bt.bands }
          rw := t.rw
          po := { s.po with missed := true }
          rtm := { s.rtm with record := s.rtm.record.map fun w =>
            { w with misses := min 65535 (w.misses + 1), firstMissed := some (w.firstMissed.getD b.val) } } })

/-- ACTIVE_START and ACTIVE_LINE (R80, R89, R90, R93, R115 to R117). At the boundary after the last BACK_BLANK line
active line 0 begins: its LC is kept and FRAME_START signalled. At each later boundary the next active line begins.
Both then do a line's own steps. The boundary and those steps are in the model's order within one boundary (logs 10,
11); that a frame which a soft reset cut still completes its present lag is the model's reading (log 34), and that a
boundary not due changes nothing its choice (log 2). At most one surface is SCANNING (law 6), the frame's grid has a
band height (R87; see ScanoutKept), and the buffer holds the line (R107). That a boundary clears the mark of an ended
line is the model's choice (log 33). -/
def Obligations.ActiveLines : Prop :=
  ∀ (s : State) (tm : TimingSet) (c : FrameControl), AtMostOne s .scanning → s.rtm.timing = some tm →
    s.rtm.frame = some c → 0 < c.hb → s.sf.buffer ≠ [] →
    ∃ t u, exec .activeStart s = .next t ∧ exec .activeLine s = .next u ∧
      let n := s.rtm.pos + 1
      (¬ (s.rtm.raster = .backBlank ∧ tm.s ≤ n) → t = s) ∧ (¬ (s.rtm.raster = .active ∧ n < tm.h) → u = s) ∧
      (s.rtm.raster = .backBlank → tm.s ≤ n → ∃ v, Notified .frameStart .released s.rw v.rw ∧
        v = { s with
          rtm := { s.rtm with
            raster := .active, pos := 0, ended := false, lc := s.rtm.lc + 1
            record := s.rtm.record.map fun w => { w with activeLine := s.rtm.lc + 1 } }
          po := { s.po with missed := false }
          rw := { s.rw with waiting := v.rw.waiting } } ∧
        LineBegun tm c 0 v t) ∧
      (s.rtm.raster = .active → n < tm.h →
        LineBegun tm c n { s with rtm := { s.rtm with raster := .active, pos := n, ended := false, lc := s.rtm.lc + 1 }
                                  po := { s.po with missed := false } } u)

/-- A line at its deadline (R115, R116), in the set in force then: a fill line is fill colour throughout; in a surface's
line the pixels of a RETURNED burst stand, and every other pixel is that of the prior line in PRIOR mode, if there is a
prior line, and fill colour otherwise. The slot and the prior line are whole (R107, R108). -/
def Obligations.DeadlineLine : Prop :=
  ∀ (set : FetchSet) (prior : Option (List Pixel)) (w : Nat) (slot : Slot), SlotWhole w slot →
    (∀ l, prior = some l → l.length = w) →
    let row := lineAtDeadline set prior w slot
    row.length = w ∧
    (slot.source = .fill → row = List.replicate w set.fill) ∧
    ∀ src, slot.source = .surface src → ∀ x, x < w →
      let per := if src.format = .p32 then 64 else 32
      (∀ pixels, slot.bursts[x / per]? = some (.returned pixels) → row[x]? = pixels[x % per]?) ∧
      ((∀ pixels, slot.bursts[x / per]? ≠ some (.returned pixels)) →
        (∀ l, set.mode = .prior → prior = some l → row[x]? = l[x]?) ∧
        (set.mode = .fill ∨ prior = none → row[x]? = some set.fill))

/-- END_OF_ACTIVE (R91 in its order): the record is handed over and the frame count rises, the surfaces settle (R14),
the list, the buffer and the prior line are empty (R105, R107, R116), a pending timing set comes into force, and the
raster enters OFF for a pending OUTPUT_OFF, SETTLE if a set came into force, and FRONT_MIN otherwise. That it changes
nothing where it is not due is the model's choice (log 2), and in OFF so are the line position 0 (log 21), nothing sent
(log 15) and no line that has ended (log 33); that a settle of 0 lines is passed within the command is its reading (log
9). At most one surface is SCANNING and at most one HELD (law 6). That a waiting fetch set keeps the lead its commit
clamped, where the set that comes into force has a larger S, is the model's choice (log 40). -/
def Obligations.EndOfActive : Prop :=
  ∀ s : State, AtMostOne s .scanning → AtMostOne s .held → ∃ t, exec .endOfActive s = .next t ∧
    ∀ tm w, s.rtm.timing = some tm → s.rtm.record = some w →
      let due := s.rtm.raster = .active ∧ tm.h ≤ s.rtm.pos + 1
      (¬ due → t = s) ∧
      (due → ∃ u v x : State, RecordHanded s.rtm.frameCount w s.rw u.rw ∧
        u = { s with rw := u.rw, rtm := { s.rtm with record := none, frameCount := s.rtm.frameCount + 1 } } ∧
        Settled u v ∧
        x = { v with sf := { v.sf with sources := [], buffer := [], prior := none }
                     rtm := { v.rtm with frame := none, lag := none } } ∧
        (s.rtm.pendingSet = none → (s.rtm.offPending = true → EnteredOff x t) ∧
          (s.rtm.offPending = false → FrontMinBegun x t)) ∧
        (∀ new, s.rtm.pendingSet = some new → ∃ y, TimingInForce new x y ∧
          (s.rtm.offPending = true → EnteredOff y t) ∧ (s.rtm.offPending = false → SettleBegun new y t)))

/-- The levels of the marker functions (R131 to R134), and that MK0 and MK1 each follow the function routed to it. -/
def Obligations.MarkerLevels : Prop :=
  ∀ (s : State) (line : Fin 2),
    (∀ m, s.po.routing.get line = m → s.markerLevel line = s.functionLevel m) ∧
    s.functionLevel .off = false ∧
    (s.functionLevel .frameStart = true ↔ s.rtm.raster = .active ∧ s.rtm.pos = 0) ∧
    (s.functionLevel .active = true ↔ s.rtm.raster = .active) ∧
    (s.functionLevel .stretch = true ↔ s.rtm.raster = .stretch) ∧
    (s.functionLevel .bandMiss = true ↔ s.po.missed = true) ∧
    (s.functionLevel .repeated = true ↔ s.rtm.raster = .active ∧
      ∃ w, s.rtm.record = some w ∧ (w.kind = some .repeated ∨ w.kind = some .fill)) ∧
    (s.functionLevel .summary = true ↔ s.rw.summary = true)

/-- A P64 pixel and the 10-bit channel of a half-precision value (R119): the first three of a pixel's four values are
converted; NaN and every negative value give 0, 1 and more give 1023, and any other value v gives the whole number
nearest to 1023 v, the even one of two equally near. -/
def Obligations.HalfChannel : Prop :=
  (∀ v : BitVec 64, pixelP64 v =
    { red := halfChannel (v.extractLsb' 0 16), green := halfChannel (v.extractLsb' 16 16)
      blue := halfChannel (v.extractLsb' 32 16) }) ∧
  ∀ h : BitVec 16,
    let exponent := h.toNat / 2 ^ 10 % 32
    let fraction := h.toNat % 2 ^ 10
    let negative := 2 ^ 15 ≤ h.toNat
    let nan := exponent = 31 ∧ fraction ≠ 0
    let v := halfValue exponent fraction
    let n := (halfChannel h).toNat
    (nan ∨ negative → n = 0) ∧
    (¬ nan → ¬ negative → (exponent = 31 ∨ 1 ≤ v) → n = 1023) ∧
    (¬ nan → ¬ negative → exponent ≠ 31 → v < 1 →
      |(n : ℚ) - 1023 * v| ≤ 1 / 2 ∧ (|(n : ℚ) - 1023 * v| = 1 / 2 → n % 2 = 0))

/-- The layouts of the status record and of a frame record (R180, R185, R196): every field at its offset, in its size,
and every reserved byte 0. That the snapshot shows LC as an event sees it is the model's choice (log 33; see
LineCounter). That the bits of byte 0x4B that the layout neither names nor marks reserved are 0 is the model's choice
(log 38). -/
def Obligations.RecordLayouts : Prop :=
  (∀ (s : State) (sequence : BitVec 32),
    (statusRecord s sequence).length = 256 ∧
    Holds (statusRecord s sequence) [
      (0x00, 4, sequence.toNat), (0x04, 2, s.rw.flags.toNat),
      (0x06, 1, s.rw.summary.toNat + 2 * s.rw.causes.power.toNat + 4 * s.rw.causes.link.toNat +
        8 * s.rw.causes.soft.toNat),
      (0x07, 1, s.rw.page.val), (0x08, 4, s.rw.counters.bandMisses), (0x0C, 4, s.rw.counters.repeats),
      (0x10, 4, s.rw.counters.fillFrames), (0x14, 4, s.rw.counters.lateWrites), (0x18, 4, s.rw.counters.drops),
      (0x1C, 4, s.rw.counters.fetchLate), (0x20, 4, s.rw.counters.fetchErrors),
      (0x24, 4, s.rw.counters.trackStalls), (0x28, 8, s.rw.base.toNat), (0x30, 1, s.rw.enable.toNat),
      (0x31, 1, s.cd.wsel.toNat), (0x32, 2, 0)] ∧
    Holds (statusRecord s sequence) [
      (0x34, 2, s.cd.render.taken.toNat), (0x36, 1, s.cd.render.code.toNat), (0x37, 1, s.cd.render.result.code),
      (0x38, 2, s.cd.present.taken.toNat), (0x3A, 1, s.cd.present.code.toNat), (0x3B, 1, s.cd.present.result.code),
      (0x3C, 2, s.cd.control.taken.toNat), (0x3E, 1, s.cd.control.code.toNat), (0x3F, 1, s.cd.control.result.code),
      (0x40, 1, s.cd.index.field.toNat), (0x41, 1, s.cd.index.entry.toNat), (0x42, 1, s.cd.index.table.toNat),
      (0x43, 1, 0)] ∧
    Holds (statusRecord s sequence) [
      (0x44, 1, s.pq.queue.length), (0x45, 1, 0), (0x46, 2, s.pq.count.toNat), (0x48, 2, s.pq.lastTaken.toNat),
      (0x4A, 1, s.rtm.raster.code),
      (0x4B, 1, s.rtm.timing.isSome.toNat + 2 * s.rtm.pendingSet.isSome.toNat + 4 * s.rtm.offPending.toNat),
      (0x4C, 4, s.rtm.now.toNat), (0x50, 4, s.rtm.frameCount.toNat), (0x54, 1, s.sf.inForce.lead),
      (0x55, 1, s.sf.inForce.mode.code), (0x56, 1, s.sf.inForce.ppt), (0x57, 1, s.sf.waiting.isSome.toNat),
      (0x58, 1, s.po.level.toNat), (0x59, 1, s.po.state.code), (0x5A, 1, (s.po.routing.get 0).code),
      (0x5B, 1, (s.po.routing.get 1).code)] ∧
    Holds (statusRecord s sequence) [
      (0x5C, 1, s.tc.cport.code), (0x5D, 1, s.tc.forward.length), (0x5E, 2, s.tc.discard.count id),
      (0x60, 1, s.tc.fault.elim 0 fun f => f.cause.code), (0x61, 1, 0),
      (0x62, 2, s.tc.fault.elim 0 fun f => f.tag), (0x64, 28, 0), (0xC0, 64, 0)] ∧
    ∀ i : Fin 8, Holds (statusRecord s sequence) [
      (0x80 + 8 * i.val, 1, (s.st.get i).geo.defined.toNat), (0x81 + 8 * i.val, 1, (s.st.get i).state.code),
      (0x82 + 8 * i.val, 1, (s.st.get i).gen.toNat), (0x83 + 8 * i.val, 1, (s.st.get i).geo.nb),
      (0x84 + 8 * i.val, 2, (s.st.get i).late), (0x86 + 8 * i.val, 2, 0)]) ∧
  (∀ f : FrameRecord,
    (frameBytes f).length = 64 ∧
    Holds (frameBytes f) [
      (0x00, 4, f.number.toNat), (0x04, 1, f.body.kind.elim 0 FrameKind.code),
      (0x05, 1, f.body.skipped.toNat + 2 * f.body.cut.toNat + 4 * f.body.source.isSome.toNat +
        8 * f.body.split.isSome.toNat + 16 * f.body.lag.isSome.toNat + 32 * f.body.firstMissed.isSome.toNat +
        64 * f.body.leastMargin.isSome.toNat),
      (0x06, 1, f.body.source.elim 0 Fin.val), (0x07, 1, f.body.split.elim 0 fun p => p.1.val),
      (0x08, 1, f.body.split.elim 0 Prod.snd), (0x09, 1, f.body.firstMissed.getD 0), (0x0A, 2, f.body.front),
      (0x0C, 2, f.body.lag.getD 0), (0x0E, 2, f.body.misses), (0x10, 2, f.body.leastMargin.getD 0),
      (0x12, 2, f.body.late), (0x14, 2, f.body.fetchLate), (0x16, 2, f.body.fetchError), (0x18, 2, f.body.dropped),
      (0x1A, 2, 0), (0x1C, 4, f.body.activeLine.toNat), (0x20, 32, 0)])

/-- The view page that the selection names (R50, R51, R73, R99, R184, R196): 2048 bytes; the 128 band records of a
surface, the table's entries in ascending order of tag, the queue head first, or the two timing sets, each position
with the sequence of its snapshot. That the bits of a band entry's byte 0x7 and of a timing block's byte 0x04 that the
layouts neither name nor mark reserved are 0 is the model's choice (log 38). -/
def Obligations.ViewPages : Prop :=
  ∀ (s : State) (sequence : BitVec 32), TableBounded s → s.pq.queue.length ≤ 4 →
    let page := viewPage s sequence
    page.length = 2048 ∧
    (∀ (i : Fin 8) (b : Fin 128), s.rw.page.val = i.val →
      let r := s.bt.band i b
      Holds page [
        (16 * b.val, 4, sequence.toNat), (16 * b.val + 4, 1, r.status.code), (16 * b.val + 5, 1, r.pending),
        (16 * b.val + 6, 1, r.scan.code), (16 * b.val + 7, 1, r.fault.toNat + 2 * r.stamp.isSome.toNat),
        (16 * b.val + 8, 4, r.stamp.elim 0 BitVec.toNat), (16 * b.val + 12, 1, b.val), (16 * b.val + 13, 3, 0)]) ∧
    (s.rw.page = 8 →
      (∀ (tag : Fin 256) (w : Tracked), s.bt.wtt.get tag = some w →
        let at' := 16 * ((List.finRange 256).filter fun x => x < tag ∧ (s.bt.wtt.get x).isSome).length
        Holds page [(at', 4, sequence.toNat), (at' + 4, 1, 1), (at' + 5, 1, w.surface.val), (at' + 6, 1, w.gen.toNat),
          (at' + 7, 1, w.band.val), (at' + 8, 2, tag.val), (at' + 10, 6, 0)]) ∧
      (∀ p, s.bt.wtt.count Option.isSome ≤ p → p < 64 →
        Holds page [(16 * p, 4, sequence.toNat), (16 * p + 4, 12, 0)]) ∧
      Holds page [(1024, 1024, 0)]) ∧
    (s.rw.page = 9 →
      (∀ p e, s.pq.queue[p]? = some e →
        Holds page [(32 * p, 4, sequence.toNat), (32 * p + 4, 1, 1), (32 * p + 5, 1, e.surface.val),
          (32 * p + 6, 1, e.mode.code), (32 * p + 7, 1, e.latest.toNat), (32 * p + 8, 1, e.admission),
          (32 * p + 9, 1, p + 1), (32 * p + 10, 2, e.number.toNat), (32 * p + 12, 4, e.arrival.toNat),
          (32 * p + 16, 16, 0)]) ∧
      (∀ p, s.pq.queue.length ≤ p → p < 4 → Holds page [(32 * p, 4, sequence.toNat), (32 * p + 4, 28, 0)]) ∧
      Holds page [(128, 1920, 0)]) ∧
    (s.rw.page = 10 →
      let block := fun (at' : Nat) (set : Option TimingSet) =>
        (set = none → Holds page [(at', 4, sequence.toNat), (at' + 4, 60, 0)]) ∧
        ∀ t, set = some t → Holds page [
          (at', 4, sequence.toNat), (at' + 4, 1, 1 + 2 * t.floorRaised.toNat + 4 * t.rangeCollapsed.toNat),
          (at' + 5, 1, t.s), (at' + 6, 1, t.fp), (at' + 7, 1, 0), (at' + 8, 2, t.w), (at' + 10, 2, t.h),
          (at' + 12, 2, t.ht), (at' + 14, 2, t.settle), (at' + 16, 4, t.clock), (at' + 20, 2, t.fhi),
          (at' + 22, 2, t.flo), (at' + 24, 4, t.vtMin), (at' + 28, 4, t.vtMax), (at' + 32, 2, t.fMin),
          (at' + 34, 2, t.fMax), (at' + 36, 28, 0)]
      block 0 s.rtm.timing ∧ block 64 s.rtm.pendingSet ∧ Holds page [(128, 1920, 0)])

/-- State.reset, and every state that POWER_ON_RESET answers whatever the levels of the input pins, is safe: every law
of the device holds of it. State.reset is the state after a power-on reset for WSEL 0, LINK_UP low and CRST released: the
model's choice of levels (log 8, unsafe). -/
def Obligations.ResetSafe : Prop :=
  Safe State.reset ∧
    ∀ (wsel : BitVec 4) (linkUp crst : Bool) (s t : State),
      exec (.powerOnReset wsel linkUp crst) s = .next t → Safe t

/-- Laws 1 to 4 (R23, R24, R25, R27, R28) and R9 are kept by every step: pending counts are counts of table entries,
READY bands have none pending, SCANNED bands are READY, at most 64 entries, FREE surfaces cleared. The queue and the
surface states are safe (laws 5 to 7; see PresentationKept). -/
def Obligations.TrackingKept : Prop :=
  ∀ s t : State, Tracking s → Presentation s → step s = .next t → Tracking t

/-- Laws 5 to 7 (R8, R16, R53) are kept by every step: the queue and the QUEUED surfaces agree, at most one surface is
SCANNING and at most one HELD, and QUEUED, SCANNING and HELD surfaces have the size of the set in force. -/
def Obligations.PresentationKept : Prop :=
  ∀ s t : State, Presentation s → step s = .next t → Presentation t

/-- R1, R4 to R6 and R173 are kept by every step: defined surfaces have lawful geometries, and no two extents, the
command page and the enabled report area share a byte with them, and an undefined surface is FREE. The queue and the
surface states are safe (laws 5 to 7; see PresentationKept). -/
def Obligations.ExtentsKept : Prop :=
  ∀ s t : State, Extents s → Presentation s → step s = .next t → Extents t

/-- Laws 8 to 10 (R78, R83, R103) are kept by every step, with the raster's place in its state, the lines that the
buffer holds (R107), the wholeness of those lines (R108, R112, R116), and the band height of every surface and of the
frame's grid, one of the four of R5 and R87. That the buffer keeps its lines through a soft reset (log 36), and that no
line is marked as ended in OFF (log 33), are the model's choices. -/
def Obligations.ScanoutKept : Prop :=
  ∀ s t : State, Scanout s → step s = .next t → Scanout t

/-- Every read in flight keeps its burst, IN_FLIGHT, in the buffer, and no two reads the same one (R110, R111), by every
step of a safe raster. -/
def Obligations.FetchingKept : Prop :=
  ∀ s t : State, Fetching s → step s = .next t → Fetching t

/-- Every held report tag and every waiting notice keeps what it waits for, by every step (R174, R179, R182, R185, R187),
and the report wait age is 0 while no claim is presented (R149). -/
def Obligations.ReportingKept : Prop :=
  ∀ s t : State, Reporting s → step s = .next t → Reporting t

/-- Laws 11 and 12 (R176, R185) and the bounds of the counters, counts and ages (R1, R149, R178, R185) are kept by every
step. -/
def Obligations.BoundedKept : Prop :=
  ∀ s t : State, Bounded s → step s = .next t → Bounded t

/-- The forwarding buffer, the tag table and the discard set agree after every step (R137, R144, R146). -/
def Obligations.TrafficKept : Prop :=
  ∀ s t : State, Traffic s → step s = .next t → Traffic t

/-- LC as an event sees it (R80): LC of the current line, or, once that line has ended, LC of the line that its boundary
begins. OFF has no line, and the boundary that enters OFF begins none. Each boundary that comes counts LC once and ends
that time, so an event taken first at a boundary sees the LC of the line that begins there, and a band READY then has
margin 0 at a fetch point there (R47, section 11.2). The mark of an ended line is the model's own (log 33, with log 2 for
a boundary that does not come). -/
def Obligations.LineCounter : Prop :=
  ∀ s : State,
    let last := s.rtm.raster = .active ∧ s.rtm.offPending = true ∧ ∃ tm, s.rtm.timing = some tm ∧ tm.h ≤ s.rtm.pos + 1
    let begins := s.rtm.raster ≠ .off ∧ ¬ last
    let next := fun lc : Line => (begins → lc = s.rtm.lc + 1) ∧ (¬ begins → lc = s.rtm.lc)
    ((s.rtm.ended = true → next s.rtm.now) ∧ (s.rtm.ended = false → s.rtm.now = s.rtm.lc)) ∧
    ∀ c ∈ [Instr.lineBoundary, .settleDone, .frontMinEnd, .stretchBoundary, .stretchExpiry, .activeStart, .activeLine,
        .endOfActive],
      ∃ t, exec c s = .next t ∧ (t = s ∨ (next t.rtm.lc ∧ t.rtm.ended = false ∧ t.rtm.now = t.rtm.lc))
end

