-- ==== Sys2Proof/Laws/Table.lean ====
section
/-! SUPPORT. The small laws of a table: reading after each of its operations. -/

namespace Sys2Proof

variable {α β γ : Type} {n : Nat}

theorem Table.ext_get {t u : Table α n} (h : ∀ i, t.get i = u.get i) : t = u := by
  rcases t with ⟨l, hl⟩
  rcases u with ⟨m, hm⟩
  have : l = m := by
    apply List.ext_getElem (by omega)
    intro k h₁ h₂
    exact h ⟨k, by omega⟩
  subst this
  rfl

@[simp] theorem Table.get_set_self (t : Table α n) (i : Fin n) (a : α) : (t.set i a).get i = a := by
  simp [Table.get, Table.set]

theorem Table.get_set_ne (t : Table α n) {i j : Fin n} (h : j ≠ i) (a : α) : (t.set i a).get j = t.get j := by
  have h' : i.val ≠ j.val := fun e => h (Fin.ext e.symm)
  simp [Table.get, Table.set, h']

theorem Table.get_set (t : Table α n) (i j : Fin n) (a : α) :
    (t.set i a).get j = if j = i then a else t.get j := by
  by_cases h : j = i
  · subst h; simp
  · simp [h, Table.get_set_ne]

@[simp] theorem Table.get_modify_self (t : Table α n) (i : Fin n) (f : α → α) :
    (t.modify i f).get i = f (t.get i) := by simp [Table.modify]

theorem Table.get_modify_ne (t : Table α n) {i j : Fin n} (h : j ≠ i) (f : α → α) :
    (t.modify i f).get j = t.get j := by simp [Table.modify, Table.get_set_ne, h]

theorem Table.get_modify (t : Table α n) (i j : Fin n) (f : α → α) :
    (t.modify i f).get j = if j = i then f (t.get j) else t.get j := by
  by_cases h : j = i
  · subst h; simp
  · simp [h, Table.get_modify_ne]

@[simp] theorem Table.get_replicate (i : Fin n) (a : α) : (Table.replicate n a).get i = a := by
  simp [Table.get, Table.replicate]

@[simp] theorem Table.get_map (t : Table α n) (f : α → β) (i : Fin n) : (t.map f).get i = f (t.get i) := by
  simp [Table.get, Table.map]

@[simp] theorem Table.get_mapIdx (t : Table α n) (f : Nat → α → β) (i : Fin n) :
    (t.mapIdx f).get i = f i.val (t.get i) := by
  simp [Table.get, Table.mapIdx]

@[simp] theorem Table.get_zipWith (t : Table α n) (u : Table β n) (f : α → β → γ) (i : Fin n) :
    (Table.zipWith f t u).get i = f (t.get i) (u.get i) := by
  simp [Table.get, Table.zipWith]

@[simp] theorem Table.set_get (t : Table α n) (i : Fin n) : t.set i (t.get i) = t := by
  apply Table.ext_get
  intro j
  rw [Table.get_set]
  split
  · rename_i h; rw [h]
  · rfl

@[simp] theorem Table.set_set (t : Table α n) (i : Fin n) (a b : α) : (t.set i a).set i b = t.set i b := by
  apply Table.ext_get
  intro j
  simp only [Table.get_set]
  split <;> rfl

@[simp] theorem Table.modify_modify (t : Table α n) (i : Fin n) (f g : α → α) :
    (t.modify i f).modify i g = t.modify i (g ∘ f) := by
  simp [Table.modify]

theorem Table.mem_list (t : Table α n) (a : α) : a ∈ t.list ↔ ∃ i, t.get i = a := by
  rw [List.mem_iff_getElem]
  constructor
  · rintro ⟨k, hk, rfl⟩
    exact ⟨⟨k, by rw [← t.len]; exact hk⟩, rfl⟩
  · rintro ⟨i, rfl⟩
    exact ⟨i.val, by rw [t.len]; exact i.isLt, rfl⟩

/-- A number found names an entry that meets the predicate. -/
theorem Table.find_some {t : Table α n} {p : α → Bool} {i : Fin n} (h : t.find p = some i) : p (t.get i) = true :=
  List.find?_some (p := fun i => p (t.get i)) h

/-- Nothing found: no entry meets the predicate. -/
theorem Table.find_none {t : Table α n} {p : α → Bool} : t.find p = none ↔ ∀ i, p (t.get i) = false := by
  simp [Table.find]

/-- Something is found when an entry meets the predicate. -/
theorem Table.find_isSome {t : Table α n} {p : α → Bool} : (t.find p).isSome = true ↔ ∃ i, p (t.get i) = true := by
  rw [← not_iff_not, Bool.not_eq_true, Option.isSome_eq_false_iff, Option.isNone_iff_eq_none, Table.find_none]
  simp

/-- The number found is the lowest. -/
theorem Table.find_least {t : Table α n} {p : α → Bool} {i : Fin n} (h : t.find p = some i) :
    ∀ j, j < i → p (t.get j) = false := by
  intro j hj
  rw [Table.find, List.find?_eq_some_iff_append] at h
  obtain ⟨-, as, bs, hlist, has⟩ := h
  have hmem : j ∈ as ++ i :: bs := by rw [← hlist]; exact List.mem_finRange j
  have hsorted : (as ++ i :: bs).Pairwise (· < ·) := by
    rw [← hlist]; exact List.pairwise_lt_finRange n
  rcases List.mem_append.mp hmem with h₁ | h₁
  · simpa using has j h₁
  · rcases List.mem_cons.mp h₁ with h₂ | h₂
    · exact absurd (h₂ ▸ hj) (lt_irrefl _)
    · have := (List.pairwise_append.mp hsorted).2.1
      have := (List.pairwise_cons.mp this).1 j h₂
      exact absurd hj (not_lt.mpr (le_of_lt this))

/-- With at most one entry that meets the predicate, that one is found. -/
theorem Table.find_unique {t : Table α n} {p : α → Bool} {i : Fin n} (hi : p (t.get i) = true)
    (h : ∀ j, p (t.get j) = true → j = i) : t.find p = some i := by
  cases hf : t.find p with
  | none => rw [Table.find_none.mp hf i] at hi; exact absurd hi (by simp)
  | some j => rw [h j (Table.find_some hf)]

/-- The count after one entry is replaced: less the old entry's part, and the new one's. -/
theorem Table.count_set (t : Table α n) (p : α → Bool) (i : Fin n) (a : α) :
    (t.set i a).count p + (p (t.get i)).toNat = t.count p + (p a).toNat := by
  rcases t with ⟨l, hl⟩
  have hi : i.val < l.length := by rw [hl]; exact i.isLt
  simp only [Table.count, Table.set, Table.get]
  have key : ∀ (l : List α) (k : Nat) (hk : k < l.length),
      (l.set k a).countP p + (p l[k]).toNat = l.countP p + (p a).toNat := by
    intro l
    induction l with
    | nil => intro k hk; simp at hk
    | cons x xs ih =>
      intro k hk
      cases k with
      | zero => simp only [List.set_cons_zero, List.countP_cons, List.getElem_cons_zero]; cases p x <;> cases p a <;> simp
      | succ k =>
        have := ih k (by simpa using hk)
        simp only [List.set_cons_succ, List.countP_cons, List.getElem_cons_succ]
        omega
  exact key l i.val hi

@[simp] theorem Table.count_replicate (p : α → Bool) (a : α) :
    (Table.replicate n a).count p = if p a then n else 0 := by
  simp [Table.count, Table.replicate, List.countP_replicate]

/-- A count is positive when an entry meets the predicate. -/
theorem Table.count_pos {t : Table α n} {p : α → Bool} : 0 < t.count p ↔ ∃ i, p (t.get i) = true := by
  simp only [Table.count, List.countP_pos_iff]
  constructor
  · rintro ⟨a, ha, hp⟩
    obtain ⟨i, rfl⟩ := (t.mem_list a).mp ha
    exact ⟨i, hp⟩
  · rintro ⟨i, hp⟩
    exact ⟨_, (t.mem_list _).mpr ⟨i, rfl⟩, hp⟩

theorem Table.any_iff {t : Table α n} {p : α → Bool} : t.any p = true ↔ ∃ i, p (t.get i) = true := by
  rw [← Table.count_pos]
  simp [Table.any, Table.count]

theorem Table.any_false {t : Table α n} {p : α → Bool} : t.any p = false ↔ ∀ i, p (t.get i) = false := by
  rw [← not_iff_not, Bool.not_eq_false, Table.any_iff]
  simp

end Sys2Proof
end

