-- ==== Sys2Proof/Laws/State.lean ====
section
/-! SUPPORT. What each elementary update of the state leaves in each field of the state, all true by rfl. -/

namespace Sys2Proof.Machine

variable (s : State)

/-! ## State.raise -/

@[simp] theorem State.raise_tc (e : Event) : (s.raise e).tc = s.tc := rfl
@[simp] theorem State.raise_cd (e : Event) : (s.raise e).cd = s.cd := rfl
@[simp] theorem State.raise_st (e : Event) : (s.raise e).st = s.st := rfl
@[simp] theorem State.raise_bt (e : Event) : (s.raise e).bt = s.bt := rfl
@[simp] theorem State.raise_pq (e : Event) : (s.raise e).pq = s.pq := rfl
@[simp] theorem State.raise_rtm (e : Event) : (s.raise e).rtm = s.rtm := rfl
@[simp] theorem State.raise_sf (e : Event) : (s.raise e).sf = s.sf := rfl
@[simp] theorem State.raise_po (e : Event) : (s.raise e).po = s.po := rfl
@[simp] theorem State.raise_rw (e : Event) : (s.raise e).rw = s.rw.raise e := rfl
@[simp] theorem State.raise_ma (e : Event) : (s.raise e).ma = s.ma := rfl
@[simp] theorem State.raise_pending (e : Event) : (s.raise e).pending = s.pending := rfl
@[simp] theorem State.raise_freeDraw (e : Event) : (s.raise e).freeDraw = s.freeDraw := rfl

/-! ## State.mark -/

@[simp] theorem State.mark_tc : (s.mark).tc = s.tc := rfl
@[simp] theorem State.mark_cd : (s.mark).cd = s.cd := rfl
@[simp] theorem State.mark_st : (s.mark).st = s.st := rfl
@[simp] theorem State.mark_bt : (s.mark).bt = s.bt := rfl
@[simp] theorem State.mark_pq : (s.mark).pq = s.pq := rfl
@[simp] theorem State.mark_rtm : (s.mark).rtm = s.rtm := rfl
@[simp] theorem State.mark_sf : (s.mark).sf = s.sf := rfl
@[simp] theorem State.mark_po : (s.mark).po = s.po := rfl
@[simp] theorem State.mark_rw : (s.mark).rw = s.rw.mark := rfl
@[simp] theorem State.mark_ma : (s.mark).ma = s.ma := rfl
@[simp] theorem State.mark_pending : (s.mark).pending = s.pending := rfl
@[simp] theorem State.mark_freeDraw : (s.mark).freeDraw = s.freeDraw := rfl

/-! ## State.linkProtocol -/

@[simp] theorem State.linkProtocol_tc (c : FaultCause) (n : Nat) : (s.linkProtocol c n).tc = { s.tc with fault := some { cause := c, tag := n } } := rfl
@[simp] theorem State.linkProtocol_cd (c : FaultCause) (n : Nat) : (s.linkProtocol c n).cd = s.cd := rfl
@[simp] theorem State.linkProtocol_st (c : FaultCause) (n : Nat) : (s.linkProtocol c n).st = s.st := rfl
@[simp] theorem State.linkProtocol_bt (c : FaultCause) (n : Nat) : (s.linkProtocol c n).bt = s.bt := rfl
@[simp] theorem State.linkProtocol_pq (c : FaultCause) (n : Nat) : (s.linkProtocol c n).pq = s.pq := rfl
@[simp] theorem State.linkProtocol_rtm (c : FaultCause) (n : Nat) : (s.linkProtocol c n).rtm = s.rtm := rfl
@[simp] theorem State.linkProtocol_sf (c : FaultCause) (n : Nat) : (s.linkProtocol c n).sf = s.sf := rfl
@[simp] theorem State.linkProtocol_po (c : FaultCause) (n : Nat) : (s.linkProtocol c n).po = s.po := rfl
@[simp] theorem State.linkProtocol_rw (c : FaultCause) (n : Nat) : (s.linkProtocol c n).rw = s.rw.raise .linkProtocol := rfl
@[simp] theorem State.linkProtocol_ma (c : FaultCause) (n : Nat) : (s.linkProtocol c n).ma = s.ma := rfl
@[simp] theorem State.linkProtocol_pending (c : FaultCause) (n : Nat) : (s.linkProtocol c n).pending = s.pending := rfl
@[simp] theorem State.linkProtocol_freeDraw (c : FaultCause) (n : Nat) : (s.linkProtocol c n).freeDraw = s.freeDraw := rfl

/-! ## State.signal -/

@[simp] theorem State.signal_tc (x : Source) : (s.signal x).tc = s.tc := rfl
@[simp] theorem State.signal_cd (x : Source) : (s.signal x).cd = s.cd := rfl
@[simp] theorem State.signal_st (x : Source) : (s.signal x).st = s.st := rfl
@[simp] theorem State.signal_bt (x : Source) : (s.signal x).bt = s.bt := rfl
@[simp] theorem State.signal_pq (x : Source) : (s.signal x).pq = s.pq := rfl
@[simp] theorem State.signal_rtm (x : Source) : (s.signal x).rtm = s.rtm := rfl
@[simp] theorem State.signal_sf (x : Source) : (s.signal x).sf = s.sf := rfl
@[simp] theorem State.signal_po (x : Source) : (s.signal x).po = s.po := rfl
@[simp] theorem State.signal_rw (x : Source) : (s.signal x).rw = s.rw.occur x .released := rfl
@[simp] theorem State.signal_ma (x : Source) : (s.signal x).ma = s.ma := rfl
@[simp] theorem State.signal_pending (x : Source) : (s.signal x).pending = s.pending := rfl
@[simp] theorem State.signal_freeDraw (x : Source) : (s.signal x).freeDraw = s.freeDraw := rfl

/-! ## State.setSurface -/

@[simp] theorem State.setSurface_tc (i : Fin 8) (x : SurfState) : (s.setSurface i x).tc = s.tc := rfl
@[simp] theorem State.setSurface_cd (i : Fin 8) (x : SurfState) : (s.setSurface i x).cd = s.cd := rfl
@[simp] theorem State.setSurface_st (i : Fin 8) (x : SurfState) : (s.setSurface i x).st = s.st.modify i fun f => { f with state := x } := rfl
@[simp] theorem State.setSurface_bt (i : Fin 8) (x : SurfState) : (s.setSurface i x).bt = s.bt := rfl
@[simp] theorem State.setSurface_pq (i : Fin 8) (x : SurfState) : (s.setSurface i x).pq = s.pq := rfl
@[simp] theorem State.setSurface_rtm (i : Fin 8) (x : SurfState) : (s.setSurface i x).rtm = s.rtm := rfl
@[simp] theorem State.setSurface_sf (i : Fin 8) (x : SurfState) : (s.setSurface i x).sf = s.sf := rfl
@[simp] theorem State.setSurface_po (i : Fin 8) (x : SurfState) : (s.setSurface i x).po = s.po := rfl
@[simp] theorem State.setSurface_rw (i : Fin 8) (x : SurfState) : (s.setSurface i x).rw = s.rw.mark := rfl
@[simp] theorem State.setSurface_ma (i : Fin 8) (x : SurfState) : (s.setSurface i x).ma = s.ma := rfl
@[simp] theorem State.setSurface_pending (i : Fin 8) (x : SurfState) : (s.setSurface i x).pending = s.pending := rfl
@[simp] theorem State.setSurface_freeDraw (i : Fin 8) (x : SurfState) : (s.setSurface i x).freeDraw = s.freeDraw := rfl

/-! ## State.clearBands -/

@[simp] theorem State.clearBands_tc (i : Fin 8) : (s.clearBands i).tc = s.tc := rfl
@[simp] theorem State.clearBands_cd (i : Fin 8) : (s.clearBands i).cd = s.cd := rfl
@[simp] theorem State.clearBands_st (i : Fin 8) : (s.clearBands i).st = s.st := rfl
@[simp] theorem State.clearBands_bt (i : Fin 8) : (s.clearBands i).bt = { s.bt with bands := s.bt.bands.set i .cleared } := rfl
@[simp] theorem State.clearBands_pq (i : Fin 8) : (s.clearBands i).pq = s.pq := rfl
@[simp] theorem State.clearBands_rtm (i : Fin 8) : (s.clearBands i).rtm = s.rtm := rfl
@[simp] theorem State.clearBands_sf (i : Fin 8) : (s.clearBands i).sf = s.sf := rfl
@[simp] theorem State.clearBands_po (i : Fin 8) : (s.clearBands i).po = s.po := rfl
@[simp] theorem State.clearBands_rw (i : Fin 8) : (s.clearBands i).rw = s.rw := rfl
@[simp] theorem State.clearBands_ma (i : Fin 8) : (s.clearBands i).ma = s.ma := rfl
@[simp] theorem State.clearBands_pending (i : Fin 8) : (s.clearBands i).pending = s.pending := rfl
@[simp] theorem State.clearBands_freeDraw (i : Fin 8) : (s.clearBands i).freeDraw = s.freeDraw := rfl

/-! ## State.freeSurface -/

@[simp] theorem State.freeSurface_tc (i : Fin 8) : (s.freeSurface i).tc = s.tc := rfl
@[simp] theorem State.freeSurface_cd (i : Fin 8) : (s.freeSurface i).cd = s.cd := rfl
@[simp] theorem State.freeSurface_st (i : Fin 8) : (s.freeSurface i).st = s.st.modify i fun f => { f with state := .free } := rfl
@[simp] theorem State.freeSurface_bt (i : Fin 8) : (s.freeSurface i).bt = { s.bt with bands := s.bt.bands.set i .cleared } := rfl
@[simp] theorem State.freeSurface_pq (i : Fin 8) : (s.freeSurface i).pq = s.pq := rfl
@[simp] theorem State.freeSurface_rtm (i : Fin 8) : (s.freeSurface i).rtm = s.rtm := rfl
@[simp] theorem State.freeSurface_sf (i : Fin 8) : (s.freeSurface i).sf = s.sf := rfl
@[simp] theorem State.freeSurface_po (i : Fin 8) : (s.freeSurface i).po = s.po := rfl
@[simp] theorem State.freeSurface_rw (i : Fin 8) : (s.freeSurface i).rw = s.rw.mark := rfl
@[simp] theorem State.freeSurface_ma (i : Fin 8) : (s.freeSurface i).ma = s.ma := rfl
@[simp] theorem State.freeSurface_pending (i : Fin 8) : (s.freeSurface i).pending = s.pending := rfl
@[simp] theorem State.freeSurface_freeDraw (i : Fin 8) : (s.freeSurface i).freeDraw = s.freeDraw := rfl

/-! ## State.onRecord -/

@[simp] theorem State.onRecord_tc (f : WorkingRecord → WorkingRecord) : (s.onRecord f).tc = s.tc := rfl
@[simp] theorem State.onRecord_cd (f : WorkingRecord → WorkingRecord) : (s.onRecord f).cd = s.cd := rfl
@[simp] theorem State.onRecord_st (f : WorkingRecord → WorkingRecord) : (s.onRecord f).st = s.st := rfl
@[simp] theorem State.onRecord_bt (f : WorkingRecord → WorkingRecord) : (s.onRecord f).bt = s.bt := rfl
@[simp] theorem State.onRecord_pq (f : WorkingRecord → WorkingRecord) : (s.onRecord f).pq = s.pq := rfl
@[simp] theorem State.onRecord_rtm (f : WorkingRecord → WorkingRecord) : (s.onRecord f).rtm = { s.rtm with record := s.rtm.record.map f } := rfl
@[simp] theorem State.onRecord_sf (f : WorkingRecord → WorkingRecord) : (s.onRecord f).sf = s.sf := rfl
@[simp] theorem State.onRecord_po (f : WorkingRecord → WorkingRecord) : (s.onRecord f).po = s.po := rfl
@[simp] theorem State.onRecord_rw (f : WorkingRecord → WorkingRecord) : (s.onRecord f).rw = s.rw := rfl
@[simp] theorem State.onRecord_ma (f : WorkingRecord → WorkingRecord) : (s.onRecord f).ma = s.ma := rfl
@[simp] theorem State.onRecord_pending (f : WorkingRecord → WorkingRecord) : (s.onRecord f).pending = s.pending := rfl
@[simp] theorem State.onRecord_freeDraw (f : WorkingRecord → WorkingRecord) : (s.onRecord f).freeDraw = s.freeDraw := rfl

/-! ## State.boundary -/

@[simp] theorem State.boundary_tc (r : Raster) (n : Nat) : (s.boundary r n).tc = s.tc := rfl
@[simp] theorem State.boundary_cd (r : Raster) (n : Nat) : (s.boundary r n).cd = s.cd := rfl
@[simp] theorem State.boundary_st (r : Raster) (n : Nat) : (s.boundary r n).st = s.st := rfl
@[simp] theorem State.boundary_bt (r : Raster) (n : Nat) : (s.boundary r n).bt = s.bt := rfl
@[simp] theorem State.boundary_pq (r : Raster) (n : Nat) : (s.boundary r n).pq = s.pq := rfl
@[simp] theorem State.boundary_rtm (r : Raster) (n : Nat) : (s.boundary r n).rtm = { s.rtm with raster := r, pos := n, ended := false, lc := s.rtm.lc + 1 } := rfl
@[simp] theorem State.boundary_sf (r : Raster) (n : Nat) : (s.boundary r n).sf = s.sf := rfl
@[simp] theorem State.boundary_po (r : Raster) (n : Nat) : (s.boundary r n).po = { s.po with missed := false } := rfl
@[simp] theorem State.boundary_rw (r : Raster) (n : Nat) : (s.boundary r n).rw = s.rw := rfl
@[simp] theorem State.boundary_ma (r : Raster) (n : Nat) : (s.boundary r n).ma = s.ma := rfl
@[simp] theorem State.boundary_pending (r : Raster) (n : Nat) : (s.boundary r n).pending = s.pending := rfl
@[simp] theorem State.boundary_freeDraw (r : Raster) (n : Nat) : (s.boundary r n).freeDraw = s.freeDraw := rfl

/-! ## State.sendBlank -/

@[simp] theorem State.sendBlank_tc (k : Token) : (s.sendBlank k).tc = s.tc := rfl
@[simp] theorem State.sendBlank_cd (k : Token) : (s.sendBlank k).cd = s.cd := rfl
@[simp] theorem State.sendBlank_st (k : Token) : (s.sendBlank k).st = s.st := rfl
@[simp] theorem State.sendBlank_bt (k : Token) : (s.sendBlank k).bt = s.bt := rfl
@[simp] theorem State.sendBlank_pq (k : Token) : (s.sendBlank k).pq = s.pq := rfl
@[simp] theorem State.sendBlank_rtm (k : Token) : (s.sendBlank k).rtm = s.rtm := rfl
@[simp] theorem State.sendBlank_sf (k : Token) : (s.sendBlank k).sf = s.sf := rfl
@[simp] theorem State.sendBlank_po (k : Token) : (s.sendBlank k).po = s.po.blankLine k := rfl
@[simp] theorem State.sendBlank_rw (k : Token) : (s.sendBlank k).rw = s.rw := rfl
@[simp] theorem State.sendBlank_ma (k : Token) : (s.sendBlank k).ma = s.ma := rfl
@[simp] theorem State.sendBlank_pending (k : Token) : (s.sendBlank k).pending = s.pending := rfl
@[simp] theorem State.sendBlank_freeDraw (k : Token) : (s.sendBlank k).freeDraw = s.freeDraw := rfl

/-! ## State.enterFrontMin -/

@[simp] theorem State.enterFrontMin_tc : (s.enterFrontMin).tc = s.tc := rfl
@[simp] theorem State.enterFrontMin_cd : (s.enterFrontMin).cd = s.cd := rfl
@[simp] theorem State.enterFrontMin_st : (s.enterFrontMin).st = s.st := rfl
@[simp] theorem State.enterFrontMin_bt : (s.enterFrontMin).bt = s.bt := rfl
@[simp] theorem State.enterFrontMin_pq : (s.enterFrontMin).pq = s.pq := rfl
@[simp] theorem State.enterFrontMin_sf : (s.enterFrontMin).sf = s.sf := rfl
@[simp] theorem State.enterFrontMin_rw : (s.enterFrontMin).rw = s.rw := rfl
@[simp] theorem State.enterFrontMin_ma : (s.enterFrontMin).ma = s.ma := rfl
@[simp] theorem State.enterFrontMin_pending : (s.enterFrontMin).pending = s.pending := rfl
@[simp] theorem State.enterFrontMin_freeDraw : (s.enterFrontMin).freeDraw = s.freeDraw := rfl

/-! ## State.dropSurface -/

@[simp] theorem State.dropSurface_tc (e : Entry) : (s.dropSurface e).tc = s.tc := rfl
@[simp] theorem State.dropSurface_cd (e : Entry) : (s.dropSurface e).cd = s.cd := rfl
@[simp] theorem State.dropSurface_st (e : Entry) : (s.dropSurface e).st = s.st.modify e.surface fun f => { f with state := .free } := rfl
@[simp] theorem State.dropSurface_bt (e : Entry) : (s.dropSurface e).bt = { s.bt with bands := s.bt.bands.set e.surface .cleared } := rfl
@[simp] theorem State.dropSurface_pq (e : Entry) : (s.dropSurface e).pq = s.pq := rfl
@[simp] theorem State.dropSurface_rtm (e : Entry) : (s.dropSurface e).rtm = s.rtm := rfl
@[simp] theorem State.dropSurface_sf (e : Entry) : (s.dropSurface e).sf = s.sf := rfl
@[simp] theorem State.dropSurface_po (e : Entry) : (s.dropSurface e).po = s.po := rfl
@[simp] theorem State.dropSurface_rw (e : Entry) : (s.dropSurface e).rw = s.rw.mark.raise .presentDropped := rfl
@[simp] theorem State.dropSurface_ma (e : Entry) : (s.dropSurface e).ma = s.ma := rfl
@[simp] theorem State.dropSurface_pending (e : Entry) : (s.dropSurface e).pending = s.pending := rfl
@[simp] theorem State.dropSurface_freeDraw (e : Entry) : (s.dropSurface e).freeDraw = s.freeDraw := rfl

/-! ## State.dropOlder -/

@[simp] theorem State.dropOlder_tc (e : Entry) : (s.dropOlder e).tc = s.tc := rfl
@[simp] theorem State.dropOlder_cd (e : Entry) : (s.dropOlder e).cd = s.cd := rfl
@[simp] theorem State.dropOlder_st (e : Entry) : (s.dropOlder e).st = s.st.modify e.surface fun f => { f with state := .free } := rfl
@[simp] theorem State.dropOlder_bt (e : Entry) : (s.dropOlder e).bt = { s.bt with bands := s.bt.bands.set e.surface .cleared } := rfl
@[simp] theorem State.dropOlder_pq (e : Entry) : (s.dropOlder e).pq = s.pq := rfl
@[simp] theorem State.dropOlder_sf (e : Entry) : (s.dropOlder e).sf = s.sf := rfl
@[simp] theorem State.dropOlder_po (e : Entry) : (s.dropOlder e).po = s.po := rfl
@[simp] theorem State.dropOlder_rw (e : Entry) : (s.dropOlder e).rw = s.rw.mark.raise .presentDropped := rfl
@[simp] theorem State.dropOlder_ma (e : Entry) : (s.dropOlder e).ma = s.ma := rfl
@[simp] theorem State.dropOlder_pending (e : Entry) : (s.dropOlder e).pending = s.pending := rfl
@[simp] theorem State.dropOlder_freeDraw (e : Entry) : (s.dropOlder e).freeDraw = s.freeDraw := rfl

/-! ## State.fetchInForce -/

@[simp] theorem State.fetchInForce_tc (f : FetchSet) : (s.fetchInForce f).tc = s.tc := rfl
@[simp] theorem State.fetchInForce_cd (f : FetchSet) : (s.fetchInForce f).cd = s.cd := rfl
@[simp] theorem State.fetchInForce_st (f : FetchSet) : (s.fetchInForce f).st = s.st := rfl
@[simp] theorem State.fetchInForce_bt (f : FetchSet) : (s.fetchInForce f).bt = s.bt := rfl
@[simp] theorem State.fetchInForce_pq (f : FetchSet) : (s.fetchInForce f).pq = s.pq := rfl
@[simp] theorem State.fetchInForce_rtm (f : FetchSet) : (s.fetchInForce f).rtm = s.rtm := rfl
@[simp] theorem State.fetchInForce_rw (f : FetchSet) : (s.fetchInForce f).rw = s.rw := rfl
@[simp] theorem State.fetchInForce_ma (f : FetchSet) : (s.fetchInForce f).ma = s.ma := rfl
@[simp] theorem State.fetchInForce_pending (f : FetchSet) : (s.fetchInForce f).pending = s.pending := rfl
@[simp] theorem State.fetchInForce_freeDraw (f : FetchSet) : (s.fetchInForce f).freeDraw = s.freeDraw := rfl

/-! ## State.scanBand -/

@[simp] theorem State.scanBand_tc (i : Fin 8) (b : Nat) : (s.scanBand i b).tc = s.tc := rfl
@[simp] theorem State.scanBand_cd (i : Fin 8) (b : Nat) : (s.scanBand i b).cd = s.cd := rfl
@[simp] theorem State.scanBand_st (i : Fin 8) (b : Nat) : (s.scanBand i b).st = s.st := rfl
@[simp] theorem State.scanBand_pq (i : Fin 8) (b : Nat) : (s.scanBand i b).pq = s.pq := rfl
@[simp] theorem State.scanBand_sf (i : Fin 8) (b : Nat) : (s.scanBand i b).sf = s.sf := rfl
@[simp] theorem State.scanBand_po (i : Fin 8) (b : Nat) : (s.scanBand i b).po = s.po := rfl
@[simp] theorem State.scanBand_rw (i : Fin 8) (b : Nat) : (s.scanBand i b).rw = s.rw := rfl
@[simp] theorem State.scanBand_ma (i : Fin 8) (b : Nat) : (s.scanBand i b).ma = s.ma := rfl
@[simp] theorem State.scanBand_pending (i : Fin 8) (b : Nat) : (s.scanBand i b).pending = s.pending := rfl
@[simp] theorem State.scanBand_freeDraw (i : Fin 8) (b : Nat) : (s.scanBand i b).freeDraw = s.freeDraw := rfl

/-! ## State.missBand -/

@[simp] theorem State.missBand_tc (i : Fin 8) (b : Nat) : (s.missBand i b).tc = s.tc := rfl
@[simp] theorem State.missBand_cd (i : Fin 8) (b : Nat) : (s.missBand i b).cd = s.cd := rfl
@[simp] theorem State.missBand_st (i : Fin 8) (b : Nat) : (s.missBand i b).st = s.st := rfl
@[simp] theorem State.missBand_pq (i : Fin 8) (b : Nat) : (s.missBand i b).pq = s.pq := rfl
@[simp] theorem State.missBand_sf (i : Fin 8) (b : Nat) : (s.missBand i b).sf = s.sf := rfl
@[simp] theorem State.missBand_ma (i : Fin 8) (b : Nat) : (s.missBand i b).ma = s.ma := rfl
@[simp] theorem State.missBand_pending (i : Fin 8) (b : Nat) : (s.missBand i b).pending = s.pending := rfl
@[simp] theorem State.missBand_freeDraw (i : Fin 8) (b : Nat) : (s.missBand i b).freeDraw = s.freeDraw := rfl

/-! ## State.lateBurst -/

@[simp] theorem State.lateBurst_tc : (s.lateBurst).tc = s.tc := rfl
@[simp] theorem State.lateBurst_cd : (s.lateBurst).cd = s.cd := rfl
@[simp] theorem State.lateBurst_st : (s.lateBurst).st = s.st := rfl
@[simp] theorem State.lateBurst_bt : (s.lateBurst).bt = s.bt := rfl
@[simp] theorem State.lateBurst_pq : (s.lateBurst).pq = s.pq := rfl
@[simp] theorem State.lateBurst_sf : (s.lateBurst).sf = s.sf := rfl
@[simp] theorem State.lateBurst_po : (s.lateBurst).po = s.po := rfl
@[simp] theorem State.lateBurst_ma : (s.lateBurst).ma = s.ma := rfl
@[simp] theorem State.lateBurst_pending : (s.lateBurst).pending = s.pending := rfl
@[simp] theorem State.lateBurst_freeDraw : (s.lateBurst).freeDraw = s.freeDraw := rfl

/-! ## State.handRecord -/

@[simp] theorem State.handRecord_tc : (s.handRecord).tc = s.tc := rfl
@[simp] theorem State.handRecord_cd : (s.handRecord).cd = s.cd := rfl
@[simp] theorem State.handRecord_st : (s.handRecord).st = s.st := rfl
@[simp] theorem State.handRecord_bt : (s.handRecord).bt = s.bt := rfl
@[simp] theorem State.handRecord_pq : (s.handRecord).pq = s.pq := rfl
@[simp] theorem State.handRecord_rtm : (s.handRecord).rtm = { s.rtm with record := none, frameCount := s.rtm.frameCount + 1 } := rfl
@[simp] theorem State.handRecord_sf : (s.handRecord).sf = s.sf := rfl
@[simp] theorem State.handRecord_po : (s.handRecord).po = s.po := rfl
@[simp] theorem State.handRecord_ma : (s.handRecord).ma = s.ma := rfl
@[simp] theorem State.handRecord_pending : (s.handRecord).pending = s.pending := rfl
@[simp] theorem State.handRecord_freeDraw : (s.handRecord).freeDraw = s.freeDraw := rfl

/-! ## State.endFrame -/

@[simp] theorem State.endFrame_tc : (s.endFrame).tc = s.tc := rfl
@[simp] theorem State.endFrame_cd : (s.endFrame).cd = s.cd := rfl
@[simp] theorem State.endFrame_st : (s.endFrame).st = s.st := rfl
@[simp] theorem State.endFrame_bt : (s.endFrame).bt = s.bt := rfl
@[simp] theorem State.endFrame_pq : (s.endFrame).pq = s.pq := rfl
@[simp] theorem State.endFrame_po : (s.endFrame).po = s.po := rfl
@[simp] theorem State.endFrame_rw : (s.endFrame).rw = s.rw := rfl
@[simp] theorem State.endFrame_ma : (s.endFrame).ma = s.ma := rfl
@[simp] theorem State.endFrame_pending : (s.endFrame).pending = s.pending := rfl
@[simp] theorem State.endFrame_freeDraw : (s.endFrame).freeDraw = s.freeDraw := rfl

/-! ## State.openSurface -/

@[simp] theorem State.openSurface_tc (i : Fin 8) : (s.openSurface i).tc = s.tc := rfl
@[simp] theorem State.openSurface_cd (i : Fin 8) : (s.openSurface i).cd = s.cd := rfl
@[simp] theorem State.openSurface_st (i : Fin 8) : (s.openSurface i).st = s.st.modify i fun f => { f with state := .rendering, gen := f.gen + 1, late := 0 } := rfl
@[simp] theorem State.openSurface_bt (i : Fin 8) : (s.openSurface i).bt = { s.bt with bands := s.bt.bands.set i .cleared } := rfl
@[simp] theorem State.openSurface_pq (i : Fin 8) : (s.openSurface i).pq = s.pq := rfl
@[simp] theorem State.openSurface_rtm (i : Fin 8) : (s.openSurface i).rtm = s.rtm := rfl
@[simp] theorem State.openSurface_sf (i : Fin 8) : (s.openSurface i).sf = s.sf := rfl
@[simp] theorem State.openSurface_po (i : Fin 8) : (s.openSurface i).po = s.po := rfl
@[simp] theorem State.openSurface_rw (i : Fin 8) : (s.openSurface i).rw = s.rw.mark := rfl
@[simp] theorem State.openSurface_ma (i : Fin 8) : (s.openSurface i).ma = s.ma := rfl
@[simp] theorem State.openSurface_pending (i : Fin 8) : (s.openSurface i).pending = s.pending := rfl
@[simp] theorem State.openSurface_freeDraw (i : Fin 8) : (s.openSurface i).freeDraw = s.freeDraw := rfl

/-! ## State.abandonSurface -/

@[simp] theorem State.abandonSurface_tc (i : Fin 8) : (s.abandonSurface i).tc = s.tc := rfl
@[simp] theorem State.abandonSurface_cd (i : Fin 8) : (s.abandonSurface i).cd = s.cd := rfl
@[simp] theorem State.abandonSurface_st (i : Fin 8) : (s.abandonSurface i).st = s.st.modify i fun f => { f with state := .free } := rfl
@[simp] theorem State.abandonSurface_bt (i : Fin 8) : (s.abandonSurface i).bt = { s.bt with bands := s.bt.bands.set i .cleared } := rfl
@[simp] theorem State.abandonSurface_pq (i : Fin 8) : (s.abandonSurface i).pq = s.pq.remove i := rfl
@[simp] theorem State.abandonSurface_rtm (i : Fin 8) : (s.abandonSurface i).rtm = s.rtm := rfl
@[simp] theorem State.abandonSurface_sf (i : Fin 8) : (s.abandonSurface i).sf = s.sf := rfl
@[simp] theorem State.abandonSurface_po (i : Fin 8) : (s.abandonSurface i).po = s.po := rfl
@[simp] theorem State.abandonSurface_ma (i : Fin 8) : (s.abandonSurface i).ma = s.ma := rfl
@[simp] theorem State.abandonSurface_pending (i : Fin 8) : (s.abandonSurface i).pending = s.pending := rfl
@[simp] theorem State.abandonSurface_freeDraw (i : Fin 8) : (s.abandonSurface i).freeDraw = s.freeDraw := rfl

/-! ## State.enqueue -/

@[simp] theorem State.enqueue_tc (i : Fin 8) (m : Mode) (l : Bool) (a : Nat) : (s.enqueue i m l a).tc = s.tc := rfl
@[simp] theorem State.enqueue_cd (i : Fin 8) (m : Mode) (l : Bool) (a : Nat) : (s.enqueue i m l a).cd = s.cd := rfl
@[simp] theorem State.enqueue_st (i : Fin 8) (m : Mode) (l : Bool) (a : Nat) : (s.enqueue i m l a).st = s.st.modify i fun f => { f with state := .queued } := rfl
@[simp] theorem State.enqueue_bt (i : Fin 8) (m : Mode) (l : Bool) (a : Nat) : (s.enqueue i m l a).bt = s.bt := rfl
@[simp] theorem State.enqueue_rtm (i : Fin 8) (m : Mode) (l : Bool) (a : Nat) : (s.enqueue i m l a).rtm = s.rtm := rfl
@[simp] theorem State.enqueue_sf (i : Fin 8) (m : Mode) (l : Bool) (a : Nat) : (s.enqueue i m l a).sf = s.sf := rfl
@[simp] theorem State.enqueue_po (i : Fin 8) (m : Mode) (l : Bool) (a : Nat) : (s.enqueue i m l a).po = s.po := rfl
@[simp] theorem State.enqueue_ma (i : Fin 8) (m : Mode) (l : Bool) (a : Nat) : (s.enqueue i m l a).ma = s.ma := rfl
@[simp] theorem State.enqueue_pending (i : Fin 8) (m : Mode) (l : Bool) (a : Nat) : (s.enqueue i m l a).pending = s.pending := rfl
@[simp] theorem State.enqueue_freeDraw (i : Fin 8) (m : Mode) (l : Bool) (a : Nat) : (s.enqueue i m l a).freeDraw = s.freeDraw := rfl

/-! ## State.installGeometry -/

@[simp] theorem State.installGeometry_tc (i : Fin 8) (g : Geometry) : (s.installGeometry i g).tc = s.tc := rfl
@[simp] theorem State.installGeometry_cd (i : Fin 8) (g : Geometry) : (s.installGeometry i g).cd = s.cd := rfl
@[simp] theorem State.installGeometry_st (i : Fin 8) (g : Geometry) : (s.installGeometry i g).st = s.st.modify i fun f => { f with geo := g } := rfl
@[simp] theorem State.installGeometry_bt (i : Fin 8) (g : Geometry) : (s.installGeometry i g).bt = s.bt := rfl
@[simp] theorem State.installGeometry_pq (i : Fin 8) (g : Geometry) : (s.installGeometry i g).pq = s.pq := rfl
@[simp] theorem State.installGeometry_rtm (i : Fin 8) (g : Geometry) : (s.installGeometry i g).rtm = s.rtm := rfl
@[simp] theorem State.installGeometry_sf (i : Fin 8) (g : Geometry) : (s.installGeometry i g).sf = s.sf := rfl
@[simp] theorem State.installGeometry_po (i : Fin 8) (g : Geometry) : (s.installGeometry i g).po = s.po := rfl
@[simp] theorem State.installGeometry_rw (i : Fin 8) (g : Geometry) : (s.installGeometry i g).rw = s.rw.mark := rfl
@[simp] theorem State.installGeometry_ma (i : Fin 8) (g : Geometry) : (s.installGeometry i g).ma = s.ma := rfl
@[simp] theorem State.installGeometry_pending (i : Fin 8) (g : Geometry) : (s.installGeometry i g).pending = s.pending := rfl
@[simp] theorem State.installGeometry_freeDraw (i : Fin 8) (g : Geometry) : (s.installGeometry i g).freeDraw = s.freeDraw := rfl

/-! ## State.installNotice -/

@[simp] theorem State.installNotice_tc (i : Fin 8) (n : NoticeEntry) : (s.installNotice i n).tc = s.tc := rfl
@[simp] theorem State.installNotice_cd (i : Fin 8) (n : NoticeEntry) : (s.installNotice i n).cd = s.cd := rfl
@[simp] theorem State.installNotice_st (i : Fin 8) (n : NoticeEntry) : (s.installNotice i n).st = s.st := rfl
@[simp] theorem State.installNotice_bt (i : Fin 8) (n : NoticeEntry) : (s.installNotice i n).bt = s.bt := rfl
@[simp] theorem State.installNotice_pq (i : Fin 8) (n : NoticeEntry) : (s.installNotice i n).pq = s.pq := rfl
@[simp] theorem State.installNotice_rtm (i : Fin 8) (n : NoticeEntry) : (s.installNotice i n).rtm = s.rtm := rfl
@[simp] theorem State.installNotice_sf (i : Fin 8) (n : NoticeEntry) : (s.installNotice i n).sf = s.sf := rfl
@[simp] theorem State.installNotice_po (i : Fin 8) (n : NoticeEntry) : (s.installNotice i n).po = s.po := rfl
@[simp] theorem State.installNotice_ma (i : Fin 8) (n : NoticeEntry) : (s.installNotice i n).ma = s.ma := rfl
@[simp] theorem State.installNotice_pending (i : Fin 8) (n : NoticeEntry) : (s.installNotice i n).pending = s.pending := rfl
@[simp] theorem State.installNotice_freeDraw (i : Fin 8) (n : NoticeEntry) : (s.installNotice i n).freeDraw = s.freeDraw := rfl

/-! ## State.installReport -/

@[simp] theorem State.installReport_tc (b : Addr) (x : Bool) : (s.installReport b x).tc = s.tc := rfl
@[simp] theorem State.installReport_cd (b : Addr) (x : Bool) : (s.installReport b x).cd = s.cd := rfl
@[simp] theorem State.installReport_st (b : Addr) (x : Bool) : (s.installReport b x).st = s.st := rfl
@[simp] theorem State.installReport_bt (b : Addr) (x : Bool) : (s.installReport b x).bt = s.bt := rfl
@[simp] theorem State.installReport_pq (b : Addr) (x : Bool) : (s.installReport b x).pq = s.pq := rfl
@[simp] theorem State.installReport_rtm (b : Addr) (x : Bool) : (s.installReport b x).rtm = s.rtm := rfl
@[simp] theorem State.installReport_sf (b : Addr) (x : Bool) : (s.installReport b x).sf = s.sf := rfl
@[simp] theorem State.installReport_po (b : Addr) (x : Bool) : (s.installReport b x).po = s.po := rfl
@[simp] theorem State.installReport_rw (b : Addr) (x : Bool) : (s.installReport b x).rw = s.rw.endArea b x := rfl
@[simp] theorem State.installReport_ma (b : Addr) (x : Bool) : (s.installReport b x).ma = s.ma := rfl
@[simp] theorem State.installReport_pending (b : Addr) (x : Bool) : (s.installReport b x).pending = s.pending := rfl
@[simp] theorem State.installReport_freeDraw (b : Addr) (x : Bool) : (s.installReport b x).freeDraw = s.freeDraw := rfl

/-! ## State.freeRead -/

@[simp] theorem State.freeRead_tc (n : Fin 64) : (s.freeRead n).tc = s.tc := rfl
@[simp] theorem State.freeRead_cd (n : Fin 64) : (s.freeRead n).cd = s.cd := rfl
@[simp] theorem State.freeRead_st (n : Fin 64) : (s.freeRead n).st = s.st := rfl
@[simp] theorem State.freeRead_bt (n : Fin 64) : (s.freeRead n).bt = s.bt := rfl
@[simp] theorem State.freeRead_pq (n : Fin 64) : (s.freeRead n).pq = s.pq := rfl
@[simp] theorem State.freeRead_rtm (n : Fin 64) : (s.freeRead n).rtm = s.rtm := rfl
@[simp] theorem State.freeRead_sf (n : Fin 64) : (s.freeRead n).sf = { s.sf with reads := s.sf.reads.set n none } := rfl
@[simp] theorem State.freeRead_po (n : Fin 64) : (s.freeRead n).po = s.po := rfl
@[simp] theorem State.freeRead_rw (n : Fin 64) : (s.freeRead n).rw = s.rw := rfl
@[simp] theorem State.freeRead_ma (n : Fin 64) : (s.freeRead n).ma = s.ma := rfl
@[simp] theorem State.freeRead_pending (n : Fin 64) : (s.freeRead n).pending = s.pending := rfl
@[simp] theorem State.freeRead_freeDraw (n : Fin 64) : (s.freeRead n).freeDraw = s.freeDraw := rfl

/-! ## State.setReadBurst -/

@[simp] theorem State.setReadBurst_tc (e : ReadEntry) (b : Burst) : (s.setReadBurst e b).tc = s.tc := rfl
@[simp] theorem State.setReadBurst_cd (e : ReadEntry) (b : Burst) : (s.setReadBurst e b).cd = s.cd := rfl
@[simp] theorem State.setReadBurst_st (e : ReadEntry) (b : Burst) : (s.setReadBurst e b).st = s.st := rfl
@[simp] theorem State.setReadBurst_bt (e : ReadEntry) (b : Burst) : (s.setReadBurst e b).bt = s.bt := rfl
@[simp] theorem State.setReadBurst_pq (e : ReadEntry) (b : Burst) : (s.setReadBurst e b).pq = s.pq := rfl
@[simp] theorem State.setReadBurst_rtm (e : ReadEntry) (b : Burst) : (s.setReadBurst e b).rtm = s.rtm := rfl
@[simp] theorem State.setReadBurst_sf (e : ReadEntry) (b : Burst) : (s.setReadBurst e b).sf = { s.sf with buffer := setBurst e.line e.burst b s.sf.buffer } := rfl
@[simp] theorem State.setReadBurst_po (e : ReadEntry) (b : Burst) : (s.setReadBurst e b).po = s.po := rfl
@[simp] theorem State.setReadBurst_rw (e : ReadEntry) (b : Burst) : (s.setReadBurst e b).rw = s.rw := rfl
@[simp] theorem State.setReadBurst_ma (e : ReadEntry) (b : Burst) : (s.setReadBurst e b).ma = s.ma := rfl
@[simp] theorem State.setReadBurst_pending (e : ReadEntry) (b : Burst) : (s.setReadBurst e b).pending = s.pending := rfl
@[simp] theorem State.setReadBurst_freeDraw (e : ReadEntry) (b : Burst) : (s.setReadBurst e b).freeDraw = s.freeDraw := rfl

/-! ## State.failBurst -/

@[simp] theorem State.failBurst_tc (e : ReadEntry) : (s.failBurst e).tc = s.tc := rfl
@[simp] theorem State.failBurst_cd (e : ReadEntry) : (s.failBurst e).cd = s.cd := rfl
@[simp] theorem State.failBurst_st (e : ReadEntry) : (s.failBurst e).st = s.st := rfl
@[simp] theorem State.failBurst_bt (e : ReadEntry) : (s.failBurst e).bt = s.bt := rfl
@[simp] theorem State.failBurst_pq (e : ReadEntry) : (s.failBurst e).pq = s.pq := rfl
@[simp] theorem State.failBurst_po (e : ReadEntry) : (s.failBurst e).po = s.po := rfl
@[simp] theorem State.failBurst_ma (e : ReadEntry) : (s.failBurst e).ma = s.ma := rfl
@[simp] theorem State.failBurst_pending (e : ReadEntry) : (s.failBurst e).pending = s.pending := rfl
@[simp] theorem State.failBurst_freeDraw (e : ReadEntry) : (s.failBurst e).freeDraw = s.freeDraw := rfl

/-! ## State.trackWrite -/

@[simp] theorem State.trackWrite_tc (t : Fin 256) (i : Fin 8) (b : Fin 128) : (s.trackWrite t i b).tc = s.tc := rfl
@[simp] theorem State.trackWrite_cd (t : Fin 256) (i : Fin 8) (b : Fin 128) : (s.trackWrite t i b).cd = s.cd := rfl
@[simp] theorem State.trackWrite_st (t : Fin 256) (i : Fin 8) (b : Fin 128) : (s.trackWrite t i b).st = s.st := rfl
@[simp] theorem State.trackWrite_pq (t : Fin 256) (i : Fin 8) (b : Fin 128) : (s.trackWrite t i b).pq = s.pq := rfl
@[simp] theorem State.trackWrite_rtm (t : Fin 256) (i : Fin 8) (b : Fin 128) : (s.trackWrite t i b).rtm = s.rtm := rfl
@[simp] theorem State.trackWrite_sf (t : Fin 256) (i : Fin 8) (b : Fin 128) : (s.trackWrite t i b).sf = s.sf := rfl
@[simp] theorem State.trackWrite_po (t : Fin 256) (i : Fin 8) (b : Fin 128) : (s.trackWrite t i b).po = s.po := rfl
@[simp] theorem State.trackWrite_rw (t : Fin 256) (i : Fin 8) (b : Fin 128) : (s.trackWrite t i b).rw = s.rw := rfl
@[simp] theorem State.trackWrite_ma (t : Fin 256) (i : Fin 8) (b : Fin 128) : (s.trackWrite t i b).ma = s.ma := rfl
@[simp] theorem State.trackWrite_pending (t : Fin 256) (i : Fin 8) (b : Fin 128) : (s.trackWrite t i b).pending = s.pending := rfl
@[simp] theorem State.trackWrite_freeDraw (t : Fin 256) (i : Fin 8) (b : Fin 128) : (s.trackWrite t i b).freeDraw = s.freeDraw := rfl

/-! ## RasterTimer.endLine and RasterTimer.now -/

theorem RasterTimer.endLine_off {r : RasterTimer} (h : r.raster = .off) : r.endLine = r := by
  unfold RasterTimer.endLine; rw [h]

theorem RasterTimer.endLine_on {r : RasterTimer} (h : r.raster ≠ .off) : r.endLine = { r with ended := true } := by
  unfold RasterTimer.endLine; split
  · exact absurd ‹_› h
  all_goals rfl

@[simp] theorem RasterTimer.endLine_timing (r : RasterTimer) : r.endLine.timing = r.timing := by
  unfold RasterTimer.endLine; split <;> rfl
@[simp] theorem RasterTimer.endLine_pendingSet (r : RasterTimer) : r.endLine.pendingSet = r.pendingSet := by
  unfold RasterTimer.endLine; split <;> rfl
@[simp] theorem RasterTimer.endLine_raster (r : RasterTimer) : r.endLine.raster = r.raster := by
  unfold RasterTimer.endLine; split <;> rfl
@[simp] theorem RasterTimer.endLine_pos (r : RasterTimer) : r.endLine.pos = r.pos := by
  unfold RasterTimer.endLine; split <;> rfl
@[simp] theorem RasterTimer.endLine_offPending (r : RasterTimer) : r.endLine.offPending = r.offPending := by
  unfold RasterTimer.endLine; split <;> rfl
@[simp] theorem RasterTimer.endLine_lc (r : RasterTimer) : r.endLine.lc = r.lc := by
  unfold RasterTimer.endLine; split <;> rfl
@[simp] theorem RasterTimer.endLine_frameCount (r : RasterTimer) : r.endLine.frameCount = r.frameCount := by
  unfold RasterTimer.endLine; split <;> rfl
@[simp] theorem RasterTimer.endLine_record (r : RasterTimer) : r.endLine.record = r.record := by
  unfold RasterTimer.endLine; split <;> rfl
@[simp] theorem RasterTimer.endLine_frame (r : RasterTimer) : r.endLine.frame = r.frame := by
  unfold RasterTimer.endLine; split <;> rfl
@[simp] theorem RasterTimer.endLine_lag (r : RasterTimer) : r.endLine.lag = r.lag := by
  unfold RasterTimer.endLine; split <;> rfl

theorem RasterTimer.now_current {r : RasterTimer} (h : r.ended = false) : r.now = r.lc := by
  unfold RasterTimer.now; simp [h]

theorem RasterTimer.now_ended {r : RasterTimer} (h : r.ended = true) : r.now = if r.begins then r.lc + 1 else r.lc := by
  unfold RasterTimer.now; simp [h]

/-! ## Causes.powerOn -/

@[simp] theorem Causes.powerOn_power (c : Causes) : c.powerOn.power = true := rfl
@[simp] theorem Causes.powerOn_link (c : Causes) : c.powerOn.link = true := rfl
@[simp] theorem Causes.powerOn_soft (c : Causes) : c.powerOn.soft = c.soft := rfl

end Sys2Proof.Machine
end

