-- ==== Sys2Proof/Laws/Frames.lean ====
section
/-! SUPPORT. What each composite operation leaves unchanged, field by field of the state. -/

namespace Sys2Proof.Machine

variable (s : State)

/-- A fold whose every step keeps a view of the state keeps it. -/
theorem foldl_keeps {α β γ : Type} (view : β → γ) (f : β → α → β) (h : ∀ b a, view (f b a) = view b) :
    ∀ (l : List α) (b : β), view (l.foldl f b) = view b
  | [], _ => rfl
  | a :: l, b => (foldl_keeps view f h l (f b a)).trans (h b a)

@[simp] theorem foldl_dropOlder_frame (l : List Entry) :
    (l.foldl State.dropOlder s).tc = s.tc ∧
    (l.foldl State.dropOlder s).cd = s.cd ∧
    (l.foldl State.dropOlder s).pq = s.pq ∧
    (l.foldl State.dropOlder s).sf = s.sf ∧
    (l.foldl State.dropOlder s).po = s.po ∧
    (l.foldl State.dropOlder s).ma = s.ma ∧
    (l.foldl State.dropOlder s).pending = s.pending ∧
    (l.foldl State.dropOlder s).freeDraw = s.freeDraw :=
  ⟨foldl_keeps (fun s : State => s.tc) State.dropOlder (fun _ _ => rfl) l s,
   foldl_keeps (fun s : State => s.cd) State.dropOlder (fun _ _ => rfl) l s,
   foldl_keeps (fun s : State => s.pq) State.dropOlder (fun _ _ => rfl) l s,
   foldl_keeps (fun s : State => s.sf) State.dropOlder (fun _ _ => rfl) l s,
   foldl_keeps (fun s : State => s.po) State.dropOlder (fun _ _ => rfl) l s,
   foldl_keeps (fun s : State => s.ma) State.dropOlder (fun _ _ => rfl) l s,
   foldl_keeps (fun s : State => s.pending) State.dropOlder (fun _ _ => rfl) l s,
   foldl_keeps (fun s : State => s.freeDraw) State.dropOlder (fun _ _ => rfl) l s⟩

@[simp] theorem foldl_dropSurface_frame (l : List Entry) :
    (l.foldl State.dropSurface s).tc = s.tc ∧
    (l.foldl State.dropSurface s).cd = s.cd ∧
    (l.foldl State.dropSurface s).pq = s.pq ∧
    (l.foldl State.dropSurface s).rtm = s.rtm ∧
    (l.foldl State.dropSurface s).sf = s.sf ∧
    (l.foldl State.dropSurface s).po = s.po ∧
    (l.foldl State.dropSurface s).ma = s.ma ∧
    (l.foldl State.dropSurface s).pending = s.pending ∧
    (l.foldl State.dropSurface s).freeDraw = s.freeDraw :=
  ⟨foldl_keeps (fun s : State => s.tc) State.dropSurface (fun _ _ => rfl) l s,
   foldl_keeps (fun s : State => s.cd) State.dropSurface (fun _ _ => rfl) l s,
   foldl_keeps (fun s : State => s.pq) State.dropSurface (fun _ _ => rfl) l s,
   foldl_keeps (fun s : State => s.rtm) State.dropSurface (fun _ _ => rfl) l s,
   foldl_keeps (fun s : State => s.sf) State.dropSurface (fun _ _ => rfl) l s,
   foldl_keeps (fun s : State => s.po) State.dropSurface (fun _ _ => rfl) l s,
   foldl_keeps (fun s : State => s.ma) State.dropSurface (fun _ _ => rfl) l s,
   foldl_keeps (fun s : State => s.pending) State.dropSurface (fun _ _ => rfl) l s,
   foldl_keeps (fun s : State => s.freeDraw) State.dropSurface (fun _ _ => rfl) l s⟩

@[simp] theorem foldl_lateBurst_frame {α : Type} (l : List α) :
    (l.foldl (fun (s : State) _ => s.lateBurst) s).tc = s.tc ∧
    (l.foldl (fun (s : State) _ => s.lateBurst) s).cd = s.cd ∧
    (l.foldl (fun (s : State) _ => s.lateBurst) s).st = s.st ∧
    (l.foldl (fun (s : State) _ => s.lateBurst) s).bt = s.bt ∧
    (l.foldl (fun (s : State) _ => s.lateBurst) s).pq = s.pq ∧
    (l.foldl (fun (s : State) _ => s.lateBurst) s).sf = s.sf ∧
    (l.foldl (fun (s : State) _ => s.lateBurst) s).po = s.po ∧
    (l.foldl (fun (s : State) _ => s.lateBurst) s).ma = s.ma ∧
    (l.foldl (fun (s : State) _ => s.lateBurst) s).pending = s.pending ∧
    (l.foldl (fun (s : State) _ => s.lateBurst) s).freeDraw = s.freeDraw :=
  ⟨foldl_keeps (fun s : State => s.tc) (fun (s : State) _ => s.lateBurst) (fun _ _ => rfl) l s,
   foldl_keeps (fun s : State => s.cd) (fun (s : State) _ => s.lateBurst) (fun _ _ => rfl) l s,
   foldl_keeps (fun s : State => s.st) (fun (s : State) _ => s.lateBurst) (fun _ _ => rfl) l s,
   foldl_keeps (fun s : State => s.bt) (fun (s : State) _ => s.lateBurst) (fun _ _ => rfl) l s,
   foldl_keeps (fun s : State => s.pq) (fun (s : State) _ => s.lateBurst) (fun _ _ => rfl) l s,
   foldl_keeps (fun s : State => s.sf) (fun (s : State) _ => s.lateBurst) (fun _ _ => rfl) l s,
   foldl_keeps (fun s : State => s.po) (fun (s : State) _ => s.lateBurst) (fun _ _ => rfl) l s,
   foldl_keeps (fun s : State => s.ma) (fun (s : State) _ => s.lateBurst) (fun _ _ => rfl) l s,
   foldl_keeps (fun s : State => s.pending) (fun (s : State) _ => s.lateBurst) (fun _ _ => rfl) l s,
   foldl_keeps (fun s : State => s.freeDraw) (fun (s : State) _ => s.lateBurst) (fun _ _ => rfl) l s⟩

@[simp] theorem State.result_frame (l : Lane) (c : BitVec 8) (r : Result) :
    (s.result l c r).tc = s.tc ∧ (s.result l c r).st = s.st ∧
    (s.result l c r).bt = s.bt ∧ (s.result l c r).pq = s.pq ∧
    (s.result l c r).rtm = s.rtm ∧ (s.result l c r).sf = s.sf ∧
    (s.result l c r).po = s.po ∧ (s.result l c r).ma = s.ma ∧
    (s.result l c r).pending = s.pending ∧ (s.result l c r).freeDraw = s.freeDraw := by
  unfold State.result; (repeat' split) <;> simp

@[simp] theorem State.enterSettle_frame (t : TimingSet) :
    (s.enterSettle t).tc = s.tc ∧ (s.enterSettle t).cd = s.cd ∧
    (s.enterSettle t).st = s.st ∧ (s.enterSettle t).bt = s.bt ∧
    (s.enterSettle t).pq = s.pq ∧ (s.enterSettle t).sf = s.sf ∧
    (s.enterSettle t).ma = s.ma ∧ (s.enterSettle t).pending = s.pending ∧
    (s.enterSettle t).freeDraw = s.freeDraw := by
  unfold State.enterSettle; (repeat' split) <;> simp

@[simp] theorem State.waitingInForce_frame :
    (s.waitingInForce).tc = s.tc ∧ (s.waitingInForce).cd = s.cd ∧
    (s.waitingInForce).st = s.st ∧ (s.waitingInForce).bt = s.bt ∧
    (s.waitingInForce).pq = s.pq ∧ (s.waitingInForce).rtm = s.rtm ∧
    (s.waitingInForce).rw = s.rw ∧ (s.waitingInForce).ma = s.ma ∧
    (s.waitingInForce).pending = s.pending ∧ (s.waitingInForce).freeDraw = s.freeDraw := by
  unfold State.waitingInForce; (repeat' split) <;> simp

@[simp] theorem State.freeHeldMisfit_frame (t : TimingSet) :
    (s.freeHeldMisfit t).tc = s.tc ∧ (s.freeHeldMisfit t).cd = s.cd ∧
    (s.freeHeldMisfit t).pq = s.pq ∧ (s.freeHeldMisfit t).rtm = s.rtm ∧
    (s.freeHeldMisfit t).sf = s.sf ∧ (s.freeHeldMisfit t).po = s.po ∧
    (s.freeHeldMisfit t).ma = s.ma ∧ (s.freeHeldMisfit t).pending = s.pending ∧
    (s.freeHeldMisfit t).freeDraw = s.freeDraw := by
  unfold State.freeHeldMisfit; (repeat' split) <;> simp

@[simp] theorem State.freeScanning_frame :
    (s.freeScanning).tc = s.tc ∧ (s.freeScanning).cd = s.cd ∧
    (s.freeScanning).pq = s.pq ∧ (s.freeScanning).rtm = s.rtm ∧
    (s.freeScanning).sf = s.sf ∧ (s.freeScanning).po = s.po ∧
    (s.freeScanning).ma = s.ma ∧ (s.freeScanning).pending = s.pending ∧
    (s.freeScanning).freeDraw = s.freeDraw := by
  unfold State.freeScanning; (repeat' split) <;> simp

@[simp] theorem State.takeEntry_frame (o : List Entry) (e : Entry) (n : List Entry) :
    (s.takeEntry o e n).tc = s.tc ∧ (s.takeEntry o e n).cd = s.cd ∧
    (s.takeEntry o e n).sf = s.sf ∧ (s.takeEntry o e n).po = s.po ∧
    (s.takeEntry o e n).ma = s.ma ∧ (s.takeEntry o e n).pending = s.pending ∧
    (s.takeEntry o e n).freeDraw = s.freeDraw := by
  unfold State.takeEntry; simp

@[simp] theorem State.dropMisfits_frame (t : TimingSet) :
    (s.dropMisfits t).tc = s.tc ∧ (s.dropMisfits t).cd = s.cd ∧
    (s.dropMisfits t).rtm = s.rtm ∧ (s.dropMisfits t).sf = s.sf ∧
    (s.dropMisfits t).po = s.po ∧ (s.dropMisfits t).ma = s.ma ∧
    (s.dropMisfits t).pending = s.pending ∧ (s.dropMisfits t).freeDraw = s.freeDraw := by
  unfold State.dropMisfits; simp

@[simp] theorem State.timingInForce_frame (t : TimingSet) :
    (s.timingInForce t).tc = s.tc ∧ (s.timingInForce t).cd = s.cd ∧
    (s.timingInForce t).po = s.po ∧ (s.timingInForce t).ma = s.ma ∧
    (s.timingInForce t).pending = s.pending ∧ (s.timingInForce t).freeDraw = s.freeDraw := by
  unfold State.timingInForce; simp

@[simp] theorem State.pendingInForce_frame :
    (s.pendingInForce).tc = s.tc ∧ (s.pendingInForce).cd = s.cd ∧
    (s.pendingInForce).po = s.po ∧ (s.pendingInForce).ma = s.ma ∧
    (s.pendingInForce).pending = s.pending ∧ (s.pendingInForce).freeDraw = s.freeDraw := by
  unfold State.pendingInForce; (repeat' split) <;> simp

@[simp] theorem State.enterOff_frame :
    (s.enterOff).tc = s.tc ∧ (s.enterOff).cd = s.cd ∧
    (s.enterOff).ma = s.ma ∧ (s.enterOff).pending = s.pending ∧
    (s.enterOff).freeDraw = s.freeDraw := by
  unfold State.enterOff; simp

@[simp] theorem State.fetchStart_frame (t : TimingSet) (c : FrameControl) (l : Nat) :
    (s.fetchStart t c l).tc = s.tc ∧ (s.fetchStart t c l).cd = s.cd ∧
    (s.fetchStart t c l).st = s.st ∧ (s.fetchStart t c l).bt = s.bt ∧
    (s.fetchStart t c l).pq = s.pq ∧ (s.fetchStart t c l).rtm = s.rtm ∧
    (s.fetchStart t c l).po = s.po ∧ (s.fetchStart t c l).rw = s.rw ∧
    (s.fetchStart t c l).ma = s.ma ∧ (s.fetchStart t c l).pending = s.pending ∧
    (s.fetchStart t c l).freeDraw = s.freeDraw := by
  unfold State.fetchStart; (repeat' split) <;> simp

@[simp] theorem State.completeLag_frame (j : Nat) :
    (s.completeLag j).tc = s.tc ∧ (s.completeLag j).cd = s.cd ∧
    (s.completeLag j).st = s.st ∧ (s.completeLag j).bt = s.bt ∧
    (s.completeLag j).pq = s.pq ∧ (s.completeLag j).sf = s.sf ∧
    (s.completeLag j).po = s.po ∧ (s.completeLag j).rw = s.rw ∧
    (s.completeLag j).ma = s.ma ∧ (s.completeLag j).pending = s.pending ∧
    (s.completeLag j).freeDraw = s.freeDraw := by
  unfold State.completeLag; (repeat' split) <;> simp

@[simp] theorem State.midActive_frame (c : FrameControl) (k : Nat) :
    (s.midActive c k).tc = s.tc ∧ (s.midActive c k).cd = s.cd ∧
    (s.midActive c k).sf = s.sf ∧ (s.midActive c k).po = s.po ∧
    (s.midActive c k).ma = s.ma ∧ (s.midActive c k).pending = s.pending ∧
    (s.midActive c k).freeDraw = s.freeDraw := by
  unfold State.midActive State.splitSelection
  split
  · simp
  · cases pick (s.splitCandidate c.hb) s.pq.queue with
    | none => simp
    | some p => obtain ⟨o, e, n⟩ := p; simp

@[simp] theorem State.handOver_frame (t : TimingSet) (j : Nat) (slot : Slot) (rest : List Slot) :
    (s.handOver t j slot rest).tc = s.tc ∧ (s.handOver t j slot rest).cd = s.cd ∧
    (s.handOver t j slot rest).st = s.st ∧ (s.handOver t j slot rest).bt = s.bt ∧
    (s.handOver t j slot rest).pq = s.pq ∧ (s.handOver t j slot rest).ma = s.ma ∧
    (s.handOver t j slot rest).pending = s.pending ∧ (s.handOver t j slot rest).freeDraw = s.freeDraw := by
  unfold State.handOver; simp

@[simp] theorem State.settleSurfaces_frame :
    (s.settleSurfaces).tc = s.tc ∧ (s.settleSurfaces).cd = s.cd ∧
    (s.settleSurfaces).pq = s.pq ∧ (s.settleSurfaces).rtm = s.rtm ∧
    (s.settleSurfaces).sf = s.sf ∧ (s.settleSurfaces).po = s.po ∧
    (s.settleSurfaces).ma = s.ma ∧ (s.settleSurfaces).pending = s.pending ∧
    (s.settleSurfaces).freeDraw = s.freeDraw := by
  unfold State.settleSurfaces; (repeat' split) <;> simp

@[simp] theorem State.grantPass_frame :
    (s.grantPass).cd = s.cd ∧ (s.grantPass).st = s.st ∧
    (s.grantPass).bt = s.bt ∧ (s.grantPass).pq = s.pq ∧
    (s.grantPass).rtm = s.rtm ∧ (s.grantPass).sf = s.sf ∧
    (s.grantPass).po = s.po ∧ (s.grantPass).rw = s.rw ∧
    (s.grantPass).pending = s.pending ∧ (s.grantPass).freeDraw = s.freeDraw := by
  unfold State.grantPass; (repeat' split) <;> simp

@[simp] theorem State.grantFetch_frame (g : Claimant) :
    (s.grantFetch g).tc = s.tc ∧ (s.grantFetch g).cd = s.cd ∧
    (s.grantFetch g).st = s.st ∧ (s.grantFetch g).bt = s.bt ∧
    (s.grantFetch g).pq = s.pq ∧ (s.grantFetch g).rtm = s.rtm ∧
    (s.grantFetch g).po = s.po ∧ (s.grantFetch g).rw = s.rw ∧
    (s.grantFetch g).pending = s.pending ∧ (s.grantFetch g).freeDraw = s.freeDraw := by
  unfold State.grantFetch; (repeat' split) <;> simp

@[simp] theorem State.grantReport_frame :
    (s.grantReport).tc = s.tc ∧ (s.grantReport).cd = s.cd ∧
    (s.grantReport).st = s.st ∧ (s.grantReport).bt = s.bt ∧
    (s.grantReport).pq = s.pq ∧ (s.grantReport).rtm = s.rtm ∧
    (s.grantReport).sf = s.sf ∧ (s.grantReport).po = s.po ∧
    (s.grantReport).pending = s.pending ∧ (s.grantReport).freeDraw = s.freeDraw := by
  unfold State.grantReport; (repeat' split) <;> simp

@[simp] theorem State.settleAge_frame :
    (s.settleAge).tc = s.tc ∧ (s.settleAge).cd = s.cd ∧
    (s.settleAge).st = s.st ∧ (s.settleAge).bt = s.bt ∧
    (s.settleAge).pq = s.pq ∧ (s.settleAge).rtm = s.rtm ∧
    (s.settleAge).sf = s.sf ∧ (s.settleAge).po = s.po ∧
    (s.settleAge).rw = s.rw ∧ (s.settleAge).pending = s.pending ∧
    (s.settleAge).freeDraw = s.freeDraw := by
  unfold State.settleAge; (repeat' split) <;> simp

/-- A front-blank selection that takes an entry is its taking, with the queue split at it (R65, R67, R68). -/
theorem State.frontSelection_some {e : Entry} {s' : State} (h : s.frontSelection = some (e, s')) :
    ∃ older newer, pick s.admissible s.pq.queue = some (older, e, newer) ∧ s' = s.takeEntry older e newer := by
  unfold State.frontSelection at h
  split at h
  · rename_i older x newer hp
    cases h
    exact ⟨older, newer, hp, rfl⟩
  · cases h

theorem State.frontSelection_none : s.frontSelection = none ↔ pick s.admissible s.pq.queue = none := by
  unfold State.frontSelection
  split
  · rename_i h; simp [h]
  · rename_i h; simp [h]

/-- A mid-active selection that takes an entry is its taking after the SCANNING surface is freed (R66, R68). -/
theorem State.splitSelection_some {hb : Nat} {e : Entry} {s' : State} (h : s.splitSelection hb = some (e, s')) :
    ∃ older newer, pick (s.splitCandidate hb) s.pq.queue = some (older, e, newer) ∧
      s' = s.freeScanning.takeEntry older e newer := by
  unfold State.splitSelection at h
  split at h
  · rename_i older x newer hp
    cases h
    exact ⟨older, newer, hp, rfl⟩
  · cases h

/-- What a band decision leaves unchanged (R46 to R48). -/
@[simp] theorem State.decideBand_frame (k : FrameKind) (b : Nat) :
    (s.decideBand k b).2.tc = s.tc ∧ (s.decideBand k b).2.cd = s.cd ∧ (s.decideBand k b).2.st = s.st ∧
    (s.decideBand k b).2.pq = s.pq ∧ (s.decideBand k b).2.sf = s.sf ∧ (s.decideBand k b).2.ma = s.ma ∧
    (s.decideBand k b).2.pending = s.pending ∧ (s.decideBand k b).2.freeDraw = s.freeDraw := by
  unfold State.decideBand
  (repeat' split) <;> simp

@[simp] theorem State.fetchPoint_frame (c : FrameControl) (b : Nat) :
    (s.fetchPoint c b).tc = s.tc ∧ (s.fetchPoint c b).cd = s.cd ∧ (s.fetchPoint c b).st = s.st ∧
    (s.fetchPoint c b).pq = s.pq ∧ (s.fetchPoint c b).ma = s.ma ∧ (s.fetchPoint c b).pending = s.pending ∧
    (s.fetchPoint c b).freeDraw = s.freeDraw := by
  unfold State.fetchPoint
  simp

@[simp] theorem State.firstPoint_frame (t : TimingSet) (c : FrameControl) (n : Nat) :
    (s.firstPoint t c n).tc = s.tc ∧
    (s.firstPoint t c n).cd = s.cd ∧
    (s.firstPoint t c n).st = s.st ∧
    (s.firstPoint t c n).pq = s.pq ∧
    (s.firstPoint t c n).ma = s.ma ∧
    (s.firstPoint t c n).pending = s.pending ∧
    (s.firstPoint t c n).freeDraw = s.freeDraw := by
  unfold State.firstPoint; split <;> simp

@[simp] theorem State.backLine_frame (t : TimingSet) (c : FrameControl) (n : Nat) :
    (s.backLine t c n).tc = s.tc ∧
    (s.backLine t c n).cd = s.cd ∧
    (s.backLine t c n).st = s.st ∧
    (s.backLine t c n).pq = s.pq ∧
    (s.backLine t c n).ma = s.ma ∧
    (s.backLine t c n).pending = s.pending ∧
    (s.backLine t c n).freeDraw = s.freeDraw := by
  unfold State.backLine; split <;> simp

@[simp] theorem State.decisionPoint_frame (c : FrameControl) (j : Nat) :
    (s.decisionPoint c j).tc = s.tc ∧
    (s.decisionPoint c j).cd = s.cd ∧
    (s.decisionPoint c j).sf = s.sf ∧
    (s.decisionPoint c j).po = s.po ∧
    (s.decisionPoint c j).ma = s.ma ∧
    (s.decisionPoint c j).pending = s.pending ∧
    (s.decisionPoint c j).freeDraw = s.freeDraw := by
  unfold State.decisionPoint; split <;> simp

@[simp] theorem State.settingsAt_frame (j : Nat) :
    (s.settingsAt j).tc = s.tc ∧
    (s.settingsAt j).cd = s.cd ∧
    (s.settingsAt j).st = s.st ∧
    (s.settingsAt j).bt = s.bt ∧
    (s.settingsAt j).pq = s.pq ∧
    (s.settingsAt j).rtm = s.rtm ∧
    (s.settingsAt j).rw = s.rw ∧
    (s.settingsAt j).ma = s.ma ∧
    (s.settingsAt j).pending = s.pending ∧
    (s.settingsAt j).freeDraw = s.freeDraw := by
  unfold State.settingsAt; split <;> simp

@[simp] theorem State.lineDeadline_frame (t : TimingSet) (j : Nat) :
    (s.lineDeadline t j).tc = s.tc ∧
    (s.lineDeadline t j).cd = s.cd ∧
    (s.lineDeadline t j).st = s.st ∧
    (s.lineDeadline t j).bt = s.bt ∧
    (s.lineDeadline t j).pq = s.pq ∧
    (s.lineDeadline t j).ma = s.ma ∧
    (s.lineDeadline t j).pending = s.pending ∧
    (s.lineDeadline t j).freeDraw = s.freeDraw := by
  unfold State.lineDeadline; simp

@[simp] theorem State.bandPoint_frame (c : FrameControl) (j : Nat) :
    (s.bandPoint c j).tc = s.tc ∧
    (s.bandPoint c j).cd = s.cd ∧
    (s.bandPoint c j).st = s.st ∧
    (s.bandPoint c j).pq = s.pq ∧
    (s.bandPoint c j).ma = s.ma ∧
    (s.bandPoint c j).pending = s.pending ∧
    (s.bandPoint c j).freeDraw = s.freeDraw := by
  unfold State.bandPoint; split <;> simp

@[simp] theorem State.beginBackBlank_frame (t : TimingSet) (k : FrameKind) (x : Option (Fin 8)) (f : Nat) (b : Bool) (h n : Nat) :
    (s.beginBackBlank t k x f b h n).tc = s.tc ∧
    (s.beginBackBlank t k x f b h n).cd = s.cd ∧
    (s.beginBackBlank t k x f b h n).st = s.st ∧
    (s.beginBackBlank t k x f b h n).pq = s.pq ∧
    (s.beginBackBlank t k x f b h n).ma = s.ma ∧
    (s.beginBackBlank t k x f b h n).pending = s.pending ∧
    (s.beginBackBlank t k x f b h n).freeDraw = s.freeDraw := by
  unfold State.beginBackBlank; simp

@[simp] theorem State.beginNew_frame (t : TimingSet) (e : Entry) (f : Nat) (b : Bool) :
    (s.beginNew t e f b).tc = s.tc ∧
    (s.beginNew t e f b).cd = s.cd ∧
    (s.beginNew t e f b).st = s.st ∧
    (s.beginNew t e f b).pq = s.pq ∧
    (s.beginNew t e f b).ma = s.ma ∧
    (s.beginNew t e f b).pending = s.pending ∧
    (s.beginNew t e f b).freeDraw = s.freeDraw := by
  unfold State.beginNew; simp

@[simp] theorem State.expire_frame (t : TimingSet) (f : Nat) :
    (s.expire t f).tc = s.tc ∧
    (s.expire t f).cd = s.cd ∧
    (s.expire t f).st = s.st ∧
    (s.expire t f).pq = s.pq ∧
    (s.expire t f).ma = s.ma ∧
    (s.expire t f).pending = s.pending ∧
    (s.expire t f).freeDraw = s.freeDraw := by
  unfold State.expire; split <;> simp

@[simp] theorem State.activeLine_frame (t : TimingSet) (c : FrameControl) (j : Nat) :
    (s.activeLine t c j).tc = s.tc ∧
    (s.activeLine t c j).cd = s.cd ∧
    (s.activeLine t c j).ma = s.ma ∧
    (s.activeLine t c j).pending = s.pending ∧
    (s.activeLine t c j).freeDraw = s.freeDraw := by
  unfold State.activeLine; simp

@[simp] theorem State.nextFrame_frame :
    (s.nextFrame).tc = s.tc ∧
    (s.nextFrame).cd = s.cd ∧
    (s.nextFrame).ma = s.ma ∧
    (s.nextFrame).pending = s.pending ∧
    (s.nextFrame).freeDraw = s.freeDraw := by
  unfold State.nextFrame; split <;> (try dsimp only) <;> split <;> simp

/-- Every part of a selection that takes an entry but the queue, the surfaces, the bands, the reports and the
record is unchanged. -/
theorem State.frontSelection_frame {e : Entry} {s' : State} (h : s.frontSelection = some (e, s')) :
    s'.tc = s.tc ∧ s'.cd = s.cd ∧ s'.sf = s.sf ∧ s'.po = s.po ∧ s'.ma = s.ma ∧ s'.pending = s.pending ∧
      s'.freeDraw = s.freeDraw := by
  obtain ⟨older, newer, -, rfl⟩ := s.frontSelection_some h
  simp

@[simp] theorem State.stretchLine_frame (t : TimingSet) (f : Nat) :
    (s.stretchLine t f).tc = s.tc ∧ (s.stretchLine t f).cd = s.cd ∧ (s.stretchLine t f).ma = s.ma ∧
    (s.stretchLine t f).pending = s.pending ∧ (s.stretchLine t f).freeDraw = s.freeDraw := by
  unfold State.stretchLine
  split
  · rename_i e s' h
    have := s.frontSelection_frame h
    simp [this]
  · split <;> simp

end Sys2Proof.Machine
end

