-- ==== Sys2Proof/Laws/Reports.lean ====
section
/-! SUPPORT. What the Report Writer's updates leave in each of its fields, and the lane records after a result. -/

namespace Sys2Proof.Machine

variable (r : ReportWriter)

/-! ## mark (R181) -/

@[simp] theorem ReportWriter.mark_base : (r.mark).base = r.base := rfl
@[simp] theorem ReportWriter.mark_enable : (r.mark).enable = r.enable := rfl
@[simp] theorem ReportWriter.mark_flags : (r.mark).flags = r.flags := rfl
@[simp] theorem ReportWriter.mark_summary : (r.mark).summary = r.summary := rfl
@[simp] theorem ReportWriter.mark_causes : (r.mark).causes = r.causes := rfl
@[simp] theorem ReportWriter.mark_counters : (r.mark).counters = r.counters := rfl
@[simp] theorem ReportWriter.mark_notices : (r.mark).notices = r.notices := rfl
@[simp] theorem ReportWriter.mark_waiting : (r.mark).waiting = r.waiting := rfl
@[simp] theorem ReportWriter.mark_frames : (r.mark).frames = r.frames := rfl
@[simp] theorem ReportWriter.mark_logIndex : (r.mark).logIndex = r.logIndex := rfl
@[simp] theorem ReportWriter.mark_dirty : (r.mark).dirty = true := rfl
@[simp] theorem ReportWriter.mark_page : (r.mark).page = r.page := rfl
@[simp] theorem ReportWriter.mark_sequence : (r.mark).sequence = r.sequence := rfl
@[simp] theorem ReportWriter.mark_write : (r.mark).write = r.write := rfl
@[simp] theorem ReportWriter.mark_tags : (r.mark).tags = r.tags := rfl

/-! ## occur (R187) -/

@[simp] theorem ReportWriter.occur_base (x : Source) (c : Condition) : (r.occur x c).base = r.base := rfl
@[simp] theorem ReportWriter.occur_enable (x : Source) (c : Condition) : (r.occur x c).enable = r.enable := rfl
@[simp] theorem ReportWriter.occur_flags (x : Source) (c : Condition) : (r.occur x c).flags = r.flags := rfl
@[simp] theorem ReportWriter.occur_summary (x : Source) (c : Condition) : (r.occur x c).summary = r.summary := rfl
@[simp] theorem ReportWriter.occur_causes (x : Source) (c : Condition) : (r.occur x c).causes = r.causes := rfl
@[simp] theorem ReportWriter.occur_counters (x : Source) (c : Condition) : (r.occur x c).counters = r.counters := rfl
@[simp] theorem ReportWriter.occur_notices (x : Source) (c : Condition) : (r.occur x c).notices = r.notices := rfl
@[simp] theorem ReportWriter.occur_waiting (x : Source) (c : Condition) : (r.occur x c).waiting = Table.zipWith (gainNotice x c) r.notices r.waiting := rfl
@[simp] theorem ReportWriter.occur_frames (x : Source) (c : Condition) : (r.occur x c).frames = r.frames := rfl
@[simp] theorem ReportWriter.occur_logIndex (x : Source) (c : Condition) : (r.occur x c).logIndex = r.logIndex := rfl
@[simp] theorem ReportWriter.occur_dirty (x : Source) (c : Condition) : (r.occur x c).dirty = r.dirty := rfl
@[simp] theorem ReportWriter.occur_page (x : Source) (c : Condition) : (r.occur x c).page = r.page := rfl
@[simp] theorem ReportWriter.occur_sequence (x : Source) (c : Condition) : (r.occur x c).sequence = r.sequence := rfl
@[simp] theorem ReportWriter.occur_write (x : Source) (c : Condition) : (r.occur x c).write = r.write := rfl
@[simp] theorem ReportWriter.occur_tags (x : Source) (c : Condition) : (r.occur x c).tags = r.tags := rfl

/-! ## flag (R175) -/

@[simp] theorem ReportWriter.flag_base (e : Event) : (r.flag e).base = r.base := rfl
@[simp] theorem ReportWriter.flag_enable (e : Event) : (r.flag e).enable = r.enable := rfl
@[simp] theorem ReportWriter.flag_flags (e : Event) : (r.flag e).flags = r.flags ||| e.bit := rfl
@[simp] theorem ReportWriter.flag_summary (e : Event) : (r.flag e).summary = true := rfl
@[simp] theorem ReportWriter.flag_causes (e : Event) : (r.flag e).causes = r.causes := rfl
@[simp] theorem ReportWriter.flag_counters (e : Event) : (r.flag e).counters = r.counters.count e := rfl
@[simp] theorem ReportWriter.flag_notices (e : Event) : (r.flag e).notices = r.notices := rfl
@[simp] theorem ReportWriter.flag_waiting (e : Event) : (r.flag e).waiting = r.waiting := rfl
@[simp] theorem ReportWriter.flag_frames (e : Event) : (r.flag e).frames = r.frames := rfl
@[simp] theorem ReportWriter.flag_logIndex (e : Event) : (r.flag e).logIndex = r.logIndex := rfl
@[simp] theorem ReportWriter.flag_dirty (e : Event) : (r.flag e).dirty = r.dirty := rfl
@[simp] theorem ReportWriter.flag_page (e : Event) : (r.flag e).page = r.page := rfl
@[simp] theorem ReportWriter.flag_sequence (e : Event) : (r.flag e).sequence = r.sequence := rfl
@[simp] theorem ReportWriter.flag_write (e : Event) : (r.flag e).write = r.write := rfl
@[simp] theorem ReportWriter.flag_tags (e : Event) : (r.flag e).tags = r.tags := rfl

/-! ## raiseQuietly (R183) -/

@[simp] theorem ReportWriter.raiseQuietly_base (e : Event) : (r.raiseQuietly e).base = r.base := rfl
@[simp] theorem ReportWriter.raiseQuietly_enable (e : Event) : (r.raiseQuietly e).enable = r.enable := rfl
@[simp] theorem ReportWriter.raiseQuietly_flags (e : Event) : (r.raiseQuietly e).flags = r.flags ||| e.bit := rfl
@[simp] theorem ReportWriter.raiseQuietly_summary (e : Event) : (r.raiseQuietly e).summary = true := rfl
@[simp] theorem ReportWriter.raiseQuietly_causes (e : Event) : (r.raiseQuietly e).causes = r.causes := rfl
@[simp] theorem ReportWriter.raiseQuietly_counters (e : Event) : (r.raiseQuietly e).counters = r.counters.count e := rfl
@[simp] theorem ReportWriter.raiseQuietly_notices (e : Event) : (r.raiseQuietly e).notices = r.notices := rfl
@[simp] theorem ReportWriter.raiseQuietly_waiting (e : Event) : (r.raiseQuietly e).waiting = Table.zipWith (gainNotice (.flag e) r.flagCondition) r.notices r.waiting := rfl
@[simp] theorem ReportWriter.raiseQuietly_frames (e : Event) : (r.raiseQuietly e).frames = r.frames := rfl
@[simp] theorem ReportWriter.raiseQuietly_logIndex (e : Event) : (r.raiseQuietly e).logIndex = r.logIndex := rfl
@[simp] theorem ReportWriter.raiseQuietly_dirty (e : Event) : (r.raiseQuietly e).dirty = r.dirty := rfl
@[simp] theorem ReportWriter.raiseQuietly_page (e : Event) : (r.raiseQuietly e).page = r.page := rfl
@[simp] theorem ReportWriter.raiseQuietly_sequence (e : Event) : (r.raiseQuietly e).sequence = r.sequence := rfl
@[simp] theorem ReportWriter.raiseQuietly_write (e : Event) : (r.raiseQuietly e).write = r.write := rfl
@[simp] theorem ReportWriter.raiseQuietly_tags (e : Event) : (r.raiseQuietly e).tags = r.tags := rfl

/-! ## raise (R175, R181, R187) -/

@[simp] theorem ReportWriter.raise_base (e : Event) : (r.raise e).base = r.base := rfl
@[simp] theorem ReportWriter.raise_enable (e : Event) : (r.raise e).enable = r.enable := rfl
@[simp] theorem ReportWriter.raise_flags (e : Event) : (r.raise e).flags = r.flags ||| e.bit := rfl
@[simp] theorem ReportWriter.raise_summary (e : Event) : (r.raise e).summary = true := rfl
@[simp] theorem ReportWriter.raise_causes (e : Event) : (r.raise e).causes = r.causes := rfl
@[simp] theorem ReportWriter.raise_counters (e : Event) : (r.raise e).counters = r.counters.count e := rfl
@[simp] theorem ReportWriter.raise_notices (e : Event) : (r.raise e).notices = r.notices := rfl
@[simp] theorem ReportWriter.raise_waiting (e : Event) : (r.raise e).waiting = Table.zipWith (gainNotice (.flag e) r.flagCondition) r.notices r.waiting := rfl
@[simp] theorem ReportWriter.raise_frames (e : Event) : (r.raise e).frames = r.frames := rfl
@[simp] theorem ReportWriter.raise_logIndex (e : Event) : (r.raise e).logIndex = r.logIndex := rfl
@[simp] theorem ReportWriter.raise_dirty (e : Event) : (r.raise e).dirty = true := rfl
@[simp] theorem ReportWriter.raise_page (e : Event) : (r.raise e).page = r.page := rfl
@[simp] theorem ReportWriter.raise_sequence (e : Event) : (r.raise e).sequence = r.sequence := rfl
@[simp] theorem ReportWriter.raise_write (e : Event) : (r.raise e).write = r.write := rfl
@[simp] theorem ReportWriter.raise_tags (e : Event) : (r.raise e).tags = r.tags := rfl

/-! ## clearFlags (R176) -/

@[simp] theorem ReportWriter.clearFlags_base (m : BitVec 16) : (r.clearFlags m).base = r.base := rfl
@[simp] theorem ReportWriter.clearFlags_enable (m : BitVec 16) : (r.clearFlags m).enable = r.enable := rfl
@[simp] theorem ReportWriter.clearFlags_flags (m : BitVec 16) : (r.clearFlags m).flags = r.flags &&& ~~~m := rfl
@[simp] theorem ReportWriter.clearFlags_summary (m : BitVec 16) : (r.clearFlags m).summary = decide (r.flags &&& ~~~m ≠ 0) := rfl
@[simp] theorem ReportWriter.clearFlags_causes (m : BitVec 16) : (r.clearFlags m).causes = r.causes := rfl
@[simp] theorem ReportWriter.clearFlags_counters (m : BitVec 16) : (r.clearFlags m).counters = r.counters := rfl
@[simp] theorem ReportWriter.clearFlags_notices (m : BitVec 16) : (r.clearFlags m).notices = r.notices := rfl
@[simp] theorem ReportWriter.clearFlags_waiting (m : BitVec 16) : (r.clearFlags m).waiting = r.waiting := rfl
@[simp] theorem ReportWriter.clearFlags_frames (m : BitVec 16) : (r.clearFlags m).frames = r.frames := rfl
@[simp] theorem ReportWriter.clearFlags_logIndex (m : BitVec 16) : (r.clearFlags m).logIndex = r.logIndex := rfl
@[simp] theorem ReportWriter.clearFlags_dirty (m : BitVec 16) : (r.clearFlags m).dirty = r.dirty := rfl
@[simp] theorem ReportWriter.clearFlags_page (m : BitVec 16) : (r.clearFlags m).page = r.page := rfl
@[simp] theorem ReportWriter.clearFlags_sequence (m : BitVec 16) : (r.clearFlags m).sequence = r.sequence := rfl
@[simp] theorem ReportWriter.clearFlags_write (m : BitVec 16) : (r.clearFlags m).write = r.write := rfl
@[simp] theorem ReportWriter.clearFlags_tags (m : BitVec 16) : (r.clearFlags m).tags = r.tags := rfl

/-! ## onNotices (R187) -/

@[simp] theorem ReportWriter.onNotices_base (f : Condition → Condition) : (r.onNotices f).base = r.base := rfl
@[simp] theorem ReportWriter.onNotices_enable (f : Condition → Condition) : (r.onNotices f).enable = r.enable := rfl
@[simp] theorem ReportWriter.onNotices_flags (f : Condition → Condition) : (r.onNotices f).flags = r.flags := rfl
@[simp] theorem ReportWriter.onNotices_summary (f : Condition → Condition) : (r.onNotices f).summary = r.summary := rfl
@[simp] theorem ReportWriter.onNotices_causes (f : Condition → Condition) : (r.onNotices f).causes = r.causes := rfl
@[simp] theorem ReportWriter.onNotices_counters (f : Condition → Condition) : (r.onNotices f).counters = r.counters := rfl
@[simp] theorem ReportWriter.onNotices_notices (f : Condition → Condition) : (r.onNotices f).notices = r.notices := rfl
@[simp] theorem ReportWriter.onNotices_waiting (f : Condition → Condition) : (r.onNotices f).waiting = r.waiting.map fun c => c.map f := rfl
@[simp] theorem ReportWriter.onNotices_frames (f : Condition → Condition) : (r.onNotices f).frames = r.frames := rfl
@[simp] theorem ReportWriter.onNotices_logIndex (f : Condition → Condition) : (r.onNotices f).logIndex = r.logIndex := rfl
@[simp] theorem ReportWriter.onNotices_dirty (f : Condition → Condition) : (r.onNotices f).dirty = r.dirty := rfl
@[simp] theorem ReportWriter.onNotices_page (f : Condition → Condition) : (r.onNotices f).page = r.page := rfl
@[simp] theorem ReportWriter.onNotices_sequence (f : Condition → Condition) : (r.onNotices f).sequence = r.sequence := rfl
@[simp] theorem ReportWriter.onNotices_write (f : Condition → Condition) : (r.onNotices f).write = r.write := rfl
@[simp] theorem ReportWriter.onNotices_tags (f : Condition → Condition) : (r.onNotices f).tags = r.tags := rfl

/-! ## endWrite (R182) -/

@[simp] theorem ReportWriter.endWrite_base : (r.endWrite).base = r.base := rfl
@[simp] theorem ReportWriter.endWrite_enable : (r.endWrite).enable = r.enable := rfl
@[simp] theorem ReportWriter.endWrite_flags : (r.endWrite).flags = r.flags := rfl
@[simp] theorem ReportWriter.endWrite_summary : (r.endWrite).summary = r.summary := rfl
@[simp] theorem ReportWriter.endWrite_causes : (r.endWrite).causes = r.causes := rfl
@[simp] theorem ReportWriter.endWrite_counters : (r.endWrite).counters = r.counters := rfl
@[simp] theorem ReportWriter.endWrite_notices : (r.endWrite).notices = r.notices := rfl
@[simp] theorem ReportWriter.endWrite_waiting : (r.endWrite).waiting = r.waiting.map fun c => c.map Condition.atWriteEnd := rfl
@[simp] theorem ReportWriter.endWrite_frames : (r.endWrite).frames = r.frames := rfl
@[simp] theorem ReportWriter.endWrite_logIndex : (r.endWrite).logIndex = r.logIndex := rfl
@[simp] theorem ReportWriter.endWrite_dirty : (r.endWrite).dirty = r.dirty := rfl
@[simp] theorem ReportWriter.endWrite_page : (r.endWrite).page = r.page := rfl
@[simp] theorem ReportWriter.endWrite_sequence : (r.endWrite).sequence = r.sequence := rfl
@[simp] theorem ReportWriter.endWrite_write : (r.endWrite).write = none := rfl
@[simp] theorem ReportWriter.endWrite_tags : (r.endWrite).tags = r.tags := rfl

/-- What an occurrence gives one entry (R187): a waiting notice stays; an enabled entry of the source gains one. -/
theorem gainNotice_eq (x : Source) (c : Condition) (n : NoticeEntry) (w : Option Condition) :
    gainNotice x c n w =
      if w.isSome then w else if n.enabled = true ∧ n.source = x then some c else none := by
  cases w <;> simp [gainNotice]

theorem Event.bit_ne_zero (e : Event) : e.bit ≠ 0 := by cases e <;> decide

/-- Setting a flag leaves the flags not all clear (R176). -/
theorem flags_or_ne_zero (f : BitVec 16) (e : Event) : f ||| e.bit ≠ 0 := by
  intro h
  exact e.bit_ne_zero (BitVec.or_eq_zero_iff.mp h).2

/-- The folds of a COMMIT(REPORT) over the discarded records change the notices alone (R174). -/
theorem foldl_records_frame (l : List FrameRecord) :
    ∀ r : ReportWriter, ∃ w, l.foldl (fun r f => r.onNotices (Condition.atRecord f.number)) r = { r with waiting := w }
        ∧ ∀ e, w.get e = (r.waiting.get e).map fun c => l.foldl (fun c f => Condition.atRecord f.number c) c := by
  induction l with
  | nil => intro r; exact ⟨r.waiting, rfl, fun e => by simp⟩
  | cons f l ih =>
    intro r
    obtain ⟨w, hw, hget⟩ := ih (r.onNotices (Condition.atRecord f.number))
    exact ⟨w, hw, fun e => by rw [hget e]; simp [Option.map_map, Function.comp_def]⟩

/-! ## Results (R159, R160) -/

variable (s : State)

/-- A result stands in its lane's record (R159). -/
@[simp] theorem State.result_cd (l : Lane) (c : BitVec 8) (x : Result) :
    (s.result l c x).cd = s.cd.record l c x := by
  unfold State.result; (repeat' split) <;> simp

/-- A result marks the record dirty; a refusal also raises COMMAND_REFUSED (R160, R181). -/
@[simp] theorem State.result_rw (l : Lane) (c : BitVec 8) (x : Result) :
    (s.result l c x).rw = if x.refusal then s.rw.raise .commandRefused else s.rw.mark := by
  unfold State.result; (repeat' split) <;> simp_all

/-- A record of a lane leaves the other fields of the decoder. -/
@[simp] theorem Decoder.record_frame (d : Decoder) (l : Lane) (c : BitVec 8) (x : Result) :
    (d.record l c x).index = d.index ∧ (d.record l c x).staging = d.staging ∧ (d.record l c x).wsel = d.wsel := by
  cases l <;> exact ⟨rfl, rfl, rfl⟩

end Sys2Proof.Machine
end

