-- ==== Sys2Proof/Laws/Queue.lean ====
section
/-! SUPPORT. What a selection chooses, what its drops and its taking leave, and what becomes of the queue. -/

namespace Sys2Proof.Machine

variable (s : State)

/-- The newest LATEST candidate splits the queue, and no newer entry is one (R65). -/
theorem newestLatest_some {cand : Entry → Bool} {queue older newer : List Entry} {e : Entry}
    (h : newestLatest cand queue = some (older, e, newer)) :
    queue = older ++ e :: newer ∧ cand e = true ∧ e.latest = true ∧
      ∀ x ∈ newer, (cand x && x.latest) = false := by
  induction queue generalizing older with
  | nil => simp [newestLatest] at h
  | cons a l ih =>
    unfold newestLatest at h
    cases hl : newestLatest cand l with
    | some p =>
      obtain ⟨o, x, n⟩ := p
      simp only [hl, Option.some.injEq, Prod.mk.injEq] at h
      obtain ⟨rfl, rfl, rfl⟩ := h
      obtain ⟨h₁, h₂⟩ := ih hl
      exact ⟨by rw [h₁]; rfl, h₂⟩
    | none =>
      simp only [hl] at h
      split at h
      · rename_i hc
        simp only [Option.some.injEq, Prod.mk.injEq] at h
        obtain ⟨rfl, rfl, rfl⟩ := h
        rw [Bool.and_eq_true] at hc
        refine ⟨rfl, hc.1, hc.2, ?_⟩
        clear ih
        have none_of : ∀ l : List Entry, newestLatest cand l = none → ∀ x ∈ l, (cand x && x.latest) = false := by
          intro l
          induction l with
          | nil => simp
          | cons b m ihm =>
            intro hm
            unfold newestLatest at hm
            cases hm' : newestLatest cand m with
            | some q => obtain ⟨o, y, n⟩ := q; simp [hm'] at hm
            | none =>
              simp only [hm'] at hm
              split at hm
              · cases hm
              · rename_i hb
                intro x hx
                rcases List.mem_cons.mp hx with rfl | hx
                · simpa using hb
                · exact ihm hm' x hx
        exact none_of l hl
      · cases h

/-- Nothing newest: no entry is a LATEST candidate (R65). -/
theorem newestLatest_none {cand : Entry → Bool} {queue : List Entry} (h : newestLatest cand queue = none) :
    ∀ x ∈ queue, (cand x && x.latest) = false := by
  induction queue with
  | nil => simp
  | cons b m ih =>
    unfold newestLatest at h
    cases hm : newestLatest cand m with
    | some q => obtain ⟨o, y, n⟩ := q; simp [hm] at h
    | none =>
      simp only [hm] at h
      split at h
      · cases h
      · rename_i hb
        intro x hx
        rcases List.mem_cons.mp hx with rfl | hx
        · simpa using hb
        · exact ih hm x hx

/-- What is picked splits the queue and is a candidate (R65, R66). -/
theorem pick_some {cand : Entry → Bool} {queue older newer : List Entry} {e : Entry}
    (h : pick cand queue = some (older, e, newer)) :
    queue = older ++ e :: newer ∧ cand e = true ∧ (e.latest = true ∨ older = []) := by
  unfold pick at h
  split at h
  · rename_i choice hc
    cases h
    obtain ⟨h₁, h₂, h₃, -⟩ := newestLatest_some hc
    exact ⟨h₁, h₂, .inl h₃⟩
  · split at h
    · cases h
    · split at h
      · rename_i hc
        cases h
        exact ⟨rfl, hc, .inr rfl⟩
      · cases h

/-- Nothing picked: no LATEST candidate, and the head is no candidate (R65). -/
theorem pick_none {cand : Entry → Bool} {queue : List Entry} (h : pick cand queue = none) :
    (∀ x ∈ queue, (cand x && x.latest) = false) ∧ ∀ e ∈ queue.head?, cand e = false := by
  unfold pick at h
  split at h
  · cases h
  · rename_i hn
    refine ⟨newestLatest_none hn, ?_⟩
    split at h
    · simp
    · split at h
      · cases h
      · rename_i hc
        intro x hx
        simp only [List.head?_cons, Option.mem_def, Option.some.injEq] at hx
        subst hx
        simpa using hc

/-! ## Drops (R67, R70, R9) -/

/-- The surface records after drops: those of the dropped entries are FREE, the others as they were. -/
theorem foldl_dropOlder_st (l : List Entry) : ∀ (s : State) (j : Fin 8),
    ((l.foldl State.dropOlder s).st.get j) =
      if j ∈ l.map Entry.surface then { s.st.get j with state := .free } else s.st.get j := by
  induction l with
  | nil => intro s j; simp
  | cons e l ih =>
    intro s j
    rw [List.foldl_cons, ih]
    by_cases h : j = e.surface
    · subst h; simp
    · by_cases hm : j ∈ l.map Entry.surface
      · simp [hm, Table.get_modify_ne _ h]
      · simp [hm, h, Table.get_modify_ne _ h]

/-- The band records after drops: those of the dropped entries' surfaces are cleared, the others as they were. -/
theorem foldl_dropOlder_bands (l : List Entry) : ∀ (s : State) (j : Fin 8),
    ((l.foldl State.dropOlder s).bt.bands.get j) =
      if j ∈ l.map Entry.surface then Bands.cleared else s.bt.bands.get j := by
  induction l with
  | nil => intro s j; simp
  | cons e l ih =>
    intro s j
    rw [List.foldl_cons, ih]
    by_cases h : j = e.surface
    · subst h; simp
    · by_cases hm : j ∈ l.map Entry.surface
      · simp [hm]
      · simp [hm, h, Table.get_set_ne _ h]

/-- Drops leave the Write Tracking Table and the stall as they are (R28). -/
theorem foldl_dropOlder_wtt (l : List Entry) (s : State) :
    (l.foldl State.dropOlder s).bt.wtt = s.bt.wtt ∧ (l.foldl State.dropOlder s).bt.stall = s.bt.stall :=
  ⟨foldl_keeps (fun s : State => s.bt.wtt) State.dropOlder (fun _ _ => rfl) l s,
   foldl_keeps (fun s : State => s.bt.stall) State.dropOlder (fun _ _ => rfl) l s⟩

theorem foldl_dropSurface_st (l : List Entry) : ∀ (s : State) (j : Fin 8),
    ((l.foldl State.dropSurface s).st.get j) =
      if j ∈ l.map Entry.surface then { s.st.get j with state := .free } else s.st.get j := by
  induction l with
  | nil => intro s j; simp
  | cons e l ih =>
    intro s j
    rw [List.foldl_cons, ih]
    by_cases h : j = e.surface
    · subst h; simp
    · by_cases hm : j ∈ l.map Entry.surface
      · simp [hm, Table.get_modify_ne _ h]
      · simp [hm, h, Table.get_modify_ne _ h]

theorem foldl_dropSurface_bands (l : List Entry) : ∀ (s : State) (j : Fin 8),
    ((l.foldl State.dropSurface s).bt.bands.get j) =
      if j ∈ l.map Entry.surface then Bands.cleared else s.bt.bands.get j := by
  induction l with
  | nil => intro s j; simp
  | cons e l ih =>
    intro s j
    rw [List.foldl_cons, ih]
    by_cases h : j = e.surface
    · subst h; simp
    · by_cases hm : j ∈ l.map Entry.surface
      · simp [hm]
      · simp [hm, h, Table.get_set_ne _ h]

theorem foldl_dropSurface_wtt (l : List Entry) (s : State) :
    (l.foldl State.dropSurface s).bt.wtt = s.bt.wtt ∧ (l.foldl State.dropSurface s).bt.stall = s.bt.stall :=
  ⟨foldl_keeps (fun s : State => s.bt.wtt) State.dropSurface (fun _ _ => rfl) l s,
   foldl_keeps (fun s : State => s.bt.stall) State.dropSurface (fun _ _ => rfl) l s⟩

/-! ## The taking of an entry (R67, R68) -/

/-- The queue and its numbers after a taking (R67, R68). -/
@[simp] theorem State.takeEntry_pq (o : List Entry) (e : Entry) (n : List Entry) :
    (s.takeEntry o e n).pq = { s.pq with queue := n, lastTaken := e.number } := by
  unfold State.takeEntry; simp

/-- The surfaces after a taking: the taken one SCANNING, the older entries' FREE, the others as they were. -/
theorem State.takeEntry_st (o : List Entry) (e : Entry) (n : List Entry) (j : Fin 8) :
    (s.takeEntry o e n).st.get j =
      if j = e.surface then { s.st.get j with state := .scanning }
      else if j ∈ o.map Entry.surface then { s.st.get j with state := .free } else s.st.get j := by
  unfold State.takeEntry
  simp only [State.signal_st, State.setSurface_st, Table.get_modify, foldl_dropOlder_st]
  by_cases h : j = e.surface
  · subst h; by_cases hm : e.surface ∈ o.map Entry.surface <;> simp [hm]
  · simp [h]

/-- The band records after a taking: those of the older entries' surfaces are cleared. -/
theorem State.takeEntry_bands (o : List Entry) (e : Entry) (n : List Entry) (j : Fin 8) :
    (s.takeEntry o e n).bt.bands.get j =
      if j ∈ o.map Entry.surface then Bands.cleared else s.bt.bands.get j := by
  unfold State.takeEntry
  simp only [State.signal_bt, State.setSurface_bt, foldl_dropOlder_bands]

@[simp] theorem State.takeEntry_wtt (o : List Entry) (e : Entry) (n : List Entry) :
    (s.takeEntry o e n).bt.wtt = s.bt.wtt ∧ (s.takeEntry o e n).bt.stall = s.bt.stall := by
  unfold State.takeEntry
  simp [foldl_dropOlder_wtt]

/-- The surfaces and the queue after the entries that do not fit a set are dropped (R16, R70). -/
theorem State.dropMisfits_st (t : TimingSet) (j : Fin 8) :
    (s.dropMisfits t).st.get j =
      if j ∈ (s.pq.queue.filter fun e => !s.entryFits t e).map Entry.surface then { s.st.get j with state := .free }
      else s.st.get j := by
  unfold State.dropMisfits
  exact foldl_dropSurface_st _ _ j

@[simp] theorem State.dropMisfits_pq (t : TimingSet) :
    (s.dropMisfits t).pq = { s.pq with queue := s.pq.queue.filter (s.entryFits t) } := by
  unfold State.dropMisfits; simp

/-- A freed surface is FREE with its bands cleared; the other surfaces are as they were (R9). -/
theorem State.freeSurface_get (i j : Fin 8) :
    (s.freeSurface i).st.get j = (if j = i then { s.st.get j with state := .free } else s.st.get j) ∧
    (s.freeSurface i).bt.bands.get j = (if j = i then Bands.cleared else s.bt.bands.get j) := by
  constructor
  · simp [Table.get_modify]
  · simp [Table.get_set]

/-- The HELD surface found is HELD, and the SCANNING one SCANNING (R8). -/
theorem State.held_some {i : Fin 8} (h : s.held = some i) : (s.st.get i).state = .held := by
  unfold State.held State.inState at h
  simpa using Table.find_some h

theorem State.scanning_some {i : Fin 8} (h : s.scanning = some i) : (s.st.get i).state = .scanning := by
  unfold State.scanning State.inState at h
  simpa using Table.find_some h

theorem State.held_none : s.held = none ↔ ∀ i, (s.st.get i).state ≠ .held := by
  unfold State.held State.inState
  rw [Table.find_none]
  simp

theorem State.scanning_none : s.scanning = none ↔ ∀ i, (s.st.get i).state ≠ .scanning := by
  unfold State.scanning State.inState
  rw [Table.find_none]
  simp

end Sys2Proof.Machine
end

