-- ==== Sys2Proof/Laws/Commands.lean ====
section
/-! SUPPORT. What the commands of the command page leave unchanged: the traffic path, the waiting commands and the
draw counter. -/

namespace Sys2Proof.Machine

variable (s : State)

@[simp] theorem State.commitResult_frame (x : Result) :
    (s.commitResult x).tc = s.tc ∧
    (s.commitResult x).pending = s.pending ∧
    (s.commitResult x).freeDraw = s.freeDraw := by
  unfold State.commitResult; simp

@[simp] theorem commitNoTable_frame :
    (commitNoTable s).tc = s.tc ∧
    (commitNoTable s).pending = s.pending ∧
    (commitNoTable s).freeDraw = s.freeDraw := by
  unfold commitNoTable; simp

@[simp] theorem openFrame_frame (id : BitVec 8) :
    (openFrame id s).tc = s.tc ∧
    (openFrame id s).pending = s.pending ∧
    (openFrame id s).freeDraw = s.freeDraw := by
  unfold openFrame; dsimp only; (repeat' split) <;> simp

@[simp] theorem release_frame (id : BitVec 8) (a b : BitVec 16) :
    (release id a b s).tc = s.tc ∧
    (release id a b s).pending = s.pending ∧
    (release id a b s).freeDraw = s.freeDraw := by
  unfold release; dsimp only; (repeat' split) <;> simp

@[simp] theorem abandon_frame (id : BitVec 8) :
    (abandon id s).tc = s.tc ∧
    (abandon id s).pending = s.pending ∧
    (abandon id s).freeDraw = s.freeDraw := by
  unfold abandon; (repeat' split) <;> simp

@[simp] theorem present_frame (id : BitVec 8) (a b : BitVec 16) :
    (present id a b s).tc = s.tc ∧
    (present id a b s).pending = s.pending ∧
    (present id a b s).freeDraw = s.freeDraw := by
  unfold present; dsimp only; (repeat' split) <;> simp

@[simp] theorem withdraw_frame (id : BitVec 8) :
    (withdraw id s).tc = s.tc ∧
    (withdraw id s).pending = s.pending ∧
    (withdraw id s).freeDraw = s.freeDraw := by
  unfold withdraw; (repeat' split) <;> simp

@[simp] theorem State.defineSurface_frame (i : Fin 8) (g : StagedSurface) :
    (s.defineSurface i g).tc = s.tc ∧
    (s.defineSurface i g).pending = s.pending ∧
    (s.defineSurface i g).freeDraw = s.freeDraw := by
  unfold State.defineSurface; (repeat' split) <;> simp

@[simp] theorem commitSurface_frame (e : BitVec 16) :
    (commitSurface e s).tc = s.tc ∧
    (commitSurface e s).pending = s.pending ∧
    (commitSurface e s).freeDraw = s.freeDraw := by
  unfold commitSurface; dsimp only; (repeat' split) <;> simp

@[simp] theorem State.installTiming_frame (t : TimingSet) :
    (s.installTiming t).tc = s.tc ∧
    (s.installTiming t).pending = s.pending ∧
    (s.installTiming t).freeDraw = s.freeDraw := by
  unfold State.installTiming; dsimp only; (repeat' split) <;> simp

@[simp] theorem commitTiming_frame (e : BitVec 16) :
    (commitTiming e s).tc = s.tc ∧
    (commitTiming e s).pending = s.pending ∧
    (commitTiming e s).freeDraw = s.freeDraw := by
  unfold commitTiming; dsimp only; (repeat' split) <;> simp

@[simp] theorem State.installFetch_frame (f : FetchSet) :
    (s.installFetch f).tc = s.tc ∧
    (s.installFetch f).pending = s.pending ∧
    (s.installFetch f).freeDraw = s.freeDraw := by
  unfold State.installFetch; dsimp only; (repeat' split) <;> simp

@[simp] theorem commitFetch_frame (e : BitVec 16) :
    (commitFetch e s).tc = s.tc ∧
    (commitFetch e s).pending = s.pending ∧
    (commitFetch e s).freeDraw = s.freeDraw := by
  unfold commitFetch; (repeat' split) <;> simp

@[simp] theorem commitNotice_frame (e : BitVec 16) :
    (commitNotice e s).tc = s.tc ∧
    (commitNotice e s).pending = s.pending ∧
    (commitNotice e s).freeDraw = s.freeDraw := by
  unfold commitNotice; (repeat' split) <;> simp

@[simp] theorem commitMarker_frame (e : BitVec 16) :
    (commitMarker e s).tc = s.tc ∧
    (commitMarker e s).pending = s.pending ∧
    (commitMarker e s).freeDraw = s.freeDraw := by
  unfold commitMarker; dsimp only; (repeat' split) <;> simp

@[simp] theorem State.enableReport_frame (b : Nat) :
    (s.enableReport b).tc = s.tc ∧
    (s.enableReport b).pending = s.pending ∧
    (s.enableReport b).freeDraw = s.freeDraw := by
  unfold State.enableReport; (repeat' split) <;> simp

@[simp] theorem commitReport_frame (e : BitVec 16) :
    (commitReport e s).tc = s.tc ∧
    (commitReport e s).pending = s.pending ∧
    (commitReport e s).freeDraw = s.freeDraw := by
  unfold commitReport; dsimp only; (repeat' split) <;> simp

@[simp] theorem outputOn_frame :
    (outputOn s).tc = s.tc ∧
    (outputOn s).pending = s.pending ∧
    (outputOn s).freeDraw = s.freeDraw := by
  unfold outputOn; (repeat' split) <;> simp

@[simp] theorem State.stopRaster_frame :
    (s.stopRaster).tc = s.tc ∧
    (s.stopRaster).pending = s.pending ∧
    (s.stopRaster).freeDraw = s.freeDraw := by
  unfold State.stopRaster; dsimp only; (repeat' split) <;> simp

@[simp] theorem outputOff_frame :
    (outputOff s).tc = s.tc ∧
    (outputOff s).pending = s.pending ∧
    (outputOff s).freeDraw = s.freeDraw := by
  unfold outputOff; simp

@[simp] theorem clearEvents_frame (b c : BitVec 16) :
    (clearEvents b c s).tc = s.tc ∧
    (clearEvents b c s).pending = s.pending ∧
    (clearEvents b c s).freeDraw = s.freeDraw := by
  unfold clearEvents; dsimp only; (repeat' split) <;> simp

@[simp] theorem viewSelect_frame (a : BitVec 16) :
    (viewSelect a s).tc = s.tc ∧
    (viewSelect a s).pending = s.pending ∧
    (viewSelect a s).freeDraw = s.freeDraw := by
  unfold viewSelect; dsimp only; (repeat' split) <;> simp

@[simp] theorem softReset_frame :
    (softReset s).tc = s.tc ∧
    (softReset s).pending = s.pending ∧
    (softReset s).freeDraw = s.freeDraw := by
  unfold softReset; dsimp only; simp

@[simp] theorem unknown_frame (l : Lane) (c : BitVec 8) :
    (unknown l c s).tc = s.tc ∧
    (unknown l c s).pending = s.pending ∧
    (unknown l c s).freeDraw = s.freeDraw := by
  unfold unknown; simp

@[simp] theorem wrongLane_frame (l : Lane) (c : BitVec 8) :
    (wrongLane l c s).tc = s.tc ∧
    (wrongLane l c s).pending = s.pending ∧
    (wrongLane l c s).freeDraw = s.freeDraw := by
  unfold wrongLane; simp

@[simp] theorem tableIndex_frame (v : BitVec 64) :
    (tableIndex v s).tc = s.tc ∧
    (tableIndex v s).pending = s.pending ∧
    (tableIndex v s).freeDraw = s.freeDraw := by
  unfold tableIndex; dsimp only; simp

@[simp] theorem tableData_frame (v : BitVec 64) :
    (tableData v s).tc = s.tc ∧
    (tableData v s).pending = s.pending ∧
    (tableData v s).freeDraw = s.freeDraw := by
  unfold tableData; dsimp only; (repeat' split) <;> simp

@[simp] theorem reportNow_frame (v : BitVec 64) :
    (reportNow v s).tc = s.tc ∧
    (reportNow v s).pending = s.pending ∧
    (reportNow v s).freeDraw = s.freeDraw := by
  unfold reportNow; simp

@[simp] theorem misplacedWrite_frame :
    (misplacedWrite s).tc = s.tc ∧
    (misplacedWrite s).pending = s.pending ∧
    (misplacedWrite s).freeDraw = s.freeDraw := by
  unfold misplacedWrite; simp

@[simp] theorem runCommand_frame (i : Instr) :
    (runCommand i s).tc = s.tc ∧
    (runCommand i s).pending = s.pending ∧
    (runCommand i s).freeDraw = s.freeDraw := by
  unfold runCommand; split <;> simp

@[simp] theorem runDecoded_frame (d : Decoded) :
    (runDecoded d s).tc = s.tc ∧
    (runDecoded d s).pending = s.pending ∧
    (runDecoded d s).freeDraw = s.freeDraw := by
  unfold runDecoded; split <;> simp

@[simp] theorem runBeat_frame (a : Nat) (p : Beat × Nat) :
    (runBeat a s p).tc = s.tc ∧
    (runBeat a s p).pending = s.pending ∧
    (runBeat a s p).freeDraw = s.freeDraw := by
  unfold runBeat; dsimp only; split <;> simp

@[simp] theorem State.decodeBeats_frame (r : Request) :
    (s.decodeBeats r).tc = s.tc ∧ (s.decodeBeats r).pending = s.pending ∧ (s.decodeBeats r).freeDraw = s.freeDraw := by
  unfold State.decodeBeats
  exact ⟨foldl_keeps (fun s : State => s.tc) (runBeat r.addr.toNat) (fun s p => (runBeat_frame s r.addr.toNat p).1) _ s,
    foldl_keeps (fun s : State => s.pending) (runBeat r.addr.toNat)
      (fun s p => (runBeat_frame s r.addr.toNat p).2.1) _ s,
    foldl_keeps (fun s : State => s.freeDraw) (runBeat r.addr.toNat)
      (fun s p => (runBeat_frame s r.addr.toNat p).2.2) _ s⟩

/-- A property that every beat's command keeps is kept by a whole command-page write (R158). -/
theorem State.decodeBeats_keeps (P : State → Prop) (h : ∀ i s, P s → P (runCommand i s))
    (h' : ∀ s, P s → P (commitNoTable s)) (r : Request) (hs : P s) : P (s.decodeBeats r) := by
  unfold State.decodeBeats
  have step : ∀ s p, P s → P (runBeat r.addr.toNat s p) := by
    intro s p hs
    unfold runBeat
    dsimp only
    split
    · unfold runDecoded
      split
      · exact h _ _ hs
      · exact h' _ hs
      · exact hs
    · exact hs
  generalize r.data.zipIdx = l
  clear h h'
  induction l generalizing s with
  | nil => exact hs
  | cons p l ih => exact ih (runBeat r.addr.toNat s p) (step s p hs)

/-- What an acknowledgement leaves unchanged (R40, R41). -/
@[simp] theorem State.acknowledge_frame (t : Fin 256) (x : Status) :
    (s.acknowledge t x).tc = s.tc ∧ (s.acknowledge t x).cd = s.cd ∧ (s.acknowledge t x).st = s.st ∧
    (s.acknowledge t x).pq = s.pq ∧ (s.acknowledge t x).rtm = s.rtm ∧ (s.acknowledge t x).sf = s.sf ∧
    (s.acknowledge t x).po = s.po ∧ (s.acknowledge t x).ma = s.ma ∧ (s.acknowledge t x).pending = s.pending ∧
    (s.acknowledge t x).freeDraw = s.freeDraw := by
  unfold State.acknowledge
  dsimp only
  (repeat' split) <;> simp

/-- What the outcome of an offer leaves unchanged (R30, R32, R33). -/
@[simp] theorem State.lateWrite_frame (i : Fin 8) :
    (s.lateWrite i).tc = s.tc ∧ (s.lateWrite i).cd = s.cd ∧ (s.lateWrite i).bt = s.bt ∧ (s.lateWrite i).pq = s.pq ∧
    (s.lateWrite i).sf = s.sf ∧ (s.lateWrite i).po = s.po ∧ (s.lateWrite i).ma = s.ma ∧
    (s.lateWrite i).pending = s.pending ∧ (s.lateWrite i).freeDraw = s.freeDraw := by
  unfold State.lateWrite
  dsimp only
  (repeat' split) <;> simp

@[simp] theorem State.takeOffer_frame (t : Fin 256) (o : Offer) :
    (s.takeOffer t o).cd = s.cd ∧ (s.takeOffer t o).pq = s.pq ∧ (s.takeOffer t o).sf = s.sf ∧
    (s.takeOffer t o).po = s.po ∧ (s.takeOffer t o).ma = s.ma ∧ (s.takeOffer t o).pending = s.pending ∧
    (s.takeOffer t o).freeDraw = s.freeDraw := by
  unfold State.takeOffer
  split <;> simp

/-- What a READ_DATA for an entry leaves unchanged (R112, R113, R115). -/
@[simp] theorem State.readData_frame (e : ReadEntry) (x : Status) (d : List (BitVec 64)) :
    (s.readData e x d).tc = s.tc ∧ (s.readData e x d).cd = s.cd ∧ (s.readData e x d).st = s.st ∧
    (s.readData e x d).bt = s.bt ∧ (s.readData e x d).pq = s.pq ∧ (s.readData e x d).po = s.po ∧
    (s.readData e x d).ma = s.ma ∧ (s.readData e x d).pending = s.pending := by
  unfold State.readData State.completeBurst
  dsimp only
  (repeat' split) <;> simp

end Sys2Proof.Machine
end

