-- ==== Sys2Proof/Laws/Claims.lean ====
section
/-! SUPPORT. The shared operations meet what claims say of them: each proves its part once, and a statement about a
command cites it. -/

namespace Sys2Proof.Safety

open Sys2Proof.Machine

/-- An occurrence notifies (R187). -/
theorem notified_occur (r : ReportWriter) (x : Source) (c : Condition) : Notified x c r (r.occur x c) := by
  intro e
  simp only [ReportWriter.occur_waiting, Table.get_zipWith, gainNotice_eq]

/-- Raising an event is its being taken (R175). -/
theorem eventTaken_raise (r : ReportWriter) (e : Event) : EventTaken e r (r.raise e) := by
  refine ⟨rfl, rfl, rfl, rfl, ?_, rfl⟩
  intro n
  simp only [ReportWriter.raise_waiting, Table.get_zipWith, gainNotice_eq, ReportWriter.flagCondition]

theorem dirtied_mark (r : ReportWriter) : Dirtied r r.mark := rfl

theorem taken_eq_not_refusal (r : Result) : taken r = !r.refusal := by cases r <;> rfl

/-- The lane records after a result. -/
theorem laneOf_record (d : Decoder) (l m : Lane) (code : BitVec 8) (r : Result) :
    laneOf (d.record l code r) m = if m = l then (laneOf d l).record code r else laneOf d m := by
  cases l <;> cases m <;> rfl

/-- A result is what claims say of it (R159, R160). -/
theorem resulted_result (u : State) (l : Lane) (code : BitVec 8) (r : Result) :
    Resulted u (u.result l code r) l code r := by
  refine ⟨?_, ?_, ?_, ?_, ?_⟩
  · rw [State.result_cd, laneOf_record, if_pos rfl]; rfl
  · intro m hm
    rw [State.result_cd, laneOf_record, if_neg hm]
  · rw [State.result_cd]; cases l <;> rfl
  · rw [State.result_rw, taken_eq_not_refusal]
    cases hr : r.refusal
    · exact dirtied_mark _
    · exact eventTaken_raise _ _
  · unfold State.result; dsimp only; split <;> rfl

/-- A link fault is what claims say of it (R143). -/
theorem linkFaulted_linkProtocol (u : State) (c : FaultCause) (n : Nat) :
    LinkFaulted c n u (u.linkProtocol c n) :=
  ⟨rfl, eventTaken_raise _ _, rfl⟩

/-- A surface number of 8 or more names no surface (R161). -/
theorem definedSurface_beyond (s : State) {id : BitVec 8} (h : 8 ≤ id.toNat) : s.definedSurface id = none := by
  unfold State.definedSurface surfaceNumber
  rw [dif_neg (by omega)]

/-- The surface a number below 8 names (R161). -/
theorem definedSurface_of (s : State) {id : BitVec 8} {i : Fin 8} (h : id.toNat = i.val) :
    s.definedSurface id = if (s.st.get i).geo.defined then some i else none := by
  unfold State.definedSurface surfaceNumber
  have hi : id.toNat < 8 := by omega
  rw [dif_pos hi]
  have : (⟨id.toNat, hi⟩ : Fin 8) = i := Fin.ext h
  simp only [this]

/-- An entry number within `n` entries, and one beyond them (R166). -/
theorem entryNumber_of {n : Nat} {e : BitVec 16} {i : Fin n} (h : e.toNat = i.val) : entryNumber n e = some i := by
  unfold entryNumber
  have hi : e.toNat < n := by omega
  rw [dif_pos hi]
  exact congrArg some (Fin.ext h)

theorem entryNumber_beyond {n : Nat} {e : BitVec 16} (h : n ≤ e.toNat) : entryNumber n e = none := by
  unfold entryNumber
  rw [dif_neg (by omega)]

end Sys2Proof.Safety
end

