-- ==== Sys2Proof/Laws/Selections.lean ====
section
/-! SUPPORT. Repeated events, selections and settings that come into force meet what claims say of them. -/

namespace Sys2Proof.Safety

open Sys2Proof.Machine

/-! ## An event that occurs several times -/

/-- No occurrence changes nothing. -/
theorem eventTimes_zero (e : Event) (r : ReportWriter) : EventTimes e 0 r r :=
  ⟨fun _ => rfl, fun h => absurd h (by omega)⟩

/-- One occurrence after `n` of them; between them only dirtiness may have been marked. -/
theorem eventTimes_succ {e : Event} {n : Nat} {r x y : ReportWriter} (h : EventTimes e n r x)
    (hy : y = x ∨ y = x.mark) : EventTimes e (n + 1) r (y.raise e) := by
  have hyx : (y.raise e) = x.raise e := by rcases hy with rfl | rfl <;> rfl
  rw [hyx]
  refine ⟨fun h => absurd h (by omega), fun _ => ?_⟩
  rcases Nat.eq_zero_or_pos n with rfl | hn
  · have hx := h.1 rfl
    subst hx
    obtain ⟨a, b, c, d, f, g⟩ := eventTaken_raise x e
    exact ⟨a, b, c, d, f, g⟩
  · obtain ⟨a, b, c, -, f, g⟩ := h.2 hn
    have hno : x.notices = r.notices := by rw [g]
    have hen : x.enable = r.enable := by rw [g]
    refine ⟨?_, rfl, ?_, rfl, ?_, ?_⟩
    · show x.flags ||| e.bit = _
      rw [a, BitVec.or_assoc]
      exact congrArg _ (BitVec.or_self)
    · show x.counters.count e = _
      rw [c, Function.iterate_succ', Function.comp]
    · intro i
      simp only [ReportWriter.raise_waiting, Table.get_zipWith, gainNotice_eq, f i, hno, ReportWriter.flagCondition, hen]
      generalize (if r.enable = true then Condition.nextWrite else Condition.released) = k
      rcases r.waiting.get i with _ | w
      · by_cases hn : (r.notices.get i).enabled = true ∧ (r.notices.get i).source = .flag e
        · simp [hn]
        · simp [hn]
      · simp
    · have key : ∀ fl su co di wa, ReportWriter.raise { r with flags := fl, summary := su, counters := co, dirty := di, waiting := wa } e =
          { r with
            flags := (ReportWriter.raise { r with flags := fl, summary := su, counters := co, dirty := di, waiting := wa } e).flags
            summary := (ReportWriter.raise { r with flags := fl, summary := su, counters := co, dirty := di, waiting := wa } e).summary
            counters := (ReportWriter.raise { r with flags := fl, summary := su, counters := co, dirty := di, waiting := wa } e).counters
            dirty := (ReportWriter.raise { r with flags := fl, summary := su, counters := co, dirty := di, waiting := wa } e).dirty
            waiting := (ReportWriter.raise { r with flags := fl, summary := su, counters := co, dirty := di, waiting := wa } e).waiting } :=
        fun _ _ _ _ _ => rfl
      have := key x.flags x.summary x.counters x.dirty x.waiting
      rw [← g] at this
      exact this

/-- Only dirtiness is marked between the surface's change and its event (R19, R67). -/
theorem freeSurface_rw (s : State) (i : Fin 8) : (s.freeSurface i).rw = s.rw.mark := rfl

/-- The drops of older entries, for the Report Writer (R67). -/
theorem eventTimes_dropOlder (l : List Entry) (r : ReportWriter) : ∀ (n : Nat) (s : State), EventTimes .presentDropped n r s.rw →
    EventTimes .presentDropped (n + l.length) r (l.foldl State.dropOlder s).rw := by
  induction l with
  | nil => intro n s h; exact h
  | cons e l ih =>
    intro n s h
    rw [List.foldl_cons, List.length_cons, show n + (l.length + 1) = (n + 1) + l.length by omega]
    exact ih (n + 1) _ (eventTimes_succ h (.inr rfl))

/-- The drops at a size change, for the Report Writer (R70). -/
theorem eventTimes_dropSurface (l : List Entry) (r : ReportWriter) : ∀ (n : Nat) (s : State), EventTimes .presentDropped n r s.rw →
    EventTimes .presentDropped (n + l.length) r (l.foldl State.dropSurface s).rw := by
  induction l with
  | nil => intro n s h; exact h
  | cons e l ih =>
    intro n s h
    rw [List.foldl_cons, List.length_cons, show n + (l.length + 1) = (n + 1) + l.length by omega]
    exact ih (n + 1) _ (eventTimes_succ h (.inr rfl))

/-- The late bursts of a line, for the Report Writer (R115). -/
theorem eventTimes_lateBurst {α : Type} (l : List α) (r : ReportWriter) : ∀ (n : Nat) (s : State),
    EventTimes .fetchLate n r s.rw →
    EventTimes .fetchLate (n + l.length) r (l.foldl (fun s _ => s.lateBurst) s).rw := by
  induction l with
  | nil => intro n s h; exact h
  | cons e l ih =>
    intro n s h
    rw [List.foldl_cons, List.length_cons, show n + (l.length + 1) = (n + 1) + l.length by omega]
    exact ih (n + 1) _ (eventTimes_succ h (.inl rfl))

/-- A count after one more and then `n` more occurrences. -/
theorem countTimes_succ (n c : Nat) : countTimes n (count16 c) = countTimes (n + 1) c := rfl

/-- The working record after the drops of older entries (R67). -/
theorem foldl_dropOlder_rtm (l : List Entry) : ∀ s : State, (l.foldl State.dropOlder s).rtm =
    { s.rtm with record := s.rtm.record.map fun w => { w with dropped := countTimes l.length w.dropped } } := by
  induction l with
  | nil => intro s; show s.rtm = _; cases h : s.rtm.record <;> simp [countTimes] <;> rw [← h]
  | cons e l ih =>
    intro s
    rw [List.foldl_cons, ih]
    show ({ s.rtm with record := Option.map _ (Option.map _ s.rtm.record) } : RasterTimer) = _
    rw [Option.map_map]
    rfl

/-- The working record after the late bursts of a line (R115). -/
theorem foldl_lateBurst_rtm {α : Type} (l : List α) : ∀ s : State, (l.foldl (fun s _ => s.lateBurst) s).rtm =
    { s.rtm with record := s.rtm.record.map fun w => { w with fetchLate := countTimes l.length w.fetchLate } } := by
  induction l with
  | nil => intro s; show s.rtm = _; cases h : s.rtm.record <;> simp [countTimes] <;> rw [← h]
  | cons e l ih =>
    intro s
    rw [List.foldl_cons, ih]
    show ({ s.rtm with record := Option.map _ (Option.map _ s.rtm.record) } : RasterTimer) = _
    rw [Option.map_map]
    rfl

/-! ## Selections (R62, R65 to R68, R15) -/

/-- Admissibility is what claims say it is (R62). -/
theorem admissible_iff (s : State) (e : Entry) : s.admissible e = true ↔ Admissible s e := by
  have key : ∀ n, s.bt.leadingReady e.surface n = true ↔
      ∀ b : Fin 128, b.val < n → (s.bt.band e.surface b).status = .ready := by
    intro n
    unfold BandTracker.leadingReady BandTracker.band
    rw [List.all_eq_true]
    constructor
    · intro h b hb
      have : (Table.get (s.bt.bands.get e.surface) b) ∈ (s.bt.bands.get e.surface).list.take n := by
        rw [List.mem_take_iff_getElem]
        exact ⟨b.val, by rw [(s.bt.bands.get e.surface).len]; exact lt_min hb b.isLt, rfl⟩
      simpa using h _ this
    · intro h x hx
      obtain ⟨i, hi, rfl⟩ := List.mem_take_iff_getElem.1 hx
      rw [(s.bt.bands.get e.surface).len, lt_min_iff] at hi
      have := h ⟨i, hi.2⟩ hi.1
      rw [beq_iff_eq]
      exact this
  unfold State.admissible Admissible
  cases e.mode <;> simp [key]

/-- So is candidacy at a decision point (R66). -/
theorem splitCandidate_iff (s : State) (hb : Nat) (e : Entry) :
    s.splitCandidate hb e = true ↔ SplitCandidate s hb e := by
  unfold State.splitCandidate SplitCandidate
  simp [admissible_iff, and_assoc]

/-- The newest candidate that carries LATEST, if one does (R65). -/
theorem newestLatest_iff (cand : Entry → Bool) (q : List Entry) : ∀ older e newer, newestLatest cand q = some (older, e, newer) ↔
   q = older ++ e :: newer ∧ cand e = true ∧ e.latest = true ∧ ∀ x ∈ newer, ¬ (cand x = true ∧ x.latest = true) := by
  induction q with
  | nil => simp [newestLatest]
  | cons a l ih =>
    intro older e newer
    unfold newestLatest
    constructor
    · intro h
      cases hm : newestLatest cand l with
      | some x =>
        obtain ⟨o, y, n⟩ := x
        rw [hm] at h
        simp at h
        obtain ⟨rfl, rfl, rfl⟩ := h
        have := (ih o y n).1 hm
        exact ⟨by rw [this.1]; rfl, this.2⟩
      | none =>
        rw [hm] at h
        simp at h
        obtain ⟨⟨h1, h2⟩, rfl, rfl, rfl⟩ := h
        have := newestLatest_none hm
        refine ⟨rfl, h1, h2, ?_⟩
        intro x hx
        simpa using this x hx
    · rintro ⟨h1, h2, h3, h4⟩
      cases older with
      | nil =>
        simp at h1
        obtain ⟨rfl, rfl⟩ := h1
        cases hm : newestLatest cand l with
        | some x =>
          obtain ⟨o, y, n⟩ := x
          have := (ih o y n).1 hm
          exact absurd ⟨this.2.1, this.2.2.1⟩ (h4 y (by rw [this.1]; simp))
        | none => simp [h2, h3]
      | cons b older =>
        simp at h1
        obtain ⟨rfl, rfl⟩ := h1
        rw [(ih older e newer).2 ⟨rfl, h2, h3, h4⟩]

/-- `pick` takes what claims say a selection takes (R65, R66). -/
theorem pick_iff (cand : Entry → Bool) (q : List Entry) (P : Entry → Prop) (hP : ∀ x, cand x = true ↔ P x) :
   (∀ older e newer, pick cand q = some (older, e, newer) ↔ Chosen P q older e newer) ∧ (pick cand q = none ↔ NoneChosen P q) := by
  have hn : newestLatest cand q = none ↔ ∀ x ∈ q, ¬ (P x ∧ x.latest = true) := by
    constructor
    · intro h x hx
      rw [← hP]
      simpa using newestLatest_none h x hx
    · intro h
      cases hm : newestLatest cand q with
      | none => rfl
      | some x =>
        obtain ⟨o, y, n⟩ := x
        have := (newestLatest_iff cand q o y n).1 hm
        exact absurd ⟨(hP y).1 this.2.1, this.2.2.1⟩ (h y (by rw [this.1]; simp))
  refine ⟨?_, ?_⟩
  · intro o e n
    unfold pick Chosen
    cases hm : newestLatest cand q with
    | some x =>
      dsimp only
      rw [← hm, newestLatest_iff]
      constructor
      · rintro ⟨a, b, c, d⟩
        exact ⟨a, (hP _).1 b, .inl ⟨c, fun x hx => by rw [← hP]; exact d x hx⟩⟩
      · rintro ⟨a, b, c⟩
        rcases c with ⟨c, d⟩ | ⟨c, d⟩
        · exact ⟨a, (hP _).2 b, c, fun x hx => by rw [hP]; exact d x hx⟩
        · rw [hn.2 d] at hm; cases hm
    | none =>
      dsimp only
      have hn' := hn.1 hm
      cases q with
      | nil => simp
      | cons a l =>
        dsimp only
        constructor
        · intro h
          split at h
          · rename_i hc
            cases h
            exact ⟨rfl, (hP _).1 hc, .inr ⟨rfl, hn'⟩⟩
          · cases h
        · rintro ⟨h1, h2, h3⟩
          rcases h3 with ⟨h3, -⟩ | ⟨rfl, -⟩
          · exact absurd ⟨h2, h3⟩ (hn' e (by rw [h1]; simp))
          · simp at h1
            obtain ⟨rfl, rfl⟩ := h1
            rw [if_pos ((hP _).2 h2)]
  · unfold pick NoneChosen
    cases hm : newestLatest cand q with
    | some x =>
      simp only [reduceCtorEq, false_iff, not_and]
      intro h
      rw [hn.2 fun x hx hc => h x hx hc.1 hc.2] at hm; cases hm
    | none =>
      have hn' := hn.1 hm
      cases q with
      | nil => simp
      | cons a l =>
        dsimp only
        constructor
        · intro h
          refine ⟨hn', ?_⟩
          intro e rest he
          cases he
          rw [← hP]
          intro hc
          rw [if_pos hc] at h; cases h
        · rintro ⟨-, h⟩
          have := h a l rfl
          rw [if_neg (by rw [hP]; exact this)]

/-- A front-blank selection (R65). -/
theorem frontSelection_chosen (s : State) {older newer : List Entry} {e : Entry}
    (h : Chosen (Admissible s) s.pq.queue older e newer) :
    s.frontSelection = some (e, s.takeEntry older e newer) := by
  unfold State.frontSelection
  rw [((pick_iff s.admissible s.pq.queue _ (admissible_iff s)).1 older e newer).2 h]

theorem frontSelection_noneChosen (s : State) (h : NoneChosen (Admissible s) s.pq.queue) :
    s.frontSelection = none := by
  unfold State.frontSelection
  rw [(pick_iff s.admissible s.pq.queue _ (admissible_iff s)).2.2 h]

/-- A mid-active selection (R66). -/
theorem splitSelection_chosen (s : State) {hb : Nat} {older newer : List Entry} {e : Entry}
    (h : Chosen (SplitCandidate s hb) s.pq.queue older e newer) :
    s.splitSelection hb = some (e, s.freeScanning.takeEntry older e newer) := by
  unfold State.splitSelection
  rw [((pick_iff (s.splitCandidate hb) s.pq.queue _ (splitCandidate_iff s hb)).1 older e newer).2 h]

theorem splitSelection_noneChosen (s : State) {hb : Nat} (h : NoneChosen (SplitCandidate s hb) s.pq.queue) :
    s.splitSelection hb = none := by
  unfold State.splitSelection
  rw [(pick_iff (s.splitCandidate hb) s.pq.queue _ (splitCandidate_iff s hb)).2.2 h]

/-- The taking of an entry is what claims say it is (R67, R68). -/
theorem entryTaken_takeEntry (s : State) (older : List Entry) (e : Entry) (newer : List Entry) :
    EntryTaken older e newer s (s.takeEntry older e newer) := by
  have hr := eventTimes_dropOlder older s.rw 0 { s with pq := { s.pq with queue := newer, lastTaken := e.number } }
    (eventTimes_zero _ _)
  rw [Nat.zero_add] at hr
  refine ⟨State.takeEntry_pq .., ?_, fun i => State.takeEntry_bands s older e newer i, ⟨_, hr, ?_, ?_⟩, ?_, ?_⟩
  · intro i
    rw [State.takeEntry_st]
    split
    · rfl
    · split <;> rfl
  · intro i
    simp only [State.takeEntry, State.signal, State.setSurface, ReportWriter.occur_waiting, Table.get_zipWith, gainNotice_eq, ReportWriter.mark_notices, ReportWriter.mark_waiting]
  · rfl
  · show (List.foldl State.dropOlder _ _).rtm = _
    rw [foldl_dropOlder_rtm]
  · have hw := State.takeEntry_wtt (s := s) older e newer
    have hf := State.takeEntry_frame (s := s) older e newer
    generalize s.takeEntry older e newer = t at hw hf
    obtain ⟨tc, cd, st, ⟨bands, wtt, stall⟩, pq, rtm, sf, po, rw', ma, pe, fr⟩ := t
    simp only at hw hf ⊢
    obtain ⟨rfl, rfl⟩ := hw
    obtain ⟨rfl, rfl, rfl, rfl, rfl, rfl, rfl⟩ := hf
    rfl

/-- The SCANNING surface's leaving is what claims say it is (R15). -/
theorem scanningFreed_freeScanning (s : State) (h : AtMostOne s .scanning) : ScanningFreed s s.freeScanning := by
  unfold State.freeScanning
  cases hs : s.scanning with
  | none =>
    rw [State.scanning_none] at hs
    exact ⟨fun i => ⟨fun hi => absurd hi (hs i), fun _ => ⟨rfl, rfl⟩⟩, .inl rfl, rfl⟩
  | some i =>
    have hi := State.scanning_some s hs
    refine ⟨fun j => ?_, .inr rfl, rfl⟩
    have := State.freeSurface_get (s := s) i j
    refine ⟨fun hj => ?_, fun hj => ?_⟩
    · have hji := h j i hj hi
      subst hji
      simp
    · have hji : j ≠ i := by rintro rfl; exact hj hi
      simpa [hji] using this

/-! ## Settings that come into force (R16, R70, R92, R102, R103) -/

/-- A fetch set's coming into force is what claims say it is (R102, R103, R127). -/
theorem fetchInForce_fetchInForce (s : State) (f : FetchSet) : FetchInForce f s (s.fetchInForce f) := by
  unfold FetchInForce State.fetchInForce
  cases s.rtm.timing <;> rfl

/-- The misfits freed when a timing set comes into force. -/
theorem freeHeldMisfit_get (s : State) (tm : TimingSet) (h : AtMostOne s .held) (i : Fin 8) :
    (((s.st.get i).state = .held ∧ (s.st.get i).geo.fits tm = false) →
      (s.freeHeldMisfit tm).st.get i = { s.st.get i with state := .free } ∧
        (s.freeHeldMisfit tm).bt.bands.get i = Bands.cleared) ∧
    (¬ ((s.st.get i).state = .held ∧ (s.st.get i).geo.fits tm = false) →
      (s.freeHeldMisfit tm).st.get i = s.st.get i ∧ (s.freeHeldMisfit tm).bt.bands.get i = s.bt.bands.get i) := by
  unfold State.freeHeldMisfit
  cases hs : s.held with
  | none =>
    rw [State.held_none] at hs
    exact ⟨fun hi => absurd hi.1 (hs i), fun _ => ⟨rfl, rfl⟩⟩
  | some j =>
    have hj := State.held_some s hs
    dsimp only
    by_cases hf : (s.st.get j).geo.fits tm = true
    · rw [if_pos hf]
      refine ⟨fun hi => ?_, fun _ => ⟨rfl, rfl⟩⟩
      have := h i j hi.1 hj
      subst this
      rw [hf] at hi
      cases hi.2
    · rw [if_neg hf]
      have := State.freeSurface_get (s := s) j i
      refine ⟨fun hi => ?_, fun hi => ?_⟩
      · have hij := h i j hi.1 hj
        subst hij
        rw [if_pos rfl, if_pos rfl] at this
        exact this
      · have hij : i ≠ j := by rintro rfl; exact hi ⟨hj, by simpa using hf⟩
        rw [if_neg hij, if_neg hij] at this
        exact this

theorem fits_iff (g : Geometry) (tm : TimingSet) : g.fits tm = true ↔ g.width = tm.w ∧ g.height = tm.h := by
  simp [Geometry.fits]

/-- The freeing of the HELD misfit leaves every geometry (R16). -/
theorem freeHeldMisfit_geo (s : State) (tm : TimingSet) (i : Fin 8) :
    ((s.freeHeldMisfit tm).st.get i).geo = (s.st.get i).geo := by
  unfold State.freeHeldMisfit
  split
  · split
    · rfl
    · rw [(State.freeSurface_get (s := s) _ i).1]; split <;> rfl
  · rfl

/-- A timing set's coming into force is what claims say it is (R16, R70, R92, R103). -/
theorem timingInForce_timingInForce (s : State) (tm : TimingSet) (h : AtMostOne s .held) :
    TimingInForce tm s (s.timingInForce tm) := by
  have hcomm : ∀ x : FetchSet, (x.limit tm) = { x with lead := min x.lead (min 16 tm.s) } := fun _ => rfl
  unfold State.timingInForce
  dsimp only
  generalize hs : ({ s with rtm := { s.rtm with timing := some tm, pendingSet := none }
                            sf := { s.sf with inForce := s.sf.inForce.limit tm, waiting := s.sf.waiting.map fun f : FetchSet => f.limit tm } } : State) = u
  have hst : u.st = s.st := by rw [← hs]
  have hbt : u.bt = s.bt := by rw [← hs]
  have hpq : u.pq = s.pq := by rw [← hs]
  have hrw : u.rw = s.rw := by rw [← hs]
  have hu : AtMostOne u .held := by intro i j; rw [hst]; exact h i j
  have hget := freeHeldMisfit_get u tm hu
  have hgeo := freeHeldMisfit_geo u tm
  generalize hv : u.freeHeldMisfit tm = v at hget hgeo
  have hvq : v.pq = u.pq := by rw [← hv]; unfold State.freeHeldMisfit; split <;> [split; skip] <;> rfl
  have hfit : ∀ e : Entry, v.entryFits tm e = ((s.st.get e.surface).geo.width == tm.w && (s.st.get e.surface).geo.height == tm.h) := by
    intro e; unfold State.entryFits; rw [hgeo, hst]; rfl
  have hmem : ∀ i : Fin 8, i ∈ (v.pq.queue.filter fun e => !v.entryFits tm e).map Entry.surface ↔
      misfit s tm i ∧ ∃ e ∈ s.pq.queue, e.surface = i := by
    intro i
    rw [hvq, hpq, List.mem_map]
    constructor
    · rintro ⟨e, he, rfl⟩
      rw [List.mem_filter, hfit] at he
      refine ⟨?_, e, he.1, rfl⟩
      unfold misfit
      have := he.2
      rw [Bool.not_eq_true', Bool.and_eq_false_iff] at this
      rintro ⟨h1, h2⟩
      simp [h1, h2] at this
    · rintro ⟨hm, e, he, rfl⟩
      refine ⟨e, ?_, rfl⟩
      rw [List.mem_filter, hfit]
      refine ⟨he, ?_⟩
      rw [Bool.not_eq_true', Bool.eq_false_iff]
      intro hc
      rw [Bool.and_eq_true, beq_iff_eq, beq_iff_eq] at hc
      exact hm hc
  have hmis : ∀ i, misfit s tm i ↔ (u.st.get i).geo.fits tm = false := by
    intro i; unfold misfit; rw [hst, Bool.eq_false_iff, Ne, fits_iff]
  have hlen : s.pq.queue.length - (fitting s tm).length = (v.pq.queue.filter fun e => !v.entryFits tm e).length := by
    have h1 := List.length_eq_length_filter_add (l := s.pq.queue) (f := v.entryFits tm)
    have h2 : fitting s tm = s.pq.queue.filter (v.entryFits tm) := by
      unfold fitting; congr 1; funext e; exact (hfit e).symm
    rw [h2, hvq, hpq]
    omega
  have hbtv : v.bt.wtt = s.bt.wtt ∧ v.bt.stall = s.bt.stall := by
    rw [← hv, ← hbt]; unfold State.freeHeldMisfit; split <;> [split; skip] <;> exact ⟨rfl, rfl⟩
  have hvf := State.freeHeldMisfit_frame (s := u) tm
  rw [hv] at hvf
  have hrv : v.rw = s.rw ∨ Dirtied s.rw v.rw := by
    rw [← hv, ← hrw]; unfold State.freeHeldMisfit; split <;> [split; skip] <;> [exact .inl rfl; exact .inr rfl; exact .inl rfl]
  have hrd : (∀ i, ¬ freedBy s tm i) → v.rw = s.rw := by
    intro hn
    rw [← hv, ← hrw]
    unfold State.freeHeldMisfit
    split
    · rename_i i hi
      split
      · rfl
      · rename_i hc
        have := State.held_some u hi
        exact absurd ⟨(hmis i).2 (by simpa using hc), .inl (by rw [← hst]; exact this)⟩ (hn i)
    · rfl
  have hbands : ∀ i, (v.dropMisfits tm).bt.bands.get i =
      if i ∈ (v.pq.queue.filter fun e => !v.entryFits tm e).map Entry.surface then Bands.cleared
      else v.bt.bands.get i := by
    intro i; unfold State.dropMisfits; exact foldl_dropSurface_bands _ _ i
  have hev : EventTimes .presentDropped (s.pq.queue.length - (fitting s tm).length) v.rw (v.dropMisfits tm).rw := by
    rw [hlen]
    have := eventTimes_dropSurface (v.pq.queue.filter fun e => !v.entryFits tm e) v.rw 0
      { v with pq := { v.pq with queue := v.pq.queue.filter (v.entryFits tm) } } (eventTimes_zero _ _)
    rw [Nat.zero_add] at this
    exact this
  have hw : (v.dropMisfits tm).bt.wtt = v.bt.wtt ∧ (v.dropMisfits tm).bt.stall = v.bt.stall := by
    unfold State.dropMisfits; exact foldl_dropSurface_wtt _ _
  have hst' := State.dropMisfits_st v tm
  have hpq' := State.dropMisfits_pq v tm
  have hf' := State.dropMisfits_frame v tm
  have hfq : v.pq.queue.filter (v.entryFits tm) = fitting s tm := by
    rw [hvq, hpq]; unfold fitting; congr 1; funext e; exact hfit e
  generalize v.dropMisfits tm = t at hbands hev hw hst' hpq' hf'
  refine ⟨?_, ?_, ?_, ?_, ⟨v.rw, hrv, ?_, hrd, hev⟩, ?_⟩
  · rw [hf'.2.2.1, hvf.2.2.2.1, ← hs]
  · rw [hf'.2.2.2.1, hvf.2.2.2.2.1, ← hs]; rfl
  · intro i
    have hg := hget i
    rw [hst' i, hbands i]
    refine ⟨fun hi => ?_, fun hi => ?_⟩
    · by_cases hD : i ∈ (v.pq.queue.filter fun e => !v.entryFits tm e).map Entry.surface
      · rw [if_pos hD, if_pos hD]
        refine ⟨?_, rfl⟩
        by_cases hh : (u.st.get i).state = .held ∧ (u.st.get i).geo.fits tm = false
        · rw [(hg.1 hh).1, hst]
        · rw [(hg.2 hh).1, hst]
      · rw [if_neg hD, if_neg hD]
        rw [hmem] at hD
        have hh : (u.st.get i).state = .held ∧ (u.st.get i).geo.fits tm = false := by
          refine ⟨?_, (hmis i).1 hi.1⟩
          rcases hi.2 with h1 | h1
          · rw [hst]; exact h1
          · exact absurd ⟨hi.1, h1⟩ hD
        rw [(hg.1 hh).1, (hg.1 hh).2, hst]
        exact ⟨rfl, rfl⟩
    · have hD : ¬ i ∈ (v.pq.queue.filter fun e => !v.entryFits tm e).map Entry.surface := by
        rw [hmem]; exact fun x => hi ⟨x.1, .inr x.2⟩
      have hh : ¬ ((u.st.get i).state = .held ∧ (u.st.get i).geo.fits tm = false) := by
        rintro ⟨h1, h2⟩; exact hi ⟨(hmis i).2 h2, .inl (by rw [← hst]; exact h1)⟩
      rw [if_neg hD, if_neg hD, (hg.2 hh).1, (hg.2 hh).2, hst, hbt]
      exact ⟨rfl, rfl⟩
  · rw [hpq', hfq, hvq, hpq]
  · rintro ⟨i, hi⟩
    by_cases hz : s.pq.queue.length - (fitting s tm).length = 0
    · rw [hev.1 hz]
      rw [hlen, List.length_eq_zero_iff] at hz
      have hD : ¬ i ∈ (v.pq.queue.filter fun e => !v.entryFits tm e).map Entry.surface := by rw [hz]; simp
      rw [hmem] at hD
      have hh : (s.st.get i).state = .held := by
        rcases hi.2 with h1 | h1
        · exact h1
        · exact absurd ⟨hi.1, h1⟩ hD
      rw [← hst] at hh
      rw [← hv]
      unfold State.freeHeldMisfit
      cases hx : u.held with
      | none => rw [State.held_none] at hx; exact absurd hh (hx i)
      | some j =>
        have hj := hu i j hh (State.held_some u hx)
        subst hj
        dsimp only
        rw [if_neg (by rw [(hmis i).1 hi.1]; simp)]
        rfl
    · exact (hev.2 (by omega)).2.2.2.1
  · obtain ⟨tc, cd, st, ⟨bands, wtt, stall⟩, pq, rtm, sf, po, rw', ma, pe, fr⟩ := t
    simp only at hw hf' ⊢
    rw [hf'.1, hf'.2.1, hf'.2.2.2.2.1, hf'.2.2.2.2.2.1, hf'.2.2.2.2.2.2.1, hf'.2.2.2.2.2.2.2, hw.1, hw.2, hbtv.1, hbtv.2,
      hvf.1, hvf.2.1, hvf.2.2.2.2.2.1, hvf.2.2.2.2.2.2.1, hvf.2.2.2.2.2.2.2.1, hvf.2.2.2.2.2.2.2.2, ← hs]

end Sys2Proof.Safety
end

