-- ==== Sys2Proof/Laws/Counter.lean ====
section
/-! SUPPORT. What each part of a boundary does to LC and to the mark of an ended line: a boundary counts LC once and
clears the mark, and nothing else changes either (R80, log 33). -/

namespace Sys2Proof.Safety

open Sys2Proof.Machine

/-- LC and the mark of an ended line. -/
def counter (s : State) : Line × Bool := (s.rtm.lc, s.rtm.ended)

theorem counter_decideBand (s : State) (k : FrameKind) (b : Nat) : counter (s.decideBand k b).2 = counter s := by
  unfold State.decideBand
  cases k <;> dsimp only
  split
  · rfl
  · split <;> rfl

theorem counter_fetchPoint (s : State) (c : FrameControl) (b : Nat) : counter (s.fetchPoint c b) = counter s :=
  counter_decideBand s c.decision b

theorem counter_fetchStart (s : State) (t : TimingSet) (c : FrameControl) (l : Nat) :
    counter (s.fetchStart t c l) = counter s := by
  unfold State.fetchStart; split <;> rfl

theorem counter_backLine (s : State) (t : TimingSet) (c : FrameControl) (n : Nat) : counter (s.backLine t c n) = counter s := by
  have h : counter (s.firstPoint t c n) = counter s := by
    unfold State.firstPoint; split
    · exact counter_fetchPoint ..
    · rfl
  unfold State.backLine; dsimp only; split
  · exact (counter_fetchStart ..).trans h
  · exact h

theorem counter_beginBackBlank (s : State) (t : TimingSet) (k : FrameKind) (src : Option (Fin 8)) (f : Nat)
    (b : Bool) (hb nb : Nat) :
    counter (s.beginBackBlank t k src f b hb nb) = (s.rtm.lc + 1, false) := by
  unfold State.beginBackBlank; dsimp only
  exact counter_backLine ..

theorem counter_takeEntry (s : State) (o : List Entry) (e : Entry) (n : List Entry) :
    counter (s.takeEntry o e n) = counter s := by
  have h := foldl_dropOlder_rtm o { s with pq := { s.pq with queue := n, lastTaken := e.number } }
  show counter (List.foldl State.dropOlder _ o) = _
  unfold counter; rw [h]

theorem counter_frontSelection (s u : State) (e : Entry) (h : s.frontSelection = some (e, u)) : counter u = counter s := by
  unfold State.frontSelection at h; split at h
  · cases h; exact counter_takeEntry ..
  · cases h

theorem counter_expire (s : State) (t : TimingSet) (f : Nat) : counter (s.expire t f) = (s.rtm.lc + 1, false) := by
  unfold State.expire; split <;> exact counter_beginBackBlank ..

theorem counter_beginNew (s : State) (t : TimingSet) (e : Entry) (f : Nat) (b : Bool) :
    counter (s.beginNew t e f b) = (s.rtm.lc + 1, false) := counter_beginBackBlank ..

theorem counter_freeScanning (s : State) : counter s.freeScanning = counter s := by
  unfold State.freeScanning; split <;> rfl

theorem counter_midActive (s : State) (c : FrameControl) (k : Nat) : counter (s.midActive c k) = counter s := by
  unfold State.midActive; split
  · rfl
  · split
    · rfl
    · rename_i h
      unfold State.splitSelection at h; split at h
      · cases h
        exact (counter_takeEntry ..).trans (counter_freeScanning s)
      · cases h

theorem counter_activeLine (s : State) (t : TimingSet) (c : FrameControl) (j : Nat) :
    counter (s.activeLine t c j) = counter s := by
  have h1 : counter (s.completeLag j) = counter s := by
    unfold State.completeLag; split
    · split <;> rfl
    · rfl
  have h2 : ∀ u : State, counter (u.decisionPoint c j) = counter u := by
    intro u; unfold State.decisionPoint; split
    · exact counter_midActive ..
    · rfl
  have h3 : ∀ u : State, counter (u.settingsAt j) = counter u := by
    intro u; unfold State.settingsAt State.waitingInForce; split
    · split <;> rfl
    · rfl
  have h4 : ∀ u : State, counter (u.lineDeadline t j) = counter u := by
    intro u
    show counter (List.foldl (fun s _ => State.lateBurst s) u _) = _
    unfold counter; rw [foldl_lateBurst_rtm]
  have h5 : ∀ (u : State) (d : FrameControl), counter (u.bandPoint d j) = counter u := by
    intro u d; unfold State.bandPoint; split
    · exact counter_fetchPoint ..
    · rfl
  unfold State.activeLine; dsimp only
  rw [counter_fetchStart, h5, h4, h3, h2, h1]

theorem counter_timingInForce (s : State) (t : TimingSet) : counter (s.timingInForce t) = counter s := by
  unfold State.timingInForce; simp [counter]

theorem counter_enterOff (s : State) : counter s.enterOff = (s.rtm.lc, false) := by
  unfold State.enterOff State.pendingInForce State.waitingInForce; dsimp only
  split <;> split <;> simp [counter, State.timingInForce]

theorem counter_enterFrontMin (s : State) : counter s.enterFrontMin = (s.rtm.lc + 1, false) := rfl

theorem counter_enterSettle (s : State) (t : TimingSet) : counter (s.enterSettle t) = (s.rtm.lc + 1, false) := by
  unfold State.enterSettle; split <;> rfl

/-- The steps of R91 before the next state is entered keep LC and the mark. -/
theorem counter_endFrame (s : State) : counter s.handRecord.settleSurfaces.endFrame = counter s := by
  simp [State.endFrame, counter, State.handRecord]

/-- What `begins` says (R80). -/
theorem begins_iff (r : RasterTimer) : r.begins = true ↔ r.raster ≠ .off ∧
    ¬ (r.raster = .active ∧ r.offPending = true ∧ ∃ t, r.timing = some t ∧ t.h ≤ r.pos + 1) := by
  unfold RasterTimer.begins
  cases r.raster <;> simp
  cases r.offPending <;> cases r.timing <;> simp

end Sys2Proof.Safety
end

