-- ==== Sys2Proof/Laws/Lines.lean ====
section
/-! SUPPORT. The beginning of lines, of front blanks and of frames meets what claims say of it. -/

namespace Sys2Proof.Safety

open Sys2Proof.Machine

/-! ## Blank lines (R80, R126, R128) -/

/-- The port's part of a blank line. -/
theorem blankSent_blankLine (kind : Token) (p : PixelPort) : BlankSent kind p (p.blankLine kind) := by
  unfold BlankSent PixelPort.blankLine
  cases p.state <;> cases kind <;> simp

/-- A boundary and the port's part are the beginning of a blank line. -/
theorem blankBegun_boundary (kind : Token) (raster : Raster) (pos : Nat) (s : State) :
    BlankBegun kind raster pos s ((s.boundary raster pos).sendBlank kind) :=
  ⟨rfl, blankSent_blankLine _ _, rfl⟩

theorem frontMinBegun_enterFrontMin (s : State) : FrontMinBegun s s.enterFrontMin :=
  ⟨_, blankBegun_boundary .front .frontMin 0 s, rfl⟩

theorem settleBegun_enterSettle (s : State) (tm : TimingSet) : SettleBegun tm s (s.enterSettle tm) := by
  unfold SettleBegun State.enterSettle
  refine ⟨fun h => ?_, fun h => ?_⟩
  · rw [if_neg (by omega)]; exact blankBegun_boundary _ _ _ _
  · rw [if_pos h]; exact ⟨_, eventTaken_raise _ _, rfl, frontMinBegun_enterFrontMin _⟩

/-- The entry into OFF is what claims say it is (R81, R92, R96, R102). -/
theorem enteredOff_enterOff (s : State) (h : AtMostOne s .held) : EnteredOff s s.enterOff := by
  refine ⟨_, State.pendingInForce
    { s with rtm := { s.rtm with raster := .off, pos := 0, ended := false, offPending := false, record := none
                                 frame := none, lag := none }
             po := { s.po with sent := .nothing, missed := false } }, rfl, ?_, ?_, ?_, ?_⟩
  · intro hp; unfold State.pendingInForce; dsimp only; rw [hp]
  · intro tm hp; unfold State.pendingInForce; dsimp only; rw [hp]; exact timingInForce_timingInForce _ tm h
  · intro hw; unfold State.enterOff State.waitingInForce; dsimp only; rw [hw]
  · intro f hw; unfold State.enterOff State.waitingInForce; dsimp only; rw [hw]; exact fetchInForce_fetchInForce _ f

/-! ## Fetch points and fetch starts (R46, R105, R106) -/

theorem pointTaken_fetchPoint (s : State) (c : FrameControl) (b : Nat) : PointTaken c b s (s.fetchPoint c b) := rfl

theorem lineFetched_fetchStart (s : State) (tm : TimingSet) (c : FrameControl) (l : Nat) :
    LineFetched tm c l s (s.fetchStart tm c l) := by
  unfold LineFetched State.fetchStart
  refine ⟨fun h => if_neg (by omega), fun h => ⟨slotOf tm.w l (s.sf.sourceAt (l / c.hb)), ?_, ?_, ?_, ?_, if_pos h⟩⟩
  · unfold slotOf; split <;> rfl
  · unfold slotOf Fetcher.sourceAt; split <;> simp_all
  · unfold slotOf; split <;> simp
  · intro src
    unfold slotOf
    split
    · simp
    · intro hs
      cases hs
      show List.replicate (burstCount src.format tm.w) Burst.notIssued = _
      unfold burstCount ceilDiv burstBytes
      cases src.format <;> rfl

/-- The port's part of a blank line commutes with a fetch point of it. -/
theorem fetchPoint_sendBlank (s : State) (c : FrameControl) (b : Nat) (kind : Token) :
    (s.fetchPoint c b).sendBlank kind = (s.sendBlank kind).fetchPoint c b := by
  have hp : ∀ p : PixelPort, ({ p with missed := true } : PixelPort).blankLine kind =
      { p.blankLine kind with missed := true } := by
    intro p; unfold PixelPort.blankLine; cases p.state <;> cases kind <;> rfl
  unfold State.fetchPoint State.decideBand
  cases c.decision with
  | repeated => rfl
  | fill => rfl
  | new =>
    dsimp only
    have h1 : (s.sendBlank kind).scanning = s.scanning := rfl
    rw [h1]
    cases s.scanning with
    | none => rfl
    | some i =>
      dsimp only
      have h2 : (s.sendBlank kind).bt = s.bt := rfl
      rw [h2]
      have key : ∀ r, (match r with
        | Release.ready => (s.sourceOf i, s.scanBand i b)
        | Release.opened | Release.draining => (s.heldSource, s.missBand i b)) = (if r = .ready then (s.sourceOf i, s.scanBand i b) else (s.heldSource, s.missBand i b)) := by
        intro r; cases r <;> rfl
      generalize hr : (s.bt.band i (bandNumber b)).status = r
      cases r
      all_goals (simp only [State.missBand, State.scanBand, State.sendBlank, State.onRecord, State.raise, hp]; rfl)

theorem fetchStart_sendBlank (s : State) (tm : TimingSet) (c : FrameControl) (l : Nat) (kind : Token) :
    (s.fetchStart tm c l).sendBlank kind = (s.sendBlank kind).fetchStart tm c l := by
  unfold State.fetchStart; split <;> rfl

/-- A BACK_BLANK line's own steps (R88, R104). -/
theorem backLine_steps (s : State) (tm : TimingSet) (c : FrameControl) (n : Nat) :
    let t := (s.backLine tm c n).sendBlank .back
    let v := s.sendBlank .back
    (n < tm.s - c.lead → t = v) ∧
    (n = tm.s - c.lead → ∃ x, PointTaken c 0 v x ∧ LineFetched tm c 0 x t) ∧
    (tm.s - c.lead < n → LineFetched tm c (n - (tm.s - c.lead)) v t) := by
  dsimp only
  unfold State.backLine State.firstPoint firstPointLine
  dsimp only
  refine ⟨fun h => ?_, fun h => ?_, fun h => ?_⟩
  · rw [if_neg (by omega), if_neg (by omega)]
  · rw [if_pos (by omega), if_pos h, fetchStart_sendBlank, fetchPoint_sendBlank]
    refine ⟨_, pointTaken_fetchPoint _ _ _, ?_⟩
    rw [h, Nat.sub_self]
    exact lineFetched_fetchStart _ _ _ _
  · rw [if_pos (by omega), if_neg (by omega), fetchStart_sendBlank]
    exact lineFetched_fetchStart _ _ _ _

/-! ## The end of a front blank (R84 to R88, R104) -/

theorem backBlankBegun_beginBackBlank (s : State) (tm : TimingSet) (kind : FrameKind) (source : Option (Fin 8))
    (front : Nat) (skipped : Bool) (hb nb : Nat) :
    BackBlankBegun tm { decision := kind, hb := hb, nb := nb, lead := s.sf.inForce.lead } source front skipped s
      (s.beginBackBlank tm kind source front skipped hb nb) := by
  have h := backLine_steps
    (let u := s.boundary .backBlank 0
     { u with
       rtm := { u.rtm with
         record := u.rtm.record.map fun r =>
           { r with kind := some kind, source := source, front := front, skipped := skipped }
         frame := some { decision := kind, hb := hb, nb := nb, lead := s.sf.inForce.lead } }
       sf := { u.sf with sources := List.replicate nb none } })
    tm { decision := kind, hb := hb, nb := nb, lead := s.sf.inForce.lead } 0
  exact ⟨_, _, blankBegun_boundary .back .backBlank 0 s, rfl, h.1, fun h0 => h.2.1 h0.symm⟩

theorem newBegun_beginNew (s : State) (tm : TimingSet) (older : List Entry) (e : Entry) (newer : List Entry)
    (front : Nat) (skipped : Bool) :
    NewBegun tm older e newer front skipped s ((s.takeEntry older e newer).beginNew tm e front skipped) := by
  have ht := entryTaken_takeEntry s older e newer
  have hsf : (s.takeEntry older e newer).sf = s.sf := (State.takeEntry_frame ..).2.2.1
  have hg : ((s.takeEntry older e newer).st.get e.surface).geo = (s.st.get e.surface).geo := by
    rw [ht.2.1 e.surface]
  refine ⟨_, _, ht, rfl, ?_⟩
  have := backBlankBegun_beginBackBlank ({ s.takeEntry older e newer with rtm := { (s.takeEntry older e newer).rtm with
    lag := some { arrival := e.arrival, line := 0 } } }) tm .new (some e.surface) front skipped
    ((s.takeEntry older e newer).st.get e.surface).geo.hb ((s.takeEntry older e newer).st.get e.surface).geo.nb
  have hl : s.sf.inForce.lead = (s.takeEntry older e newer).sf.inForce.lead := by rw [hsf]
  rw [hl, ← hg]
  exact this

theorem fillGrid_eq {h : Nat} (hh : h ≤ 2160) : fillGrid h = if h ≤ 2048 then 16 else 32 := by
  unfold fillGrid
  simp only [raiseBandHeight]
  by_cases h2 : h ≤ 2048
  · rw [if_pos h2, if_pos (by unfold ceilDiv Config.maxBands; omega)]
  · rw [if_neg h2, if_neg (by unfold ceilDiv Config.maxBands; omega), if_pos (by unfold ceilDiv Config.maxBands; omega)]

theorem expired_expire (s : State) (tm : TimingSet) (front : Nat) (h : AtMostOne s .held) (hh : tm.h ≤ 2160) :
    Expired tm front s (s.expire tm front) := by
  unfold Expired State.expire
  cases hs : s.held with
  | none =>
    rw [State.held_none] at hs
    refine ⟨fun i hi => absurd hi (hs i), fun _ => ⟨s.raise .fillFrame, eventTaken_raise s.rw .fillFrame, rfl, ?_⟩⟩
    dsimp only
    rw [fillGrid_eq hh]
    exact backBlankBegun_beginBackBlank (s.raise .fillFrame) tm .fill none front false _ _
  | some i =>
    have hi := State.held_some s hs
    refine ⟨fun j hj => ⟨s.raise .repeated, eventTaken_raise s.rw .repeated, rfl, ?_⟩, fun hn => absurd hi (hn i)⟩
    have := h j i hj hi
    subst this
    exact backBlankBegun_beginBackBlank (s.raise .repeated) tm .repeated (some j) front false _ _

/-! ## Active lines and the end of a frame (R14, R115 to R117, R125) -/

theorem runs_get (n : Nat) : ∀ (k : Nat) (line : List Pixel) (i : Nat) (x : List Pixel), (runs n k line)[i]? = some x →
    x = (line.drop (n * i)).take n := by
  intro k
  induction k with
  | zero => intro line i x h; simp [runs] at h
  | succ k ih =>
    intro line i x h
    cases i with
    | zero => simp [runs] at h; simp [h]
    | succ i =>
      simp [runs] at h
      rw [ih _ _ _ h, List.drop_drop, Nat.mul_succ, Nat.add_comm]

theorem runs_length (n : Nat) : ∀ (k : Nat) (line : List Pixel), (runs n k line).length = k := by
  intro k
  induction k with
  | zero => intro line; rfl
  | succ k ih => intro line; simp [runs, ih]

/-- The transfers of a line (R125). -/
theorem transferred_lineTransfers (ppt n : Nat) (line : List Pixel) :
    Transferred ppt n line (lineTransfers ppt n line) := by
  unfold Transferred lineTransfers
  refine ⟨by simp [runs_length], ?_⟩
  intro i x h
  rw [List.getElem?_map, Option.map_eq_some_iff] at h
  obtain ⟨y, hy, rfl⟩ := h
  rw [List.getElem?_zipIdx, Option.map_eq_some_iff] at hy
  obtain ⟨z, hz, rfl⟩ := hy
  refine ⟨runs_get _ _ _ _ _ hz, ?_⟩
  simp

/-- The deadline and hand-over of a line are what claims say they are (R115 to R117). -/
theorem lineHanded_lineDeadline (s : State) (tm : TimingSet) (n : Nat) : LineHanded tm n s (s.lineDeadline tm n) := by
  intro slot rest hb
  have hh : headSlot n s.sf.buffer = (slot, rest) := by rw [hb]; rfl
  unfold State.lineDeadline
  rw [hh]
  dsimp only
  unfold State.handOver
  dsimp only
  have hf := foldl_lateBurst_frame (s := s) (slot.bursts.filter Burst.late)
  have hr := foldl_lateBurst_rtm (slot.bursts.filter Burst.late) s
  have he := eventTimes_lateBurst (slot.bursts.filter Burst.late) s.rw 0 s (eventTimes_zero _ _)
  have hl : (slot.bursts.filter Burst.late).length = slot.bursts.countP lateAtDeadline := by
    rw [← List.countP_eq_length_filter]
    congr 1
    funext b
    cases b <;> simp [Burst.late, lateAtDeadline]
  rw [hl] at hr he
  rw [Nat.zero_add] at he
  generalize (slot.bursts.filter Burst.late).foldl (fun s _ => s.lateBurst) s = t at *
  obtain ⟨f1, f2, f3, f4, f5, f6, f7, f8, f9, f10⟩ := hf
  have hpo : ∀ (p : PixelPort) (line : List Pixel), p.activeLine n line = { p with sent := (p.activeLine n line).sent } ∧
      (p.state ≠ .sending → (p.activeLine n line).sent = .nothing) ∧
      (p.state = .sending → (p.activeLine n line).sent = .active (lineTransfers p.ppt n line)) := by
    intro p line
    unfold PixelPort.activeLine
    cases p.state <;> simp
  rw [f6, f7]
  refine ⟨rfl, ?_, hr, he, (hpo _ _).1, (hpo _ _).2.1, ?_, ?_⟩
  · intro m
    simp only [Table.get_map]
    cases s.sf.reads.get m with
    | none => rfl
    | some e =>
      obtain ⟨l, b, x⟩ := e
      cases x <;> by_cases hl : l = n <;> simp [discardLine, hl]
  · intro hp
    exact ⟨_, (hpo _ _).2.2 hp, transferred_lineTransfers _ _ _⟩
  · rw [f1, f2, f3, f4, f5, f8, f9, f10]

/-- The beginning of an active line is what claims say it is (R117). -/
theorem lineBegun_activeLine (s : State) (tm : TimingSet) (c : FrameControl) (n : Nat)
    (h : AtMostOne s .scanning) (hc : s.rtm.frame = some c) (hb : 0 < c.hb) :
    LineBegun tm c n s (s.activeLine tm c n) := by
  have hpt : ∀ k, c.bandAt n = some k ↔ AtPoint c n k := by
    intro k
    unfold FrameControl.bandAt AtPoint
    dsimp only
    constructor
    · intro h
      split at h
      · rename_i h'
        cases h
        refine ⟨?_, h'.2.1, h'.2.2⟩
        have := Nat.div_add_mod (n + c.lead) c.hb
        rw [h'.1, Nat.add_zero, Nat.mul_comm] at this
        exact this
      · cases h
    · rintro ⟨h1, h2, h3⟩
      have h4 : (n + c.lead) / c.hb = k := by rw [← h1]; exact Nat.mul_div_cancel _ hb
      rw [h4, if_pos ⟨by rw [← h1]; exact Nat.mul_mod_left _ _, h2, h3⟩]
  have hnone : c.bandAt n = none ↔ ∀ k, ¬ AtPoint c n k := by
    constructor
    · intro h k hk; rw [(hpt k).2 hk] at h; cases h
    · intro h
      cases hx : c.bandAt n with
      | none => rfl
      | some k => exact absurd ((hpt k).1 hx) (h k)
  have hlag : LagCompleted n s (s.completeLag n) ∧ (s.completeLag n).st = s.st ∧ (s.completeLag n).rtm.frame = s.rtm.frame := by
    unfold LagCompleted State.completeLag
    cases hl : s.rtm.lag with
    | none => simp
    | some p =>
      dsimp only
      by_cases hpn : p.line = n
      · rw [if_pos hpn]
        refine ⟨⟨?_, ?_⟩, rfl, rfl⟩
        · rintro q hq -; cases hq; rfl
        · intro hx; exact absurd hpn (hx p rfl)
      · rw [if_neg hpn]
        refine ⟨⟨?_, fun _ => rfl⟩, rfl, rfl⟩
        rintro q hq hqn; cases hq; exact absurd hqn hpn
  generalize hu : s.completeLag n = u at hlag
  obtain ⟨hlag, hst, hfr⟩ := hlag
  have hau : AtMostOne u .scanning := by intro i j; rw [hst]; exact h i j
  have hfu : u.rtm.frame = some c := by rw [hfr, hc]
  have hdec : (∀ k, AtPoint c n k → PointDecided c k u (u.decisionPoint c n)) ∧ ((∀ k, ¬ AtPoint c n k) → u.decisionPoint c n = u) ∧
      ∃ d, (u.decisionPoint c n).rtm.frame = some d ∧ d.hb = c.hb ∧ d.lead = c.lead ∧ d.nb = c.nb := by
    unfold State.decisionPoint
    cases hx : c.bandAt n with
    | none =>
      have := hnone.1 hx
      exact ⟨fun k hk => absurd hk (this k), fun _ => rfl, c, hfu, rfl, rfl, rfl⟩
    | some k =>
      have hk := (hpt k).1 hx
      refine ⟨fun k' hk' => ?_, fun hn => absurd hk (hn k), ?_⟩
      · have : k' = k := by have := (hpt k').2 hk'; rw [hx] at this; cases this; rfl
        subst this
        dsimp only
        unfold PointDecided State.midActive State.cut
        have hcut : (u.rtm.record.elim false WorkingRecord.cut) = true ↔ ∃ w, u.rtm.record = some w ∧ w.cut = true := by
          cases u.rtm.record <;> simp
        refine ⟨fun hc => by rw [if_pos (hcut.2 hc)], fun hc hn => ?_, fun hc o e m hch => ?_⟩
        · rw [if_neg (fun x => hc (hcut.1 x)), splitSelection_noneChosen u hn]
        · rw [if_neg (fun x => hc (hcut.1 x)), splitSelection_chosen u hch]
          exact ⟨_, _, scanningFreed_freeScanning u hau, entryTaken_takeEntry _ _ _ _, rfl⟩
      · dsimp only
        unfold State.midActive
        split
        · exact ⟨c, hfu, rfl, rfl, rfl⟩
        · split
          · exact ⟨c, hfu, rfl, rfl, rfl⟩
          · exact ⟨_, rfl, rfl, rfl, rfl⟩
  obtain ⟨hd1, hd2, d, hd3, hd4, hd5, hd6⟩ := hdec
  unfold State.activeLine
  dsimp only
  rw [hu]
  have hxs : ((u.decisionPoint c n).settingsAt n).rtm = (u.decisionPoint c n).rtm := by
    unfold State.settingsAt State.waitingInForce; split
    · split <;> rfl
    · rfl
  have hff : (((u.decisionPoint c n).settingsAt n).lineDeadline tm n).rtm.frame = some d := by
    unfold State.lineDeadline State.handOver
    dsimp only
    rw [foldl_lateBurst_rtm, hxs]
    exact hd3
  have hgd : (((u.decisionPoint c n).settingsAt n).lineDeadline tm n).rtm.frame.getD c = d := by rw [hff]; rfl
  rw [hgd]
  have hba : d.bandAt n = c.bandAt n := by unfold FrameControl.bandAt; rw [hd4, hd5, hd6]
  have hlf : ∀ a : State, a.fetchStart tm d (n + d.lead) = a.fetchStart tm c (n + c.lead) := by
    intro a; unfold State.fetchStart; rw [hd4, hd5]
  rw [hlf]
  refine ⟨u, u.decisionPoint c n, (u.decisionPoint c n).settingsAt n, ((u.decisionPoint c n).settingsAt n).lineDeadline tm n, d, hlag, hd1, hd2, hd3, ?_, ?_, lineHanded_lineDeadline _ _ _, ?_, ?_⟩
  · intro h0
    subst h0
    unfold State.settingsAt State.waitingInForce
    rw [if_pos rfl]
    refine ⟨fun hw => by rw [hw], fun f hw => ?_⟩
    rw [hw]; exact fetchInForce_fetchInForce _ _
  · intro h0; unfold State.settingsAt; rw [if_neg h0]
  · intro k hk
    refine ⟨_, pointTaken_fetchPoint _ d k, ?_⟩
    unfold State.bandPoint
    rw [hba, (hpt k).2 hk]
    exact lineFetched_fetchStart _ _ _ _
  · intro hn
    unfold State.bandPoint
    rw [hba, hnone.2 hn]
    exact lineFetched_fetchStart _ _ _ _

/-- The settling of the surfaces is what claims say it is, and leaves at most one HELD (R8, R14). -/
theorem settled_settleSurfaces (s : State) (h1 : AtMostOne s .scanning) (h2 : AtMostOne s .held) : Settled s s.settleSurfaces ∧ AtMostOne s.settleSurfaces .held := by
  unfold State.settleSurfaces
  cases hs : s.scanning with
  | none =>
    rw [State.scanning_none] at hs
    refine ⟨⟨fun i => ⟨fun hi => absurd hi (hs i), fun ⟨j, hj⟩ => absurd hj (hs j), fun _ _ => ⟨rfl, rfl⟩⟩, .inl rfl, rfl⟩, h2⟩
  | some i =>
    have hi := State.scanning_some s hs
    dsimp only
    cases hh : s.held with
    | none =>
      rw [State.held_none] at hh
      refine ⟨⟨fun j => ⟨fun hj => ?_, fun _ hj => absurd hj (hh j), fun hj _ => ?_⟩, .inr rfl, rfl⟩, ?_⟩
      · have := h1 j i hj hi; subst this
        simp [State.setSurface]
      · have : j ≠ i := by rintro rfl; exact hj hi
        simp [State.setSurface, Table.get_modify, this]
      · intro a b
        simp only [State.setSurface, Table.get_modify]
        intro ha hb
        by_cases hai : a = i
        · by_cases hbi : b = i
          · rw [hai, hbi]
          · rw [if_neg hbi] at hb; exact absurd hb (hh b)
        · rw [if_neg hai] at ha; exact absurd ha (hh a)
    | some k =>
      have hk := State.held_some s hh
      have hik : k ≠ i := by rintro rfl; rw [hi] at hk; cases hk
      refine ⟨⟨fun j => ⟨fun hj => ?_, fun _ hj => ?_, fun hj hj2 => ?_⟩, .inr rfl, rfl⟩, ?_⟩
      · have := h1 j i hj hi; subst this
        have hne : j ≠ k := fun x => hik x.symm
        simp [State.setSurface, State.freeSurface, State.clearBands, Table.get_modify, Table.get_set, hne]
      · have := h2 j k hj hk; subst this
        simp [State.setSurface, State.freeSurface, State.clearBands, Table.get_modify, hik]
      · have hji : j ≠ i := by rintro rfl; exact hj hi
        have hjk : j ≠ k := by
          rintro rfl
          rcases hj2 with hj2 | hj2
          · exact hj2 hk
          · exact hj2 ⟨i, hi⟩
        simp [State.setSurface, State.freeSurface, State.clearBands, Table.get_modify, Table.get_set, hji, hjk]
      · intro a b
        simp only [State.setSurface, State.freeSurface, State.clearBands, Table.get_modify]
        intro ha hb
        have e1 : a = i := by
          by_contra hai
          rw [if_neg hai] at ha
          by_cases hak : a = k
          · subst hak; simp at ha
          · simp [hak] at ha; exact hak (h2 a k ha hk)
        have e2 : b = i := by
          by_contra hbi
          rw [if_neg hbi] at hb
          by_cases hbk : b = k
          · subst hbk; simp at hb
          · simp [hbk] at hb; exact hbk (h2 b k hb hk)
        rw [e1, e2]

end Sys2Proof.Safety
end

