-- ==== Sys2Proof/Laws/PerInstr.lean ====
section
/-! SUPPORT. One law for each command of the table: a lane command's word has its code in bits 63..56, on the lane
that code belongs to (R161, R162, R191); the family is named in LAWS.json. -/

namespace Sys2Proof.Laws.Beats

/-- The word of a lane command is well placed: its code field is a code of the lane it is written to, or, for
UNKNOWN and WRONG_LANE, a code of no lane or of another. A command without a word says nothing. -/
def Statement (i : Instr) : Prop :=
  i.wf = true → ∀ lane w, encodeLane i = some (lane, w) →
    match i with
    | .unknown _ _ => codeLane (w.extractLsb' 56 8) = none
    | .wrongLane _ _ => codeLane (w.extractLsb' 56 8) ≠ none ∧ codeLane (w.extractLsb' 56 8) ≠ some lane
    | _ => codeLane (w.extractLsb' 56 8) = some lane

/-- The code field of a command word is its code (R191). -/
theorem code_of (code id : BitVec 8) (a b c : BitVec 16) : (commandWord code id a b c).extractLsb' 56 8 = code := by
  apply BitVec.eq_of_getLsbD_eq
  intro i hi
  simp only [commandWord, BitVec.getLsbD_extractLsb', BitVec.getLsbD_append, hi, decide_true, Bool.true_and]
  have h₁ : ¬ 56 + i < 16 := by omega
  have h₂ : ¬ 56 + i - 16 < 16 := by omega
  have h₃ : ¬ 56 + i - 16 - 16 < 16 := by omega
  have h₄ : ¬ 56 + i - 16 - 16 - 16 < 8 := by omega
  have h₅ : 56 + i - 16 - 16 - 16 - 8 = i := by omega
  simp [h₁, h₂, h₃, h₄, h₅]

theorem powerOnReset (w : BitVec 4) (l : Bool) (c : Bool) : Statement (.powerOnReset w l c) := by
  intro _ _ _ h
  simp [encodeLane] at h

theorem linkReset : Statement .linkReset := by
  intro _ _ _ h
  simp [encodeLane] at h

theorem crstRelease : Statement .crstRelease := by
  intro _ _ _ h
  simp [encodeLane] at h

theorem linkUpChange (l : Bool) (n : Nat) : Statement (.linkUpChange l n) := by
  intro _ _ _ h
  simp [encodeLane] at h

theorem requestAccept (r : Option Request) : Statement (.requestAccept r) := by
  intro _ _ _ h
  simp [encodeLane] at h

theorem openFrame (id : BitVec 8) : Statement (.openFrame id) := by
  intro _ lane w h
  simp only [encodeLane, Option.some.injEq, Prod.mk.injEq] at h
  obtain ⟨rfl, rfl⟩ := h
  simp only [code_of]
  decide

theorem release (id : BitVec 8) (a : BitVec 16) (b : BitVec 16) : Statement (.release id a b) := by
  intro _ lane w h
  simp only [encodeLane, Option.some.injEq, Prod.mk.injEq] at h
  obtain ⟨rfl, rfl⟩ := h
  simp only [code_of]
  decide

theorem abandon (id : BitVec 8) : Statement (.abandon id) := by
  intro _ lane w h
  simp only [encodeLane, Option.some.injEq, Prod.mk.injEq] at h
  obtain ⟨rfl, rfl⟩ := h
  simp only [code_of]
  decide

theorem present (id : BitVec 8) (a : BitVec 16) (b : BitVec 16) : Statement (.present id a b) := by
  intro _ lane w h
  simp only [encodeLane, Option.some.injEq, Prod.mk.injEq] at h
  obtain ⟨rfl, rfl⟩ := h
  simp only [code_of]
  decide

theorem withdraw (id : BitVec 8) : Statement (.withdraw id) := by
  intro _ lane w h
  simp only [encodeLane, Option.some.injEq, Prod.mk.injEq] at h
  obtain ⟨rfl, rfl⟩ := h
  simp only [code_of]
  decide

theorem commitSurface (e : BitVec 16) : Statement (.commitSurface e) := by
  intro _ lane w h
  simp only [encodeLane, Option.some.injEq, Prod.mk.injEq] at h
  obtain ⟨rfl, rfl⟩ := h
  simp only [code_of]
  decide

theorem commitTiming (e : BitVec 16) : Statement (.commitTiming e) := by
  intro _ lane w h
  simp only [encodeLane, Option.some.injEq, Prod.mk.injEq] at h
  obtain ⟨rfl, rfl⟩ := h
  simp only [code_of]
  decide

theorem commitFetch (e : BitVec 16) : Statement (.commitFetch e) := by
  intro _ lane w h
  simp only [encodeLane, Option.some.injEq, Prod.mk.injEq] at h
  obtain ⟨rfl, rfl⟩ := h
  simp only [code_of]
  decide

theorem commitNotice (e : BitVec 16) : Statement (.commitNotice e) := by
  intro _ lane w h
  simp only [encodeLane, Option.some.injEq, Prod.mk.injEq] at h
  obtain ⟨rfl, rfl⟩ := h
  simp only [code_of]
  decide

theorem commitMarker (e : BitVec 16) : Statement (.commitMarker e) := by
  intro _ lane w h
  simp only [encodeLane, Option.some.injEq, Prod.mk.injEq] at h
  obtain ⟨rfl, rfl⟩ := h
  simp only [code_of]
  decide

theorem commitReport (e : BitVec 16) : Statement (.commitReport e) := by
  intro _ lane w h
  simp only [encodeLane, Option.some.injEq, Prod.mk.injEq] at h
  obtain ⟨rfl, rfl⟩ := h
  simp only [code_of]
  decide

theorem outputOn : Statement .outputOn := by
  intro _ lane w h
  simp only [encodeLane, Option.some.injEq, Prod.mk.injEq] at h
  obtain ⟨rfl, rfl⟩ := h
  simp only [code_of]
  decide

theorem outputOff : Statement .outputOff := by
  intro _ lane w h
  simp only [encodeLane, Option.some.injEq, Prod.mk.injEq] at h
  obtain ⟨rfl, rfl⟩ := h
  simp only [code_of]
  decide

theorem clearEvents (b : BitVec 16) (c : BitVec 16) : Statement (.clearEvents b c) := by
  intro _ lane w h
  simp only [encodeLane, Option.some.injEq, Prod.mk.injEq] at h
  obtain ⟨rfl, rfl⟩ := h
  simp only [code_of]
  decide

theorem viewSelect (a : BitVec 16) : Statement (.viewSelect a) := by
  intro _ lane w h
  simp only [encodeLane, Option.some.injEq, Prod.mk.injEq] at h
  obtain ⟨rfl, rfl⟩ := h
  simp only [code_of]
  decide

theorem softReset : Statement .softReset := by
  intro _ lane w h
  simp only [encodeLane, Option.some.injEq, Prod.mk.injEq] at h
  obtain ⟨rfl, rfl⟩ := h
  simp only [code_of]
  decide

theorem unknown (l : Lane) (c : BitVec 8) : Statement (.unknown l c) := by
  intro hw lane w h
  simp only [encodeLane, Option.some.injEq, Prod.mk.injEq] at h
  obtain ⟨rfl, rfl⟩ := h
  simpa [code_of, Instr.wf] using hw

theorem wrongLane (l : Lane) (c : BitVec 8) : Statement (.wrongLane l c) := by
  intro hw lane w h
  simp only [encodeLane, Option.some.injEq, Prod.mk.injEq] at h
  obtain ⟨rfl, rfl⟩ := h
  simpa [code_of, Instr.wf] using hw

theorem tableIndex (v : BitVec 64) : Statement (.tableIndex v) := by
  intro _ _ _ h
  simp [encodeLane] at h

theorem tableData (v : BitVec 64) : Statement (.tableData v) := by
  intro _ _ _ h
  simp [encodeLane] at h

theorem reportNow (v : BitVec 64) : Statement (.reportNow v) := by
  intro _ _ _ h
  simp [encodeLane] at h

theorem misplacedWrite : Statement .misplacedWrite := by
  intro _ _ _ h
  simp [encodeLane] at h

theorem consoleResponse (t : Fin 256) (k : RespKind) (x : Status) (d : List (BitVec 64)) : Statement (.consoleResponse t k x d) := by
  intro _ _ _ h
  simp [encodeLane] at h

theorem fetchResponse (n : Fin 64) (k : RespKind) (x : Status) (d : List (BitVec 64)) : Statement (.fetchResponse n k x d) := by
  intro _ _ _ h
  simp [encodeLane] at h

theorem reportAck (n : Fin 16) (x : Status) : Statement (.reportAck n x) := by
  intro _ _ _ h
  simp [encodeLane] at h

theorem strayResponse (t : Fin 512) (k : RespKind) (x : Status) : Statement (.strayResponse t k x) := by
  intro _ _ _ h
  simp [encodeLane] at h

theorem grant : Statement .grant := by
  intro _ _ _ h
  simp [encodeLane] at h

theorem channelFree : Statement .channelFree := by
  intro _ _ _ h
  simp [encodeLane] at h

theorem statusWriteBegin : Statement .statusWriteBegin := by
  intro _ _ _ h
  simp [encodeLane] at h

theorem lineBoundary : Statement .lineBoundary := by
  intro _ _ _ h
  simp [encodeLane] at h

theorem settleDone : Statement .settleDone := by
  intro _ _ _ h
  simp [encodeLane] at h

theorem frontMinEnd : Statement .frontMinEnd := by
  intro _ _ _ h
  simp [encodeLane] at h

theorem stretchBoundary : Statement .stretchBoundary := by
  intro _ _ _ h
  simp [encodeLane] at h

theorem stretchExpiry : Statement .stretchExpiry := by
  intro _ _ _ h
  simp [encodeLane] at h

theorem activeStart : Statement .activeStart := by
  intro _ _ _ h
  simp [encodeLane] at h

theorem activeLine : Statement .activeLine := by
  intro _ _ _ h
  simp [encodeLane] at h

theorem endOfActive : Statement .endOfActive := by
  intro _ _ _ h
  simp [encodeLane] at h

end Sys2Proof.Laws.Beats
end

