-- ==== Sys2Proof/Laws/Requests.lean ====
section
/-! SUPPORT. The console's requests and the claims on the M-port meet what claims say of them. -/

namespace Sys2Proof.Safety

open Sys2Proof.Machine

/-- The extent of a surface in use holds an address (R2, R139). -/
theorem holds_iff_inExtent (s : State) (i : Fin 8) (a : Addr) :
    ((s.st.get i).geo.holds a && (s.st.get i).state != .free) = true ↔ InExtent s i a := by
  simp only [Geometry.holds, Bool.and_eq_true, decide_eq_true_eq, bne_iff_ne]
  unfold Geometry.extentEnd InExtent
  tauto

/-- The surface whose extent holds an address, where one does (R139). -/
theorem surfaceAt_unique (s : State) (a : Addr) (i : Fin 8) (h : InExtent s i a) (hu : ∀ j, InExtent s j a → j = i) :
    s.surfaceAt a = some i :=
  Table.find_unique ((holds_iff_inExtent s i a).2 h) fun j hj => hu j ((holds_iff_inExtent s j a).1 hj)

/-- No surface in use holds the address. -/
theorem surfaceAt_none (s : State) (a : Addr) (h : ∀ i, ¬ InExtent s i a) : s.surfaceAt a = none := by
  unfold State.surfaceAt
  rw [Table.find_none]
  intro i
  rw [Bool.eq_false_iff]
  exact fun x => h i ((holds_iff_inExtent s i a).1 x)

/-- The command page holds an address (R154). -/
theorem inCommandPage_iff (s : State) (a : Nat) : inCommandPage s.cd.wsel a = true ↔ InPage s a := by
  simp only [inCommandPage, Bool.and_eq_true, decide_eq_true_eq]
  rfl

/-- Conditions 1 to 3 of R138. -/
theorem admits_iff (s : State) (r : Request) : s.admits r = true ↔ Admitted s r := by
  simp only [State.admits, Bool.and_eq_true, decide_eq_true_eq, beq_iff_eq, Bool.not_eq_true']
  unfold Admitted Config.forwardSize
  tauto

/-- The 4 KiB rule (R135). -/
theorem crosses_iff (r : Request) : crosses r.addr.toNat r.beats = true ↔ Crossing r := by
  simp [crosses, Crossing]

/-- An outstanding tag (R137). -/
theorem outstanding_iff (s : State) (tag : Fin 256) : s.tc.outstanding tag = true ↔ Outstanding s tag := by
  simp [Classifier.outstanding, Outstanding]

/-- The burst and tag checks of an acceptance (R138 to R140). -/
theorem checked_checks (r : Request) (reuse : Bool) (P : Prop) (hP : reuse = true ↔ P) (s : State) :
   Checked r P s
     (let s := if crosses r.addr.toNat r.beats then s.linkProtocol .crossing r.tag.val else s
      if reuse then s.linkProtocol .tagReuse r.tag.val else s) := by
  refine ⟨if crosses r.addr.toNat r.beats then s.linkProtocol .crossing r.tag.val else s, ?_, ?_, ?_, ?_⟩
  · intro h; rw [if_pos ((crosses_iff r).2 h)]; exact linkFaulted_linkProtocol _ _ _
  · intro h; rw [if_neg (fun x => h ((crosses_iff r).1 x))]
  · intro h; dsimp only; rw [if_pos (hP.2 h)]; exact linkFaulted_linkProtocol _ _ _
  · intro h; dsimp only; rw [if_neg (fun x => h (hP.1 x))]

/-- Steps 4 and 5 of an acceptance (R138). -/
theorem forwarded_append (r : Request) (u : State) : Forwarded r u
  { u with tc := { u.tc with forward := u.tc.forward ++ [r]
                             tags := u.tc.tags.modify r.tag fun c => { c with queued := c.queued + 1 } } } := by
  refine ⟨rfl, ?_⟩
  intro tag
  simp only [Table.get_modify]

/-- The acceptance of a request: its checks, its action, its forwarding (R138). -/
theorem accept_checked (s : State) (q : List Request) (r : Request) (rest : List Request) (o : Offer) (P : Prop)
    (hP : s.raisesReuse r.tag o = true ↔ P) :
    ∃ u, Checked r P (headTaken rest s) u ∧ Forwarded r (if s.toPage r then u.decodeBeats r else u.takeOffer r.tag o)
      ({ s with tc := { s.tc with arrivals := q } }.accept r rest o) ∧ u.st = s.st ∧ u.bt = { s.bt with stall := false } ∧
      u.rtm = s.rtm ∧ u.cd = s.cd := by
  have h := checked_checks r (s.raisesReuse r.tag o) P hP (headTaken rest s)
  have e : ∀ x : State, ∀ b : Bool, ∀ c n, (if b then x.linkProtocol c n else x).raisesReuse r.tag o = x.raisesReuse r.tag o := by
    intro x b c n; cases b <;> cases o <;> rfl
  have e2 : ∀ x : State, ∀ b : Bool, ∀ c n, (if b then x.linkProtocol c n else x).toPage r = x.toPage r := by
    intro x b c n; cases b <;> rfl
  refine ⟨_, h, ?_, ?_, ?_, ?_, ?_⟩
  · have := forwarded_append r (if s.toPage r then ((let s' := if crosses r.addr.toNat r.beats then (headTaken rest s).linkProtocol .crossing r.tag.val else (headTaken rest s)
      if s.raisesReuse r.tag o then s'.linkProtocol .tagReuse r.tag.val else s') : State).decodeBeats r else ((let s' := if crosses r.addr.toNat r.beats then (headTaken rest s).linkProtocol .crossing r.tag.val else (headTaken rest s)
      if s.raisesReuse r.tag o then s'.linkProtocol .tagReuse r.tag.val else s') : State).takeOffer r.tag o)
    convert this using 1
    unfold State.accept
    dsimp only
    rw [e, e2, e2]
    have a1 : (headTaken rest s).raisesReuse r.tag o = s.raisesReuse r.tag o := by cases o <;> rfl
    have a2 : (headTaken rest s).toPage r = s.toPage r := rfl
    change _ = _
    rw [← a1, ← a2]
    rfl
  all_goals (dsimp only; split <;> split <;> rfl)

/-- The head request where conditions 1 to 3 hold (R138). -/
theorem requestAccept_admitted (s : State) (arriving : Option Request) (r : Request) (rest : List Request)
    (h : s.tc.arrivals ++ arriving.toList = r :: rest) (ha : Admitted s r) :
    requestAccept arriving s =
      match s.offer r with
      | .full => { s with tc := { s.tc with arrivals := r :: rest } }.stallWrite
      | .notOffered => { s with tc := { s.tc with arrivals := r :: rest } }.accept r rest .notOffered
      | .late i => { s with tc := { s.tc with arrivals := r :: rest } }.accept r rest (.late i)
      | .reuse => { s with tc := { s.tc with arrivals := r :: rest } }.accept r rest .reuse
      | .track i b => { s with tc := { s.tc with arrivals := r :: rest } }.accept r rest (.track i b) := by
  show State.tryHead _ = _
  unfold State.tryHead
  simp only [h]
  exact if_pos ((admits_iff s r).2 ha)

/-- A surface write is offered (R139). -/
theorem offer_surface (s : State) (r : Request) (i : Fin 8) (hw : r.kind = .write) (hp : ¬ InPage s r.addr.toNat)
  (hi : InExtent s i r.addr) (hu : ∀ j, InExtent s j r.addr → j = i) : s.toPage r = false ∧ s.offer r = s.decideOffer r i := by
  have h1 : inCommandPage s.cd.wsel r.addr.toNat = false := by
    rw [Bool.eq_false_iff]; exact fun x => hp ((inCommandPage_iff _ _).1 x)
  have h2 : s.toPage r = false := by simp [State.toPage, h1]
  refine ⟨h2, ?_⟩
  unfold State.offer
  rw [hw]
  simp only [h2, Bool.false_eq_true, if_false, surfaceAt_unique s r.addr i hi hu]

/-- The band of an address (R20). -/
theorem bandOf_eq (s : State) (r : Request) (i : Fin 8) (b : Fin 128) (hb : b.val = (r.addr.toNat - (s.st.get i).geo.base.toNat) / (s.st.get i).geo.pitch / (s.st.get i).geo.hb) :
   (s.st.get i).geo.bandOf r.addr = b := by
  unfold Geometry.bandOf Geometry.lineOf bandNumber
  rw [← hb]
  exact Fin.ext (Nat.mod_eq_of_lt b.isLt)

/-! ## Claims on the M-port (R109, R150, R179) -/

/-- A list of bursts with one to issue. -/
theorem firstNotIssued_isSome (l : List Burst) : (firstNotIssued l).isSome = true ↔ Burst.notIssued ∈ l := by
  induction l with
  | nil => simp [firstNotIssued]
  | cons b rest ih =>
    cases b <;> simp [firstNotIssued, ih]

/-- A buffer with a burst to issue (R109). -/
theorem nextBurst_isSome (l : List Slot) : (nextBurst l).isSome = true ↔ ∃ slot ∈ l, ToIssue slot := by
  induction l with
  | nil => simp [nextBurst]
  | cons x rest ih =>
    unfold nextBurst
    have h := firstNotIssued_isSome x.bursts
    rw [List.exists_mem_cons_iff, ← ih]
    cases hs : x.source with
    | fill => simp [ToIssue, hs]
    | surface src =>
      cases hf : firstNotIssued x.bursts with
      | none => simp [ToIssue, hs, ← h, hf]
      | some i => simp [ToIssue, hs, ← h, hf]

/-- The fetcher's claim (R109). -/
theorem fetchClaims_iff (s : State) : s.sf.claims = true ↔ FetchClaims s := by
  unfold Fetcher.claims FetchClaims Fetcher.freeTag
  rw [Bool.and_eq_true, nextBurst_isSome, Table.find_isSome]
  simp

/-- A complete slot (R109). -/
theorem complete_iff (x : Slot) : x.complete = true ↔ Complete x := by
  unfold Slot.complete Complete
  cases hs : x.source with
  | fill => simp
  | surface src =>
    simp only [reduceCtorEq, false_or, List.all_eq_true]
    refine forall_congr' fun b => forall_congr' fun _ => ?_
    cases b <;> simp [Burst.settled]

/-- Fewer than two entries meet a test. -/
theorem countP_lt_two {α : Type} (p : α → Bool) (l : List α) : l.countP p < 2 ↔ ∀ i j : Nat, i < j → ∀ a b, l[i]? = some a → l[j]? = some b → ¬ (p a = true ∧ p b = true) := by
  induction l with
  | nil => simp
  | cons x rest ih =>
    constructor
    · intro h i j hij a b ha hb hab
      cases j with
      | zero => omega
      | succ j =>
        simp at hb
        cases i with
        | zero =>
          simp at ha
          subst ha
          have : 0 < rest.countP p := by
            rw [List.countP_pos_iff]
            exact ⟨b, List.mem_of_getElem? hb, hab.2⟩
          rw [List.countP_cons_of_pos hab.1] at h
          omega
        | succ i =>
          simp at ha
          have h2 : rest.countP p < 2 := by
            have := List.countP_cons (p := p) (a := x) (l := rest)
            omega
          exact ih.1 h2 i j (by omega) a b ha hb hab
    · intro h
      have h2 : rest.countP p < 2 := ih.2 fun i j hij a b ha hb => h (i+1) (j+1) (by omega) a b (by simpa using ha) (by simpa using hb)
      by_cases hx : p x = true
      · have : rest.countP p = 0 := by
          rw [List.countP_eq_zero]
          intro b hb hpb
          obtain ⟨j, hj⟩ := List.mem_iff_getElem?.1 hb
          exact h 0 (j+1) (by omega) x b (by simp) (by simpa using hj) ⟨hx, hpb⟩
        rw [List.countP_cons_of_pos hx]; omega
      · rw [List.countP_cons_of_neg hx]; exact h2

/-- The urgent grade (R109). -/
theorem urgent_iff (s : State) : s.sf.urgent = true ↔ Urgent s := by
  unfold Fetcher.urgent Urgent
  rw [decide_eq_true_eq, countP_lt_two]
  simp only [complete_iff]

/-- A burst of a status write is ready (R182). -/
theorem readyBurst_isSome (w : StatusWrite) : w.readyBurst.isSome = true ↔ BurstReady w := by
  unfold StatusWrite.readyBurst BurstReady viewBursts
  cases w.cutShort <;> simp
  split
  · simp; left; assumption
  · split
    · simp; right; assumption
    · simp only [Option.isSome_none, Bool.false_eq_true, false_iff]
      rintro (h | h)
      · contradiction
      · exact absurd h ‹_›

/-- The Report Writer's claim (R179). -/
theorem reportClaims_iff (s : State) : s.rw.claims = true ↔ ReportClaims s := by
  unfold ReportWriter.claims ReportClaims ReportWriter.freeTag
  rw [Bool.and_eq_true, Table.find_isSome]
  refine and_congr ?_ (by simp)
  unfold ReportWriter.ready
  cases hf : s.rw.frames with
  | cons f rest => simp
  | nil =>
    simp only [ne_eq, not_true_eq_false, false_or]
    have hn : ((s.rw.waiting.find fun c => c == some .released).map ReadyWrite.notice).isSome = true ↔ ∃ e : Fin 8, s.rw.waiting.get e = some .released := by
      rw [Option.isSome_map, Table.find_isSome]; simp
    cases hw : s.rw.write with
    | none => simp only [Option.bind_none]; rw [hn]; simp
    | some w =>
      simp only [Option.bind_some]
      have := readyBurst_isSome w
      cases hb : w.readyBurst with
      | none => simp only [hb] at this ⊢; rw [hn]; simp at this; simp [this]
      | some x => simp [hb] at this ⊢; left; exact this

end Sys2Proof.Safety
end

