-- ==== Sys2Proof/Tests/Slice0.lean ====
section
/-! SUPPORT. The builder's own tests: terms that WellFormed refuses, words and worked examples of the spec, one or two
small steps for each command, and for each obligation with hypotheses a state that meets them. Expected values are the
spec's, from the rule or section each test names. -/

namespace Sys2Proof.Tests

open Sys2Proof Sys2Proof.Machine Sys2Proof.Safety

/-! ## Terms that WellFormed refuses -/

/-- A request in the form of R135. -/
def read8 : Request := { kind := .read, tag := 3, addr := 0x100000, beats := 1, data := [] }

/-- A whole beat. -/
def whole (v : Word) : Beat := { data := v, enables := 0xFF }

theorem test_wf_request : (Instr.requestAccept (some read8)).wf = true := by decide
theorem test_wf_alignment : (Instr.requestAccept (some { read8 with addr := 0x100004 })).wf = false := by decide
theorem test_wf_no_beat : (Instr.requestAccept (some { read8 with beats := 0 })).wf = false := by decide
theorem test_wf_33_beats : (Instr.requestAccept (some { read8 with beats := 33 })).wf = false := by decide
theorem test_wf_read_data : (Instr.requestAccept (some { read8 with data := [whole 0] })).wf = false := by decide
theorem test_wf_write_data : (Instr.requestAccept (some { read8 with kind := .write })).wf = false := by decide
theorem test_wf_unknown : (Instr.unknown .render 0x25).wf = false := by decide
theorem test_wf_own_lane : (Instr.wrongLane .render 0x01).wf = false := by decide
theorem test_wf_no_lane : (Instr.wrongLane .render 0x04).wf = false := by decide
theorem test_wf_ack_data : (Instr.consoleResponse 0 .writeAck .ok [0]).wf = false := by decide
theorem test_wf_read_empty : (Instr.fetchResponse 0 .readData .ok []).wf = false := by decide
theorem test_wf_stray_fetch : (Instr.strayResponse 319 .readData .ok).wf = false := by decide
theorem test_wf_stray_ack : (Instr.strayResponse 335 .writeAck .ok).wf = false := by decide

/-! ## Words of the command page (R155, R191, R192) -/

theorem test_word_open_frame : decodeLane .render 0x0103000000000000 = .command (.openFrame 3) := by decide
theorem test_word_release : decodeLane .render 0x0202000400090000 = .command (.release 2 4 9) := by decide
theorem test_word_abandon : decodeLane .render 0x0307000000000000 = .command (.abandon 7) := by decide
theorem test_word_present : decodeLane .present 0x1002010000040000 = .command (.present 2 0x0100 4) := by decide
theorem test_word_withdraw : decodeLane .present 0x1105000000000000 = .command (.withdraw 5) := by decide
theorem test_word_commit_surface : decodeLane .control 0x2001000600000000 = .command (.commitSurface 6) := by decide
theorem test_word_commit_report : decodeLane .control 0x2006000000000000 = .command (.commitReport 0) := by decide
theorem test_word_commit_none : decodeLane .control 0x2007000000000000 = .commitNoTable := by decide
theorem test_word_clear_events : decodeLane .control 0x2300000000018001 = .command (.clearEvents 1 0x8001) := by decide
theorem test_word_view_select : decodeLane .control 0x2400000A00000000 = .command (.viewSelect 10) := by decide
theorem test_word_unknown : decodeLane .present 0x0400000000000000 = .command (.unknown .present 0x04) := by decide
theorem test_word_wrong_lane : decodeLane .render 0x1000000000000000 = .command (.wrongLane .render 0x10) := by decide
theorem test_beat_index : decodeBeat 0x018 (whole 0x10203) = .command (.tableIndex 0x10203) := by decide
theorem test_beat_partial : decodeBeat 0x018 { data := 0, enables := 0x0F } = .command .misplacedWrite := by decide
theorem test_beat_reserved : decodeBeat 0x030 (whole 0) = .command .misplacedWrite := by decide
theorem test_beat_inert : decodeBeat 0x100 (whole 0) = .inert := by decide

/-! ## The spec's worked arithmetic -/

/-- A row of staged fields. -/
def row9 (a b c d e f g h i : BitVec 32) : Table (BitVec 32) 9 := ⟨[a, b, c, d, e, f, g, h, i], rfl⟩

/-- The worked window of section 4.2. -/
def window : TimingSet := (timingSet (row9 3840 2160 4400 1188000 72 8 11988 4795 240)).1

theorem test_window : window.vtMin = 2253 ∧ window.vtMax = 5630 ∧ window.fMin = 21 ∧ window.fMax = 3398 ∧
    window.floorRaised = false ∧ window.rangeCollapsed = false := by decide

/-- The collapsed window of section 4.2. -/
def collapsed : TimingSet := (timingSet (row9 1920 1080 2200 148500 41 8 6000 6000 120)).1

theorem test_collapsed : collapsed.vtMin = 1125 ∧ collapsed.vtMax = 1125 ∧ collapsed.fMin = 8 ∧ collapsed.fMax = 8 ∧
    collapsed.rangeCollapsed = true := by decide

/-- The raised floor of section 4.2. -/
theorem test_raised_floor : let t := (timingSet (row9 320 240 336 1500000 4 1 50000 2000 0)).1
    t.vtMax = 65535 ∧ t.floorRaised = true := by decide

/-- The examples of R5: height and staged band height to band height and band count. -/
theorem test_band_heights : [(2160, 16), (2048, 16), (2049, 16), (1080, 64), (2160, 128)].map
    (fun p => (raiseBandHeight p.1 p.2 3, ceilDiv p.1 (raiseBandHeight p.1 p.2 3))) =
    [(32, 68), (16, 128), (32, 65), (64, 17), (128, 17)] := by decide

/-- The examples of R119: 0.5, 0.25, 0.75, 2^-10, 2^-11, 1 - 2^-11, 2^-24, NaN, -1, infinity, 1. -/
theorem test_half_channels :
    [0x3800, 0x3400, 0x3A00, 0x1400, 0x1000, 0x3BFF, 0x0001, 0x7E00, 0xBC00, 0x7C00, 0x3C00].map halfChannel =
    [512, 256, 767, 1, 0, 1023, 0, 0, 0, 1023, 1023] := by decide +kernel

theorem test_record_sizes : (statusRecord State.reset 1).length = 256 ∧ (viewPage State.reset 1).length = 2048 ∧
    (frameBytes { number := 0, slot := 0, body := .empty }).length = 64 := by decide +kernel

/-! ## Small states -/

/-- What a command leaves. -/
def after (c : Instr) (s : State) : State :=
  match exec c s with
  | .next t => t
  | .fault _ | .refused _ => s

/-- A small set: 320 × 240, S 4, F_min 2, F_max 6. -/
def tm : TimingSet :=
  { w := 320, h := 240, ht := 336, clock := 10000, s := 4, fp := 1, fhi := 11988, flo := 11905, settle := 2
    vtMin := 246, vtMax := 250, fMin := 2, fMax := 6, floorRaised := false, rangeCollapsed := false }

/-- A 320 × 240 geometry of 15 bands for each surface number. -/
def geoAt (n : Nat) : Geometry :=
  { defined := true, base := BitVec.ofNat 40 (0x100000 * (n + 1)), pitch := 1280, width := 320, height := 240
    format := .p32, hb := 16, nb := 15 }

/-- The state with surface `i` defined and in a state. -/
def put (i : Fin 8) (x : SurfState) (s : State) : State :=
  { s with st := s.st.set i { geo := geoAt i.val, state := x, gen := 5, late := 0 } }

/-- The state with band `b` of surface `i` as given. -/
def band (i : Fin 8) (b : Fin 128) (r : Band) (s : State) : State :=
  { s with bt := s.bt.modifyBand i b fun _ => r }

/-- A band with pending writes. -/
def busyBand (status : Release) (n : Nat) : Band :=
  { status := status, pending := n, scan := .unscanned, stamp := none, fault := false }

/-- A READY band with stamp 90. -/
def readyBand : Band := { status := .ready, pending := 0, scan := .unscanned, stamp := some 90, fault := false }

/-- The state with every band of surface `i` READY. -/
def allReady (i : Fin 8) (s : State) : State :=
  { s with bt := { s.bt with bands := s.bt.bands.set i (Table.replicate 128 readyBand) } }

/-- The state with a table entry under tag 3 for band 2 of surface 0 in generation 5. -/
def tracked (s : State) : State :=
  { s with bt := { s.bt with wtt := s.bt.wtt.set 3 (some { surface := 0, gen := 5, band := 2 }) } }

/-- A queue entry of the surface. -/
def entryOf (i : Fin 8) (mode : Mode) (latest : Bool) : Entry :=
  { surface := i, mode := mode, admission := 15, latest := latest, arrival := 50, number := 7 }

/-- The state with a queue, its surfaces QUEUED. -/
def queued (q : List Entry) (s : State) : State :=
  { q.foldl (fun s e => put e.surface .queued s) s with pq := { queue := q, count := 7, lastTaken := 6 } }

/-- The control of a NEW frame with a lead of 3. -/
def ctl : FrameControl := { decision := .new, hb := 16, nb := 15, lead := 3 }

/-- The raster in a state's line `pos` at LC 100, with a record and a frame's control. -/
def at_ (r : Raster) (pos : Nat) (s : State) : State :=
  { s with rtm := { s.rtm with timing := some tm, raster := r, pos := pos, lc := 100, record := some .empty
                               frame := some ctl } }

/-- A P32 source of surface 0. -/
def src0 : SurfaceSource := { surface := 0, base := 0x100000, pitch := 1280, format := .p32 }

/-- The state with a line of surface 0 in the buffer, its bursts as given. -/
def slot0 (l : Nat) (bursts : List Burst) (s : State) : State :=
  { s with sf := { s.sf with buffer := [{ line := l, source := .surface src0, bursts := bursts }] } }

/-- The state with a read of burst 1 of line 5 under fetch tag 256. -/
def reading (x : ReadState) (s : State) : State :=
  { s with sf := { s.sf with reads := s.sf.reads.set 0 (some { line := 5, burst := 1, state := x }) } }

/-- The state with report tag 320 held by a write. -/
def holding (w : ReportWrite) (s : State) : State :=
  { s with rw := { s.rw with tags := s.rw.tags.set 0 (some w) } }

/-- The state with the report area enabled at 0x4000 and the record dirty. -/
def reporting (s : State) : State := { s with rw := { s.rw with base := 0x4000, enable := true, dirty := true } }

/-- The state with staged rows. -/
def stageSurface (l : BitVec 32) (p w h f b : BitVec 32) (s : State) : State :=
  { s with cd := { s.cd with staging := { s.cd.staging with
      surface := s.cd.staging.surface.set 0 ⟨[l, 0, p, w, h, f, b], rfl⟩ } } }

/-- The state with a staged TIMING row of W and H, every other field in range. -/
def stageTiming (w h : BitVec 32) (s : State) : State :=
  { s with cd := { s.cd with staging := { s.cd.staging with timing := row9 w h 8192 148500 4 1 12000 2000 2 } } }

/-- The state with a staged FETCH row: lead, error mode, a fill channel, pixels per transfer. -/
def stageFetch (lead mode red ppt : BitVec 32) (s : State) : State :=
  { s with cd := { s.cd with staging := { s.cd.staging with fetch := ⟨[lead, mode, red, 0, 0, ppt], rfl⟩ } } }

/-- The state with a staged NOTICE row of entry 0. -/
def stageNotice (source low high enabled : BitVec 32) (s : State) : State :=
  { s with cd := { s.cd with staging := { s.cd.staging with
      notice := s.cd.staging.notice.set 0 ⟨[source, low, high, 77, enabled], rfl⟩ } } }

/-- The state with a staged MARKER code for MK1. -/
def stageMarker (code : BitVec 32) (s : State) : State :=
  { s with cd := { s.cd with staging := { s.cd.staging with marker := s.cd.staging.marker.set 1 code } } }

/-- The state with a staged REPORT row. -/
def stageReport (low high enable : BitVec 32) (s : State) : State :=
  { s with cd := { s.cd with staging := { s.cd.staging with report := ⟨[low, high, enable], rfl⟩ } } }

/-- A write of whole beats under a tag. -/
def write (tag : Fin 256) (a : Addr) (data : List Beat) : Request :=
  { kind := .write, tag := tag, addr := a, beats := data.length, data := data }

/-- The state with requests in the forwarding buffer. -/
def forwarding (rs : List Request) (s : State) : State := { s with tc := { s.tc with forward := rs } }

/-- The state with a console tag of one issued request. -/
def issued (tag : Fin 256) (s : State) : State :=
  { s with tc := { s.tc with tags := s.tc.tags.set tag { queued := 0, issued := 1 } } }

/-- The state with notice entry 0 enabled for a source and waiting on a condition, its address 0x2004. -/
def noticing (source : Source) (c : Option Condition) (s : State) : State :=
  { s with rw := { s.rw with notices := s.rw.notices.set 0 { source := source, addr := 0x2004, value := 0xA1B2C3D4
                                                             enabled := true }
                             waiting := s.rw.waiting.set 0 c } }

/-- After power-on reset. -/
abbrev s0 : State := State.reset

/-! ## A small step of each command -/

theorem test_powerOnReset : let t := after (.powerOnReset 3 true false) (at_ .active 9 s0)
    t.rtm.raster = .off ∧ t.cd.wsel = 3 ∧ t.po.state = .waiting ∧ t.rw.flags = 0x0200 ∧ t.rw.causes.power = true := by
  decide +kernel

/-- R177: a cause stays set through resets of other kinds. -/
theorem test_powerOnReset_keeps_soft : (after (.powerOnReset 0 false false) (after .softReset s0)).rw.causes =
    { power := true, link := true, soft := true } ∧
    (after (.powerOnReset 0 false false) (after (.clearEvents 1 0) s0)).rw.causes =
      { power := true, link := true, soft := false } := by decide +kernel

theorem test_linkReset : let t := after .linkReset (tracked (band 0 2 (busyBand .draining 1) (put 0 .scanning (at_ .active 9 s0))))
    t.bt.band 0 2 = { status := .ready, pending := 0, scan := .unscanned, stamp := some 100, fault := true } ∧
      t.bt.wtt.get 3 = none ∧ t.rw.flags = 0x0400 ∧ t.tc.cport = .inReset := by decide +kernel

theorem test_crstRelease : (after .crstRelease (after .linkReset s0)).tc.cport = .live := by decide +kernel

theorem test_linkUpChange : let t := after (.linkUpChange true 0) s0
    t.po.state = .waiting ∧ t.rw.flags = 0x0200 ∧ (after (.linkUpChange false 0) t).po.state = .down := by decide +kernel

/-- R129: a fall while the port is WAITING takes nothing from what was sent; while SENDING it cuts the line. -/
theorem test_linkUpChange_cut :
    let line : PortLine := .active [⟨[], true⟩, ⟨[], false⟩]
    let s := fun x => { s0 with po := { s0.po with level := true, state := x, sent := line } }
    (after (.linkUpChange false 1) (s .sending)).po.sent = .active [⟨[], true⟩] ∧
      (after (.linkUpChange false 1) (s .waiting)).po.sent = line := by decide +kernel

theorem test_requestAccept_command :
    let t := after (.requestAccept (some (write 9 0xFFFFF00000 [whole 0x0100000000000000]))) (put 0 .free s0)
    (t.st.get 0).state = .rendering ∧ (t.st.get 0).gen = 6 ∧ t.tc.forward.length = 1 ∧
      (t.tc.tags.get 9).queued = 1 := by decide +kernel

theorem test_requestAccept_track :
    let t := after (.requestAccept (some (write 3 0x10A000 [whole 0]))) (put 0 .rendering s0)
    (t.bt.band 0 2).pending = 1 ∧ t.bt.wtt.get 3 = some { surface := 0, gen := 5, band := 2 } := by decide +kernel

theorem test_openFrame : let t := after (.openFrame 0) (tracked (put 0 .free s0))
    (t.st.get 0).state = .rendering ∧ t.cd.render = { taken := 1, code := 1, result := .ok } := by decide +kernel

theorem test_release : let t := after (.release 0 2 99) (band 0 2 (busyBand .opened 1) (put 0 .rendering (at_ .active 9 s0)))
    (t.bt.band 0 2).status = .draining ∧ (t.bt.band 0 14).stamp = some 100 ∧ (t.bt.band 0 1).status = .opened := by
  decide +kernel

theorem test_abandon : let t := after (.abandon 0) (queued [entryOf 0 .whole false] s0)
    (t.st.get 0).state = .free ∧ t.pq.queue = [] := by decide +kernel

/-- R57's defaults, and section 11.1's arrival stamp. -/
theorem test_present : let t := after (.present 2 0x0100 4) (put 2 .rendering (at_ .frontMin 0 s0))
    t.pq.queue = [{ surface := 2, mode := .race, admission := 4, latest := true, arrival := 100, number := 1 }] := by
  decide +kernel

theorem test_present_adjusted : (after (.present 2 0 0) (put 2 .rendering (at_ .frontMin 0 s0))).cd.present.result =
    .adjusted := by decide +kernel

theorem test_withdraw : let t := after (.withdraw 0) (queued [entryOf 0 .whole false] s0)
    (t.st.get 0).state = .rendering ∧ t.pq.queue = [] := by decide +kernel

/-- R5: 2160 lines in bands of 16 are raised to 68 bands of 32. -/
theorem test_commitSurface : let t := after (.commitSurface 0) (stageSurface 0x100000 15360 3840 2160 0 16 s0)
    (t.st.get 0).geo.hb = 32 ∧ (t.st.get 0).geo.nb = 68 ∧ t.cd.control.result = .adjusted := by decide +kernel

/-- Section 4.2's collapsed set, installed in OFF. -/
theorem test_commitTiming : let t := after (.commitTiming 0) { s0 with cd := { s0.cd with staging := { s0.cd.staging with
      timing := row9 1920 1080 2200 148500 41 8 6000 6000 120 } } }
    t.rtm.timing = some collapsed ∧ t.cd.control.result = .ok := by decide +kernel

theorem test_commitFetch : let t := after (.commitFetch 0) (stageFetch 20 1 5 3 s0)
    t.sf.inForce = { lead := 16, mode := .prior, fill := { red := 5, green := 0, blue := 0 }, ppt := 2 } ∧
      t.cd.control.result = .adjusted := by decide +kernel

theorem test_commitNotice : (after (.commitNotice 0) (stageNotice 16 0x2000 0xFF 1 s0)).rw.notices.get 0 =
    { source := .frameStart, addr := 0xFF00002000, value := 77, enabled := true } := by decide +kernel

theorem test_commitMarker : (after (.commitMarker 1) (stageMarker 6 s0)).po.routing.get 1 = .summary := by decide +kernel

theorem test_commitReport : let t := after (.commitReport 0) (stageReport 0x4000 1 1 s0)
    t.rw.base = 0x100004000 ∧ t.rw.enable = true := by decide +kernel

theorem test_outputOn : let t := after .outputOn { at_ .off 0 s0 with po := { s0.po with state := .waiting } }
    t.rtm.raster = .settle ∧ t.rtm.lc = 101 ∧ t.po.sent = .token .settle := by decide +kernel

theorem test_outputOff : (after .outputOff (at_ .frontMin 1 s0)).rtm.raster = .off ∧
    (after .outputOff (at_ .active 1 s0)).rtm.offPending = true := by decide +kernel

theorem test_clearEvents : let t := after (.clearEvents 1 0x0800) (after .misplacedWrite s0)
    t.rw.flags = 0 ∧ t.rw.summary = false ∧ t.rw.causes = { power := false, link := false, soft := false } := by
  decide +kernel

theorem test_viewSelect : (after (.viewSelect 10) s0).rw.page = 10 ∧
    (after (.viewSelect 11) s0).cd.control.result = .range := by decide +kernel

theorem test_softReset : let t := after .softReset (queued [entryOf 0 .whole false] (at_ .active 9 s0))
    t.pq.queue = [] ∧ (t.st.get 0).state = .free ∧ (t.st.get 0).gen = 6 ∧ t.rtm.record.map WorkingRecord.cut = some true ∧
      t.cd.control = { taken := 1, code := 0x25, result := .ok } := by decide +kernel

theorem test_unknown : let t := after (.unknown .present 0x7F) s0
    t.cd.present = { taken := 1, code := 0x7F, result := .unknown } ∧ t.rw.flags = 0x1000 := by decide +kernel

theorem test_wrongLane : (after (.wrongLane .render 0x20) s0).cd.render =
    { taken := 1, code := 0x20, result := .wrongLane } := by decide +kernel

theorem test_tableIndex : (after (.tableIndex 0x10206) s0).cd.index = { table := 1, entry := 2, field := 6 } := by
  decide +kernel

theorem test_tableData : let t := after (.tableData 0x9ABCDEF012345678) (after (.tableIndex 0x10206) s0)
    (t.cd.staging.surface.get 2).get 6 = 0x12345678 ∧ t.cd.index.field = 7 ∧
      (after (.tableData 0) t).cd.control = { taken := 1, code := 0xFF, result := .range } := by decide +kernel

theorem test_reportNow : (after (.reportNow 0) s0).rw.dirty = true := by decide +kernel

theorem test_misplacedWrite : (after .misplacedWrite s0).rw.flags = 0x0800 := by decide +kernel

theorem test_consoleResponse : let t := after (.consoleResponse 3 .writeAck .error []) <|
      (issued 3 (tracked (band 0 2 (busyBand .draining 1) (put 0 .scanning (at_ .active 9 s0)))))
    t.bt.band 0 2 = { status := .ready, pending := 0, scan := .unscanned, stamp := some 100, fault := true } ∧
      t.rw.flags = 0x0004 ∧ (t.tc.tags.get 3).issued = 0 := by decide +kernel

/-- R195: red in bits 9..0, green in 19..10, blue in 29..20 of a P32 pixel. -/
theorem test_fetchResponse :
    ((after (.fetchResponse 0 .readData .ok (List.replicate 32 0xC0300801C02007FF))
        (reading .inFlight (slot0 5 (List.replicate 5 .inFlight) (at_ .active 3 s0)))).sf.buffer.head?.bind
      fun x => x.bursts[1]?.map fun b => match b with
        | .returned p => p.take 2
        | .notIssued | .inFlight | .failed => []) =
    some [{ red := 0x3FF, green := 1, blue := 2 }, { red := 1, green := 2, blue := 3 }] := by
  decide +kernel

theorem test_fetchResponse_error : let t := after (.fetchResponse 0 .readData .error [0]) <|
      (reading .inFlight (slot0 5 (List.replicate 5 .inFlight) (at_ .active 3 s0)))
    t.rw.flags = 0x0100 ∧ t.sf.reads.get 0 = none ∧ t.rtm.record.map WorkingRecord.fetchError = some 1 := by
  decide +kernel

theorem test_reportAck : let t := after (.reportAck 0 .error) (holding .statusBurst s0)
    t.rw.flags = 0x4000 ∧ t.rw.dirty = false ∧ t.rw.tags.get 0 = none := by decide +kernel

theorem test_strayResponse : (after (.strayResponse 336 .writeAck .ok) s0).tc.fault =
    some { cause := .unusedTag, tag := 336 } := by decide +kernel

/-- R188: the notice's value in the upper half of its beat for an address of 4 modulo 8. -/
theorem test_grant : ((after .grant (noticing .frameStart (some .released) s0)).ma.channel.map fun p =>
      (p.request.tag, p.request.addr, p.request.data)) =
    some (320, 0x2000, [{ data := 0xA1B2C3D400000000, enables := 0xF0 }]) := by decide +kernel

/-- R108: the last burst of a 1280-byte line begins 1024 bytes into it. -/
theorem test_grant_fetch : ((after .grant (slot0 5 [.failed, .failed, .failed, .failed, .notIssued] (at_ .active 3 s0))).ma.channel.map
      fun p => (p.claimant, p.request.tag, p.request.addr, p.request.beats)) =
    some (.fetchUrgent, 256, 0x101D00, 32) := by decide +kernel

theorem test_channelFree : (after .channelFree (after .grant (noticing .frameStart (some .released) s0))).ma.channel =
    none := by decide +kernel

theorem test_statusWriteBegin : let t := after .statusWriteBegin (reporting s0)
    t.rw.sequence = 1 ∧ t.rw.dirty = false ∧ t.rw.write.isSome = true := by decide +kernel

theorem test_lineBoundary : let t := after .lineBoundary (at_ .frontMin 0 s0)
    t.rtm.pos = 1 ∧ t.rtm.lc = 101 := by decide +kernel

theorem test_settleDone : let t := after .settleDone (at_ .settle 1 s0)
    t.rtm.raster = .frontMin ∧ t.rw.flags = 0x2000 := by decide +kernel

/-- Section 11.3: the newest LATEST candidate is taken, and the two older surfaces are dropped. -/
theorem test_frontMinEnd : let t := after .frontMinEnd (allReady 3 (queued
      [entryOf 0 .whole false, entryOf 1 .race false, entryOf 3 .whole true] (at_ .frontMin 1 s0)))
    (t.st.get 3).state = .scanning ∧ (t.st.get 0).state = .free ∧ t.rw.counters.drops = 2 ∧
      t.rtm.record.map WorkingRecord.skipped = some true ∧ t.rtm.raster = .backBlank := by decide +kernel

theorem test_stretchBoundary : let t := after .stretchBoundary (at_ .stretch 0 s0)
    t.rtm.raster = .stretch ∧ t.rtm.pos = 1 := by decide +kernel

/-- Section 11.5: an expiry with no HELD surface gives a FILL frame. -/
theorem test_stretchExpiry : let t := after .stretchExpiry (at_ .stretch 3 s0)
    t.rtm.record.map (fun w => (w.kind, w.front)) = some (some .fill, 6) ∧ t.rw.flags = 0x8000 := by decide +kernel

theorem test_activeStart : let t := after .activeStart (at_ .backBlank 3 s0)
    t.rtm.raster = .active ∧ t.rtm.record.map WorkingRecord.activeLine = some 101 := by decide +kernel

/-- Section 11.1: a band not READY at its fetch point, active line 16 k - lead, is MISSED. -/
theorem test_activeLine : let t := after .activeLine (put 0 .scanning (at_ .active 12 s0))
    (t.bt.band 0 1).scan = .missed ∧ t.rw.flags = 0x0001 ∧ t.po.missed = true := by decide +kernel

theorem test_endOfActive : let t := after .endOfActive (put 1 .held (put 2 .scanning (at_ .active 239 s0)))
    (t.st.get 2).state = .held ∧ (t.st.get 1).state = .free ∧ t.rtm.frameCount = 1 ∧ t.rtm.raster = .frontMin := by
  decide +kernel

/-! ## States that meet the hypotheses of the obligations -/

theorem wit_StepRunsFrontCommand : ({ s0 with pending := [.grant] } : State).pending = .grant :: [] ∧ s0.pending = [] ∧
    (at_ .active 0 s0).pending = [] ∧ (at_ .active 0 s0).rtm.raster ≠ .off :=
  ⟨rfl, rfl, rfl, by decide⟩

/-- The state with an entry of the table for the next generation of surface 0. -/
def remembering (s : State) : State :=
  { s with bt := { s.bt with wtt := s.bt.wtt.set 255 (some { surface := 0, gen := 6, band := 0 }) } }

theorem not_remembered (i : Fin 8) (g : BitVec 8) :
    ¬ ∃ tag w, s0.bt.wtt.get tag = some w ∧ w.surface = i ∧ w.gen = g := by
  rintro ⟨tag, w, h, -⟩
  simp [State.reset, Table.get_replicate] at h

theorem wit_OpenFrame : 8 ≤ (8 : BitVec 8).toNat ∧ (7 : BitVec 8).toNat = (7 : Fin 8).val ∧
    (s0.st.get 7).geo.defined = false ∧
    (let s := put 7 .rendering s0; (s.st.get 7).geo.defined = true ∧ (s.st.get 7).state ≠ .free) ∧
    (let s := remembering (put 0 .free s0); (s.st.get 0).geo.defined = true ∧ (s.st.get 0).state = .free ∧
      ∃ tag w, s.bt.wtt.get tag = some w ∧ w.surface = 0 ∧ w.gen = (s.st.get 0).gen + 1) ∧
    (let s := put 7 .free s0; (s.st.get 7).geo.defined = true ∧ (s.st.get 7).state = .free ∧
      ¬ ∃ tag w, s.bt.wtt.get tag = some w ∧ w.surface = 7 ∧ w.gen = (s.st.get 7).gen + 1) :=
  ⟨by decide, by decide, by decide +kernel, by decide +kernel,
    ⟨by decide +kernel, by decide +kernel, 255, { surface := 0, gen := 6, band := 0 }, by decide +kernel⟩,
    by decide +kernel, by decide +kernel, not_remembered 7 _⟩

/-- First band 15 is out of range in a surface of 15 bands, and 14 is not. -/
theorem wit_Release : 8 ≤ (8 : BitVec 8).toNat ∧ (0 : BitVec 8).toNat = (0 : Fin 8).val ∧
    (s0.st.get 0).geo.defined = false ∧ ((put 0 .free s0).st.get 0).state = .free ∧
    (let f := (put 0 .held s0).st.get 0;
      f.geo.defined = true ∧ f.state ≠ .free ∧ f.geo.nb ≤ (15 : BitVec 16).toNat ∧ ¬ f.geo.nb ≤ (14 : BitVec 16).toNat ∧
      (13 : BitVec 16).toNat < (14 : BitVec 16).toNat ∧ ¬ (14 : BitVec 16).toNat < (14 : BitVec 16).toNat) := by
  decide +kernel

theorem wit_Abandon : 8 ≤ (8 : BitVec 8).toNat ∧ (7 : BitVec 8).toNat = (7 : Fin 8).val ∧
    (s0.st.get 7).geo.defined = false ∧ ((put 7 .scanning s0).st.get 7).state = .scanning ∧
    (let f := (queued [entryOf 7 .whole false] s0).st.get 7; f.geo.defined = true ∧ f.state = .queued) := by
  decide +kernel

/-- Each branch of R56's checks, and both cases of the size check. -/
theorem wit_Present : 8 ≤ (8 : BitVec 8).toNat ∧ (0 : BitVec 8).toNat = (0 : Fin 8).val ∧
    (s0.st.get 0).geo.defined = false ∧ (3 : BitVec 16).toNat % 4 = 3 ∧
    ((put 0 .queued s0).st.get 0).state = .queued ∧ ((put 0 .held s0).st.get 0).state ≠ .rendering ∧
    4 ≤ (put 0 .rendering (queued [entryOf 1 .whole false, entryOf 2 .whole false, entryOf 3 .whole false,
      entryOf 4 .whole false] s0)).pq.queue.length ∧
    (let s := put 0 .rendering s0;
      (s.st.get 0).state = .rendering ∧ ¬ 4 ≤ s.pq.queue.length ∧ s.rtm.timing = none) ∧
    (let s := put 0 .rendering (at_ .active 0 s0);
      (s.st.get 0).state = .rendering ∧ s.rtm.timing = some tm ∧ (s.st.get 0).geo.width = tm.w ∧
        (s.st.get 0).geo.height = tm.h) := by decide +kernel

theorem wit_Withdraw : 8 ≤ (8 : BitVec 8).toNat ∧ (7 : BitVec 8).toNat = (7 : Fin 8).val ∧
    (s0.st.get 7).geo.defined = false ∧ ((put 7 .rendering s0).st.get 7).state ≠ .queued ∧
    (let f := (queued [entryOf 7 .whole false] s0).st.get 7; f.geo.defined = true ∧ f.state = .queued) := by
  decide +kernel

/-- R4's checks, as CommitSurface states them. -/
def surfaceOut (base pitch width height format hb : Nat) : Bool := decide <|
  base % 4096 ≠ 0 ∨ width < 320 ∨ 3840 < width ∨ width % 4 ≠ 0 ∨ height < 240 ∨ 2160 < height ∨ 1 < format ∨
    pitch < 1280 ∨ 65536 < pitch ∨ pitch % 256 ≠ 0 ∨ pitch < width * (if format = 0 then 4 else 8) ∨
    (hb ≠ 16 ∧ hb ≠ 32 ∧ hb ≠ 64 ∧ hb ≠ 128) ∨ 2 ^ 40 < base + pitch * height

/-- A height of 239 is out of range and one of 240 is not; the extent of surface 1 begins at 0x200000. -/
theorem wit_CommitSurface : 8 ≤ (8 : BitVec 16).toNat ∧ (0 : BitVec 16).toNat = (0 : Fin 8).val ∧
    ((put 0 .rendering s0).st.get 0).state ≠ .free ∧ (s0.st.get 0).state = .free ∧
    ((s0.cd.staging.surface.get 0).get 4).toNat = 0 ∧
    (let g := (stageSurface 0x200000 1280 320 239 0 16 s0).cd.staging.surface.get 0;
      (g.get 4).toNat ≠ 0 ∧ surfaceOut 0x200000 1280 320 (g.get 4).toNat 0 16) ∧
    (let s := stageSurface 0x200000 1280 320 240 0 16 (put 1 .free s0);
      let g := s.cd.staging.surface.get 0;
      (s.st.get 0).state = .free ∧ (g.get 4).toNat ≠ 0 ∧
        ¬ surfaceOut ((g.get 1).toNat * 2 ^ 32 + (g.get 0).toNat) (g.get 2).toNat (g.get 3).toNat (g.get 4).toNat
          (g.get 5).toNat (g.get 6).toNat ∧
        (1 : Fin 8) ≠ 0 ∧ (s.st.get 1).geo.defined = true ∧
        (g.get 0).toNat < (s.st.get 1).geo.base.toNat + (s.st.get 1).geo.pitch * (s.st.get 1).geo.height ∧
        (s.st.get 1).geo.base.toNat < (g.get 0).toNat + (g.get 2).toNat * (g.get 4).toNat) ∧
    (let s := stageSurface 0x200000 1280 320 240 1 128 s0;
      let g := s.cd.staging.surface.get 0;
      surfaceOut 0x200000 1280 320 240 1 128 ∧ ¬ surfaceOut 0x200000 2560 320 240 1 128 ∧ s.rw.enable = false ∧
        (∀ j : Fin 8, (s.st.get j).geo.defined = false) ∧
        (g.get 0).toNat + (g.get 2).toNat * (g.get 4).toNat ≤ 0xFFFFF00000) := by decide +kernel

/-- R75's checks, as CommitTiming states them. -/
def timingOut (g : Table (BitVec 32) 9) : Bool := decide <|
  (g.get 0).toNat < 320 ∨ 3840 < (g.get 0).toNat ∨ (g.get 0).toNat % 4 ≠ 0 ∨ (g.get 1).toNat < 240 ∨
    2160 < (g.get 1).toNat ∨ (g.get 2).toNat < (g.get 0).toNat + 16 ∨ 8192 < (g.get 2).toNat ∨
    (g.get 3).toNat < 10000 ∨ 1500000 < (g.get 3).toNat

theorem wit_CommitTiming : AtMostOne (put 1 .held (stageTiming 3840 2160 s0)) .held ∧ (1 : BitVec 16) ≠ 0 ∧
    (let s := { at_ .active 0 s0 with rtm := { (at_ .active 0 s0).rtm with pendingSet := some tm } };
      AtMostOne s .held ∧ s.rtm.raster ≠ .off ∧ s.rtm.pendingSet ≠ none) ∧
    timingOut (stageTiming 3844 2160 s0).cd.staging.timing ∧
    (let s := put 1 .held (stageTiming 3840 2160 s0);
      ¬ timingOut s.cd.staging.timing ∧ s.rtm.raster = .off) ∧
    (let s := stageTiming 320 240 (at_ .stretch 0 s0);
      ¬ timingOut s.cd.staging.timing ∧ s.rtm.raster ≠ .off ∧ s.rtm.pendingSet = none) := by
  unfold AtMostOne; decide +kernel

/-- Both cases of step 6 of R78, at the greatest H. -/
theorem wit_TimingArithmetic : (timingSet (row9 320 2160 336 1500000 255 1 2000 2000 0)).1.h ≤ 2160 ∧
    65535 < 2160 + 255 + ((1500000 * 100000 + 2000 * 336 - 1) / (2000 * 336) - 2160 - 255) ∧
    (timingSet (row9 3840 2160 4400 1188000 72 8 11988 4795 240)).1.h ≤ 2160 := by decide

theorem wit_CommitFetch : (1 : BitVec 16) ≠ 0 ∧ 1 < ((stageFetch 8 2 0 4 s0).cd.staging.fetch.get 1).toNat ∧
    1023 < ((stageFetch 8 1 1024 4 s0).cd.staging.fetch.get 2).toNat ∧
    (let s := stageFetch 17 1 1023 3 s0;
      ¬ 1 < (s.cd.staging.fetch.get 1).toNat ∧ ¬ 1023 < (s.cd.staging.fetch.get 2).toNat ∧
        ¬ 1023 < (s.cd.staging.fetch.get 3).toNat ∧ ¬ 1023 < (s.cd.staging.fetch.get 4).toNat ∧ s.rtm.raster = .off) ∧
    (at_ .settle 0 (stageFetch 17 1 1023 3 s0)).rtm.raster ≠ .off := by decide +kernel

/-- Source 19 and address 2^40 are out of range; source 18 at the last word is not. -/
theorem wit_CommitNotice : 8 ≤ (8 : BitVec 16).toNat ∧ (0 : BitVec 16).toNat = (0 : Fin 8).val ∧
    18 < (((stageNotice 19 0 0 1 s0).cd.staging.notice.get 0).get 0).toNat ∧
    2 ^ 40 ≤ (((stageNotice 0 0 256 1 s0).cd.staging.notice.get 0).get 2).toNat * 2 ^ 32 ∧
    (let g := (stageNotice 18 0xFFFFFFFC 255 1 s0).cd.staging.notice.get 0;
      let addr := (g.get 2).toNat * 2 ^ 32 + (g.get 1).toNat;
      (g.get 0).toNat = 18 ∧ ¬ 1 < (g.get 4).toNat ∧ addr % 4 = 0 ∧ ¬ 2 ^ 40 ≤ addr) ∧
    (((stageNotice 0 0 0 1 s0).cd.staging.notice.get 0).get 0).toNat = Event.number .bandMiss ∧
    (((stageNotice 15 0 0 1 s0).cd.staging.notice.get 0).get 0).toNat = Event.number .fillFrame ∧
    (((stageNotice 16 0 0 0 s0).cd.staging.notice.get 0).get 0).toNat = 16 ∧
    (((stageNotice 17 0 0 0 s0).cd.staging.notice.get 0).get 0).toNat = 17 := by decide +kernel

theorem wit_CommitMarker : 2 ≤ (2 : BitVec 16).toNat ∧ (1 : BitVec 16).toNat = (1 : Fin 2).val ∧
    7 ≤ ((stageMarker 7 s0).cd.staging.marker.get 1).toNat ∧
    ¬ 7 ≤ ((stageMarker 6 s0).cd.staging.marker.get 1).toNat := by decide +kernel

/-- The base 2^40 - 4096 leaves no room for 8192 bytes; the area of base 0xFF000 meets surface 0's extent, and the
area of base 0xFE000 ends where it begins. -/
theorem wit_CommitReport : (1 : BitVec 16) ≠ 0 ∧ 1 < ((stageReport 0 0 2 s0).cd.staging.report.get 2).toNat ∧
    ((stageReport 0 0 0 s0).cd.staging.report.get 2).toNat = 0 ∧
    (let g := (stageReport 0xFFFFF000 0xFF 1 s0).cd.staging.report;
      2 ^ 40 < (g.get 1).toNat * 2 ^ 32 + (g.get 0).toNat + 8192) ∧
    (let s := stageReport 0xFF000 0 1 (put 0 .held s0);
      let base := (s.cd.staging.report.get 1).toNat * 2 ^ 32 + (s.cd.staging.report.get 0).toNat;
      base % 4096 = 0 ∧ ¬ 2 ^ 40 < base + 8192 ∧ (s.st.get 0).geo.defined = true ∧
        (s.st.get 0).geo.base.toNat < base + 8192) ∧
    (let s := stageReport 0xFE000 0 1 (put 0 .held s0);
      let base := (s.cd.staging.report.get 1).toNat * 2 ^ 32 + (s.cd.staging.report.get 0).toNat;
      base % 4096 = 0 ∧ (s.cd.staging.report.get 2).toNat = 1 ∧ base + 8192 ≤ 0xFFFFF00000 ∧
        ∀ j : Fin 8, (s.st.get j).geo.defined = true → base + 8192 ≤ (s.st.get j).geo.base.toNat) := by
  decide +kernel

theorem wit_OutputOn : s0.rtm.timing = none ∧
    (let s := at_ .settle 0 s0; s.rtm.timing = some tm ∧ s.rtm.raster ≠ .off) ∧
    (let s := at_ .off 0 s0; s.rtm.timing = some tm ∧ s.rtm.raster = .off) := by decide +kernel

theorem wit_OutputOff : (let s := put 1 .held s0; AtMostOne s .held ∧ s.rtm.raster = .off) ∧
    (let s := put 1 .held (at_ .settle 0 s0); AtMostOne s .held ∧ s.rtm.raster = .settle) ∧
    (let s := put 1 .held (at_ .frontMin 0 s0); AtMostOne s .held ∧ s.rtm.raster = .frontMin) ∧
    (let s := put 1 .held (at_ .stretch 0 s0); AtMostOne s .held ∧ s.rtm.raster = .stretch) ∧
    (let s := put 1 .held (at_ .backBlank 0 s0); AtMostOne s .held ∧ s.rtm.raster = .backBlank) ∧
    (let s := put 1 .held (at_ .active 0 s0); AtMostOne s .held ∧ s.rtm.raster = .active) := by
  unfold AtMostOne; decide +kernel

theorem wit_ViewSelectAndReportNow : 10 < (11 : BitVec 16).toNat ∧ (10 : BitVec 16).toNat = (10 : Fin 11).val := by
  decide

/-- The last field of the last table, and the one past it. -/
theorem wit_TableAccess :
    (let s := after (.tableIndex 0x60002) s0;
      stagedField s.cd.staging s.cd.index.table.toNat s.cd.index.entry.toNat s.cd.index.field.toNat ≠ none) ∧
    (let s := after (.tableIndex 0x60003) s0;
      stagedField s.cd.staging s.cd.index.table.toNat s.cd.index.entry.toNat s.cd.index.field.toNat = none) := by
  decide +kernel

theorem wit_PowerOnReset : stagedField s0.cd.staging 1 7 6 = some 0 := by decide +kernel

theorem wit_LinkReset : (after .linkReset s0).tc.crst = true ∧ s0.tc.crst = false := by decide +kernel

theorem wit_LinkUpChange : (false = s0.po.level) ∧ true ≠ s0.po.level ∧
    (let s := { s0 with po := { s0.po with level := true, state := .sending, sent := .active [⟨[], true⟩, ⟨[], false⟩] } };
      false ≠ s.po.level ∧ s.po.state = .sending ∧ s.po.sent = .active [⟨[], true⟩, ⟨[], false⟩]) ∧
    (let s := { s0 with po := { s0.po with level := true, state := .waiting, sent := .active [⟨[], true⟩] } };
      false ≠ s.po.level ∧ s.po.state ≠ .sending) ∧
    (let s := { s0 with po := { s0.po with level := true, sent := .token .back } };
      false ≠ s.po.level ∧ ∀ transfers, s.po.sent ≠ .active transfers) :=
  ⟨by decide, by decide, by decide, by decide, by decide, fun _ h => by cases h⟩

/-- A one-beat write of the last 8 bytes of surface 0's extent, in band 14. -/
def lastWrite : Request := write 3 0x14AFF8 [whole 0]

/-- A table of 64 entries, none under tag 3 or a tag above 64. -/
def fullTable (s : State) : State :=
  { s with bt := { s.bt with wtt := (Table.mapIdx (fun n (_ : Option Tracked) =>
      if n < 65 ∧ n ≠ 3 then some { surface := 1, gen := 5, band := 0 } else none) (Table.replicate 256 none)) } }

/-- A read at any address, a write to a FREE surface's extent, and a write one byte past an extent, are admitted by a
LIVE C-port; and none is by a held tag. -/
theorem wit_AcceptOther : s0.tc.arrivals ++ (none : Option Request).toList = [] ∧
    s0.tc.arrivals ++ (some read8).toList = [read8] ∧
    (¬ Admitted (after .linkReset s0) read8) ∧ (Admitted s0 read8 ∧ read8.kind = .read) ∧
    (let s := put 0 .free s0; let r := lastWrite;
      Admitted s r ∧ r.kind = .write ∧ ¬ InPage s r.addr.toNat ∧ ∀ i, ¬ InExtent s i r.addr) ∧
    (let s := put 0 .rendering s0; let r := write 3 0x14B000 [whole 0];
      Admitted s r ∧ ¬ InPage s r.addr.toNat ∧ ∀ i, ¬ InExtent s i r.addr) := by
  simp only [Admitted, InPage, InExtent]
  decide +kernel

/-- What the acceptance statements ask of a write to band `b` of surface 0. -/
def toBand (s : State) (r : Request) (b : Fin 128) : Prop :=
  s.tc.arrivals ++ (some r).toList = [r] ∧ Admitted s r ∧ r.kind = .write ∧ ¬ InPage s r.addr.toNat ∧
    InExtent s 0 r.addr ∧ (∀ j, InExtent s j r.addr → j = 0) ∧
    b.val = (r.addr.toNat - (s.st.get 0).geo.base.toNat) / (s.st.get 0).geo.pitch / (s.st.get 0).geo.hb

theorem wit_AcceptTracked :
    (let s := put 0 .rendering s0;
      toBand s lastWrite 14 ∧ (s.bt.band 0 14).status = .opened ∧ s.bt.wtt.get lastWrite.tag = none ∧
        s.bt.wtt.count Option.isSome < 64) ∧
    (let s := fullTable (put 0 .rendering s0);
      toBand s lastWrite 14 ∧ (s.bt.band 0 14).status = .opened ∧ s.bt.wtt.get lastWrite.tag = none ∧
        64 ≤ s.bt.wtt.count Option.isSome ∧ s.bt.stall = false) ∧
    (let s := { fullTable (put 0 .rendering s0) with bt := { (fullTable (put 0 .rendering s0)).bt with stall := true } };
      toBand s lastWrite 14 ∧ (s.bt.band 0 14).status = .opened ∧ s.bt.wtt.get lastWrite.tag = none ∧
        64 ≤ s.bt.wtt.count Option.isSome ∧ s.bt.stall = true) := by
  simp only [toBand, Admitted, InPage, InExtent]
  refine ⟨?_, ?_, ?_⟩ <;> decide +kernel

theorem wit_AcceptUntracked :
    (let s := allReady 0 (put 0 .scanning (at_ .active 0 s0));
      toBand s lastWrite 14 ∧ (s.bt.band 0 14).status ≠ .opened ∧ (s.st.get 0).state = .scanning) ∧
    (let s := tracked (put 0 .rendering s0);
      toBand s lastWrite 14 ∧ (s.bt.band 0 14).status = .opened ∧ s.bt.wtt.get lastWrite.tag ≠ none) := by
  simp only [toBand, Admitted, InPage, InExtent]
  refine ⟨?_, ?_⟩ <;> decide +kernel

/-- The first and the last beat of the command page of WSEL 0. -/
theorem wit_AcceptCommands :
    (let r := write 9 0xFFFFF00000 [whole 0x0100000000000000];
      s0.tc.arrivals ++ (some r).toList = [r] ∧ Admitted s0 r ∧ r.kind = .write ∧ InPage s0 r.addr.toNat) ∧
    (let r := write 9 0xFFFFF00FF8 [whole 0];
      s0.tc.arrivals ++ (some r).toList = [r] ∧ Admitted s0 r ∧ r.kind = .write ∧ InPage s0 r.addr.toNat) := by
  simp only [Admitted, InPage]
  decide +kernel

/-- Codes at the ends of the lanes' ranges and just past them, table ids at the ends of theirs. -/
theorem wit_PageBeats : 0x100 ≤ 0x100 ∧ (0x030 ≤ 0xFF ∧ 0xFF < 0x100) ∧ (0x02F < 0x030) ∧
    (whole 0).enables = BitVec.allOnes 8 ∧ ¬ ({ whole 0 with enables := 0x7F } : Beat).enables = BitVec.allOnes 8 ∧
    [0x00, 0x01, 0x02, 0x03, 0x04, 0x0F, 0x10, 0x11, 0x12, 0x1F, 0x20, 0x21, 0x22, 0x23, 0x24, 0x25, 0x26].map (fun n : Nat =>
      (commandWord (BitVec.ofNat 8 n) 7 0 0 0).toNat / 2 ^ 56) =
      [0x00, 0x01, 0x02, 0x03, 0x04, 0x0F, 0x10, 0x11, 0x12, 0x1F, 0x20, 0x21, 0x22, 0x23, 0x24, 0x25, 0x26] ∧
    [0, 1, 2, 3, 4, 5, 6, 7].map (fun n : Nat =>
      (commandWord 0x20 (BitVec.ofNat 8 n) 0 0 0).toNat / 2 ^ 48 % 256) = [0, 1, 2, 3, 4, 5, 6, 7] := by decide

theorem wit_LaneRoundTrip : (Instr.release 255 0 65535).wf = true ∧
    encodeLane (.release 255 0 65535) = some (.render, 0x02FF0000FFFF0000) ∧
    (Instr.unknown .control 0xFF).wf = true ∧ LaneCommand (.unknown .control 0xFF) :=
  ⟨by decide, by decide, by decide, trivial⟩

/-- A discarded tag, a tag with nothing issued, and an issued one with and without a table entry. -/
theorem wit_ConsoleResponse :
    (after .linkReset (issued 255 s0)).tc.discard.get 255 = true ∧
    (s0.tc.discard.get 0 = false ∧ (s0.tc.tags.get 0).issued = 0) ∧
    (let s := issued 3 s0; s.tc.discard.get 3 = false ∧ 0 < (s.tc.tags.get 3).issued ∧ s.bt.wtt.get 3 = none) ∧
    (let s := issued 3 (tracked (put 0 .rendering s0));
      s.tc.discard.get 3 = false ∧ 0 < (s.tc.tags.get 3).issued ∧
        s.bt.wtt.get 3 = some { surface := 0, gen := 5, band := 2 } ∧ (s.st.get 0).state ≠ .free ∧
        (s.st.get 0).gen = 5) := by decide +kernel

/-- Burst 4 is the last of a 1280-byte line. -/
theorem wit_FetchResponse : s0.sf.reads.get 63 = none ∧
    (reading .discard s0).sf.reads.get 0 = some { line := 5, burst := 1, state := .discard } ∧
    (let s := reading .inFlight (slot0 5 (List.replicate 5 .inFlight) (at_ .active 3 s0));
      s.sf.reads.get 0 = some { line := 5, burst := 1, state := .inFlight } ∧ s.rtm.timing = some tm ∧
        (∃ slot ∈ s.sf.buffer, slot.line = 5) ∧
        (∀ slot ∈ s.sf.buffer, slot.line = 5 → slot.source = .surface src0) ∧ 4 < min 64 (tm.w - 64 * 4)) := by
  decide +kernel

/-- A free tag, each kind of held tag, a write whose last burst ends it and one it does not, the ends of the stray
tags' ranges. -/
theorem wit_ReportAck : s0.rw.tags.get 15 = none ∧ (holding .viewBurst s0).rw.tags.get 0 = some .viewBurst ∧
    (holding .statusBurst s0).rw.tags.get 0 = some .statusBurst ∧
    (holding (.record 4) s0).rw.tags.get 0 = some (.record 4) ∧
    (holding (.notice .frameEnd) s0).rw.tags.get 0 = some (.notice .frameEnd) ∧
    (holding (.notice (.flag .reportFault)) s0).rw.tags.get 0 = some (.notice (.flag .reportFault)) ∧
    (let v : StatusWrite := { view := [], record := [], viewIssued := 1, viewAcked := 0, recordIssued := false, cutShort := true };
      v.cutShort = true ∧ v.viewIssued - (v.viewAcked + 1) + v.recordIssued.toNat = 0) ∧
    (let v : StatusWrite := { view := [], record := [], viewIssued := 8, viewAcked := 7, recordIssued := false, cutShort := false };
      ¬ (v.cutShort = true ∧ v.viewIssued - (v.viewAcked + 1) + v.recordIssued.toNat = 0)) ∧
    336 ≤ (336 : Fin 512).val ∧ 336 ≤ (511 : Fin 512).val ∧ 320 ≤ (320 : Fin 512).val ∧ (335 : Fin 512).val < 336 := by
  decide +kernel

theorem wit_GrantOrder : (after .grant (forwarding [read8] s0)).ma.channel ≠ none ∧ s0.ma.channel = none := by
  decide +kernel

theorem no_fetch_claim {s : State} (h : s.sf.buffer = []) : ¬ FetchClaims s := by
  simp [FetchClaims, h]

theorem no_report_claim {s : State} (h : s.ma.age = 0) : ¬ (ReportClaims s ∧ 32 ≤ s.ma.age) := by
  omega

/-- A PASS that is the only claim, and one beside an aged report claim of age 31. -/
theorem wit_GrantPass :
    (let s := forwarding [read8] s0;
      s.ma.channel = none ∧ s.tc.forward = [read8] ∧ ¬ (FetchClaims s ∧ Urgent s) ∧ ¬ (ReportClaims s ∧ 32 ≤ s.ma.age)) ∧
    (let s := { forwarding [read8] (noticing .frameStart (some .released) s0) with ma := { channel := none, age := 31 } };
      s.ma.channel = none ∧ s.tc.forward = [read8] ∧ ¬ (FetchClaims s ∧ Urgent s) ∧ ¬ (ReportClaims s ∧ 32 ≤ s.ma.age)) :=
  ⟨⟨rfl, rfl, fun h => no_fetch_claim rfl h.1, no_report_claim rfl⟩,
    ⟨rfl, rfl, fun h => no_fetch_claim rfl h.1, fun h => by have := h.2; simp at this⟩⟩

/-- A buffer of one line is urgent; one behind two fill lines is not. -/
theorem wit_GrantFetch :
    (let s := slot0 5 [.failed, .notIssued] (at_ .active 3 s0);
      let slot : Slot := { line := 5, source := .surface src0, bursts := [.failed, .notIssued] };
      s.ma.channel = none ∧ s.rtm.timing = some tm ∧ s.sf.buffer = [] ++ slot :: [] ∧ slot.source = .surface src0 ∧
        slot.bursts[1]? = some .notIssued ∧ (∀ k, k < 1 → slot.bursts[k]? ≠ some .notIssued) ∧
        LowestFree s.sf.reads 0 ∧ Urgent s) ∧
    (let f : Slot := { line := 3, source := .fill, bursts := [] };
      let slot : Slot := { line := 5, source := .surface src0, bursts := [.notIssued] };
      let s := { at_ .active 2 s0 with sf := { s0.sf with buffer := [f, { f with line := 4 }, slot] } };
      s.sf.buffer = [f, { f with line := 4 }] ++ slot :: [] ∧ (∀ x ∈ [f, { f with line := 4 }], ¬ ToIssue x) ∧
        slot.bursts[0]? = some .notIssued ∧ LowestFree s.sf.reads 0 ∧ ¬ Urgent s ∧
        ¬ (ReportClaims s ∧ 32 ≤ s.ma.age) ∧ s.tc.forward = []) := by
  refine ⟨⟨rfl, rfl, rfl, rfl, rfl, by decide, ⟨by decide +kernel, fun m h => absurd h (by omega)⟩, ?_⟩,
    ⟨rfl, ?_, rfl, ⟨by decide +kernel, fun m h => absurd h (by omega)⟩, ?_, no_report_claim rfl, rfl⟩⟩
  · intro i j h a b _ hb
    have : j = 0 := by
      by_contra hj
      obtain ⟨n, rfl⟩ := Nat.exists_eq_succ_of_ne_zero hj
      simp [slot0] at hb
    omega
  · intro x hx
    simp only [List.mem_cons, List.not_mem_nil, or_false] at hx
    rcases hx with rfl | rfl <;> simp [ToIssue]
  · intro h
    exact h 0 1 (by omega) _ _ rfl rfl ⟨.inl rfl, .inl rfl⟩

/-- The three kinds of write, a status write at each side of its eighth view burst, and a notice at the last entry. -/
theorem wit_GrantReport :
    (s0.ma.channel = none ∧ ¬ (FetchClaims s0 ∧ Urgent s0) ∧ LowestFree s0.rw.tags 0 ∧ s0.tc.forward = [] ∧
      ¬ FetchClaims s0) ∧
    (let w : StatusWrite := { view := [], record := [], viewIssued := 7, viewAcked := 0, recordIssued := false, cutShort := false };
      BurstReady w ∧ w.viewIssued < 8) ∧
    (let w : StatusWrite := { view := [], record := [], viewIssued := 8, viewAcked := 8, recordIssued := false, cutShort := false };
      BurstReady w ∧ 8 ≤ w.viewIssued) ∧
    (let s := { s0 with rw := { s0.rw with waiting := s0.rw.waiting.set 7 (some .released) } };
      s.rw.frames = [] ∧ s.rw.write = none ∧ s.rw.waiting.get 7 = some .released ∧
        ∀ d : Fin 8, d < 7 → s.rw.waiting.get d ≠ some .released) := by
  refine ⟨⟨rfl, fun h => no_fetch_claim rfl h.1, ⟨by decide +kernel, fun m h => absurd h (by omega)⟩, rfl,
    no_fetch_claim rfl⟩, by simp [BurstReady], by simp [BurstReady], rfl, rfl, by decide +kernel, by decide +kernel⟩

theorem wit_StatusWriteBegin :
    (let s := reporting s0; s.rw.enable = true ∧ s.rw.dirty = true ∧ s.rw.write = none) ∧
    ¬ (s0.rw.enable = true ∧ s0.rw.dirty = true ∧ s0.rw.write = none) := by decide +kernel

/-- A frame with a lead of 1: band 0's fetch point is back-blank line 3. -/
def late1 (s : State) : State := { s with rtm := { s.rtm with frame := some { ctl with lead := 1 } } }

/-- Every kind of blank line, at the ends of its range. -/
theorem wit_BlankLines : s0.rtm.timing = none ∧
    ((at_ .settle 0 s0).rtm.pos + 1 < tm.settle ∧ tm.settle ≤ (at_ .settle 1 s0).rtm.pos + 1) ∧
    ((at_ .frontMin 0 s0).rtm.pos + 1 < tm.fMin ∧ tm.fMin ≤ (at_ .frontMin 1 s0).rtm.pos + 1) ∧
    (let s := late1 (at_ .backBlank 0 s0);
      s.rtm.raster = .backBlank ∧ s.rtm.frame = some { ctl with lead := 1 } ∧ s.rtm.pos + 1 < tm.s - 1) ∧
    (let s := at_ .backBlank 0 s0; s.rtm.frame = some ctl ∧ s.rtm.pos + 1 = tm.s - ctl.lead) ∧
    (let s := at_ .backBlank 2 s0; tm.s - ctl.lead < s.rtm.pos + 1 ∧ s.rtm.pos + 1 < tm.s) ∧
    tm.s ≤ (at_ .backBlank 3 s0).rtm.pos + 1 ∧ (at_ .stretch 0 s0).rtm.raster = .stretch ∧
    (at_ .active 0 s0).rtm.raster = .active ∧ (at_ .off 0 s0).rtm.raster = .off := by decide +kernel

/-- A queue whose one entry is admissible, at a place of the raster. -/
def ripe (r : Raster) (pos : Nat) : State := allReady 0 (queued [entryOf 0 .whole false] (put 1 .held (at_ r pos s0)))

theorem chosen_ripe (r : Raster) (pos : Nat) :
    Chosen (Admissible (ripe r pos)) (ripe r pos).pq.queue [] (entryOf 0 .whole false) [] := by
  refine ⟨rfl, fun b _ => ?_, .inr ⟨rfl, ?_⟩⟩
  · show ((Table.replicate 128 readyBand).get b).status = .ready
    rw [Table.get_replicate]
    rfl
  · intro x hx
    obtain rfl : x = entryOf 0 .whole false := by simpa [ripe, allReady, queued] using hx
    exact fun h => absurd h.2 (by decide)

theorem noneChosen_nil (candidate : Entry → Prop) : NoneChosen candidate [] :=
  ⟨fun x hx => by simp at hx, fun e rest h => by simp at h⟩

/-- The state under another set. -/
def under (t : TimingSet) (s : State) : State := { s with rtm := { s.rtm with timing := some t } }

theorem wit_FrontMinEnd :
    (let s := ripe .frontMin 1;
      AtMostOne s .held ∧ s.rtm.timing = some tm ∧ tm.h ≤ 2160 ∧ s.rtm.raster = .frontMin ∧ tm.fMin ≤ s.rtm.pos + 1 ∧
        tm.fMin < tm.fMax ∧ Chosen (Admissible s) s.pq.queue [] (entryOf 0 .whole false) []) ∧
    (let s := under { tm with fMax := 2 } (at_ .frontMin 1 s0);
      s.rtm.timing = some { tm with fMax := 2 } ∧ ({ tm with fMax := 2 } : TimingSet).fMax ≤ tm.fMin ∧
        NoneChosen (Admissible s) s.pq.queue) ∧
    ¬ ((at_ .frontMin 0 s0).rtm.raster = .frontMin ∧ tm.fMin ≤ (at_ .frontMin 0 s0).rtm.pos + 1) :=
  ⟨⟨by unfold AtMostOne; decide +kernel, rfl, by decide, rfl, by decide, by decide, chosen_ripe _ _⟩,
    ⟨rfl, by decide, noneChosen_nil _⟩, by decide⟩

theorem wit_StretchEnd :
    (let s := ripe .stretch 0;
      AtMostOne s .held ∧ s.rtm.timing = some tm ∧ tm.h ≤ 2160 ∧ s.rtm.raster = .stretch ∧
        tm.fMin + s.rtm.pos + 1 < tm.fMax ∧ Chosen (Admissible s) s.pq.queue [] (entryOf 0 .whole false) []) ∧
    (let s := at_ .stretch 2 s0; tm.fMin + s.rtm.pos + 1 < tm.fMax ∧ NoneChosen (Admissible s) s.pq.queue) ∧
    (let s := at_ .stretch 3 s0; tm.fMax ≤ tm.fMin + s.rtm.pos + 1 ∧ NoneChosen (Admissible s) s.pq.queue) ∧
    s0.rtm.raster ≠ .stretch :=
  ⟨⟨by unfold AtMostOne; decide +kernel, rfl, by decide, rfl, by decide, chosen_ripe _ _⟩,
    ⟨by decide, noneChosen_nil _⟩, ⟨by decide, noneChosen_nil _⟩, by decide⟩

/-- A band READY with its stamp, one not READY, with and without a HELD surface, and no surface SCANNING. -/
theorem wit_BandDecision :
    (let s := allReady 0 (put 0 .scanning (put 1 .held (at_ .active 12 s0)));
      AtMostOne s .scanning ∧ AtMostOne s .held ∧ (s.st.get 0).state = .scanning ∧ (s.st.get 1).state = .held ∧
        (s.bt.band 0 127).status = .ready ∧ (s.bt.band 0 127).stamp = some 90) ∧
    (let s := put 0 .scanning (at_ .active 12 s0);
      AtMostOne s .scanning ∧ AtMostOne s .held ∧ (s.bt.band 0 0).status ≠ .ready ∧
        ∀ i : Fin 8, (s.st.get i).state ≠ .held) ∧
    (AtMostOne s0 .scanning ∧ AtMostOne s0 .held ∧ ∀ i : Fin 8, (s0.st.get i).state ≠ .scanning) := by
  simp only [AtMostOne]
  refine ⟨?_, ?_, ?_⟩ <;> decide +kernel

/-- The last back-blank line, the lines on each side of the last active line, and a line of blank. -/
theorem wit_ActiveLines :
    (let s := slot0 0 (List.replicate 5 .notIssued) (put 0 .scanning (at_ .backBlank 3 s0));
      AtMostOne s .scanning ∧ s.rtm.timing = some tm ∧ s.rtm.frame = some ctl ∧ 0 < ctl.hb ∧ s.sf.buffer ≠ [] ∧
        s.rtm.raster = .backBlank ∧ tm.s ≤ s.rtm.pos + 1) ∧
    (let s := slot0 239 (List.replicate 5 .inFlight) (put 0 .scanning (at_ .active 238 s0));
      AtMostOne s .scanning ∧ s.rtm.timing = some tm ∧ s.rtm.frame = some ctl ∧ s.sf.buffer ≠ [] ∧
        s.rtm.raster = .active ∧ s.rtm.pos + 1 < tm.h) ∧
    (let s := at_ .active 239 s0;
      ¬ (s.rtm.raster = .active ∧ s.rtm.pos + 1 < tm.h) ∧ ¬ (s.rtm.raster = .backBlank ∧ tm.s ≤ s.rtm.pos + 1)) := by
  simp only [AtMostOne]
  refine ⟨?_, ?_, ?_⟩ <;> decide +kernel

/-- A line of surface 0 whose last burst of five is RETURNED. -/
def lastBack : Slot :=
  { line := 5, source := .surface src0
    bursts := [.notIssued, .inFlight, .failed, .notIssued, .returned (List.replicate 64 .black)] }

/-- A fill line, and a surface line with a burst RETURNED and others not, with and without a prior line. -/
theorem wit_DeadlineLine : SlotWhole 320 { line := 5, source := .fill, bursts := [] } ∧
    SlotWhole 320 lastBack ∧ lastBack.source = .surface src0 ∧
    lastBack.bursts[319 / 64]? = some (.returned (List.replicate 64 .black)) ∧
    (∀ pixels, lastBack.bursts[0 / 64]? ≠ some (.returned pixels)) ∧
    (∀ l, (none : Option (List Pixel)) = some l → l.length = 320) ∧
    (∀ l, some (List.replicate 320 Pixel.black) = some l → l.length = 320) := by
  refine ⟨rfl, ?_, rfl, rfl, ?_, ?_, ?_⟩
  · refine ⟨by decide, fun i pixels h => ?_⟩
    match i with
    | 0 | 1 | 2 | 3 => cases h
    | 4 => cases h; decide
    | n + 5 => simp [lastBack] at h
  · intro pixels h
    simp [lastBack] at h
  · intro l h
    simp at h
  · intro l h
    obtain rfl : List.replicate 320 Pixel.black = l := Option.some.inj h
    exact List.length_replicate

theorem wit_EndOfActive :
    (let s := put 1 .held (put 2 .scanning (at_ .active 239 s0));
      AtMostOne s .scanning ∧ AtMostOne s .held ∧ s.rtm.timing = some tm ∧ s.rtm.record = some .empty ∧
        s.rtm.raster = .active ∧ tm.h ≤ s.rtm.pos + 1 ∧ s.rtm.pendingSet = none ∧ s.rtm.offPending = false) ∧
    (let s := put 1 .held (put 2 .scanning (at_ .active 239 s0));
      let p := { s with rtm := { s.rtm with pendingSet := some collapsed, offPending := true } };
      AtMostOne p .scanning ∧ AtMostOne p .held ∧ p.rtm.timing = some tm ∧ p.rtm.record = some .empty ∧
        p.rtm.pendingSet = some collapsed ∧ p.rtm.offPending = true) ∧
    (let s := at_ .active 238 s0; ¬ (s.rtm.raster = .active ∧ tm.h ≤ s.rtm.pos + 1)) := by
  simp only [AtMostOne]
  refine ⟨?_, ?_, ?_⟩ <;> decide +kernel

theorem wit_MarkerLevels : s0.po.routing.get 1 = .off := by decide

/-- Each case of R119: a NaN, the largest value below 1, 1 itself, infinity, -0, and 0.5, the one tie. -/
theorem wit_HalfChannel :
    ((0x7C01 : BitVec 16).toNat / 2 ^ 10 % 32 = 31 ∧ (0x7C01 : BitVec 16).toNat % 2 ^ 10 ≠ 0) ∧
    2 ^ 15 ≤ (0x8000 : BitVec 16).toNat ∧
    ((0x3BFF : BitVec 16).toNat / 2 ^ 10 % 32 = 14 ∧ halfValue 14 1023 < 1) ∧
    ((0x3C00 : BitVec 16).toNat / 2 ^ 10 % 32 = 15 ∧ 1 ≤ halfValue 15 0) ∧
    ((0x7C00 : BitVec 16).toNat / 2 ^ 10 % 32 = 31 ∧ (0x7C00 : BitVec 16).toNat % 2 ^ 10 = 0) ∧
    |((512 : ℕ) : ℚ) - 1023 * halfValue 14 0| = 1 / 2 := by
  refine ⟨by decide, by decide, ⟨by decide, ?_⟩, ⟨by decide, ?_⟩, by decide, ?_⟩
  · norm_num [halfValue]
  · norm_num [halfValue]
  · norm_num [halfValue, abs_of_pos]

/-- A page of each kind: the last surface's bands, a table and a queue with one entry, and the timing sets. -/
theorem wit_ViewPages :
    (let s := (fullTable (queued [entryOf 0 .whole false] (at_ .active 3 s0)));
      s.bt.occupancy ≤ Config.wttSize ∧ s.pq.queue.length ≤ 4 ∧
        s.bt.wtt.get 64 = some { surface := 1, gen := 5, band := 0 } ∧ s.bt.wtt.count Option.isSome = 64 ∧
        s.pq.queue[0]? = some (entryOf 0 .whole false) ∧ s.rtm.timing = some tm ∧ s.rtm.pendingSet = none) ∧
    (let s := after (.viewSelect 7) s0; s.bt.occupancy ≤ Config.wttSize ∧ s.rw.page.val = (7 : Fin 8).val) ∧
    (after (.viewSelect 8) s0).rw.page = 8 ∧ (after (.viewSelect 9) s0).rw.page = 9 ∧
    (after (.viewSelect 10) s0).rw.page = 10 := by decide +kernel

/-! ## States that are not the reset state and meet the invariants -/

/-- The state with a command that waits. -/
def sending (c : Instr) (s : State) : State := { s with pending := [c] }

/-- A step makes the command that waits. -/
theorem step_sending (c : Instr) (s : State) (h : s.pending = []) : ∃ t, step (sending c s) = .next t := by
  have e : step (sending c s) = exec c s := by
    show exec c { sending c s with pending := [] } = exec c s
    rw [← h]; rfl
  cases c <;> exact ⟨_, e⟩

/-- A surface being scanned, with a band that drains under one tracked write. -/
def draining0 : State := issued 3 (tracked (band 0 2 (busyBand .draining 1) (put 0 .scanning (at_ .active 9 s0))))

theorem draining0_band (i : Fin 8) (b : Fin 128) :
    draining0.bt.band i b = if i = 0 ∧ b = 2 then busyBand .draining 1 else Band.cleared := by
  show (((Table.replicate 8 Bands.cleared).modify 0 fun r => r.modify 2 fun _ => busyBand .draining 1).get i).get b = _
  simp only [Table.get_modify, Table.get_replicate, Bands.cleared]
  by_cases hi : i = 0 <;> by_cases hb : b = 2 <;> simp [hi, hb, Table.get_modify]

theorem draining0_states (i : Fin 8) : (draining0.st.get i).state = (if i = 0 then .scanning else .free) ∧
    (draining0.st.get i).gen = (if i = 0 then 5 else 0) := by
  revert i
  decide +kernel

theorem draining0_count (p : Option Tracked → Bool) (h : p none = false) :
    draining0.bt.wtt.count p = (p (some { surface := 0, gen := 5, band := 2 })).toNat := by
  have := Table.count_set (Table.replicate 256 (none : Option Tracked)) p 3 (some { surface := 0, gen := 5, band := 2 })
  simp only [Table.get_replicate, Table.count_replicate, h] at this
  show ((Table.replicate 256 none).set 3 (some { surface := 0, gen := 5, band := 2 })).count p = _
  simpa using this

theorem wit_TrackingKept : (∃ t, step (sending (.consoleResponse 3 .writeAck .ok []) draining0) = .next t) ∧
    Tracking (sending (.consoleResponse 3 .writeAck .ok []) draining0) ∧
    Presentation (sending (.consoleResponse 3 .writeAck .ok []) draining0) := by
  refine ⟨step_sending _ _ rfl, ⟨fun i b => ?_, fun i h => ?_, fun i b => ?_, ?_⟩, by unfold QueueLawful; decide +kernel,
    by unfold ScanLawful AtMostOne; decide +kernel, fun i h => ⟨tm, rfl, ?_⟩⟩
  · show (draining0.bt.band i b).pending = if (draining0.st.get i).state = .free then 0 else
      draining0.bt.wtt.count (names i (draining0.st.get i).gen b)
    rw [draining0_band, (draining0_states i).1, (draining0_states i).2, draining0_count _ rfl]
    by_cases hi : i = 0 <;> by_cases hb : b = 2 <;> simp [hi, hb, names, busyBand, Band.cleared]
    rw [beq_false_of_ne fun e => hb (congrArg Tracked.band e).symm]
    rfl
  · refine Table.ext_get fun b => ?_
    have := draining0_band i b
    rw [if_neg fun e => by rw [e.1] at h; exact absurd h (by decide +kernel)] at this
    rw [Bands.cleared, Table.get_replicate]
    exact this
  · show BandLawful (draining0.bt.band i b)
    rw [draining0_band]
    split <;> (unfold BandLawful; decide)
  · unfold TableBounded; decide +kernel
  · revert i
    decide +kernel

theorem wit_PresentationKept : (∃ t, step (sending .frontMinEnd (ripe .frontMin 1)) = .next t) ∧
    Presentation (sending .frontMinEnd (ripe .frontMin 1)) := by
  refine ⟨step_sending _ _ rfl, by unfold QueueLawful; decide +kernel,
    by unfold ScanLawful AtMostOne; decide +kernel, fun i h => ⟨tm, rfl, ?_⟩⟩
  revert i
  decide +kernel

/-- A defined surface beside the enabled report area. -/
def laidOut : State := stageSurface 0x200000 1280 320 240 0 16 (reporting (put 7 .rendering s0))

theorem wit_ExtentsKept : (∃ t, step (sending (.commitSurface 0) laidOut) = .next t) ∧
    Extents (sending (.commitSurface 0) laidOut) ∧ Presentation (sending (.commitSurface 0) laidOut) := by
  refine ⟨step_sending _ _ rfl, ⟨?_, ?_, ?_, ?_, ?_, ?_⟩, ?_, ?_, ?_⟩
  · unfold GeometryLawful; decide +kernel
  · decide +kernel
  · unfold apart; decide +kernel
  · unfold clearOf; decide +kernel
  · unfold clearOf; decide +kernel
  · decide +kernel
  · unfold QueueLawful; decide +kernel
  · unfold ScanLawful AtMostOne; decide +kernel
  · have none : ∀ i : Fin 8, SurfState.sized ((sending (.commitSurface 0) laidOut).st.get i).state = false := by decide +kernel
    exact fun i h => absurd (h.symm.trans (none i)) (by decide)

/-- Active line 0 of a NEW frame, lines 1 to 3 in the buffer, burst 0 of line 1 in flight under tag 256. -/
def scanning0 : State :=
  let s := put 0 .scanning (at_ .active 0 s0)
  { s with
    rtm := { s.rtm with record := some { WorkingRecord.empty with kind := some .new, front := 2 } }
    sf := { s.sf with
      inForce := { s.sf.inForce with lead := 3 }
      buffer := [{ line := 1, source := .surface src0, bursts := .inFlight :: List.replicate 4 .notIssued },
        { line := 2, source := .fill, bursts := [] }, { line := 3, source := .fill, bursts := [] }]
      reads := s.sf.reads.set 0 (some { line := 1, burst := 0, state := .inFlight })
      prior := some (List.replicate 320 .black) } }

theorem rastering_scanning0 : Rastering (sending .activeLine scanning0) := by
  have lawful : TimingLawful tm := by unfold TimingLawful; decide
  refine ⟨?_, ?_, ?_, ?_, ?_, ?_, ?_, ?_⟩
  · intro t h; cases h; exact lawful
  · intro t h; cases h
  · exact (by decide : 0 < 240 ∧ True ∧ True).imp id fun _ => ⟨rfl, rfl⟩
  · intro w h; cases h; exact ⟨rfl, fun _ => ⟨tm, rfl, by decide, by decide⟩⟩
  · exact ⟨by decide, by decide, fun t h => by cases h; decide⟩
  · intro f h; cases h
  · intro f h; cases h; exact ⟨by decide, by decide, fun t h => by cases h; decide⟩
  · decide +kernel

theorem wit_ScanoutKept : (∃ t, step (sending .activeLine scanning0) = .next t) ∧
    Scanout (sending .activeLine scanning0) := by
  refine ⟨step_sending _ _ rfl, rastering_scanning0, ⟨fun t h slot hs => ?_, fun t h l hl => ?_, fun h => by cases h⟩,
    fun i => ?_, fun c h => by cases h; exact .inl rfl⟩
  · cases h
    have hs' : slot ∈ scanning0.sf.buffer := hs
    simp only [scanning0, List.mem_cons, List.not_mem_nil, or_false] at hs'
    rcases hs' with rfl | rfl | rfl
    · refine ⟨by decide, fun i pixels h => ?_⟩
      match i with
      | 0 | 1 | 2 | 3 | 4 => cases h
      | n + 5 => simp at h
    · rfl
    · rfl
  · cases h
    obtain rfl := Option.some.inj hl
    exact List.length_replicate
  · revert i; unfold BandHeight; decide +kernel

theorem wit_FetchingKept : (∃ t, step (sending .activeLine scanning0) = .next t) ∧
    Fetching (sending .activeLine scanning0) := by
  have only : ∀ n e, InFlight (sending .activeLine scanning0) n e →
      n = 0 ∧ e = { line := 1, burst := 0, state := .inFlight } := by
    rintro n e ⟨h, -⟩
    have h' : ((Table.replicate 64 none).set 0 (some { line := 1, burst := 0, state := .inFlight })).get n = some e := h
    rw [Table.get_set] at h'
    split at h'
    · exact ⟨by assumption, (Option.some.inj h').symm⟩
    · simp [Table.get_replicate] at h'
  refine ⟨step_sending _ _ rfl, rastering_scanning0, fun n e h => ?_, fun m n e f hm hn _ _ => ?_⟩
  · obtain ⟨-, rfl⟩ := only n e h
    exact ⟨_, List.mem_cons_self, rfl, rfl⟩
  · rw [(only m e hm).1, (only n f hn).1]

/-- A status write with one view burst issued, under tag 320. -/
def reporting0 : State :=
  let s := holding .viewBurst (noticing (.flag .bandMiss) (some .thisWrite) (reporting s0))
  { s with rw := { s.rw with
      write := some { view := [], record := [], viewIssued := 1, viewAcked := 0, recordIssued := false
                      cutShort := false } } }

theorem wit_ReportingKept : (∃ t, step (sending (.reportAck 0 .ok) reporting0) = .next t) ∧
    Reporting (sending (.reportAck 0 .ok) reporting0) := by
  refine ⟨step_sending _ _ rfl, ⟨by decide +kernel, by decide +kernel, fun w h => ?_, ?_, fun e f h => ?_,
    fun h => by cases h⟩, fun _ => rfl⟩
  · cases h; unfold WriteLawful; decide
  · exact fun e _ => ⟨_, rfl, rfl⟩
  · have : ∀ e : Fin 8, reporting0.rw.waiting.get e = some .thisWrite ∨ reporting0.rw.waiting.get e = none := by
      decide +kernel
    rcases this e with h' | h' <;> rw [show reporting0.rw.waiting.get e = some (.record f) from h] at h' <;> cases h'

theorem wit_BoundedKept : (∃ t, step (sending .grant (after .misplacedWrite s0)) = .next t) ∧
    Bounded (sending .grant (after .misplacedWrite s0)) :=
  ⟨step_sending _ _ rfl, by unfold Bounded LogLawful SummaryLawful; decide +kernel⟩

/-- A LIVE C-port with one read forwarded. -/
def passing0 : State :=
  let s := forwarding [read8] s0
  { s with tc := { s.tc with tags := s.tc.tags.set 3 { queued := 1, issued := 0 } } }

theorem wit_TrafficKept : (∃ t, step (sending .grant passing0) = .next t) ∧ Traffic (sending .grant passing0) := by
  have tags : ∀ tag : Fin 256, passing0.tc.tags.get tag = if tag = 3 then { queued := 1, issued := 0 } else {} := by
    intro tag
    show ((Table.replicate 256 {}).set 3 { queued := 1, issued := 0 } : Table TagCount 256).get tag = _
    rw [Table.get_set, Table.get_replicate]
  have free : ∀ tag : Fin 256, passing0.tc.discard.get tag = false := fun tag => Table.get_replicate tag false
  refine ⟨step_sending _ _ rfl, by decide, fun tag => ?_, fun tag => ?_, fun tag h => ?_, by decide, ?_, ?_⟩
  · show (passing0.tc.tags.get tag).queued = [read8].countP fun r => r.tag == tag
    rw [tags]
    by_cases h : tag = 3
    · subst h; decide
    · simp only [h, if_false, read8, List.countP_cons, List.countP_nil, beq_false_of_ne fun e => h e.symm]
      rfl
  · show (passing0.tc.tags.get tag).issued ≤ 255
    rw [tags]
    split <;> simp
  · exact absurd ((free tag).symm.trans h) (by decide)
  · intro h; cases h
  · intro h; cases h

theorem wit_ResetSafe : ∃ t, exec (.powerOnReset 15 true true) (at_ .active 9 s0) = .next t := ⟨_, rfl⟩

/-- The state whose current line has ended. -/
def ended (s : State) : State := { s with rtm := s.rtm.endLine }

/-- An ended line before another, before OFF, and in OFF itself. -/
theorem wit_LineCounter : (ended (at_ .active 239 s0)).rtm.ended = true ∧
    (let s := ended (at_ .active 239 { s0 with rtm := { s0.rtm with offPending := true } });
      s.rtm.ended = true ∧ s.rtm.offPending = true ∧ s.rtm.timing = some tm ∧ tm.h ≤ s.rtm.pos + 1) ∧
    s0.rtm.raster = .off ∧ s0.rtm.ended = false := by decide +kernel

/-- Section 11.2 and R47: a RELEASE taken first at the boundary of band 1's fetch point, active line 13, stamps the LC of
that line, and the band's margin is 0; one taken in the line before gives margin 1. -/
theorem test_boundary_order :
    let s := put 0 .scanning (at_ .active 12 s0)
    let t := after .activeLine (after (.release 0 1 1) (ended s))
    let u := after .activeLine (after (.release 0 1 1) s)
    step s = .next (ended s) ∧ (t.bt.band 0 1).stamp = some 101 ∧ t.rtm.lc = 101 ∧
      t.rtm.record.map WorkingRecord.leastMargin = some (some 0) ∧
      u.rtm.record.map WorkingRecord.leastMargin = some (some 1) := by
  refine ⟨rfl, ?_⟩
  decide +kernel

end Sys2Proof.Tests
end

