-- ==== Sys2Proof/Proofs/Moves.lean ====
section
/-! The changes of which every step is made, each with the condition under which the model makes it: an invariant that
every such change keeps is kept by every step. -/

namespace Sys2Proof.Safety

open Sys2Proof.Machine

/-! ## The Report Writer's own changes -/

/-- No counter of the status record is beyond its limit (R178). -/
def CountersBounded (c : Counters) : Prop :=
  c.bandMisses ≤ counterTop ∧ c.repeats ≤ counterTop ∧ c.fillFrames ≤ counterTop ∧ c.lateWrites ≤ counterTop ∧
    c.drops ≤ counterTop ∧ c.fetchLate ≤ counterTop ∧ c.fetchErrors ≤ counterTop ∧ c.trackStalls ≤ counterTop

/-- The summary is set exactly while a flag is, and the counters are bounded (R176, R178). -/
def LedgerLawful (r : ReportWriter) : Prop := (r.summary = true ↔ r.flags ≠ 0) ∧ CountersBounded r.counters

/-- A change inside the Report Writer: the area and the write index stay, no record joins the queue, and the flags and
counters stay lawful. -/
structure ReportsMove (r r' : ReportWriter) : Prop where
  enable : r'.enable = r.enable
  base : r'.base = r.base
  logIndex : r'.logIndex = r.logIndex
  frames : r'.frames.length ≤ r.frames.length
  ledger : LedgerLawful r → LedgerLawful r'

theorem ReportsMove.refl (r : ReportWriter) : ReportsMove r r := ⟨rfl, rfl, rfl, le_rfl, id⟩

theorem ReportsMove.trans {r r' r'' : ReportWriter} (h : ReportsMove r r') (h' : ReportsMove r' r'') :
    ReportsMove r r'' :=
  ⟨h'.enable.trans h.enable, h'.base.trans h.base, h'.logIndex.trans h.logIndex, h'.frames.trans h.frames,
    fun x => h'.ledger (h.ledger x)⟩

/-- A counted event leaves the counters bounded (R178). -/
theorem countersBounded_count {c : Counters} (e : Event) (h : CountersBounded c) : CountersBounded (c.count e) := by
  obtain ⟨h1, h2, h3, h4, h5, h6, h7, h8⟩ := h
  have hs : ∀ n, satInc counterTop n ≤ counterTop := fun n => min_le_left _ _
  cases e <;> simp only [Counters.count, CountersBounded, *, and_self]

theorem ReportsMove.mark (r : ReportWriter) : ReportsMove r r.mark := ⟨rfl, rfl, rfl, le_rfl, id⟩

theorem ReportsMove.occur (r : ReportWriter) (x : Source) (c : Condition) : ReportsMove r (r.occur x c) :=
  ⟨rfl, rfl, rfl, le_rfl, id⟩

theorem ReportsMove.onNotices (r : ReportWriter) (f : Condition → Condition) : ReportsMove r (r.onNotices f) :=
  ⟨rfl, rfl, rfl, le_rfl, id⟩

theorem ReportsMove.endWrite (r : ReportWriter) : ReportsMove r r.endWrite := ⟨rfl, rfl, rfl, le_rfl, id⟩

/-- A flag set and its event counted: the summary is set, and a flag is (R176). -/
theorem ReportsMove.flag (r : ReportWriter) (e : Event) : ReportsMove r (r.flag e) :=
  ⟨rfl, rfl, rfl, le_rfl, fun h => ⟨iff_of_true rfl (flags_or_ne_zero r.flags e), countersBounded_count e h.2⟩⟩

theorem ReportsMove.raiseQuietly (r : ReportWriter) (e : Event) : ReportsMove r (r.raiseQuietly e) :=
  (ReportsMove.flag r e).trans (.occur _ _ _)

theorem ReportsMove.raise (r : ReportWriter) (e : Event) : ReportsMove r (r.raise e) :=
  (ReportsMove.raiseQuietly r e).trans (.mark _)

/-- The summary clears with the last flag (R176). -/
theorem ReportsMove.clearFlags (r : ReportWriter) (mask : BitVec 16) : ReportsMove r (r.clearFlags mask) :=
  ⟨rfl, rfl, rfl, le_rfl, fun h => ⟨by simp, h.2⟩⟩

/-- A soft reset clears flags, summary and counters (R189). -/
theorem ReportsMove.softReset (r : ReportWriter) : ReportsMove r r.softReset :=
  ⟨rfl, rfl, rfl, le_rfl, fun _ => ⟨by simp [ReportWriter.softReset], by simp [ReportWriter.softReset, CountersBounded]⟩⟩

/-- The issue of a ready write: a record leaves the queue, or a write advances, or a notice goes (R179). -/
theorem ReportsMove.issue (r : ReportWriter) (n : Fin 16) {w : ReadyWrite} (h : r.ready = some w) :
    ReportsMove r (r.issue n w).2 := by
  cases w with
  | frame f rest =>
    have hf : r.frames = f :: rest := by
      unfold ReportWriter.ready at h
      split at h
      · rename_i hf; cases h; exact hf
      · split at h
        · rename_i burst hb
          cases h
          obtain ⟨w, -, hw⟩ := Option.bind_eq_some_iff.1 hb
          unfold StatusWrite.readyBurst at hw
          (repeat' split at hw) <;> cases hw
        · simp at h
    exact ⟨rfl, rfl, rfl, by simp [ReportWriter.issue, hf], id⟩
  | view w => exact ⟨rfl, rfl, rfl, le_rfl, id⟩
  | status w => exact ⟨rfl, rfl, rfl, le_rfl, id⟩
  | notice e => exact ⟨rfl, rfl, rfl, le_rfl, id⟩

theorem ReportsMove.ackView (r : ReportWriter) : ReportsMove r r.ackView := by
  unfold ReportWriter.ackView
  split
  · exact .refl r
  · dsimp only
    split
    · exact ⟨rfl, rfl, rfl, le_rfl, id⟩
    · exact ⟨rfl, rfl, rfl, le_rfl, id⟩

/-- An acknowledgement of a report write advances what it belongs to (R182, R185). -/
theorem ReportsMove.ackWrite (r : ReportWriter) (w : ReportWrite) : ReportsMove r (r.ackWrite w) := by
  cases w with
  | viewBurst => exact .ackView r
  | statusBurst => exact .endWrite r
  | record frame => exact .onNotices r _
  | notice source => exact .refl r

/-- The REPORT_FAULT of a failed report write (R183, R185, R188). -/
theorem ReportsMove.ackFault (r : ReportWriter) (w : ReportWrite) : ReportsMove r (r.ackFault w) := by
  cases w with
  | viewBurst => exact .raiseQuietly r _
  | statusBurst => exact .raiseQuietly r _
  | record frame => exact .raise r _
  | notice source =>
    show ReportsMove r (r.noticeFault source)
    unfold ReportWriter.noticeFault
    split
    · exact (ReportsMove.flag r _).trans (.mark _)
    · exact .raise r _

/-! ## The changes of which a step is made -/

/-- One change of the state, with the condition under which a step makes it. -/
inductive Move (s : State) : State → Prop
  | traffic (c : Classifier) : Move s { s with tc := c }
  | decoder (d : Decoder) (h : d.wsel = s.cd.wsel) : Move s { s with cd := d }
  | outputs (f : Fetcher) (p : PixelPort) : Move s { s with sf := f, po := p }
  | queue (q : List Instr) (n : Nat) : Move s { s with pending := q, freeDraw := n }
  | arbiter (m : Arbiter) (h : m.age ≤ Config.reportAgeLimit ∨ m.age = s.ma.age) : Move s { s with ma := m }
  | reports (r : ReportWriter) (h : ReportsMove s.rw r) : Move s { s with rw := r }
  /-- The raster leaves a frame only where the surfaces are settled. -/
  | raster (r : RasterTimer) (ht : r.timing = s.rtm.timing) (hc : r.frameCount = s.rtm.frameCount)
      (hf : inFrame r.raster = false → inFrame s.rtm.raster = false) : Move s { s with rtm := r }
  | scanned (i : Fin 8) (b : Fin 128) (x : Scan) (hi : (s.st.get i).state ≠ .free)
      (hx : x = .scanned → (s.bt.band i b).status = .ready) :
      Move s { s with bt := s.bt.modifyBand i b fun r => { r with scan := x } }
  | stalled (b : Bool) : Move s { s with bt := { s.bt with stall := b } }
  | late (i : Fin 8) : Move s { s with st := s.st.modify i fun f => { f with late := satInc 65535 f.late } }
  | opened (i : Fin 8) (hd : (s.st.get i).geo.defined = true) (hf : (s.st.get i).state = .free)
      (hn : s.bt.tracks i ((s.st.get i).gen + 1) = false) : Move s (s.openSurface i)
  | released (i : Fin 8) (lc : Line) (first last : Nat) (hi : (s.st.get i).state ≠ .free) :
      Move s { s with bt := { s.bt with bands := s.bt.bands.modify i (Bands.release lc first last) } }
  | abandoned (i : Fin 8) (hi : (s.st.get i).state = .rendering ∨ (s.st.get i).state = .queued) :
      Move s (s.abandonSurface i)
  | enqueued (i : Fin 8) (mode : Mode) (latest : Bool) (admission : Nat) (hi : (s.st.get i).state = .rendering)
      (hq : s.pq.queue.length < Config.queueSize) (hs : s.sizeMatches i = true) :
      Move s (s.enqueue i mode latest admission)
  | withdrawn (i : Fin 8) (hi : (s.st.get i).state = .queued) :
      Move s ({ s with pq := s.pq.remove i }.setSurface i .rendering)
  | undefined (i : Fin 8) (hi : (s.st.get i).state = .free) : Move s (s.installGeometry i .undefined)
  | defined (i : Fin 8) (g : StagedSurface) (f : Format) (hi : (s.st.get i).state = .free) (hg : g.inRange f = true)
      (ho : s.surfaceOverlap i g.base (g.pitch * g.height) = false) : Move s (s.installGeometry i (g.geometry f))
  | inForce (t : TimingSet) (h : inFrame s.rtm.raster = false) : Move s (s.timingInForce t)
  | areaOff : Move s (s.installReport s.rw.base false)
  | areaOn (base : Nat) (hb : base % 4096 = 0) (hl : base + reportAreaSize ≤ Config.addressLimit)
      (hp : s.meetsPage base reportAreaSize = false) (hs : s.meetsSurface (fun _ => true) base reportAreaSize = false) :
      Move s (s.installReport (BitVec.ofNat 40 base) true)
  | allFreed : Move s { s with st := s.st.map Surface.softReset
                               bt := { s.bt with bands := .replicate 8 .cleared, wtt := .replicate 256 none }
                               pq := { s.pq with queue := [] } }
  | poweredOn (wsel : BitVec 4) (linkUp crst : Bool) : Move s (powerOnReset wsel linkUp crst s)
  | tracked (tag : Fin 256) (i : Fin 8) (b : Fin 128) (hi : (s.st.get i).state ≠ .free)
      (hb : (s.bt.band i b).status = .opened) (ht : s.bt.wtt.get tag = none) (ho : s.bt.occupancy < Config.wttSize) :
      Move s (s.trackWrite tag i b)
  | acknowledged (tag : Fin 256) (status : Status) : Move s (s.acknowledge tag status)
  | drained : Move s { s with bt := s.bt.linkReset s.rtm.now s.st }
  /-- A selection takes an entry: the first of a frame, or a split, whose SCANNING surface is freed before. -/
  | taken (older : List Entry) (e : Entry) (newer : List Entry) (u : State) (r : RasterTimer)
      (hq : s.pq.queue = older ++ e :: newer)
      (hu : (u = s ∧ inFrame s.rtm.raster = false) ∨ u = s.freeScanning)
      (ht : r.timing = s.rtm.timing) (hc : r.frameCount = s.rtm.frameCount) (hf : inFrame r.raster = true) :
      Move s { u.takeEntry older e newer with rtm := r }
  | handed : Move s s.handRecord
  | settled (r : RasterTimer) (ht : r.timing = s.rtm.timing) (hc : r.frameCount = s.rtm.frameCount) :
      Move s { s.settleSurfaces with rtm := r }

/-- Any number of changes, one after another. -/
def Moves : State → State → Prop := Relation.ReflTransGen Move

theorem Moves.refl (s : State) : Moves s s := Relation.ReflTransGen.refl

theorem Moves.trans {s t u : State} (h : Moves s t) (h' : Moves t u) : Moves s u := Relation.ReflTransGen.trans h h'

theorem Moves.tail {s t u : State} (h : Moves s t) (h' : Move t u) : Moves s u := Relation.ReflTransGen.tail h h'

theorem Move.moves {s t : State} (h : Move s t) : Moves s t := Relation.ReflTransGen.single h

/-- What every change keeps, any number of changes keeps. -/
theorem Moves.keeps {P : State → Prop} (hP : ∀ s t, P s → Move s t → P t) {s t : State} (h : Moves s t) (hs : P s) :
    P t := by
  induction h with
  | refl => exact hs
  | tail _ hm ih => exact hP _ _ ih hm

/-- A fold whose every step is made of changes is. -/
theorem Moves.foldl {α : Type} (f : State → α → State) (h : ∀ s a, Moves s (f s a)) (l : List α) :
    ∀ s, Moves s (l.foldl f s) := by
  induction l with
  | nil => exact Moves.refl
  | cons a l ih => exact fun s => (h s a).trans (ih _)

variable (s : State)

theorem moves_fetcher (f : Fetcher) : Moves s { s with sf := f } := (Move.outputs f s.po).moves

theorem moves_port (p : PixelPort) : Moves s { s with po := p } := (Move.outputs s.sf p).moves

/-! ## Events, results and records -/

theorem moves_raise (e : Event) : Moves s (s.raise e) := (Move.reports _ (.raise s.rw e)).moves

theorem moves_mark : Moves s s.mark := (Move.reports _ (.mark s.rw)).moves

theorem moves_signal (x : Source) : Moves s (s.signal x) := (Move.reports _ (.occur s.rw x _)).moves

theorem moves_linkProtocol (c : FaultCause) (n : Nat) : Moves s (s.linkProtocol c n) :=
  (moves_raise s _).tail (.traffic _)

theorem moves_result (l : Lane) (code : BitVec 8) (r : Result) : Moves s (s.result l code r) := by
  have hd : Moves s { s with cd := s.cd.record l code r } :=
    (Move.decoder _ (s.cd.record_frame l code r).2.2).moves
  unfold State.result
  dsimp only
  split
  · exact hd.trans (moves_raise _ _)
  · exact hd.trans (moves_mark _)

theorem moves_onRecord (f : WorkingRecord → WorkingRecord) : Moves s (s.onRecord f) :=
  (Move.raster { s.rtm with record := s.rtm.record.map f } rfl rfl id).moves

theorem moves_settleAge : Moves s s.settleAge := by
  unfold State.settleAge
  split
  · exact .refl s
  · exact (Move.arbiter _ (.inl (Nat.zero_le _))).moves

/-! ## Lines and settings -/

theorem moves_boundary {r : Raster} (n : Nat) (h : inFrame r = false → inFrame s.rtm.raster = false) :
    Moves s (s.boundary r n) :=
  (Move.raster { s.rtm with raster := r, pos := n, ended := false, lc := s.rtm.lc + 1 } rfl rfl h).moves.trans (moves_port _ _)

theorem moves_sendBlank (kind : Token) : Moves s (s.sendBlank kind) := moves_port _ _

theorem moves_blankLine {r : Raster} (n : Nat) (kind : Token) (h : inFrame r = false → inFrame s.rtm.raster = false) :
    Moves s ((s.boundary r n).sendBlank kind) := (moves_boundary s n h).trans (moves_sendBlank _ _)

theorem moves_enterFrontMin (h : inFrame s.rtm.raster = false) : Moves s s.enterFrontMin :=
  (moves_blankLine s 0 .front fun _ => h).tail (.raster _ rfl rfl id)

theorem moves_enterSettle (t : TimingSet) (h : inFrame s.rtm.raster = false) : Moves s (s.enterSettle t) := by
  unfold State.enterSettle
  split
  · exact (moves_raise s _).trans (moves_enterFrontMin _ h)
  · exact moves_blankLine s 0 .settle fun _ => h

theorem moves_fetchInForce (f : FetchSet) : Moves s (s.fetchInForce f) := (Move.outputs _ _).moves

theorem moves_waitingInForce : Moves s s.waitingInForce := by
  unfold State.waitingInForce
  split
  · exact moves_fetchInForce s _
  · exact .refl s

theorem moves_pendingInForce (h : inFrame s.rtm.raster = false) : Moves s s.pendingInForce := by
  unfold State.pendingInForce
  split
  · exact (Move.inForce _ h).moves
  · exact .refl s

theorem moves_enterOff (h : inFrame s.rtm.raster = false) : Moves s s.enterOff := by
  unfold State.enterOff
  refine .trans ?_ (moves_waitingInForce _)
  refine .trans ?_ (moves_pendingInForce _ rfl)
  exact (moves_port s { s.po with sent := .nothing, missed := false }).tail (.raster _ rfl rfl fun _ => h)

/-! ## Fetch points, fetch starts and the back blank -/

/-- A band decision marks at most one band of the SCANNING surface, and counts (R46 to R48). -/
theorem moves_decideBand (kind : FrameKind) (b : Nat) : Moves s (s.decideBand kind b).2 := by
  unfold State.decideBand
  split
  · exact .refl s
  · exact .refl s
  · split
    · exact .refl s
    · rename_i i hi
      have hne : (s.st.get i).state ≠ .free := by rw [s.scanning_some hi]; decide
      split
      · rename_i hr
        exact (Move.scanned i (bandNumber b) .scanned hne fun _ => hr).moves.trans (moves_onRecord _ _)
      · exact ((Move.scanned i (bandNumber b) .missed hne (fun h => by cases h)).moves.trans (moves_port _ _)).trans
          ((moves_raise _ _).trans (moves_onRecord _ _))
      · exact ((Move.scanned i (bandNumber b) .missed hne (fun h => by cases h)).moves.trans (moves_port _ _)).trans
          ((moves_raise _ _).trans (moves_onRecord _ _))

theorem moves_fetchPoint (c : FrameControl) (b : Nat) : Moves s (s.fetchPoint c b) :=
  (moves_decideBand s c.decision b).trans (moves_fetcher _ _)

theorem moves_fetchStart (t : TimingSet) (c : FrameControl) (l : Nat) : Moves s (s.fetchStart t c l) := by
  unfold State.fetchStart
  split
  · exact moves_fetcher _ _
  · exact .refl s

theorem moves_backLine (t : TimingSet) (c : FrameControl) (n : Nat) : Moves s (s.backLine t c n) := by
  have hp : Moves s (s.firstPoint t c n) := by
    unfold State.firstPoint
    split
    · exact moves_fetchPoint s c 0
    · exact .refl s
  unfold State.backLine
  dsimp only
  split
  · exact hp.trans (moves_fetchStart _ t c _)
  · exact hp

theorem moves_beginBackBlank (t : TimingSet) (kind : FrameKind) (source : Option (Fin 8)) (front : Nat)
    (skipped : Bool) (hb nb : Nat) : Moves s (s.beginBackBlank t kind source front skipped hb nb) := by
  unfold State.beginBackBlank
  dsimp only
  refine .trans ?_ (moves_sendBlank _ _)
  refine .trans ?_ (moves_backLine _ t _ 0)
  have hr := (moves_boundary s (r := .backBlank) 0 (by simp [inFrame])).trans
    (moves_onRecord _ fun r => { r with kind := some kind, source := source, front := front, skipped := skipped })
  exact (hr.trans (moves_fetcher _ { s.sf with sources := List.replicate nb none })).tail (.raster _ rfl rfl id)

theorem moves_expire (t : TimingSet) (front : Nat) : Moves s (s.expire t front) := by
  unfold State.expire
  split
  · exact (moves_raise s _).trans (moves_beginBackBlank _ t _ _ _ _ _ _)
  · exact (moves_raise s _).trans (moves_beginBackBlank _ t _ _ _ _ _ _)

/-- A front-blank selection that takes an entry begins a NEW frame (R84, R85). -/
theorem moves_beginNew {u : State} {e : Entry} (t : TimingSet) (front : Nat) (skipped : Bool)
    (hf : inFrame s.rtm.raster = false) (h : s.frontSelection = some (e, u)) :
    Moves s (u.beginNew t e front skipped) := by
  obtain ⟨older, newer, hp, rfl⟩ := s.frontSelection_some h
  have hrt := (entryTaken_takeEntry s older e newer).2.2.2.2.1
  have hm := Move.taken older e newer s { (s.takeEntry older e newer).rtm with
    lag := some { arrival := e.arrival, line := 0 }, raster := .backBlank } (pick_some hp).1 (.inl ⟨rfl, hf⟩)
    (by rw [hrt]) (by rw [hrt]) rfl
  exact hm.moves.trans (moves_beginBackBlank _ t _ _ _ _ _ _)

/-! ## The active period -/

theorem moves_completeLag (j : Nat) : Moves s (s.completeLag j) := by
  unfold State.completeLag
  split
  · split
    · exact (moves_onRecord s _).tail (.raster _ rfl rfl id)
    · exact .refl s
  · exact .refl s

/-- A mid-active decision point takes nothing, or a split (R90). -/
theorem moves_midActive (c : FrameControl) (k : Nat) (hf : inFrame s.rtm.raster = true) : Moves s (s.midActive c k) := by
  unfold State.midActive
  split
  · exact .refl s
  · split
    · exact .refl s
    · rename_i e u h
      obtain ⟨older, newer, hp, rfl⟩ := s.splitSelection_some h
      have hrt := (entryTaken_takeEntry s.freeScanning older e newer).2.2.2.2.1
      have hfs : s.freeScanning.rtm = s.rtm := s.freeScanning_frame.2.2.2.1
      have hm := Move.taken older e newer s.freeScanning (s.freeScanning.takeEntry older e newer).rtm
        (pick_some hp).1 (.inr rfl) (by rw [hrt, hfs]) (by rw [hrt, hfs]) (by rw [hrt, hfs]; exact hf)
      exact hm.moves.tail (.raster _ rfl rfl id)

theorem moves_decisionPoint (c : FrameControl) (j : Nat) (hf : inFrame s.rtm.raster = true) :
    Moves s (s.decisionPoint c j) := by
  unfold State.decisionPoint
  split
  · exact moves_midActive s c _ hf
  · exact .refl s

theorem moves_settingsAt (j : Nat) : Moves s (s.settingsAt j) := by
  unfold State.settingsAt
  split
  · exact moves_waitingInForce s
  · exact .refl s

theorem moves_lineDeadline (t : TimingSet) (j : Nat) : Moves s (s.lineDeadline t j) := by
  unfold State.lineDeadline State.handOver
  dsimp only
  refine .tail ?_ (.outputs _ _)
  exact Moves.foldl _ (fun u _ => (moves_raise u _).trans (moves_onRecord _ _)) _ s

theorem moves_bandPoint (c : FrameControl) (j : Nat) : Moves s (s.bandPoint c j) := by
  unfold State.bandPoint
  split
  · exact moves_fetchPoint s c _
  · exact .refl s

theorem moves_lineOf (t : TimingSet) (c : FrameControl) (j : Nat) (hf : inFrame s.rtm.raster = true) :
    Moves s (s.activeLine t c j) := by
  have hl : (s.completeLag j).rtm.raster = s.rtm.raster := by unfold State.completeLag; (repeat' split) <;> rfl
  unfold State.activeLine
  dsimp only
  refine .trans ?_ (moves_fetchStart _ t _ _)
  refine .trans ?_ (moves_bandPoint _ _ j)
  refine .trans ?_ (moves_lineDeadline _ t j)
  refine .trans ?_ (moves_settingsAt _ j)
  exact (moves_completeLag s j).trans (moves_decisionPoint _ c j (by rw [hl]; exact hf))

end Sys2Proof.Safety
end

