-- ==== Sys2Proof/Proofs/Steps.lean ====
section
/-! Every step is made of the changes of Moves: the boundaries, the commands of the command page, the pins, the console's
traffic and the M-port. -/

namespace Sys2Proof.Safety

open Sys2Proof.Machine

variable (s : State)

/-! ## The boundaries (chapter 4) -/

theorem moves_lineBoundary : Moves s (lineBoundary s) := by
  unfold lineBoundary
  split
  · exact .refl s
  · dsimp only
    split
    · rename_i hr
      split
      · exact moves_blankLine s _ _ fun _ => by rw [hr]; rfl
      · exact .refl s
    · rename_i hr
      split
      · exact moves_blankLine s _ _ fun _ => by rw [hr]; rfl
      · exact .refl s
    · split
      · split
        · exact ((moves_boundary s _ (by simp [inFrame])).trans (moves_backLine _ _ _ _)).trans (moves_sendBlank _ _)
        · exact .refl s
      · exact .refl s
    all_goals exact .refl s

theorem moves_settleDone : Moves s (settleDone s) := by
  unfold settleDone
  split
  · exact .refl s
  · split
    · rename_i h
      exact (moves_raise s _).trans (moves_enterFrontMin _ (by rw [State.raise_rtm, h.1]; rfl))
    · exact .refl s

theorem moves_frontMinEnd : Moves s (frontMinEnd s) := by
  unfold frontMinEnd
  split
  · exact .refl s
  · split
    · rename_i h
      have hf : inFrame s.rtm.raster = false := by rw [h.1]; rfl
      split
      · rename_i hs
        exact moves_beginNew s _ _ _ hf hs
      · split
        · exact moves_blankLine s _ _ fun _ => hf
        · exact moves_expire s _ _
    · exact .refl s

theorem moves_stretchLine (t : TimingSet) (front : Nat) (hf : inFrame s.rtm.raster = false) :
    Moves s (s.stretchLine t front) := by
  unfold State.stretchLine
  split
  · rename_i hs
    exact moves_beginNew s _ _ _ hf hs
  · split
    · exact moves_blankLine s _ _ fun _ => hf
    · exact moves_expire s _ _

theorem moves_stretchBoundary : Moves s (stretchBoundary s) := by
  unfold stretchBoundary
  split
  · exact .refl s
  · split
    · rename_i h
      exact moves_stretchLine s _ _ (by rw [h]; rfl)
    · exact .refl s

theorem moves_stretchExpiry : Moves s (stretchExpiry s) := by
  unfold stretchExpiry
  split
  · exact .refl s
  · split
    · rename_i h
      exact moves_stretchLine s _ _ (by rw [h.1]; rfl)
    · exact .refl s

theorem moves_activeStart : Moves s (activeStart s) := by
  unfold activeStart
  split
  · split
    · have hb : Moves s (s.boundary .active 0) := moves_boundary s 0 (by simp [inFrame])
      exact ((hb.trans (moves_onRecord _ _)).trans (moves_signal _ _)).trans (moves_lineOf _ _ _ 0 rfl)
    · exact .refl s
  · exact .refl s

theorem moves_activeLine : Moves s (activeLine s) := by
  unfold activeLine
  split
  · dsimp only
    split
    · exact (moves_boundary s _ (by simp [inFrame])).trans (moves_lineOf _ _ _ _ rfl)
    · exact .refl s
  · exact .refl s

/-! ## The end of a frame (R91) -/

/-- The state with its raster in another raster state. -/
def withRaster (s : State) (x : Raster) : State := { s with rtm := { s.rtm with raster := x } }

theorem freeHeldMisfit_withRaster (t : TimingSet) (x : Raster) :
    (withRaster s x).freeHeldMisfit t = withRaster (s.freeHeldMisfit t) x := by
  unfold State.freeHeldMisfit
  have hh : (withRaster s x).held = s.held := rfl
  rw [hh]
  split
  · have hg : (withRaster s x).st = s.st := rfl
    rw [hg]
    split <;> rfl
  · rfl

theorem dropMisfits_withRaster (t : TimingSet) (x : Raster) :
    (withRaster s x).dropMisfits t = withRaster (s.dropMisfits t) x := by
  exact List.foldl_hom (g₁ := State.dropSurface) (g₂ := State.dropSurface)
    (l := s.pq.queue.filter fun e => !s.entryFits t e)
    (init := { s with pq := { s.pq with queue := s.pq.queue.filter (s.entryFits t) } })
    (fun u => withRaster u x) fun _ _ => rfl

/-- A timing set comes into force without a look at the raster state (R92). -/
theorem timingInForce_withRaster (t : TimingSet) (x : Raster) :
    (withRaster s x).timingInForce t = withRaster (s.timingInForce t) x := by
  unfold State.timingInForce
  dsimp only
  rw [← dropMisfits_withRaster, ← freeHeldMisfit_withRaster]
  rfl

/-- What begins after a frame begins without a look at the raster state (R91). -/
theorem nextFrame_withRaster (x : Raster) : (withRaster s x).nextFrame = s.nextFrame := by
  have hp : (withRaster s x).rtm.pendingSet = s.rtm.pendingSet := rfl
  unfold State.nextFrame
  rw [hp]
  split
  · rw [timingInForce_withRaster]
    rfl
  · rfl

theorem moves_nextFrame (hf : inFrame s.rtm.raster = false) : Moves s s.nextFrame := by
  unfold State.nextFrame
  split
  · rename_i t _
    have hr : (s.timingInForce t).rtm.raster = s.rtm.raster := by unfold State.timingInForce; simp
    have hi : Moves s (s.timingInForce t) := (Move.inForce t hf).moves
    dsimp only
    split
    · exact hi.trans (moves_enterOff _ (by rw [hr]; exact hf))
    · exact hi.trans (moves_enterSettle _ t (by rw [hr]; exact hf))
  · split
    · exact moves_enterOff s hf
    · exact moves_enterFrontMin s hf

/-- The frame ends with its surfaces settled, and what follows begins outside it (R91). -/
theorem moves_endOfActive : Moves s (endOfActive s) := by
  unfold endOfActive
  split
  · exact .refl s
  · split
    · have hs : Moves s (withRaster s.handRecord.settleSurfaces.endFrame .frontMin) := by
        have hrt : s.handRecord.settleSurfaces.rtm = s.handRecord.rtm := by simp
        have hm := (Move.handed (s := s)).moves.tail (.settled { s.handRecord.settleSurfaces.rtm with
          raster := .frontMin, frame := none, lag := none } (by rw [hrt]) (by rw [hrt]))
        exact hm.trans (moves_fetcher _ _)
      have hn := moves_nextFrame (withRaster s.handRecord.settleSurfaces.endFrame .frontMin) rfl
      rw [nextFrame_withRaster] at hn
      exact hs.trans hn
    · exact .refl s

/-! ## The commands of the command page -/

/-- The surface that an identifier names is defined (R10, R12, R35, R56, R60). -/
theorem definedSurface_some {id : BitVec 8} {i : Fin 8} (h : s.definedSurface id = some i) :
    (s.st.get i).geo.defined = true := by
  unfold State.definedSurface at h
  split at h
  · split at h
    · rename_i hd
      cases h
      exact hd
    · cases h
  · cases h

theorem moves_openFrame (id : BitVec 8) : Moves s (openFrame id s) := by
  unfold openFrame
  split
  · exact moves_result ..
  · rename_i i hi
    dsimp only
    split
    · exact moves_result ..
    · rename_i hf
      split
      · exact moves_result ..
      · rename_i ht
        exact (Move.opened i (definedSurface_some s hi) (by simpa using hf) (by simpa using ht)).moves.trans
          (moves_result ..)

theorem moves_release (id : BitVec 8) (first last : BitVec 16) : Moves s (release id first last s) := by
  unfold release
  split
  · exact moves_result ..
  · dsimp only
    split
    · exact moves_result ..
    · rename_i i _ hf
      split
      · exact moves_result ..
      · split
        · exact moves_result ..
        · exact (Move.released i _ _ _ hf).moves.trans (moves_result ..)

theorem moves_abandon (id : BitVec 8) : Moves s (abandon id s) := by
  unfold abandon
  split
  · exact moves_result ..
  · split
    · exact moves_result ..
    · exact moves_result ..
    · exact moves_result ..
    · rename_i h
      exact (Move.abandoned _ (.inl h)).moves.trans (moves_result ..)
    · rename_i h
      exact (Move.abandoned _ (.inr h)).moves.trans (moves_result ..)

theorem moves_present (id : BitVec 8) (a b : BitVec 16) : Moves s (present id a b s) := by
  unfold present
  split
  · exact moves_result ..
  · split
    · exact moves_result ..
    · split
      · exact moves_result ..
      · exact moves_result ..
      · exact moves_result ..
      · exact moves_result ..
      · rename_i hr
        split
        · exact moves_result ..
        · rename_i hq
          split
          · rename_i hs
            exact (Move.enqueued _ _ _ _ hr (by omega) hs).moves.trans (moves_result ..)
          · exact moves_result ..

theorem moves_withdraw (id : BitVec 8) : Moves s (withdraw id s) := by
  unfold withdraw
  split
  · exact moves_result ..
  · split
    · rename_i h
      exact (Move.withdrawn _ h).moves.trans (moves_result ..)
    · exact moves_result ..

theorem moves_commitSurface (entry : BitVec 16) : Moves s (commitSurface entry s) := by
  unfold commitSurface
  split
  · exact moves_result ..
  · dsimp only
    split
    · exact moves_result ..
    · rename_i i _ hf
      have hf : (s.st.get i).state = .free := by simpa using hf
      split
      · exact (Move.undefined i hf).moves.trans (moves_result ..)
      · unfold State.defineSurface
        split
        · exact moves_result ..
        · split
          · rename_i hg
            split
            · exact moves_result ..
            · rename_i ho
              exact (Move.defined i _ _ hf hg (by simpa using ho)).moves.trans (moves_result ..)
          · exact moves_result ..

theorem moves_commitTiming (entry : BitVec 16) : Moves s (commitTiming entry s) := by
  have hi : ∀ t, Moves s (s.installTiming t) := by
    intro t
    unfold State.installTiming
    split
    · rename_i hr
      exact (Move.inForce t (by rw [hr]; rfl)).moves
    all_goals exact (Move.raster { s.rtm with pendingSet := some t } rfl rfl id).moves
  unfold commitTiming
  split
  · exact moves_result ..
  · split
    · exact moves_result ..
    · split
      · exact (hi _).trans (moves_result ..)
      · exact moves_result ..

theorem moves_commitFetch (entry : BitVec 16) : Moves s (commitFetch entry s) := by
  have hi : ∀ f, Moves s (s.installFetch f) := by
    intro f
    unfold State.installFetch
    split
    · exact moves_fetchInForce s f
    all_goals exact moves_fetcher s _
  unfold commitFetch
  split
  · exact moves_result ..
  · split
    · exact moves_result ..
    · exact (hi _).trans (moves_result ..)

theorem moves_commitNotice (entry : BitVec 16) : Moves s (commitNotice entry s) := by
  unfold commitNotice
  split
  · exact moves_result ..
  · split
    · exact moves_result ..
    · rename_i e _ _ n _
      have hn : Moves s (s.installNotice e n) := (Move.reports (s := s) (s.installNotice e n).rw ⟨rfl, rfl, rfl, le_rfl, id⟩).moves
      exact (hn.trans (moves_result ..)).trans (moves_settleAge _)

theorem moves_commitMarker (entry : BitVec 16) : Moves s (commitMarker entry s) := by
  unfold commitMarker
  split
  · exact moves_result ..
  · split
    · exact moves_result ..
    · exact (moves_port s _).trans (moves_result ..)

theorem moves_commitReport (entry : BitVec 16) : Moves s (commitReport entry s) := by
  unfold commitReport
  split
  · exact moves_result ..
  · dsimp only
    split
    · exact moves_result ..
    · exact ((Move.areaOff (s := s)).moves.trans (moves_result ..)).trans (moves_settleAge _)
    · unfold State.enableReport
      split
      · exact moves_result ..
      · rename_i hb
        split
        · exact moves_result ..
        · rename_i ho
          simp only [not_or, not_not, not_lt] at hb
          simp only [Bool.or_eq_true, not_or, Bool.not_eq_true] at ho
          exact ((Move.areaOn _ hb.1 hb.2 ho.1 ho.2).moves.trans (moves_result ..)).trans (moves_settleAge _)

theorem moves_outputOn : Moves s (outputOn s) := by
  unfold outputOn
  split
  · exact moves_result ..
  · split
    · rename_i hr
      exact (moves_enterSettle s _ (by rw [hr]; rfl)).trans (moves_result ..)
    all_goals exact moves_result ..

theorem moves_outputOff : Moves s (outputOff s) := by
  have hr : Moves s s.stopRaster := by
    have hp : Moves s { s with rtm := { s.rtm with offPending := true } } :=
      (Move.raster { s.rtm with offPending := true } rfl rfl id).moves
    unfold State.stopRaster
    split
    · exact .refl s
    · rename_i h
      exact moves_enterOff s (by rw [h]; rfl)
    · rename_i h
      exact moves_enterOff s (by rw [h]; rfl)
    · rename_i h
      exact moves_enterOff s (by rw [h]; rfl)
    · exact hp
    · exact hp
  exact hr.trans (moves_result ..)

theorem moves_clearEvents (b c : BitVec 16) : Moves s (clearEvents b c s) :=
  (Move.reports { s.rw.clearFlags c with causes := if b.getLsbD 0 then .none else s.rw.causes }
    ((ReportsMove.clearFlags s.rw c).trans ⟨rfl, rfl, rfl, le_rfl, id⟩)).moves.trans (moves_result _ .control 0x23 .ok)

theorem moves_viewSelect (a : BitVec 16) : Moves s (viewSelect a s) := by
  unfold viewSelect
  split
  · rename_i page _
    exact (Move.reports { s.rw with page := page } ⟨rfl, rfl, rfl, le_rfl, id⟩).moves.trans (moves_result ..)
  · exact moves_result ..

theorem moves_softReset : Moves s (softReset s) := by
  have hc : s.rtm.cutFrame.timing = s.rtm.timing ∧ s.rtm.cutFrame.frameCount = s.rtm.frameCount ∧
      s.rtm.cutFrame.raster = s.rtm.raster := by
    unfold RasterTimer.cutFrame
    split <;> exact ⟨rfl, rfl, rfl⟩
  have hd : Moves s { s with cd := { s.cd with render := .zero, present := .zero, control := .zero } } :=
    (Move.decoder { s.cd with render := .zero, present := .zero, control := .zero } rfl).moves
  have hr := ((hd.tail .allFreed).tail (.reports _ (.softReset s.rw))).tail
    (.raster s.rtm.cutFrame hc.1 hc.2.1 (by rw [hc.2.2]; exact id))
  exact (hr.trans (moves_fetcher _ s.sf.softReset)).trans (moves_result ..)

theorem moves_tableData (value : BitVec 64) : Moves s (tableData value s) := by
  unfold tableData
  split
  · refine (Move.decoder _ ?_).moves
    rfl
  · exact moves_result ..

/-- Every command of the command page is made of changes (R155). -/
theorem moves_runCommand (i : Instr) : Moves s (runCommand i s) := by
  cases i with
  | openFrame id => exact moves_openFrame s id
  | release id first last => exact moves_release s id first last
  | abandon id => exact moves_abandon s id
  | present id a b => exact moves_present s id a b
  | withdraw id => exact moves_withdraw s id
  | commitSurface e => exact moves_commitSurface s e
  | commitTiming e => exact moves_commitTiming s e
  | commitFetch e => exact moves_commitFetch s e
  | commitNotice e => exact moves_commitNotice s e
  | commitMarker e => exact moves_commitMarker s e
  | commitReport e => exact moves_commitReport s e
  | outputOn => exact moves_outputOn s
  | outputOff => exact moves_outputOff s
  | clearEvents b c => exact moves_clearEvents s b c
  | viewSelect a => exact moves_viewSelect s a
  | softReset => exact moves_softReset s
  | unknown lane code => exact moves_result s lane code .unknown
  | wrongLane lane code => exact moves_result s lane code .wrongLane
  | tableIndex v => exact (Move.decoder { s.cd with index := indexOf v } rfl).moves
  | tableData v => exact moves_tableData s v
  | reportNow v => exact moves_mark s
  | misplacedWrite => exact moves_raise s _
  | powerOnReset | linkReset | crstRelease | linkUpChange | requestAccept | consoleResponse | fetchResponse
  | reportAck | strayResponse | grant | channelFree | statusWriteBegin | lineBoundary | settleDone | frontMinEnd
  | stretchBoundary | stretchExpiry | activeStart | activeLine | endOfActive => exact .refl s

/-! ## The pins (R98, R128, R146) -/

theorem moves_linkReset : Moves s (linkReset s) := by
  unfold linkReset
  split
  · exact .refl s
  · have hb : Moves s { s with bt := s.bt.linkReset s.rtm.now s.st } := Move.drained.moves
    exact ((hb.tail (.traffic s.tc.linkReset)).trans (moves_raise _ .linkReset)).tail
      (.reports _ ⟨rfl, rfl, rfl, le_rfl, id⟩)

theorem moves_linkUpChange (level : Bool) (sent : Nat) : Moves s (linkUpChange level sent s) := by
  unfold linkUpChange
  split
  · exact .refl s
  · exact (moves_port s _).trans (moves_raise _ _)

/-! ## The console's traffic (R138, R144) -/

theorem moves_lateWrite (i : Fin 8) : Moves s (s.lateWrite i) := by
  have hl : Moves s { s with st := s.st.modify i fun f => { f with late := satInc 65535 f.late } } := (Move.late i).moves
  unfold State.lateWrite
  dsimp only
  split
  · exact (hl.trans (moves_onRecord _ _)).trans (moves_raise _ _)
  · exact hl.trans (moves_raise _ _)

/-- An offer to be tracked is of an OPEN band of a surface in use, its tag not in the table, which isn't full (R29,
R30). -/
theorem offer_track {r : Request} {i : Fin 8} {b : Fin 128} (h : s.offer r = .track i b) :
    (s.st.get i).state ≠ .free ∧ (s.bt.band i b).status = .opened ∧ s.bt.wtt.get r.tag = none ∧
      s.bt.occupancy < Config.wttSize := by
  unfold State.offer at h
  split at h
  · cases h
  · split at h
    · cases h
    · split at h
      · cases h
      · rename_i j hj
        have hin := (holds_iff_inExtent s j r.addr).1 (Table.find_some hj)
        unfold State.decideOffer at h
        dsimp only at h
        split at h
        · cases h
        · cases h
        · rename_i ho
          (repeat' split at h) <;> cases h
          rename_i ht hw
          exact ⟨hin.2.1, ho, by simpa using ht, by omega⟩

/-- The action that an accepted request's offer asks for (R30, R32, R33). -/
theorem moves_takeOffer {tag : Fin 256} {o : Offer} (h : ∀ i b, o = .track i b →
    (s.st.get i).state ≠ .free ∧ (s.bt.band i b).status = .opened ∧ s.bt.wtt.get tag = none ∧
      s.bt.occupancy < Config.wttSize) : Moves s (s.takeOffer tag o) := by
  unfold State.takeOffer
  split
  · exact .refl s
  · exact .refl s
  · exact moves_lateWrite s _
  · exact moves_linkProtocol s _ _
  · obtain ⟨hi, hb, ht, ho⟩ := h _ _ rfl
    exact (Move.tracked tag _ _ hi hb ht ho).moves

theorem moves_decodeBeats (r : Request) : Moves s (s.decodeBeats r) :=
  State.decodeBeats_keeps s (Moves s) (fun i u h => h.trans (moves_runCommand u i))
    (fun u h => h.trans (moves_result u .control 0x20 .range)) r (.refl s)

/-- A check of an acceptance raises a link fault or nothing, and changes no surface and no band (R138). -/
theorem moves_check (b : Bool) (c : FaultCause) (n : Nat) :
    Moves s (if b then s.linkProtocol c n else s) ∧ (if b then s.linkProtocol c n else s).st = s.st ∧
      (if b then s.linkProtocol c n else s).bt = s.bt := by
  cases b
  · exact ⟨.refl s, rfl, rfl⟩
  · exact ⟨moves_linkProtocol s c n, rfl, rfl⟩

theorem moves_accept (r : Request) (rest : List Request) (o : Offer)
    (h : ∀ i b, o = .track i b → s.offer r = .track i b) : Moves s (s.accept r rest o) := by
  have h0 : Moves s (headTaken rest s) := (Move.stalled (s := s) false).moves.tail (.traffic _)
  unfold State.accept
  dsimp only
  refine .tail ?_ (.traffic _)
  obtain ⟨h1, hst1, hbt1⟩ := moves_check (headTaken rest s) (crosses r.addr.toNat r.beats) .crossing r.tag.val
  unfold headTaken at h0 h1 hst1 hbt1
  generalize hu : (if crosses r.addr.toNat r.beats = true then
    State.linkProtocol { s with tc := { s.tc with arrivals := rest }, bt := { s.bt with stall := false } } .crossing
      r.tag.val else { s with tc := { s.tc with arrivals := rest }, bt := { s.bt with stall := false } }) = u
  rw [hu] at h1 hst1 hbt1
  obtain ⟨h2, hst2, hbt2⟩ := moves_check u (u.raisesReuse r.tag o) .tagReuse r.tag.val
  generalize (if u.raisesReuse r.tag o = true then u.linkProtocol .tagReuse r.tag.val else u) = v at h2 hst2 hbt2
  have hv : Moves s v := (h0.trans h1).trans h2
  split
  · exact hv.trans (moves_decodeBeats v r)
  · refine hv.trans (moves_takeOffer v fun i b ho => ?_)
    have hw := offer_track s (h i b ho)
    unfold BandTracker.band BandTracker.occupancy at hw ⊢
    rw [hst2, hst1, hbt2, hbt1]
    exact hw

theorem moves_tryHead : Moves s s.tryHead := by
  unfold State.tryHead
  split
  · exact .refl s
  · split
    · split
      · unfold State.stallWrite
        split
        · exact .refl s
        · exact (Move.stalled (s := s) true).moves.trans (moves_raise _ _)
      all_goals exact moves_accept s _ _ _ fun i b h => by simp_all
    · exact .refl s

theorem moves_consoleResponse (tag : Fin 256) (kind : RespKind) (status : Status) (data : List (BitVec 64)) :
    Moves s (consoleResponse tag kind status data s) := by
  have h0 : Moves s { s with tc := { s.tc with returned := none } } := (Move.traffic _).moves
  unfold consoleResponse
  dsimp only
  split
  · exact h0.tail (.traffic _)
  · split
    · exact h0.trans (moves_linkProtocol _ _ _)
    · split
      · exact ((h0.tail (.traffic _)).tail (.acknowledged tag status)).tail (.traffic _)
      · exact (h0.tail (.traffic _)).tail (.traffic _)

/-! ## The M-port (R112, R151, R179, R182) -/

theorem moves_fetchResponse (n : Fin 64) (kind : RespKind) (status : Status) (data : List (BitVec 64)) :
    Moves s (fetchResponse n kind status data s) := by
  unfold fetchResponse
  split
  · exact moves_linkProtocol s _ _
  · exact moves_linkProtocol s _ _
  · refine Moves.trans (u := _) (moves_fetcher s _) (t := s.freeRead n) ?_
    generalize s.freeRead n = u
    unfold State.readData
    split
    · exact .refl u
    · split
      · unfold State.completeBurst
        split
        · exact .refl u
        · dsimp only
          split
          · exact (moves_fetcher u _).tail (.queue _ _)
          · exact moves_fetcher u _
      · exact ((moves_fetcher u _).trans (moves_raise _ _)).trans (moves_onRecord _ _)

theorem moves_reportAck (n : Fin 16) (status : Status) : Moves s (reportAck n status s) := by
  unfold reportAck
  split
  · exact moves_linkProtocol s _ _
  · rename_i w _
    have h0 : ReportsMove s.rw { s.rw with tags := s.rw.tags.set n none } := ⟨rfl, rfl, rfl, le_rfl, id⟩
    cases status with
    | ok => exact (Move.reports _ (h0.trans (.ackWrite _ w))).moves
    | error => exact (Move.reports _ ((h0.trans (.ackFault _ w)).trans (.ackWrite _ w))).moves

theorem moves_statusWriteBegin : Moves s (statusWriteBegin s) := by
  unfold statusWriteBegin
  split
  · refine (Move.reports _ ?_).moves
    exact ⟨rfl, rfl, rfl, le_rfl, id⟩
  · exact .refl s

/-- The report wait age never passes its limit (R149). -/
theorem aged_le : s.aged ≤ Config.reportAgeLimit := by
  unfold State.aged
  split
  · exact min_le_left _ _
  · exact Nat.zero_le _

theorem moves_grantFetch (grade : Claimant) : Moves s (s.grantFetch grade) := by
  unfold State.grantFetch
  split
  · rename_i slot src i n _ _
    exact (Move.arbiter { channel := some { claimant := grade, request := burstRequest n slot src _ i }, age := s.aged }
      (.inl (aged_le s))).moves.trans (moves_fetcher _ _)
  · exact .refl s

theorem moves_grant : Moves s (grant s) := by
  unfold grant
  split
  · exact .refl s
  · split
    · exact .refl s
    · exact moves_grantFetch s _
    · unfold State.grantPass
      split
      · exact .refl s
      · rename_i r _ _
        exact (Move.arbiter { channel := some { claimant := .pass, request := onMPort r }, age := s.aged }
          (.inl (aged_le s))).moves.tail (.traffic _)
    · exact moves_grantFetch s _
    · unfold State.grantReport
      split
      · rename_i w n hw _
        exact (Move.reports _ (.issue s.rw n hw)).moves.tail (.arbiter _ (.inl (Nat.zero_le _)))
      · exact .refl s

/-! ## Every step -/

theorem moves_exec (c : Instr) {t : State} (h : exec c s = .next t) : Moves s t := by
  cases c with
  | powerOnReset wsel linkUp crst => cases h; exact (Move.poweredOn wsel linkUp crst).moves
  | linkReset => cases h; exact moves_linkReset s
  | crstRelease => cases h; exact (Move.traffic _).moves
  | linkUpChange level sent => cases h; exact moves_linkUpChange s level sent
  | requestAccept arriving => cases h; exact (Move.traffic _).moves.trans (moves_tryHead _)
  | openFrame id => cases h; exact moves_openFrame s id
  | release id first last => cases h; exact moves_release s id first last
  | abandon id => cases h; exact moves_abandon s id
  | present id a b => cases h; exact moves_present s id a b
  | withdraw id => cases h; exact moves_withdraw s id
  | commitSurface e => cases h; exact moves_commitSurface s e
  | commitTiming e => cases h; exact moves_commitTiming s e
  | commitFetch e => cases h; exact moves_commitFetch s e
  | commitNotice e => cases h; exact moves_commitNotice s e
  | commitMarker e => cases h; exact moves_commitMarker s e
  | commitReport e => cases h; exact moves_commitReport s e
  | outputOn => cases h; exact moves_outputOn s
  | outputOff => cases h; exact moves_outputOff s
  | clearEvents b c => cases h; exact moves_clearEvents s b c
  | viewSelect a => cases h; exact moves_viewSelect s a
  | softReset => cases h; exact moves_softReset s
  | unknown lane code => cases h; exact moves_runCommand s (.unknown lane code)
  | wrongLane lane code => cases h; exact moves_runCommand s (.wrongLane lane code)
  | tableIndex v => cases h; exact moves_runCommand s (.tableIndex v)
  | tableData v => cases h; exact moves_tableData s v
  | reportNow v => cases h; exact moves_mark s
  | misplacedWrite => cases h; exact moves_raise s _
  | consoleResponse tag kind status data => cases h; exact moves_consoleResponse s tag kind status data
  | fetchResponse n kind status data => cases h; exact moves_fetchResponse s n kind status data
  | reportAck n status => cases h; exact moves_reportAck s n status
  | strayResponse tag kind status =>
    cases h
    unfold strayResponse
    split
    · exact moves_linkProtocol s _ _
    · split
      · exact moves_linkProtocol s _ _
      · exact .refl s
  | grant => cases h; exact moves_grant s
  | channelFree => cases h; exact (Move.arbiter { s.ma with channel := none } (.inr rfl)).moves
  | statusWriteBegin => cases h; exact moves_statusWriteBegin s
  | lineBoundary => cases h; exact moves_lineBoundary s
  | settleDone => cases h; exact moves_settleDone s
  | frontMinEnd => cases h; exact moves_frontMinEnd s
  | stretchBoundary => cases h; exact moves_stretchBoundary s
  | stretchExpiry => cases h; exact moves_stretchExpiry s
  | activeStart => cases h; exact moves_activeStart s
  | activeLine => cases h; exact moves_activeLine s
  | endOfActive => cases h; exact moves_endOfActive s

/-- Every step is made of changes. -/
theorem moves_step {t : State} (h : step s = .next t) : Moves s t := by
  unfold step at h
  split at h
  · cases h
    exact (Move.raster s.rtm.endLine (by simp) (by simp) (by simp)).moves
  · exact (Move.queue _ _).moves.trans (moves_exec _ _ h)

end Sys2Proof.Safety
end

