-- ==== Sys2Proof/Proofs/Presentation.lean ====
section
/-! Laws 5 to 7: every change keeps the queue, the surface states and their sizes. -/

namespace Sys2Proof.Safety

open Sys2Proof.Machine

/-! ## What a power-on reset leaves -/

/-- Every block but the port and the reports is as after reset: the levels of the pins reach those two, the C-port and
the window alone (R98). -/
theorem powerOnReset_blocks (wsel : BitVec 4) (linkUp crst : Bool) (s : State) :
    (powerOnReset wsel linkUp crst s).st = State.reset.st ∧ (powerOnReset wsel linkUp crst s).bt = State.reset.bt ∧
    (powerOnReset wsel linkUp crst s).pq = State.reset.pq ∧ (powerOnReset wsel linkUp crst s).rtm = State.reset.rtm ∧
    (powerOnReset wsel linkUp crst s).sf = State.reset.sf ∧ (powerOnReset wsel linkUp crst s).ma = State.reset.ma := by
  unfold powerOnReset linkUpChange
  dsimp only
  split <;> exact ⟨rfl, rfl, rfl, rfl, rfl, rfl⟩

@[simp] theorem reset_st_get (i : Fin 8) : State.reset.st.get i = Surface.powerOn := Table.get_replicate i _

@[simp] theorem reset_bands_get (i : Fin 8) : State.reset.bt.bands.get i = Bands.cleared := Table.get_replicate i _

@[simp] theorem cleared_get (b : Fin 128) : Bands.cleared.get b = Band.cleared := Table.get_replicate b _

/-! ## Changes that add no entry and no sized surface -/

/-- No more surfaces are SCANNING or HELD, and none outside a frame (R8). -/
theorem ScanLawful.mono {s t : State} (hs : ScanLawful s)
    (hscan : ∀ i, (t.st.get i).state = .scanning → (s.st.get i).state = .scanning)
    (hheld : ∀ i, (t.st.get i).state = .held → (s.st.get i).state = .held)
    (hf : inFrame t.rtm.raster = false → inFrame s.rtm.raster = false) : ScanLawful t :=
  ⟨fun i j hi hj => hs.1 i j (hscan i hi) (hscan j hj), fun i j hi hj => hs.2.1 i j (hheld i hi) (hheld j hj),
    fun h i hi => hs.2.2 (hf h) i (hscan i hi)⟩

/-- Entries may leave the queue, and surfaces be freed, while the QUEUED surfaces stay those of the queue (R16, R53). -/
theorem Presentation.shrink {s t : State} (hs : Presentation s) (hsub : t.pq.queue.Sublist s.pq.queue)
    (hq : ∀ i, (t.st.get i).state = .queued ↔ i ∈ t.pq.queue.map Entry.surface)
    (hz : ∀ i, SurfState.sized (t.st.get i).state = true → SurfState.sized (s.st.get i).state = true)
    (hg : ∀ i, (s.st.get i).state ≠ .free → (t.st.get i).geo = (s.st.get i).geo) (ht : t.rtm.timing = s.rtm.timing)
    (hl : ScanLawful t) : Presentation t := by
  obtain ⟨⟨hlen, hnd, -⟩, -, hsz⟩ := hs
  refine ⟨⟨hsub.length_le.trans hlen, hnd.sublist (hsub.map _), hq⟩, hl, fun i hi => ?_⟩
  have hi' := hz i hi
  rw [hg i (fun h => by rw [h] at hi'; cases hi'), ht]
  exact hsz i hi'

/-- What the laws 5 to 7 look at. -/
theorem Presentation.congr {s t : State} (hs : Presentation s) (hst : ∀ i, (t.st.get i).state = (s.st.get i).state)
    (hg : ∀ i, (s.st.get i).state ≠ .free → (t.st.get i).geo = (s.st.get i).geo) (hq : t.pq.queue = s.pq.queue)
    (ht : t.rtm.timing = s.rtm.timing) (hf : inFrame t.rtm.raster = false → inFrame s.rtm.raster = false) :
    Presentation t :=
  hs.shrink (by rw [hq]) (fun i => by rw [hst, hq]; exact hs.1.2.2 i) (fun i => by rw [hst]; exact id) hg ht
    (hs.2.1.mono (fun i => by rw [hst]; exact id) (fun i => by rw [hst]; exact id) hf)

/-- A surface leaves the queue, or was not in it, and is FREE or RENDERING (R10, R12, R60). -/
theorem Presentation.leave {s t : State} (hs : Presentation s) (i : Fin 8) {x : SurfState}
    (hx : x = .free ∨ x = .rendering)
    (hst : ∀ j, (t.st.get j).state = if j = i then x else (s.st.get j).state)
    (hg : ∀ j, (s.st.get j).state ≠ .free → (t.st.get j).geo = (s.st.get j).geo)
    (hq : t.pq.queue = s.pq.queue.filter fun e => decide (e.surface ≠ i)) (hr : t.rtm = s.rtm) : Presentation t := by
  refine hs.shrink (by rw [hq]; exact List.filter_sublist) (fun j => ?_) (fun j => ?_) hg (by rw [hr])
    (hs.2.1.mono (fun j => ?_) (fun j => ?_) (by rw [hr]; exact id))
  · have hj := hs.1.2.2 j
    rw [hst, hq]
    simp only [List.mem_map, List.mem_filter, decide_eq_true_eq] at hj ⊢
    split
    · rename_i hji
      refine iff_of_false (by rcases hx with rfl | rfl <;> decide) ?_
      rintro ⟨e, ⟨-, he⟩, rfl⟩
      exact he hji
    · rename_i hji
      rw [hj]
      constructor
      · rintro ⟨e, he, rfl⟩
        exact ⟨e, ⟨he, hji⟩, rfl⟩
      · rintro ⟨e, ⟨he, -⟩, rfl⟩
        exact ⟨e, he, rfl⟩
  all_goals
    rw [hst]
    split
    · rcases hx with rfl | rfl <;> intro h <;> cases h
    · exact id

/-! ## Changes that enqueue, take, settle or drop -/

/-- An entry joins the queue with its surface, which has the size of the set in force (R54, R56). -/
theorem Presentation.enqueue {s : State} (hs : Presentation s) {i : Fin 8} {m : Mode} {l : Bool} {a : Nat}
    (hi : (s.st.get i).state = .rendering) (hq : s.pq.queue.length < Config.queueSize) (hz : s.sizeMatches i = true) :
    Presentation (s.enqueue i m l a) := by
  obtain ⟨⟨-, hnd, hQ⟩, hscan, hsz⟩ := hs
  have hni : i ∉ s.pq.queue.map Entry.surface := fun h => by have := (hQ i).2 h; rw [hi] at this; cases this
  have hpq : ∃ e : Entry, e.surface = i ∧ (s.enqueue i m l a).pq.queue = s.pq.queue ++ [e] := ⟨_, rfl, rfl⟩
  have hst : ∀ j, ((s.enqueue i m l a).st.get j).state = if j = i then .queued else (s.st.get j).state := by
    intro j
    rw [State.enqueue_st, Table.get_modify]
    split <;> rfl
  have hg : ∀ j, ((s.enqueue i m l a).st.get j).geo = (s.st.get j).geo := by
    intro j
    rw [State.enqueue_st, Table.get_modify]
    split <;> rfl
  obtain ⟨e, rfl, hpq⟩ := hpq
  refine ⟨⟨?_, ?_, fun j => ?_⟩, hscan.mono (fun j => ?_) (fun j => ?_) id, fun j => ?_⟩
  · rw [hpq, List.length_append]
    exact hq
  · rw [hpq, List.map_append, List.nodup_append]
    refine ⟨hnd, List.nodup_singleton _, ?_⟩
    rintro x hx y hy rfl
    rw [List.map_singleton, List.mem_singleton] at hy
    exact hni (hy ▸ hx)
  · rw [hst, hpq, List.map_append, List.mem_append]
    simp only [List.map_cons, List.map_nil, List.mem_singleton]
    split
    · simp [*]
    · rename_i hj
      simp [hj, hQ j]
  · rw [hst]; split <;> simp
  · rw [hst]; split <;> simp
  · rw [hst, hg]
    split
    · rename_i hj
      intro _
      subst hj
      unfold State.sizeMatches at hz
      cases ht : s.rtm.timing with
      | none => rw [ht] at hz; cases hz
      | some t => rw [ht] at hz; exact ⟨t, ht, hz⟩
    · exact hsz j

/-- A selection takes an entry: its surface is the one SCANNING (R8, R67, R68). -/
theorem Presentation.takeEntry {s : State} (hs : Presentation s) {older newer : List Entry} {e : Entry}
    {r : RasterTimer} (hq : s.pq.queue = older ++ e :: newer) (hn : ∀ i, (s.st.get i).state ≠ .scanning)
    (ht : r.timing = s.rtm.timing) (hf : inFrame r.raster = true) :
    Presentation { s.takeEntry older e newer with rtm := r } := by
  have hst : ∀ j, ((s.takeEntry older e newer).st.get j).state =
      if j = e.surface then .scanning else if j ∈ older.map Entry.surface then .free else (s.st.get j).state := by
    intro j
    rw [State.takeEntry_st]
    (repeat' split) <;> rfl
  have hg : ∀ j, ((s.takeEntry older e newer).st.get j).geo = (s.st.get j).geo := by
    intro j
    rw [State.takeEntry_st]
    (repeat' split) <;> rfl
  have hnd := hs.1.2.1
  rw [hq, List.map_append, List.map_cons, List.nodup_append, List.nodup_cons] at hnd
  obtain ⟨-, ⟨hen, -⟩, hdis⟩ := hnd
  have hQ : ∀ j, (s.st.get j).state = .queued ↔
      j ∈ older.map Entry.surface ∨ j = e.surface ∨ j ∈ newer.map Entry.surface := by
    intro j
    rw [hs.1.2.2 j, hq, List.map_append, List.map_cons, List.mem_append, List.mem_cons]
  refine Presentation.shrink (s := s) hs ?_ (fun j => ?_) (fun j => ?_) (fun j _ => hg j) ht
    ⟨fun i j hi hj => ?_, fun i j hi hj => ?_, fun h => absurd h (by simp [hf])⟩
  · show (s.takeEntry older e newer).pq.queue.Sublist _
    rw [State.takeEntry_pq, hq]
    exact (List.sublist_cons_self _ _).trans (List.sublist_append_right _ _)
  · show ((s.takeEntry older e newer).st.get j).state = _ ↔ j ∈ (s.takeEntry older e newer).pq.queue.map _
    rw [hst, State.takeEntry_pq]
    split
    · rename_i hj
      subst hj
      simpa using hen
    · split
      · rename_i hj
        refine iff_of_false (by decide) fun h => ?_
        exact hdis j hj j (List.mem_cons_of_mem _ h) rfl
      · rename_i h1 h2
        rw [hQ j]
        tauto
  · show SurfState.sized ((s.takeEntry older e newer).st.get j).state = true → _
    rw [hst]
    split
    · rename_i hj
      rw [(hQ j).2 (.inr (.inl hj))]
      exact fun _ => rfl
    · split
      · intro h; cases h
      · exact id
  · have hone : ∀ j, ((s.takeEntry older e newer).st.get j).state = .scanning → j = e.surface := by
      intro j
      rw [hst]
      split
      · exact fun _ => ‹_›
      · split
        · intro h; cases h
        · exact fun h => absurd h (hn j)
    exact (hone i hi).trans (hone j hj).symm
  · have hsub : ∀ j, ((s.takeEntry older e newer).st.get j).state = .held → (s.st.get j).state = .held := by
      intro j
      rw [hst]
      (repeat' split) <;> simp
    exact hs.2.1.2.1 i j (hsub i hi) (hsub j hj)

/-- The SCANNING surface is freed, and none is SCANNING (R15). -/
theorem Presentation.freeScanning {s : State} (hs : Presentation s) :
    Presentation s.freeScanning ∧ ∀ i, (s.freeScanning.st.get i).state ≠ .scanning := by
  have hfs := (scanningFreed_freeScanning s hs.2.1.1).1
  have hst : ∀ i, (s.freeScanning.st.get i).state = (if (s.st.get i).state = .scanning then .free
      else (s.st.get i).state) ∧ (s.freeScanning.st.get i).geo = (s.st.get i).geo := by
    intro i
    split
    · rw [((hfs i).1 ‹_›).1]; exact ⟨rfl, rfl⟩
    · rw [((hfs i).2 ‹_›).1]; exact ⟨rfl, rfl⟩
  obtain ⟨-, -, hpq, hrt, -⟩ := s.freeScanning_frame
  have hno : ∀ i, (s.freeScanning.st.get i).state ≠ .scanning := by
    intro i
    rw [(hst i).1]
    split
    · decide
    · assumption
  refine ⟨hs.shrink (by rw [hpq]) (fun i => ?_) (fun i => ?_) (fun i _ => (hst i).2) (by rw [hrt])
    (hs.2.1.mono (fun i hi => absurd hi (hno i)) (fun i => ?_) (by rw [hrt]; exact id)), hno⟩
  · rw [hpq, (hst i).1, ← hs.1.2.2 i]
    split <;> simp [*]
  · rw [(hst i).1]
    split <;> simp [SurfState.sized]
  · rw [(hst i).1]
    split <;> simp

/-- Outside a frame no surface is SCANNING, and one that is is freed by a split (R8, R15). -/
theorem Presentation.taken {s u : State} (hs : Presentation s) {older newer : List Entry} {e : Entry} {r : RasterTimer}
    (hq : s.pq.queue = older ++ e :: newer) (hu : (u = s ∧ inFrame s.rtm.raster = false) ∨ u = s.freeScanning)
    (ht : r.timing = s.rtm.timing) (hf : inFrame r.raster = true) :
    Presentation { u.takeEntry older e newer with rtm := r } := by
  rcases hu with ⟨rfl, hr⟩ | rfl
  · exact hs.takeEntry hq (hs.2.1.2.2 hr) ht hf
  · obtain ⟨-, -, hpq, hrt, -⟩ := s.freeScanning_frame
    exact hs.freeScanning.1.takeEntry (by rw [hpq]; exact hq) hs.freeScanning.2 (by rw [hrt]; exact ht) hf

/-- The surfaces after they are settled: the SCANNING one HELD, and then the one HELD before FREE (R14). -/
theorem settleSurfaces_get (s : State) (h1 : AtMostOne s .scanning) (h2 : AtMostOne s .held) (i : Fin 8) :
    s.settleSurfaces.st.get i = { s.st.get i with
      state := if (s.st.get i).state = .scanning then .held
               else if (s.st.get i).state = .held ∧ ∃ j, (s.st.get j).state = .scanning then .free
               else (s.st.get i).state } ∧
    s.settleSurfaces.bt.bands.get i =
      if (s.st.get i).state = .held ∧ ∃ j, (s.st.get j).state = .scanning then Bands.cleared
      else s.bt.bands.get i := by
  obtain ⟨hscan, hheld, hrest⟩ := (settled_settleSurfaces s h1 h2).1.1 i
  by_cases hi : (s.st.get i).state = .scanning
  · obtain ⟨hst, hb⟩ := hscan hi
    rw [hst, hb]
    simp [hi]
  · by_cases hh : (s.st.get i).state = .held ∧ ∃ j, (s.st.get j).state = .scanning
    · obtain ⟨hst, hb⟩ := hheld hh.2 hh.1
      rw [hst, hb, if_neg hi, if_pos hh, if_pos hh]
      exact ⟨rfl, rfl⟩
    · obtain ⟨hst, hb⟩ := hrest hi (not_and_or.1 hh)
      rw [hst, hb, if_neg hi, if_neg hh, if_neg hh]
      exact ⟨rfl, rfl⟩

/-- The surfaces are settled at the end of a frame, whatever the raster does next (R14, R91). -/
theorem Presentation.settled {s : State} (hs : Presentation s) {r : RasterTimer} (ht : r.timing = s.rtm.timing) :
    Presentation { s.settleSurfaces with rtm := r } := by
  have hget := fun i => (settleSurfaces_get s hs.2.1.1 hs.2.1.2.1 i).1
  have hpq : s.settleSurfaces.pq = s.pq := s.settleSurfaces_frame.2.2.1
  have hno : ∀ i, (s.settleSurfaces.st.get i).state ≠ .scanning := by
    intro i
    rw [hget]
    dsimp only
    split
    · decide
    · split
      · decide
      · assumption
  refine Presentation.shrink (s := s) hs (by rw [hpq]) (fun i => ?_) (fun i => ?_) (fun i _ => ?_) ht
    ⟨fun i j hi => absurd hi (hno i), (settled_settleSurfaces s hs.2.1.1 hs.2.1.2.1).2, fun _ => hno⟩
  · show (s.settleSurfaces.st.get i).state = _ ↔ i ∈ s.settleSurfaces.pq.queue.map _
    rw [hget, hpq, ← hs.1.2.2 i]
    dsimp only
    split
    · simp [*]
    · split
      · rename_i h
        simp [h.1]
      · rfl
  · show SurfState.sized (s.settleSurfaces.st.get i).state = true → _
    rw [hget]
    dsimp only
    split
    · rename_i h
      rw [h]
      exact fun _ => rfl
    · split
      · intro h; cases h
      · exact id
  · show (s.settleSurfaces.st.get i).geo = _
    rw [hget]

/-- A set that comes into force outside a frame frees what has another size (R16, R70, R92). -/
theorem Presentation.inForce {s : State} (hs : Presentation s) (t : TimingSet) (hf : inFrame s.rtm.raster = false) :
    Presentation (s.timingInForce t) := by
  obtain ⟨hrt, -, hfreed, hpq, -⟩ := timingInForce_timingInForce s t hs.2.1.2.1
  have hno := hs.2.1.2.2 hf
  have hfit : ∀ e ∈ s.pq.queue, e ∈ fitting s t ↔ ¬ misfit s t e.surface := by
    intro e he
    unfold fitting misfit
    simp [he]
  have hst : ∀ i, (s.timingInForce t).st.get i = s.st.get i ∧ ¬ freedBy s t i ∨
      ((s.timingInForce t).st.get i).state = .free ∧ freedBy s t i := by
    intro i
    by_cases h : freedBy s t i
    · exact .inr ⟨by rw [((hfreed i).1 h).1], h⟩
    · exact .inl ⟨((hfreed i).2 h).1, h⟩
  have hnd : ((fitting s t).map Entry.surface).Nodup := hs.1.2.1.sublist (List.filter_sublist.map _)
  refine ⟨⟨?_, by rw [hpq]; exact hnd, fun i => ?_⟩, hs.2.1.mono (fun i => ?_) (fun i => ?_) ?_, fun i hi => ?_⟩
  · rw [hpq]
    exact (List.length_filter_le _ _).trans hs.1.1
  · rw [hpq]
    have hQ := hs.1.2.2 i
    simp only [List.mem_map] at hQ ⊢
    rcases hst i with ⟨h, hn⟩ | ⟨h, hfr⟩
    · rw [h, hQ]
      constructor
      · rintro ⟨e, he, rfl⟩
        exact ⟨e, (hfit e he).2 fun hm => hn ⟨hm, .inr ⟨e, he, rfl⟩⟩, rfl⟩
      · rintro ⟨e, he, rfl⟩
        exact ⟨e, List.mem_of_mem_filter he, rfl⟩
    · rw [h]
      refine iff_of_false (by decide) ?_
      rintro ⟨e, he, rfl⟩
      exact (hfit e (List.mem_of_mem_filter he)).1 he hfr.1
  · rcases hst i with ⟨h, -⟩ | ⟨h, -⟩ <;> rw [h] <;> simp
  · rcases hst i with ⟨h, -⟩ | ⟨h, -⟩ <;> rw [h] <;> simp
  · rw [hrt]
    exact id
  · refine ⟨t, by rw [hrt], ?_⟩
    rcases hst i with ⟨h, hn⟩ | ⟨h, -⟩
    · rw [h] at hi ⊢
      by_contra hc
      rw [fits_iff] at hc
      refine hn ⟨hc, ?_⟩
      have hQ := hs.1.2.2 i
      have hsc := hno i
      cases hx : (s.st.get i).state with
      | free => rw [hx] at hi; cases hi
      | rendering => rw [hx] at hi; cases hi
      | queued =>
        obtain ⟨e, he, hei⟩ := List.mem_map.1 (hQ.1 hx)
        exact .inr ⟨e, he, hei⟩
      | scanning => exact absurd hx hsc
      | held => exact .inl rfl
    · rw [h] at hi; cases hi

/-- Without an entry and with every surface FREE the laws 5 to 7 hold. -/
theorem presentation_of_free {s : State} (hq : s.pq.queue = []) (hst : ∀ i, (s.st.get i).state = .free) :
    Presentation s := by
  refine ⟨⟨by rw [hq]; exact Nat.zero_le _, by rw [hq]; exact List.nodup_nil, fun i => ?_⟩,
    ⟨fun i j hi => ?_, fun i j hi => ?_, fun _ i => ?_⟩, fun i hi => ?_⟩
  · rw [hst, hq]
    simp
  · rw [hst] at hi; cases hi
  · rw [hst] at hi; cases hi
  · rw [hst]; decide
  · rw [hst] at hi; cases hi

/-! ## Every change, and every step -/

/-- No entry of the queue is of a surface that isn't QUEUED. -/
theorem Presentation.filter_queue {s : State} (hs : Presentation s) {i : Fin 8} (hi : (s.st.get i).state ≠ .queued) :
    (s.pq.queue.filter fun e => decide (e.surface ≠ i)) = s.pq.queue := by
  rw [List.filter_eq_self]
  intro e he
  have hq := (hs.1.2.2 e.surface).2 (List.mem_map_of_mem he)
  rw [decide_eq_true_eq]
  rintro rfl
  exact hi hq

theorem presentation_powerOnReset (wsel : BitVec 4) (linkUp crst : Bool) (s : State) :
    Presentation (powerOnReset wsel linkUp crst s) := by
  obtain ⟨hst, -, hpq, -⟩ := powerOnReset_blocks wsel linkUp crst s
  exact presentation_of_free (by rw [hpq]; rfl) fun i => by rw [hst, reset_st_get]; rfl

theorem Move.presentation {s t : State} (hs : Presentation s) (h : Move s t) : Presentation t := by
  have hmod : ∀ (i : Fin 8) (f : Surface → Surface), (∀ x, (f x).state = x.state) → ∀ j,
      ((s.st.modify i f).get j).state = (s.st.get j).state := by
    intro i f hf j
    rw [Table.get_modify]
    split
    · exact hf _
    · rfl
  have hset : ∀ (i : Fin 8) (f : Surface → Surface) (x : SurfState), (∀ y, (f y).state = x) → ∀ j,
      ((s.st.modify i f).get j).state = if j = i then x else (s.st.get j).state := by
    intro i f x hf j
    rw [Table.get_modify]
    split
    · exact hf _
    · rfl
  have hgeo : ∀ (i : Fin 8) (f : Surface → Surface), (∀ x, (f x).geo = x.geo) → ∀ j, (s.st.get j).state ≠ .free →
      ((s.st.modify i f).get j).geo = (s.st.get j).geo := by
    intro i f hf j _
    rw [Table.get_modify]
    split
    · exact hf _
    · rfl
  have hins : ∀ (i : Fin 8) (g : Geometry), (s.st.get i).state = .free → Presentation (s.installGeometry i g) := by
    intro i g hi
    refine hs.congr (hmod i _ fun _ => rfl) (fun j hj => ?_) rfl rfl id
    have hji : j ≠ i := by rintro rfl; exact hj hi
    rw [State.installGeometry_st, Table.get_modify_ne _ hji]
  cases h with
  | traffic | decoder | outputs | queue | arbiter | reports | scanned | stalled | released | areaOff | areaOn | tracked
  | drained | handed => exact hs.congr (fun _ => rfl) (fun _ _ => rfl) rfl rfl id
  | raster r ht hc hf => exact hs.congr (fun _ => rfl) (fun _ _ => rfl) rfl ht hf
  | late i => exact hs.congr (hmod i _ fun _ => rfl) (hgeo i _ fun _ => rfl) rfl rfl id
  | opened i hd hf hn =>
    exact hs.leave i (.inr rfl) (hset i _ _ fun _ => rfl) (hgeo i _ fun _ => rfl)
      (hs.filter_queue (by rw [hf]; decide)).symm rfl
  | abandoned i hi => exact hs.leave i (.inl rfl) (hset i _ _ fun _ => rfl) (hgeo i _ fun _ => rfl) rfl rfl
  | enqueued i m l a hi hq hz => exact hs.enqueue hi hq hz
  | withdrawn i hi => exact hs.leave i (.inr rfl) (hset i _ _ fun _ => rfl) (hgeo i _ fun _ => rfl) rfl rfl
  | undefined i hi => exact hins i _ hi
  | defined i g f hi hg ho => exact hins i _ hi
  | inForce t hf => exact hs.inForce t hf
  | allFreed => exact presentation_of_free rfl fun i => by simp [Surface.softReset]
  | poweredOn wsel linkUp crst => exact presentation_powerOnReset wsel linkUp crst s
  | acknowledged tag status =>
    obtain ⟨-, -, hst, hpq, hrt, -⟩ := s.acknowledge_frame tag status
    exact hs.congr (fun _ => by rw [hst]) (fun _ _ => by rw [hst]) (by rw [hpq]) (by rw [hrt]) (by rw [hrt]; exact id)
  | taken older e newer u r hq hu ht hc hf => exact hs.taken hq hu ht hf
  | settled r ht hc => exact hs.settled ht

/-- Settles O53: every change keeps laws 5 to 7. -/
theorem presentationKept : Obligations.PresentationKept := by
  intro s t hs h
  exact (moves_step s h).keeps (fun _ _ => Move.presentation) hs

end Sys2Proof.Safety
end

