-- ==== Sys2Proof/Proofs/Bounds.lean ====
section
/-! Laws 11 and 12 and the bounds of counters, counts and ages: every change keeps them. -/

namespace Sys2Proof.Safety

open Sys2Proof.Machine

/-! ## What a change of surface states leaves of the surfaces -/

/-- A surface record without its state. -/
def body (f : Surface) : Geometry × BitVec 8 × Nat := (f.geo, f.gen, f.late)

/-- The surface records without their states. -/
def bodies (s : State) : Fin 8 → Geometry × BitVec 8 × Nat := fun i => body (s.st.get i)

theorem bodies_setSurface (s : State) (i : Fin 8) (x : SurfState) : bodies (s.setSurface i x) = bodies s := by
  funext j
  unfold bodies
  rw [State.setSurface_st, Table.get_modify]
  split <;> rfl

theorem bodies_freeSurface (s : State) (i : Fin 8) : bodies (s.freeSurface i) = bodies s := bodies_setSurface s i .free

theorem bodies_freeHeldMisfit (s : State) (t : TimingSet) : bodies (s.freeHeldMisfit t) = bodies s := by
  unfold State.freeHeldMisfit
  split
  · split
    · rfl
    · exact bodies_freeSurface s _
  · rfl

theorem bodies_timingInForce (s : State) (t : TimingSet) : bodies (s.timingInForce t) = bodies s := by
  unfold State.timingInForce State.dropMisfits
  dsimp only
  rw [foldl_keeps bodies State.dropSurface fun u e => bodies_freeSurface u e.surface]
  exact bodies_freeHeldMisfit _ t

theorem bodies_freeScanning (s : State) : bodies s.freeScanning = bodies s := by
  unfold State.freeScanning
  split
  · exact bodies_freeSurface s _
  · rfl

theorem bodies_takeEntry (s : State) (older : List Entry) (e : Entry) (newer : List Entry) :
    bodies (s.takeEntry older e newer) = bodies s := by
  refine (bodies_setSurface _ e.surface .scanning).trans ?_
  exact foldl_keeps bodies State.dropOlder (fun u e => bodies_freeSurface u e.surface) older _

theorem bodies_settleSurfaces (s : State) : bodies s.settleSurfaces = bodies s := by
  unfold State.settleSurfaces
  split
  · rfl
  · refine (bodies_setSurface _ _ .held).trans ?_
    split
    · exact bodies_freeSurface s _
    · rfl

/-! ## What a change of surface states does to the Report Writer -/

theorem ReportsMove.freeSurface (s : State) (i : Fin 8) : ReportsMove s.rw (s.freeSurface i).rw := .mark s.rw

theorem ReportsMove.foldl {α : Type} (f : State → α → State) (h : ∀ s a, ReportsMove s.rw (f s a).rw) (l : List α) :
    ∀ s, ReportsMove s.rw (l.foldl f s).rw := by
  induction l with
  | nil => exact fun s => .refl s.rw
  | cons a l ih => exact fun s => (h s a).trans (ih _)

theorem ReportsMove.dropSurface (s : State) (e : Entry) : ReportsMove s.rw (s.dropSurface e).rw :=
  (ReportsMove.freeSurface s e.surface).trans (.raise _ _)

theorem ReportsMove.freeScanning (s : State) : ReportsMove s.rw s.freeScanning.rw := by
  unfold State.freeScanning
  split
  · exact .freeSurface s _
  · exact .refl s.rw

theorem ReportsMove.takeEntry (s : State) (older : List Entry) (e : Entry) (newer : List Entry) :
    ReportsMove s.rw (s.takeEntry older e newer).rw :=
  ((ReportsMove.foldl State.dropOlder ReportsMove.dropSurface older
    { s with pq := { s.pq with queue := newer, lastTaken := e.number } }).trans (.mark _)).trans (.occur _ _ _)

theorem ReportsMove.timingInForce (s : State) (t : TimingSet) : ReportsMove s.rw (s.timingInForce t).rw := by
  have hh : ∀ u : State, ReportsMove u.rw (u.freeHeldMisfit t).rw := by
    intro u
    unfold State.freeHeldMisfit
    split
    · split
      · exact .refl u.rw
      · exact .freeSurface u _
    · exact .refl u.rw
  have hd : ∀ u : State, ReportsMove u.rw (u.dropMisfits t).rw := fun u =>
    ReportsMove.foldl State.dropSurface ReportsMove.dropSurface (u.pq.queue.filter fun e => !u.entryFits t e)
      { u with pq := { u.pq with queue := u.pq.queue.filter (u.entryFits t) } }
  exact (hh { s with
    rtm := { s.rtm with timing := some t, pendingSet := none }
    sf := { s.sf with inForce := s.sf.inForce.limit t, waiting := s.sf.waiting.map fun f => f.limit t } }).trans (hd _)

theorem ReportsMove.settleSurfaces (s : State) : ReportsMove s.rw s.settleSurfaces.rw := by
  unfold State.settleSurfaces
  split
  · exact .refl s.rw
  · refine ReportsMove.trans ?_ (.mark _)
    split
    · exact .freeSurface s _
    · exact .refl s.rw

/-- An acknowledgement with ERROR raises WRITE_FAULT, and another nothing (R41). -/
theorem ReportsMove.acknowledge (s : State) (tag : Fin 256) (status : Status) :
    ReportsMove s.rw (s.acknowledge tag status).rw := by
  unfold State.acknowledge
  split
  · exact .refl _
  · dsimp only
    split <;> split
    · exact .raise _ _
    · exact .raise _ _
    · exact .refl _
    · exact .refl _

/-- The end of the use of the report area changes its place, the records, the write and the notices alone (R174). -/
theorem endArea_eq (r : ReportWriter) (base : Addr) (enable : Bool) : ∃ w n, r.endArea base enable =
    { r with frames := [], write := w, base := base, enable := enable, waiting := n } := by
  obtain ⟨n, hn, -⟩ := foldl_records_frame r.frames r
  unfold ReportWriter.endArea
  dsimp only
  rw [hn]
  exact ⟨_, _, rfl⟩

/-! ## The bounds -/

/-- What the bounds look at: the counts of a change are those before, or within their limits. -/
theorem Bounded.of_parts {s t : State} (hs : Bounded s) (hlog : LogLawful s → LogLawful t)
    (hr : LedgerLawful s.rw → LedgerLawful t.rw) (hf : t.rw.frames.length ≤ s.rw.frames.length)
    (ha : t.ma.age ≤ Config.reportAgeLimit ∨ t.ma.age = s.ma.age)
    (hl : ∀ i, (t.st.get i).late ≤ 65535 ∨ (t.st.get i).late = (s.st.get i).late) : Bounded t := by
  obtain ⟨h1, h2, h3, h4, h5, h6⟩ := hs
  obtain ⟨hsum, hc⟩ := hr ⟨h2, h6⟩
  refine ⟨hlog h1, hsum, hf.trans h3, ?_, fun i => ?_, hc⟩
  · rcases ha with ha | ha
    · exact ha
    · rw [ha]; exact h4
  · rcases hl i with hi | hi
    · exact hi
    · rw [hi]; exact h5 i

/-- A change inside the Report Writer, of the report wait age and of late-write counts. -/
theorem Bounded.move {s t : State} (hs : Bounded s) (hr : ReportsMove s.rw t.rw)
    (hc : t.rtm.frameCount = s.rtm.frameCount) (ha : t.ma.age ≤ Config.reportAgeLimit ∨ t.ma.age = s.ma.age)
    (hl : ∀ i, (t.st.get i).late ≤ 65535 ∨ (t.st.get i).late = (s.st.get i).late) : Bounded t :=
  hs.of_parts (fun h => by unfold LogLawful; rw [hr.logIndex, hc]; exact h) hr.ledger hr.frames ha hl

/-- A change that leaves every surface but its state. -/
theorem Bounded.keep {s t : State} (hs : Bounded s) (hr : ReportsMove s.rw t.rw)
    (hc : t.rtm.frameCount = s.rtm.frameCount) (ha : t.ma.age = s.ma.age) (hb : bodies t = bodies s) : Bounded t :=
  hs.move hr hc (.inr ha) fun i => .inr (congrArg (fun b => b.2.2) (congrFun hb i))

/-- The finished record joins a queue that isn't full, and the write index follows the frame count (R185). -/
theorem Bounded.handRecord {s : State} (hs : Bounded s) : Bounded s.handRecord := by
  obtain ⟨h1, h2, h3, h4, h5, h6⟩ := hs
  have hq : ∀ (r : ReportWriter) n b, (r.takeRecord n b).logIndex = r.logIndex + 1 ∧
      (r.takeRecord n b).flags = r.flags ∧ (r.takeRecord n b).summary = r.summary ∧
      (r.takeRecord n b).counters = r.counters ∧
      (r.frames.length ≤ Config.frameQueueSize → (r.takeRecord n b).frames.length ≤ Config.frameQueueSize) := by
    intro r n b
    unfold ReportWriter.takeRecord
    dsimp only
    split
    · rename_i h
      exact ⟨rfl, rfl, rfl, rfl, fun _ => by simpa using h.2⟩
    · exact ⟨rfl, rfl, rfl, rfl, id⟩
  obtain ⟨q1, q2, q3, q4, q5⟩ := hq s.rw s.rtm.frameCount (s.rtm.record.getD .empty)
  refine ⟨?_, ?_, q5 h3, h4, h5, ?_⟩
  · unfold LogLawful at h1 ⊢
    show (ReportWriter.takeRecord _ _ _).logIndex.toNat = (s.rtm.frameCount + 1).toNat % 64
    rw [q1, BitVec.toNat_add, BitVec.toNat_add, h1]
    have hone : (1 : BitVec 6).toNat = 1 ∧ (1 : BitVec 32).toNat = 1 := ⟨rfl, rfl⟩
    rw [hone.1, hone.2]
    omega
  · unfold SummaryLawful at h2 ⊢
    show (ReportWriter.takeRecord _ _ _).summary = true ↔ (ReportWriter.takeRecord _ _ _).flags ≠ 0
    rw [q2, q3]
    exact h2
  · show CountersBounded (ReportWriter.takeRecord _ _ _).counters
    rw [q4]
    exact h6

/-- The reports after a power-on reset: no flag but OUTPUT_CHANGE, and no count (R98, R189). -/
theorem ReportsMove.powerOnReset (wsel : BitVec 4) (linkUp crst : Bool) (s : State) :
    ReportsMove State.reset.rw (powerOnReset wsel linkUp crst s).rw := by
  have hc : ReportsMove State.reset.rw { State.reset.rw with causes := s.rw.causes.powerOn } :=
    ⟨rfl, rfl, rfl, le_rfl, id⟩
  unfold Machine.powerOnReset linkUpChange
  dsimp only
  split
  · exact hc
  · exact hc.trans (.raise _ _)

theorem bounded_reset : Bounded State.reset := by
  refine ⟨rfl, by simp [SummaryLawful, State.reset], Nat.zero_le _, Nat.zero_le _, fun i => ?_, by decide⟩
  rw [reset_st_get]
  exact Nat.zero_le _

theorem bounded_powerOnReset (wsel : BitVec 4) (linkUp crst : Bool) (s : State) :
    Bounded (powerOnReset wsel linkUp crst s) := by
  obtain ⟨hst, -, -, hrt, -, hma⟩ := powerOnReset_blocks wsel linkUp crst s
  exact bounded_reset.keep (.powerOnReset wsel linkUp crst s) (by rw [hrt]) (by rw [hma]) (by unfold bodies; rw [hst])

theorem Move.bounded {s t : State} (hs : Bounded s) (h : Move s t) : Bounded t := by
  have hmod : ∀ (i : Fin 8) (f : Surface → Surface), (∀ x, (f x).late ≤ 65535 ∨ (f x).late = x.late) → ∀ j,
      ((s.st.modify i f).get j).late ≤ 65535 ∨ ((s.st.modify i f).get j).late = (s.st.get j).late := by
    intro i f hf j
    rw [Table.get_modify]
    split
    · exact hf _
    · exact .inr rfl
  have harea : ∀ base enable, Bounded (s.installReport base enable) := by
    intro base enable
    obtain ⟨w, n, he⟩ := endArea_eq s.rw base enable
    have he : (s.installReport base enable).rw =
        { s.rw with frames := [], write := w, base := base, enable := enable, waiting := n } := he
    refine hs.of_parts (fun h => ?_) (fun h => ?_) ?_ (.inr rfl) fun _ => .inr rfl
    · unfold LogLawful
      rw [he]
      exact h
    · rw [he]
      exact h
    · rw [he]
      exact Nat.zero_le _
  cases h with
  | traffic | decoder | outputs | queue | scanned | stalled | released | tracked | drained =>
    exact hs.keep (.refl _) rfl rfl rfl
  | arbiter m h => exact hs.move (.refl _) rfl h fun _ => .inr rfl
  | reports r h => exact hs.keep h rfl rfl rfl
  | raster r ht hc hf => exact hs.keep (.refl _) hc rfl rfl
  | late i => exact hs.move (.refl _) rfl (.inr rfl) (hmod i _ fun _ => .inl (min_le_left _ _))
  | opened i hd hf hn => exact hs.move (.mark _) rfl (.inr rfl) (hmod i _ fun _ => .inl (Nat.zero_le _))
  | abandoned i hi => exact hs.keep (.mark _) rfl rfl (bodies_freeSurface s i)
  | enqueued i m l a hi hq hz => exact hs.keep (.mark _) rfl rfl (bodies_setSurface _ i _)
  | withdrawn i hi => exact hs.keep (.mark _) rfl rfl (bodies_setSurface _ i _)
  | undefined i hi => exact hs.move (.mark _) rfl (.inr rfl) (hmod i _ fun _ => .inr rfl)
  | defined i g f hi hg ho => exact hs.move (.mark _) rfl (.inr rfl) (hmod i _ fun _ => .inr rfl)
  | inForce t hf =>
    obtain ⟨-, -, -, hma, -⟩ := s.timingInForce_frame t
    exact hs.keep (.timingInForce s t) (by simp [State.timingInForce]) (by rw [hma]) (bodies_timingInForce s t)
  | areaOff => exact harea _ _
  | areaOn base hb hl hp hm => exact harea _ _
  | allFreed => exact hs.move (.refl _) rfl (.inr rfl) fun i => .inr (by simp [Surface.softReset])
  | poweredOn wsel linkUp crst => exact bounded_powerOnReset wsel linkUp crst s
  | acknowledged tag status =>
    obtain ⟨-, -, hst, -, hrt, -, -, hma, -⟩ := s.acknowledge_frame tag status
    exact hs.keep (.acknowledge s tag status) (by rw [hrt]) (by rw [hma]) (by unfold bodies; rw [hst])
  | taken older e newer u r hq hu ht hc hf =>
    have hm := (u.takeEntry_frame older e newer).2.2.2.2.1
    have hb := bodies_takeEntry u older e newer
    have hr := ReportsMove.takeEntry u older e newer
    rcases hu with ⟨rfl, -⟩ | rfl
    · exact hs.keep hr hc (congrArg Arbiter.age hm) hb
    · obtain ⟨-, -, -, -, -, -, hma, -⟩ := s.freeScanning_frame
      exact hs.keep ((ReportsMove.freeScanning s).trans hr) hc (congrArg Arbiter.age (hm.trans hma))
        (hb.trans (bodies_freeScanning s))
  | handed => exact hs.handRecord
  | settled r ht hc =>
    obtain ⟨-, -, -, -, -, -, hma, -⟩ := s.settleSurfaces_frame
    exact hs.keep (.settleSurfaces s) hc (congrArg Arbiter.age hma) (bodies_settleSurfaces s)

/-- Settles O58: every change keeps laws 11 and 12 and the bounds. -/
theorem boundedKept : Obligations.BoundedKept := by
  intro s t hs h
  exact (moves_step s h).keeps (fun _ _ => Move.bounded) hs

end Sys2Proof.Safety
end

