-- ==== Sys2Proof/Proofs/Extents.lean ====
section
/-! Defined surfaces stay lawful and apart, and clear of the command page and the report area: every change keeps it. -/

namespace Sys2Proof.Safety

open Sys2Proof.Machine

/-! ## Staged geometries (R4, R5) -/

/-- The range checks of R4, one by one. -/
theorem inRange_iff (g : StagedSurface) (f : Format) : g.inRange f = true ↔
    g.base % 4096 = 0 ∧ 320 ≤ g.width ∧ g.width ≤ 3840 ∧ g.width % 4 = 0 ∧ 240 ≤ g.height ∧ g.height ≤ 2160 ∧
      1280 ≤ g.pitch ∧ g.pitch ≤ 65536 ∧ g.pitch % 256 = 0 ∧ g.width * f.bytes ≤ g.pitch ∧ BandHeight g.hb ∧
      g.base + g.pitch * g.height ≤ Config.addressLimit := by
  simp only [StagedSurface.inRange, BandHeight, Bool.and_eq_true, Bool.or_eq_true, decide_eq_true_eq, beq_iff_eq]
  tauto

/-- The band height of R5: only a height above 2048 raises a band height, and only one of 16. -/
theorem raiseBandHeight_eq {height hb : Nat} (hh : height ≤ 2160) (hb' : BandHeight hb) :
    raiseBandHeight height hb 3 = if height ≤ 128 * hb then hb else 32 := by
  have key : ceilDiv height hb ≤ Config.maxBands ↔ height ≤ 128 * hb := by
    unfold ceilDiv Config.maxBands
    rcases hb' with rfl | rfl | rfl | rfl <;> omega
  simp only [raiseBandHeight, key]
  split
  · rfl
  · rw [if_pos]
    · rcases hb' with rfl | rfl | rfl | rfl <;> omega
    · unfold ceilDiv Config.maxBands
      rcases hb' with rfl | rfl | rfl | rfl <;> omega

/-- A staged base within the address space is installed whole (R4, R7). -/
theorem staged_base {g : StagedSurface} {f : Format} (h : g.inRange f = true) :
    (g.geometry f).base.toNat = g.base ∧ (g.geometry f).extentEnd = g.base + g.pitch * g.height := by
  obtain ⟨-, -, -, -, h5, -, h7, -, -, -, -, h12⟩ := (inRange_iff g f).1 h
  have hpos : 1280 * 240 ≤ g.pitch * g.height := Nat.mul_le_mul h7 h5
  have hb : (g.geometry f).base.toNat = g.base := by
    show (BitVec.ofNat 40 g.base).toNat = g.base
    rw [BitVec.toNat_ofNat]
    unfold Config.addressLimit at h12
    omega
  refine ⟨hb, ?_⟩
  unfold Geometry.extentEnd
  rw [hb]
  rfl

/-- The band height that a staged entry installs is one of the four (R5). -/
theorem staged_bandHeight {g : StagedSurface} {f : Format} (h : g.inRange f = true) :
    (g.geometry f).hb = (if g.height ≤ 128 * g.hb then g.hb else 32) ∧ BandHeight (g.geometry f).hb ∧
      (g.geometry f).nb = ceilDiv g.height (g.geometry f).hb ∧ (g.geometry f).nb ≤ Config.maxBands := by
  obtain ⟨-, -, -, -, -, h6, -, -, -, -, h11, -⟩ := (inRange_iff g f).1 h
  have hhb : (g.geometry f).hb = if g.height ≤ 128 * g.hb then g.hb else 32 := raiseBandHeight_eq h6 h11
  have hnb : (g.geometry f).nb = ceilDiv g.height (g.geometry f).hb := rfl
  refine ⟨hhb, ?_, hnb, ?_⟩
  · rw [hhb]
    split
    · exact h11
    · exact .inr (.inl rfl)
  · rw [hnb, hhb]
    unfold ceilDiv Config.maxBands
    unfold BandHeight at h11
    rcases h11 with h | h | h | h <;> rw [h] <;> split <;> omega

/-- What COMMIT(SURFACE) installs is lawful (R4, R5). -/
theorem geometryLawful_staged {g : StagedSurface} {f : Format} (h : g.inRange f = true) :
    GeometryLawful (g.geometry f) := by
  obtain ⟨hb, he⟩ := staged_base h
  obtain ⟨-, hhb, hnb, hle⟩ := staged_bandHeight h
  obtain ⟨h1, h2, h3, h4, h5, h6, h7, h8, h9, h10, -, h12⟩ := (inRange_iff g f).1 h
  exact ⟨by rw [hb]; exact h1, h7, h8, h9, h2, h3, h4, h5, h6, h10, hhb, hnb, hle, by rw [he]; exact h12⟩

/-! ## Overlaps (R6, R173) -/

/-- Two byte ranges that share no byte. -/
theorem overlaps_false {a m b n : Nat} : overlaps a m b n = false ↔ b + n ≤ a ∨ a + m ≤ b := by
  unfold overlaps
  rw [Bool.and_eq_false_iff, decide_eq_false_iff_not, decide_eq_false_iff_not, not_lt, not_lt]

/-- No byte shared with the defined surfaces named (R6, R173). -/
theorem meetsSurface_false (s : State) (among : Fin 8 → Bool) (base size : Nat) :
    s.meetsSurface among base size = false ↔
      ∀ j, among j = true → (s.st.get j).geo.defined = true → clearOf (s.st.get j).geo base size := by
  unfold State.meetsSurface clearOf Geometry.extentEnd
  simp only [List.any_eq_false, List.mem_finRange, true_implies, Bool.and_eq_true, not_and, Bool.not_eq_true,
    overlaps_false, and_imp]

/-- No byte shared with the command page (R6, R173). -/
theorem meetsPage_false (s : State) (base size : Nat) : s.meetsPage base size = false ↔
    commandPage s.cd.wsel + 0x1000 ≤ base ∨ base + size ≤ commandPage s.cd.wsel := overlaps_false

/-- No byte shared with the report area, while it is enabled (R6). -/
theorem meetsReportArea_false (s : State) (base size : Nat) : s.meetsReportArea base size = false ↔
    (s.rw.enable = true → s.rw.base.toNat + reportAreaSize ≤ base ∨ base + size ≤ s.rw.base.toNat) := by
  unfold State.meetsReportArea
  rw [Bool.and_eq_false_iff, overlaps_false]
  cases s.rw.enable <;> simp

/-! ## Every change, and every step -/

/-- A surface with a state other than FREE is defined (R1). -/
theorem Extents.defined {s : State} (hs : Extents s) {i : Fin 8} (hi : (s.st.get i).state ≠ .free) :
    (s.st.get i).geo.defined = true := by
  by_contra hc
  exact hi (hs.2.1 i (by simpa using hc)).1

/-- What the extents look at. -/
theorem Extents.congr {s t : State} (hs : Extents s) (hg : ∀ i, (t.st.get i).geo = (s.st.get i).geo)
    (hst : ∀ i, (s.st.get i).state = .free → (s.st.get i).geo.defined = false → (t.st.get i).state = .free)
    (hw : t.cd.wsel = s.cd.wsel) (he : t.rw.enable = s.rw.enable) (hb : t.rw.base = s.rw.base) : Extents t := by
  obtain ⟨h1, h2, h3, h4, h5, h6⟩ := hs
  unfold Extents
  simp only [hg, hw, he, hb]
  exact ⟨h1, fun i hi => ⟨hst i (h2 i hi).1 hi, (h2 i hi).2⟩, h3, h4, h5, h6⟩

/-- A change of surface states by which no undefined surface comes into use. -/
theorem Extents.keep {s t : State} (hs : Extents s) (hb : bodies t = bodies s)
    (hst : ∀ i, (s.st.get i).state = .free → (s.st.get i).geo.defined = false → (t.st.get i).state = .free)
    (hw : t.cd.wsel = s.cd.wsel) (hr : ReportsMove s.rw t.rw) : Extents t :=
  hs.congr (fun i => congrArg Prod.fst (congrFun hb i)) hst hw hr.enable hr.base

/-- A FREE surface is undefined (R3). -/
theorem Extents.undefine {s : State} (hs : Extents s) {i : Fin 8} (hi : (s.st.get i).state = .free) :
    Extents (s.installGeometry i .undefined) := by
  obtain ⟨h1, h2, h3, h4, h5, h6⟩ := hs
  have hget : ∀ j, ((s.installGeometry i .undefined).st.get j).geo.defined = true →
      (s.installGeometry i .undefined).st.get j = s.st.get j := by
    intro j
    rw [State.installGeometry_st, Table.get_modify]
    split
    · intro h; cases h
    · exact fun _ => rfl
  refine ⟨fun j hj => ?_, fun j hj => ?_, fun j k hjk hj hk => ?_, fun j hj => ?_, fun j hj => ?_, h6⟩
  · have hj' := hj
    rw [hget j hj] at hj' ⊢
    exact h1 j hj'
  · rw [State.installGeometry_st, Table.get_modify] at hj ⊢
    split
    · rename_i hji
      subst hji
      exact ⟨hi, rfl⟩
    · rename_i hji
      rw [if_neg hji] at hj
      exact h2 j hj
  · have hj' := hj
    have hk' := hk
    rw [hget j hj] at hj' ⊢
    rw [hget k hk] at hk' ⊢
    exact h3 j k hjk hj' hk'
  · have hj' := hj
    rw [hget j hj] at hj' ⊢
    exact h4 j hj'
  · have hj' := hj
    rw [hget j hj] at hj' ⊢
    exact h5 j hj'

/-- A staged geometry is installed that passed the checks of R4 and R6. -/
theorem Extents.define {s : State} (hs : Extents s) {i : Fin 8} {g : StagedSurface} {f : Format}
    (hg : g.inRange f = true) (ho : s.surfaceOverlap i g.base (g.pitch * g.height) = false) :
    Extents (s.installGeometry i (g.geometry f)) := by
  obtain ⟨h1, h2, h3, h4, h5, h6⟩ := hs
  obtain ⟨hbase, hend⟩ := staged_base hg
  unfold State.surfaceOverlap at ho
  rw [Bool.or_eq_false_iff, Bool.or_eq_false_iff, meetsSurface_false, meetsPage_false, meetsReportArea_false] at ho
  obtain ⟨⟨hsurf, hpage⟩, harea⟩ := ho
  have hget : ∀ j, (s.installGeometry i (g.geometry f)).st.get j =
      if j = i then { s.st.get j with geo := g.geometry f } else s.st.get j := by
    intro j
    rw [State.installGeometry_st, Table.get_modify]
  have hap : ∀ j, j ≠ i → (s.st.get j).geo.defined = true → apart (g.geometry f) (s.st.get j).geo := by
    intro j hj hd
    have := hsurf j (by simpa using hj) hd
    unfold clearOf at this
    unfold apart
    rw [hbase, hend]
    exact this.symm
  refine ⟨fun j hj => ?_, fun j hj => ?_, fun j k hjk hj hk => ?_, fun j hj => ?_, fun j hj he => ?_, h6⟩
  · rw [hget] at hj ⊢
    split
    · exact geometryLawful_staged hg
    · rename_i hji
      rw [if_neg hji] at hj
      exact h1 j hj
  · rw [hget] at hj ⊢
    split
    · rename_i hji
      rw [if_pos hji] at hj
      cases hj
    · rename_i hji
      rw [if_neg hji] at hj
      exact h2 j hj
  · rw [hget] at hj hk ⊢
    rw [hget]
    by_cases hji : j = i
    · have hki : k ≠ i := by rintro rfl; exact hjk hji
      rw [if_neg hki] at hk
      rw [if_pos hji, if_neg hki]
      exact hap k hki hk
    · rw [if_neg hji] at hj ⊢
      by_cases hki : k = i
      · rw [if_pos hki]
        exact (hap j hji hj).symm
      · rw [if_neg hki] at hk ⊢
        exact h3 j k hjk hj hk
  · rw [hget] at hj ⊢
    unfold clearOf
    split
    · rw [hbase, hend]
      exact hpage.symm
    · rename_i hji
      rw [if_neg hji] at hj
      exact h4 j hj
  · rw [hget] at hj ⊢
    unfold clearOf
    split
    · rw [hbase, hend]
      exact (harea he).symm
    · rename_i hji
      rw [if_neg hji] at hj
      exact h5 j hj he

/-- Every surface undefined and FREE, and no report area. -/
theorem extents_of_undefined {s : State} (hst : ∀ i, s.st.get i = Surface.powerOn) (he : s.rw.enable = false) :
    Extents s := by
  unfold Extents
  simp only [hst, he]
  exact ⟨fun _ h => (by cases h), fun _ _ => ⟨rfl, rfl⟩, fun _ _ _ h => (by cases h), fun _ h => (by cases h),
    fun _ h => (by cases h), fun h => (by cases h)⟩

theorem extents_powerOnReset (wsel : BitVec 4) (linkUp crst : Bool) (s : State) :
    Extents (powerOnReset wsel linkUp crst s) := by
  obtain ⟨hst, -⟩ := powerOnReset_blocks wsel linkUp crst s
  exact extents_of_undefined (fun i => by rw [hst, reset_st_get]) (ReportsMove.powerOnReset wsel linkUp crst s).enable

theorem Move.extents {s t : State} (hp : Presentation s) (hs : Extents s) (h : Move s t) : Extents t := by
  cases h with
  | traffic | outputs | queue | arbiter | raster | scanned | stalled | released | tracked | drained =>
    exact hs.congr (fun _ => rfl) (fun _ h _ => h) rfl rfl rfl
  | decoder d hd => exact hs.congr (fun _ => rfl) (fun _ h _ => h) hd rfl rfl
  | reports r h => exact hs.keep rfl (fun _ h _ => h) rfl h
  | handed =>
    have hr : ∀ (r : ReportWriter) n b, (r.takeRecord n b).enable = r.enable ∧ (r.takeRecord n b).base = r.base := by
      intro r n b
      unfold ReportWriter.takeRecord
      dsimp only
      split <;> exact ⟨rfl, rfl⟩
    exact hs.congr (fun _ => rfl) (fun _ h _ => h) rfl (hr _ _ _).1 (hr _ _ _).2
  | late i =>
    refine hs.congr (fun j => ?_) (fun j h _ => ?_) rfl rfl rfl
    all_goals
      rw [Table.get_modify]
      split
    exacts [rfl, rfl, h, h]
  | opened i hd hf hn =>
    refine hs.congr (fun j => ?_) (fun j h hu => ?_) rfl rfl rfl
    all_goals
      rw [State.openSurface_st, Table.get_modify]
      split
    exacts [rfl, rfl, (by subst j; rw [hd] at hu; cases hu), h]
  | abandoned i hi =>
    refine hs.keep (bodies_freeSurface s i) (fun j h hu => ?_) rfl (.mark _)
    rw [State.abandonSurface_st, Table.get_modify]
    split
    exacts [rfl, h]
  | enqueued i m l a hi hq hz =>
    refine hs.keep (bodies_setSurface _ i _) (fun j h hu => ?_) rfl (.mark _)
    rw [State.enqueue_st, Table.get_modify_ne _ (by rintro rfl; rw [hi] at h; cases h)]
    exact h
  | withdrawn i hi =>
    refine hs.keep (bodies_setSurface _ i _) (fun j h hu => ?_) rfl (.mark _)
    rw [State.setSurface_st, Table.get_modify_ne _ (by rintro rfl; rw [hi] at h; cases h)]
    exact h
  | undefined i hi => exact hs.undefine hi
  | defined i g f hi hg ho => exact hs.define hg ho
  | inForce t hf =>
    obtain ⟨-, hcd, -⟩ := s.timingInForce_frame t
    obtain ⟨-, -, hfreed, -⟩ := timingInForce_timingInForce s t hp.2.1.2.1
    refine hs.keep (bodies_timingInForce s t) (fun j h _ => ?_) (by rw [hcd]) (.timingInForce s t)
    by_cases hj : freedBy s t j
    · rw [((hfreed j).1 hj).1]
    · rw [((hfreed j).2 hj).1]; exact h
  | areaOff =>
    obtain ⟨w, n, he⟩ := endArea_eq s.rw s.rw.base false
    have he : (s.installReport s.rw.base false).rw = _ := he
    obtain ⟨h1, h2, h3, h4, -, -⟩ := hs
    refine ⟨h1, h2, h3, h4, fun _ _ hen => ?_, fun hen => ?_⟩
    all_goals
      rw [he] at hen
      cases hen
  | areaOn base hb hl hpage hsurf =>
    obtain ⟨w, n, he⟩ := endArea_eq s.rw (BitVec.ofNat 40 base) true
    have he : (s.installReport (BitVec.ofNat 40 base) true).rw = _ := he
    have hbase : (BitVec.ofNat 40 base).toNat = base := by
      rw [BitVec.toNat_ofNat]
      unfold Config.addressLimit reportAreaSize at hl
      omega
    rw [meetsSurface_false] at hsurf
    obtain ⟨h1, h2, h3, h4, -, -⟩ := hs
    refine ⟨h1, h2, h3, h4, fun j hj _ => ?_, fun _ => ?_⟩
    all_goals
      rw [he]
      dsimp only
      rw [hbase]
    · exact hsurf j rfl hj
    · exact ⟨hb, hl⟩
  | allFreed =>
    refine hs.congr (fun j => ?_) (fun j h hu => ?_) rfl rfl rfl
    all_goals
      rw [Table.get_map]
      rfl
  | poweredOn wsel linkUp crst => exact extents_powerOnReset wsel linkUp crst s
  | acknowledged tag status =>
    obtain ⟨-, hcd, hst, -⟩ := s.acknowledge_frame tag status
    exact hs.keep (by unfold bodies; rw [hst]) (fun j h _ => by rw [hst]; exact h) (by rw [hcd]) (.acknowledge s tag status)
  | taken older e newer u r hq hu ht hc hf =>
    have hbody := bodies_takeEntry u older e newer
    have hr := ReportsMove.takeEntry u older e newer
    have hcd := (u.takeEntry_frame older e newer).2.1
    have hqueued : (s.st.get e.surface).state = .queued := (hp.1.2.2 _).2 (by rw [hq]; simp)
    have hst : ∀ v : State, ∀ j, (v.st.get j).state = .free → j ≠ e.surface →
        ((v.takeEntry older e newer).st.get j).state = .free := by
      intro v j h hj
      rw [State.takeEntry_st, if_neg hj]
      split
      · rfl
      · exact h
    rcases hu with ⟨rfl, -⟩ | rfl
    · refine hs.keep hbody (fun j h _ => hst u j h ?_) (congrArg Decoder.wsel hcd) hr
      rintro rfl
      rw [hqueued] at h; cases h
    · obtain ⟨-, hcd', -⟩ := s.freeScanning_frame
      refine hs.keep (hbody.trans (bodies_freeScanning s)) (fun j h _ => hst _ j ?_ ?_)
        (congrArg Decoder.wsel (hcd.trans hcd')) ((ReportsMove.freeScanning s).trans hr)
      · rw [(((scanningFreed_freeScanning s hp.2.1.1).1 j).2 (by dsimp only; rw [h]; decide)).1]
        exact h
      · rintro rfl
        rw [hqueued] at h; cases h
  | settled r ht hc =>
    obtain ⟨-, hcd, -⟩ := s.settleSurfaces_frame
    refine hs.keep (bodies_settleSurfaces s) (fun j h _ => ?_) (congrArg Decoder.wsel hcd) (.settleSurfaces s)
    show (s.settleSurfaces.st.get j).state = .free
    rw [(settleSurfaces_get s hp.2.1.1 hp.2.1.2.1 j).1]
    simp [h]

/-- Settles O54: every change keeps the extents, along with laws 5 to 7. -/
theorem extentsKept : Obligations.ExtentsKept := by
  intro s t hs hp h
  exact ((moves_step s h).keeps (P := fun s => Presentation s ∧ Extents s)
    (fun _ _ hs hm => ⟨hm.presentation hs.1, hm.extents hs.1 hs.2⟩) ⟨hp, hs⟩).2

end Sys2Proof.Safety
end

