-- ==== Sys2Proof/Proofs/Tracking.lean ====
section
/-! Laws 1 to 4: every change keeps the pending counts, the band records and the Write Tracking Table. -/

namespace Sys2Proof.Safety

open Sys2Proof.Machine

/-! ## Band records (R23 to R25) -/

theorem bandLawful_cleared : BandLawful Band.cleared := by
  refine ⟨fun h => ?_, fun h => ?_, ?_⟩
  · cases h
  · cases h
  · exact iff_of_false (by decide) (by decide)

/-- A release changes no pending count, and a band is READY only with none (R36). -/
theorem bandLawful_release {b : Band} (h : BandLawful b) (lc : Line) :
    BandLawful (b.release lc) ∧ (b.release lc).pending = b.pending := by
  obtain ⟨h1, h2, h3⟩ := h
  unfold Band.release
  split
  · rename_i ho
    have hns : b.scan ≠ .scanned := fun hc => by have := h2 hc; rw [ho] at this; cases this
    have hnt : b.stamp.isSome ≠ true := fun hc => by have := h3.1 hc; rw [ho] at this; cases this
    split
    · rename_i hp
      exact ⟨⟨fun _ => hp, fun hc => absurd hc hns, by simp⟩, rfl⟩
    · exact ⟨⟨fun hc => (by cases hc), fun hc => absurd hc hns, iff_of_false hnt (by simp)⟩, rfl⟩
  · exact ⟨⟨h1, h2, h3⟩, rfl⟩
  · exact ⟨⟨h1, h2, h3⟩, rfl⟩

/-- A credit leaves one pending write less, and makes a DRAINING band READY with the last (R40). -/
theorem bandLawful_credit {b : Band} (h : BandLawful b) (hp : 0 < b.pending) (lc : Line) (error : Bool) :
    BandLawful (b.credit lc error) ∧ (b.credit lc error).pending = b.pending - 1 := by
  obtain ⟨h1, h2, h3⟩ := h
  have hnr : b.status ≠ .ready := fun hc => by have := h1 hc; omega
  unfold Band.credit
  dsimp only
  split
  · rename_i hd
    exact ⟨⟨fun _ => hd.2, fun hc => absurd (h2 hc) hnr, by simp⟩, rfl⟩
  · exact ⟨⟨fun hc => absurd hc hnr, h2, h3⟩, rfl⟩

/-- A link reset leaves no pending write, and a drain it closes READY (R42). -/
theorem bandLawful_closeDrain {b : Band} (h : BandLawful b) (lc : Line) :
    BandLawful (b.closeDrain lc) ∧ (b.closeDrain lc).pending = 0 := by
  obtain ⟨h1, h2, h3⟩ := h
  unfold Band.closeDrain
  split
  · exact ⟨⟨fun _ => rfl, fun _ => rfl, by simp⟩, rfl⟩
  · exact ⟨⟨fun _ => rfl, h2, h3⟩, rfl⟩
  · exact ⟨⟨fun _ => rfl, h2, h3⟩, rfl⟩

/-- A READY band may be SCANNED, and any band MISSED (R24). -/
theorem bandLawful_scan {b : Band} (h : BandLawful b) {x : Scan} (hx : x = .scanned → b.status = .ready) :
    BandLawful { b with scan := x } := ⟨h.1, hx, h.2.2⟩

/-- One band record changed: that one, and no other. -/
theorem band_modifyBand (t : BandTracker) (i j : Fin 8) (b c : Fin 128) (f : Band → Band) :
    (t.modifyBand i b f).band j c = if j = i ∧ c = b then f (t.band j c) else t.band j c := by
  unfold BandTracker.modifyBand BandTracker.band
  rw [Table.get_modify]
  by_cases hj : j = i
  · rw [if_pos hj, Table.get_modify]
    simp [hj]
  · rw [if_neg hj, if_neg (fun h => hj h.1)]

/-! ## Entries of the Write Tracking Table (R27, R28) -/

/-- An entry names a surface, a generation and a band. -/
theorem names_some (i : Fin 8) (gen : BitVec 8) (b : Fin 128) (w : Tracked) :
    names i gen b (some w) = true ↔ w.surface = i ∧ w.gen = gen ∧ w.band = b := by
  unfold names
  rw [beq_iff_eq, Option.some.injEq]
  cases w
  simp

theorem names_none (i : Fin 8) (gen : BitVec 8) (b : Fin 128) : names i gen b none = false := rfl

/-- Nothing tracked under a generation: no entry names it (R10). -/
theorem count_names_of_not_tracks {t : BandTracker} {i : Fin 8} {gen : BitVec 8} (h : t.tracks i gen = false)
    (b : Fin 128) : t.wtt.count (names i gen b) = 0 := by
  unfold BandTracker.tracks at h
  rw [Table.any_false] at h
  by_contra hc
  obtain ⟨tag, ht⟩ := Table.count_pos.1 (Nat.pos_of_ne_zero hc)
  have htag := h tag
  cases hw : t.wtt.get tag with
  | none => rw [hw] at ht; cases ht
  | some w =>
    rw [hw] at ht htag
    obtain ⟨h1, h2, -⟩ := (names_some i gen b w).1 ht
    simp [h1, h2] at htag

/-! ## Tracking after a change -/

/-- A change of band records and entries, of surfaces in use alone (R9, R28). -/
theorem Tracking.rebands {s t : State} (hs : Tracking s)
    (hst : ∀ i, (t.st.get i).state = (s.st.get i).state ∧ (t.st.get i).gen = (s.st.get i).gen)
    (hfree : ∀ i, (s.st.get i).state = .free → t.bt.bands.get i = s.bt.bands.get i)
    (hband : ∀ i b, (s.st.get i).state ≠ .free → BandLawful (t.bt.band i b) ∧
      (t.bt.band i b).pending = t.bt.wtt.count (names i (s.st.get i).gen b))
    (ho : t.bt.occupancy ≤ Config.wttSize) : Tracking t := by
  obtain ⟨-, hclear, -, -⟩ := hs
  have hcl : ∀ i, (s.st.get i).state = .free → ∀ b, t.bt.band i b = Band.cleared := by
    intro i hi b
    unfold BandTracker.band
    rw [hfree i hi, hclear i hi, cleared_get]
  refine ⟨fun i b => ?_, fun i hi => ?_, fun i b => ?_, ho⟩
  · rw [(hst i).1, (hst i).2]
    split
    · rename_i hi
      rw [hcl i hi]
      rfl
    · rename_i hi
      exact (hband i b hi).2
  · rw [(hst i).1] at hi
    rw [hfree i hi, hclear i hi]
  · by_cases hi : (s.st.get i).state = .free
    · rw [hcl i hi]
      exact bandLawful_cleared
    · exact (hband i b hi).1

/-- A change of surface states: a surface enters FREE with its records cleared, and one out of FREE stays out (R9). -/
theorem Tracking.restate {s t : State} (hs : Tracking s) (hw : t.bt.wtt = s.bt.wtt)
    (hg : ∀ i, (t.st.get i).gen = (s.st.get i).gen)
    (hst : ∀ i, (t.st.get i).state = .free ∧ t.bt.bands.get i = Bands.cleared ∨
      ((t.st.get i).state = .free ↔ (s.st.get i).state = .free) ∧ t.bt.bands.get i = s.bt.bands.get i) : Tracking t := by
  obtain ⟨hcount, hclear, hlaw, hocc⟩ := hs
  refine ⟨fun i b => ?_, fun i hi => ?_, fun i b => ?_, by unfold TableBounded BandTracker.occupancy; rw [hw]; exact hocc⟩
  · unfold BandTracker.band
    rcases hst i with ⟨h, hb⟩ | ⟨h, hb⟩
    · rw [hb, if_pos h, cleared_get]
      rfl
    · rw [hb, hg, hw]
      simp only [h]
      exact hcount i b
  · rcases hst i with ⟨-, hb⟩ | ⟨h, hb⟩
    · exact hb
    · rw [hb]
      exact hclear i (h.1 hi)
  · unfold BandTracker.band
    rcases hst i with ⟨-, hb⟩ | ⟨-, hb⟩
    · rw [hb, cleared_get]
      exact bandLawful_cleared
    · rw [hb]
      exact hlaw i b

/-- What band tracking looks at. -/
theorem Tracking.congr {s t : State} (hs : Tracking s) (hw : t.bt.wtt = s.bt.wtt) (hb : t.bt.bands = s.bt.bands)
    (hg : ∀ i, (t.st.get i).gen = (s.st.get i).gen)
    (hst : ∀ i, ((t.st.get i).state = .free ↔ (s.st.get i).state = .free)) : Tracking t :=
  hs.restate hw hg fun i => .inr ⟨hst i, by rw [hb]⟩

/-- Every surface FREE with its records cleared, and the table within its size. -/
theorem tracking_of_free {s : State} (hst : ∀ i, (s.st.get i).state = .free)
    (hb : ∀ i, s.bt.bands.get i = Bands.cleared) (ho : s.bt.occupancy ≤ Config.wttSize) : Tracking s := by
  have hcl : ∀ i b, s.bt.band i b = Band.cleared := by
    intro i b
    unfold BandTracker.band
    rw [hb, cleared_get]
  exact ⟨fun i b => by rw [hcl, if_pos (hst i)]; rfl, fun i _ => hb i, fun i b => by rw [hcl]; exact bandLawful_cleared, ho⟩

/-- A new use: the records are cleared, and no entry names the new generation (R10). -/
theorem Tracking.openSurface {s : State} (hs : Tracking s) {i : Fin 8}
    (hn : s.bt.tracks i ((s.st.get i).gen + 1) = false) : Tracking (s.openSurface i) := by
  obtain ⟨hcount, hclear, hlaw, hocc⟩ := hs
  have hst : ∀ j, (s.openSurface i).st.get j =
      if j = i then { s.st.get j with state := .rendering, gen := (s.st.get j).gen + 1, late := 0 } else s.st.get j := by
    intro j
    rw [State.openSurface_st, Table.get_modify]
  have hb : ∀ j, (s.openSurface i).bt.bands.get j = if j = i then Bands.cleared else s.bt.bands.get j := by
    intro j
    rw [State.openSurface_bt, Table.get_set]
  have hw : (s.openSurface i).bt.wtt = s.bt.wtt := rfl
  refine ⟨fun j b => ?_, fun j hj => ?_, fun j b => ?_, hocc⟩
  · unfold BandTracker.band
    rw [hst, hb, hw]
    by_cases hj : j = i
    · subst hj
      simp only [if_true, cleared_get]
      rw [if_neg (by decide), count_names_of_not_tracks hn]
      rfl
    · simp only [if_neg hj]
      exact hcount j b
  · rw [hst] at hj
    rw [hb]
    split
    · rfl
    · rename_i hji
      rw [if_neg hji] at hj
      exact hclear j hj
  · unfold BandTracker.band
    rw [hb]
    split
    · rw [cleared_get]
      exact bandLawful_cleared
    · exact hlaw j b

/-- A tracked write: one entry more, and one write more pending of the band it names (R30). -/
theorem Tracking.trackWrite {s : State} (hs : Tracking s) {tag : Fin 256} {i : Fin 8} {b : Fin 128}
    (hi : (s.st.get i).state ≠ .free) (hb : (s.bt.band i b).status = .opened) (ht : s.bt.wtt.get tag = none)
    (ho : s.bt.occupancy < Config.wttSize) : Tracking (s.trackWrite tag i b) := by
  have hw : (s.trackWrite tag i b).bt.wtt =
      s.bt.wtt.set tag (some { surface := i, gen := (s.st.get i).gen, band := b }) := rfl
  have hbd : ∀ j c, (s.trackWrite tag i b).bt.band j c =
      if j = i ∧ c = b then { s.bt.band j c with pending := (s.bt.band j c).pending + 1 } else s.bt.band j c :=
    fun j c => band_modifyBand s.bt i j b c _
  refine hs.rebands (fun _ => ⟨rfl, rfl⟩) (fun j hj => ?_) (fun j c hj => ?_) ?_
  · have hji : j ≠ i := by rintro rfl; exact hi hj
    exact Table.get_modify_ne _ hji _
  · have hcount := hs.1 j c
    rw [if_neg hj] at hcount
    have hset := s.bt.wtt.count_set (names j (s.st.get j).gen c) tag
      (some { surface := i, gen := (s.st.get i).gen, band := b })
    rw [ht, names_none] at hset
    have hnames := names_some j (s.st.get j).gen c { surface := i, gen := (s.st.get i).gen, band := b }
    rw [hbd, hw]
    split
    · rename_i h
      obtain ⟨rfl, rfl⟩ := h
      rw [hnames.2 ⟨rfl, rfl, rfl⟩] at hset
      have hlaw := hs.2.2.1 j c
      refine ⟨⟨fun hc => ?_, hlaw.2⟩, ?_⟩
      · rw [hb] at hc; cases hc
      · simp only [Bool.toNat_true, Bool.toNat_false] at hset
        show (s.bt.band j c).pending + 1 = _
        omega
    · rename_i h
      have hno : names j (s.st.get j).gen c (some { surface := i, gen := (s.st.get i).gen, band := b }) = false := by
        rw [Bool.eq_false_iff]
        intro hc
        obtain ⟨h1, -, h3⟩ := hnames.1 hc
        exact h ⟨h1.symm, h3.symm⟩
      rw [hno] at hset
      exact ⟨hs.2.2.1 j c, by omega⟩
  · have hset := s.bt.wtt.count_set Option.isSome tag (some { surface := i, gen := (s.st.get i).gen, band := b })
    rw [ht] at hset
    unfold BandTracker.occupancy at ho ⊢
    rw [hw]
    simp only [Option.isSome_some, Option.isSome_none, Bool.toNat_true, Bool.toNat_false] at hset
    omega

/-- The Band Tracker after an acknowledgement for an entry (R40). -/
theorem acknowledge_bt (s : State) {tag : Fin 256} (status : Status) {w : Tracked} (h : s.bt.wtt.get tag = some w) :
    (s.acknowledge tag status).bt =
      if (s.st.get w.surface).state ≠ .free ∧ (s.st.get w.surface).gen = w.gen then
        ({ s.bt with wtt := s.bt.wtt.set tag none } : BandTracker).modifyBand w.surface w.band
          (Band.credit s.rtm.now (status == .error))
      else { s.bt with wtt := s.bt.wtt.set tag none } := by
  unfold State.acknowledge
  rw [h]
  by_cases he : status = .error
  · simp only [if_pos he]
    exact apply_ite State.bt _ _ _
  · simp only [if_neg he]
    exact apply_ite State.bt _ _ _

/-- An entry leaves the table with its write: it credits its band, where the surface is in the use it names (R40). -/
theorem Tracking.acknowledge {s : State} (hs : Tracking s) (tag : Fin 256) (status : Status) :
    Tracking (s.acknowledge tag status) := by
  have hst : (s.acknowledge tag status).st = s.st := (s.acknowledge_frame tag status).2.2.1
  cases hw : s.bt.wtt.get tag with
  | none =>
    have hsame : s.acknowledge tag status = s := by
      unfold State.acknowledge
      rw [hw]
    rw [hsame]
    exact hs
  | some w =>
    have hbt := acknowledge_bt s status hw
    have hwtt : (s.acknowledge tag status).bt.wtt = s.bt.wtt.set tag none := by
      rw [hbt]
      split <;> rfl
    have hbd : ∀ j c, (s.acknowledge tag status).bt.band j c =
        if ((s.st.get w.surface).state ≠ .free ∧ (s.st.get w.surface).gen = w.gen) ∧ j = w.surface ∧ c = w.band then
          (s.bt.band j c).credit s.rtm.now (status == .error) else s.bt.band j c := by
      intro j c
      rw [hbt]
      split
      · rw [band_modifyBand]
        simp only [*, true_and, ne_eq, not_false_eq_true, and_self]
        rfl
      · rename_i hc
        rw [if_neg (fun h => hc h.1)]
        rfl
    have hcount := fun p => s.bt.wtt.count_set p tag none
    refine hs.rebands (fun _ => by rw [hst]; exact ⟨rfl, rfl⟩) (fun j hj => ?_) (fun j c hj => ?_) ?_
    · refine Table.ext_get fun c => (hbd j c).trans (if_neg ?_)
      rintro ⟨hc, rfl, -⟩
      exact hc.1 hj
    · have hpend := hs.1 j c
      have hset := hcount (names j (s.st.get j).gen c)
      have hnames := names_some j (s.st.get j).gen c w
      rw [if_neg hj] at hpend
      rw [hw, names_none] at hset
      rw [hbd, hwtt]
      split
      · rename_i h
        obtain ⟨⟨-, hgen⟩, rfl, rfl⟩ := h
        rw [hnames.2 ⟨rfl, hgen.symm, rfl⟩] at hset
        simp only [Bool.toNat_true, Bool.toNat_false] at hset
        obtain ⟨hlaw, hp⟩ := bandLawful_credit (hs.2.2.1 w.surface w.band) (by omega) s.rtm.now (status == .error)
        exact ⟨hlaw, by omega⟩
      · rename_i h
        have hno : names j (s.st.get j).gen c (some w) = false := by
          rw [Bool.eq_false_iff]
          intro hc
          obtain ⟨rfl, h2, h3⟩ := hnames.1 hc
          exact h ⟨⟨hj, h2.symm⟩, rfl, h3.symm⟩
        rw [hno] at hset
        exact ⟨hs.2.2.1 j c, by omega⟩
    · have hset := hcount Option.isSome
      have hocc := hs.2.2.2
      unfold TableBounded BandTracker.occupancy at hocc
      unfold BandTracker.occupancy
      rw [hwtt]
      simp only [Option.isSome_none, Bool.toNat_false] at hset
      omega

/-- A link reset empties the table, and no write stays pending (R42, R146). -/
theorem Tracking.linkReset {s : State} (hs : Tracking s) (lc : Line) :
    Tracking { s with bt := s.bt.linkReset lc s.st } := by
  have hb : ∀ i, (s.bt.linkReset lc s.st).bands.get i = closeDrains lc (s.st.get i) (s.bt.bands.get i) :=
    fun i => Table.get_zipWith _ _ _ i
  refine hs.rebands (fun _ => ⟨rfl, rfl⟩) (fun i hi => ?_) (fun i b hi => ?_) ?_
  · exact (hb i).trans (if_pos hi)
  · have hbd : (s.bt.linkReset lc s.st).band i b = (s.bt.band i b).closeDrain lc := by
      unfold BandTracker.band
      rw [hb, closeDrains, if_neg hi, Table.get_map]
    show BandLawful ((s.bt.linkReset lc s.st).band i b) ∧ _ = (Table.replicate 256 none).count _
    rw [hbd, Table.count_replicate]
    exact bandLawful_closeDrain (hs.2.2.1 i b) lc
  · show (Table.replicate 256 none).count _ ≤ _
    rw [Table.count_replicate]
    exact Nat.zero_le _

/-- A selection: the taken surface was QUEUED, and those of the older entries are freed (R67). -/
theorem Tracking.takeEntry {s : State} (hp : Presentation s) (hs : Tracking s) {older newer : List Entry} {e : Entry}
    (r : RasterTimer) (hq : s.pq.queue = older ++ e :: newer) :
    Tracking { s.takeEntry older e newer with rtm := r } := by
  have hqueued : (s.st.get e.surface).state ≠ .free := by
    rw [(hp.1.2.2 e.surface).2 (by rw [hq]; simp)]
    decide
  have hold : e.surface ∉ older.map Entry.surface := by
    have hnd := hp.1.2.1
    rw [hq, List.map_append, List.map_cons, List.nodup_append] at hnd
    exact fun h => hnd.2.2 _ h _ List.mem_cons_self rfl
  refine hs.restate (s.takeEntry_wtt older e newer).1 (fun j => ?_) fun j => ?_
  · exact congrArg (fun b => b.2.1) (congrFun (bodies_takeEntry s older e newer) j)
  · have hst := s.takeEntry_st older e newer j
    have hb := s.takeEntry_bands older e newer j
    show ((s.takeEntry older e newer).st.get j).state = .free ∧ (s.takeEntry older e newer).bt.bands.get j = _ ∨
      (((s.takeEntry older e newer).st.get j).state = .free ↔ _) ∧
        (s.takeEntry older e newer).bt.bands.get j = s.bt.bands.get j
    rw [hst, hb]
    by_cases hj : j = e.surface
    · subst hj
      rw [if_pos rfl, if_neg hold]
      exact .inr ⟨iff_of_false (by simp) hqueued, rfl⟩
    · rw [if_neg hj]
      by_cases hm : j ∈ older.map Entry.surface
      · rw [if_pos hm, if_pos hm]
        exact .inl ⟨rfl, rfl⟩
      · rw [if_neg hm, if_neg hm]
        exact .inr ⟨Iff.rfl, rfl⟩

/-- Freed surfaces have their records cleared, and nothing else changes of them (R9). -/
theorem Tracking.freed {s t : State} (hs : Tracking s) {freed : Fin 8 → Prop} (hf : Freed freed s t)
    (hw : t.bt.wtt = s.bt.wtt) : Tracking t := by
  refine hs.restate hw (fun i => ?_) fun i => ?_
  · by_cases hi : freed i
    · rw [((hf i).1 hi).1]
    · rw [((hf i).2 hi).1]
  · by_cases hi : freed i
    · obtain ⟨hst, hb⟩ := (hf i).1 hi
      exact .inl ⟨by rw [hst], hb⟩
    · obtain ⟨hst, hb⟩ := (hf i).2 hi
      exact .inr ⟨by rw [hst], hb⟩

theorem Tracking.freeScanning {s : State} (hp : Presentation s) (hs : Tracking s) : Tracking s.freeScanning := by
  obtain ⟨hf, -, heq⟩ := scanningFreed_freeScanning s hp.2.1.1
  exact hs.freed hf (congrArg (fun u => u.bt.wtt) heq)

/-- The surface HELD before is freed, and the SCANNING one stays in use (R14). -/
theorem Tracking.settleSurfaces {s : State} (hp : Presentation s) (hs : Tracking s) : Tracking s.settleSurfaces := by
  have hget := settleSurfaces_get s hp.2.1.1 hp.2.1.2.1
  have heq := (settled_settleSurfaces s hp.2.1.1 hp.2.1.2.1).1.2.2
  refine hs.restate (congrArg (fun u => u.bt.wtt) heq) (fun i => by rw [(hget i).1]) fun i => ?_
  rw [(hget i).1, (hget i).2]
  by_cases hi : (s.st.get i).state = .scanning
  · right
    simp [hi]
  · by_cases hh : (s.st.get i).state = .held ∧ ∃ j, (s.st.get j).state = .scanning
    · left
      simp [hh]
    · right
      simp only [if_neg hi, if_neg hh, true_and]

/-! ## Every change, and every step -/

theorem tracking_powerOnReset (wsel : BitVec 4) (linkUp crst : Bool) (s : State) :
    Tracking (powerOnReset wsel linkUp crst s) := by
  obtain ⟨hst, hbt, -⟩ := powerOnReset_blocks wsel linkUp crst s
  refine tracking_of_free (fun i => by rw [hst, reset_st_get]; rfl) (fun i => by rw [hbt, reset_bands_get]) ?_
  rw [hbt]
  show (Table.replicate 256 none).count _ ≤ _
  rw [Table.count_replicate]
  exact Nat.zero_le _

theorem Move.tracking {s t : State} (hp : Presentation s) (hs : Tracking s) (h : Move s t) : Tracking t := by
  have hset : ∀ (i : Fin 8) (f : Surface → Surface), (s.st.get i).state ≠ .free → (∀ x, (f x).gen = x.gen) →
      (∀ x, (f x).state ≠ .free) → ∀ j, ((s.st.modify i f).get j).gen = (s.st.get j).gen ∧
        (((s.st.modify i f).get j).state = .free ↔ (s.st.get j).state = .free) := by
    intro i f hi hg hf j
    rw [Table.get_modify]
    split
    · rename_i hj
      exact ⟨hg _, iff_of_false (hf _) (hj ▸ hi)⟩
    · exact ⟨rfl, Iff.rfl⟩
  have hmod : ∀ (i : Fin 8) (f : Surface → Surface), (∀ x, (f x).gen = x.gen) → (∀ x, (f x).state = x.state) →
      ∀ j, ((s.st.modify i f).get j).gen = (s.st.get j).gen ∧
        (((s.st.modify i f).get j).state = .free ↔ (s.st.get j).state = .free) := by
    intro i f hg hf j
    rw [Table.get_modify]
    split
    · exact ⟨hg _, by rw [hf]⟩
    · exact ⟨rfl, Iff.rfl⟩
  cases h with
  | traffic | decoder | outputs | queue | arbiter | reports | raster | stalled | areaOff | areaOn | handed =>
    exact hs.congr rfl rfl (fun _ => rfl) fun _ => Iff.rfl
  | scanned i b x hi hx =>
    refine hs.rebands (fun _ => ⟨rfl, rfl⟩) (fun j hj => ?_) (fun j c hj => ?_) hs.2.2.2
    · exact Table.get_modify_ne _ (by rintro rfl; exact hi hj) _
    · have hpend := hs.1 j c
      rw [if_neg hj] at hpend
      dsimp only
      rw [band_modifyBand]
      split
      · rename_i h
        obtain ⟨rfl, rfl⟩ := h
        exact ⟨bandLawful_scan (hs.2.2.1 j c) hx, hpend⟩
      · exact ⟨hs.2.2.1 j c, hpend⟩
  | released i lc first last hi =>
    refine hs.rebands (fun _ => ⟨rfl, rfl⟩) (fun j hj => ?_) (fun j c hj => ?_) hs.2.2.2
    · exact Table.get_modify_ne _ (by rintro rfl; exact hi hj) _
    · have hpend := hs.1 j c
      rw [if_neg hj] at hpend
      unfold BandTracker.band at hpend ⊢
      dsimp only
      rw [← hpend, Table.get_modify]
      split
      · unfold Bands.release
        rw [Table.get_mapIdx]
        split
        · exact bandLawful_release (hs.2.2.1 j c) lc
        · exact ⟨hs.2.2.1 j c, rfl⟩
      · exact ⟨hs.2.2.1 j c, rfl⟩
  | late i =>
    have h := hmod i (fun f => { f with late := satInc 65535 f.late }) (fun _ => rfl) fun _ => rfl
    exact hs.congr rfl rfl (fun j => (h j).1) fun j => (h j).2
  | opened i hd hf hn => exact hs.openSurface hn
  | abandoned i hi =>
    refine hs.freed (freed := fun j => j = i) (fun j => ?_) rfl
    have := s.freeSurface_get i j
    constructor
    · intro h
      rw [if_pos h, if_pos h] at this
      exact this
    · intro h
      rw [if_neg h, if_neg h] at this
      exact this
  | enqueued i m l a hi hq hz =>
    have h := hset i (fun f => { f with state := .queued }) (by rw [hi]; decide) (fun _ => rfl) fun _ => by simp
    exact hs.congr rfl rfl (fun j => (h j).1) fun j => (h j).2
  | withdrawn i hi =>
    have h := hset i (fun f => { f with state := .rendering }) (by rw [hi]; decide) (fun _ => rfl) fun _ => by simp
    exact hs.congr rfl rfl (fun j => (h j).1) fun j => (h j).2
  | undefined i hi =>
    have h := hmod i (fun f => { f with geo := .undefined }) (fun _ => rfl) fun _ => rfl
    exact hs.congr rfl rfl (fun j => (h j).1) fun j => (h j).2
  | defined i g f hi hg ho =>
    have h := hmod i (fun x => { x with geo := g.geometry f }) (fun _ => rfl) fun _ => rfl
    exact hs.congr rfl rfl (fun j => (h j).1) fun j => (h j).2
  | inForce t hf =>
    obtain ⟨-, -, hfreed, -, -, heq⟩ := timingInForce_timingInForce s t hp.2.1.2.1
    exact hs.freed hfreed (congrArg (fun u => u.bt.wtt) heq)
  | allFreed =>
    refine tracking_of_free (fun i => by simp [Surface.softReset]) (fun i => Table.get_replicate i _) ?_
    show (Table.replicate 256 none).count _ ≤ _
    rw [Table.count_replicate]
    exact Nat.zero_le _
  | poweredOn wsel linkUp crst => exact tracking_powerOnReset wsel linkUp crst s
  | tracked tag i b hi hb ht ho => exact hs.trackWrite hi hb ht ho
  | acknowledged tag status => exact hs.acknowledge tag status
  | drained => exact hs.linkReset _
  | taken older e newer u r hq hu ht hc hf =>
    rcases hu with ⟨rfl, -⟩ | rfl
    · exact Tracking.takeEntry hp hs r hq
    · obtain ⟨-, -, hpq, -⟩ := s.freeScanning_frame
      exact Tracking.takeEntry hp.freeScanning.1 (Tracking.freeScanning hp hs) r (by rw [hpq]; exact hq)
  | settled r ht hc =>
    exact (Tracking.settleSurfaces hp hs).congr rfl rfl (fun _ => rfl) fun _ => Iff.rfl

/-- Settles O52: every change keeps laws 1 to 4, along with laws 5 to 7. -/
theorem trackingKept : Obligations.TrackingKept := by
  intro s t hs hp h
  exact ((moves_step s h).keeps (P := fun s => Presentation s ∧ Tracking s)
    (fun _ _ hs hm => ⟨hm.presentation hs.1, hm.tracking hs.1 hs.2⟩) ⟨hp, hs⟩).2

end Sys2Proof.Safety
end

