-- ==== Sys2Proof/Proofs/Frames.lean ====
section
/-! What the scanout looks at, and what leaves it as it is; the state outside a frame and in one, apart from the line's
place in the raster state. -/

namespace Sys2Proof.Safety

open Sys2Proof.Machine

/-! ## What the scanout looks at -/

/-- The band heights of the surfaces (R1). -/
def heights (t : Table Surface 8) : Fin 8 → Nat := fun i => (t.get i).geo.hb

/-- What the laws of the scanout look at beside the line's place: the timing sets, the frame, the kind and the front
blank of the record, the fetch sets, the line buffer, the prior line and the band heights. -/
def frameView (s : State) :=
  (s.rtm.timing, s.rtm.pendingSet, s.rtm.frame, s.rtm.record.map fun w => (w.kind, w.front),
    s.sf.inForce, s.sf.waiting, s.sf.buffer, s.sf.prior, heights s.st)

/-- All that the laws of the scanout look at. -/
def scanView (s : State) := (s.rtm.raster, s.rtm.pos, s.rtm.ended, s.rtm.offPending, frameView s)

theorem heights_modify (t : Table Surface 8) (i : Fin 8) {f : Surface → Surface} (h : ∀ x, (f x).geo.hb = x.geo.hb) :
    heights (t.modify i f) = heights t := by
  funext j
  unfold heights
  rw [Table.get_modify]
  split
  · exact h _
  · rfl

/-- A change of surface states changes no band height. -/
theorem heights_of_bodies {s t : State} (h : bodies t = bodies s) : heights t.st = heights s.st := by
  funext i
  exact congrArg (fun b => b.1.hb) (congrFun h i)

/-- The scanout looks at three blocks alone. -/
theorem scanView_of_blocks {s t : State} (hr : t.rtm = s.rtm) (hf : t.sf = s.sf) (hb : heights t.st = heights s.st) :
    scanView t = scanView s := by
  unfold scanView frameView
  rw [hr, hf, hb]

theorem frameView_of_scanView {s t : State} (h : scanView t = scanView s) : frameView t = frameView s :=
  congrArg (fun v => v.2.2.2.2) h

/-- A change of the working record's counts, of its lag or its split. -/
theorem scanView_onRecord (s : State) {f : WorkingRecord → WorkingRecord}
    (h : ∀ w, (f w).kind = w.kind ∧ (f w).front = w.front) : scanView (s.onRecord f) = scanView s := by
  have hr : (s.rtm.record.map f).map (fun w => (w.kind, w.front)) = s.rtm.record.map fun w => (w.kind, w.front) := by
    rw [Option.map_map]
    congr 1
    funext w
    exact Prod.ext (h w).1 (h w).2
  unfold scanView frameView State.onRecord
  dsimp only
  rw [hr]

theorem scanView_setSurface (s : State) (i : Fin 8) (x : SurfState) : scanView (s.setSurface i x) = scanView s :=
  scanView_of_blocks rfl rfl (heights_of_bodies (bodies_setSurface s i x))

theorem scanView_freeSurface (s : State) (i : Fin 8) : scanView (s.freeSurface i) = scanView s :=
  scanView_setSurface s i .free

theorem scanView_dropOlder (s : State) (e : Entry) : scanView (s.dropOlder e) = scanView s :=
  (scanView_onRecord (s.dropSurface e) (f := fun r => { r with dropped := count16 r.dropped }) fun _ => ⟨rfl, rfl⟩).trans
    (scanView_freeSurface s e.surface)

theorem scanView_takeEntry (s : State) (older : List Entry) (e : Entry) (newer : List Entry) :
    scanView (s.takeEntry older e newer) = scanView s :=
  (scanView_setSurface _ e.surface .scanning).trans (foldl_keeps scanView State.dropOlder scanView_dropOlder older _)

theorem scanView_freeScanning (s : State) : scanView s.freeScanning = scanView s := by
  unfold State.freeScanning
  split
  · exact scanView_freeSurface s _
  · rfl

theorem scanView_settleSurfaces (s : State) : scanView s.settleSurfaces = scanView s :=
  scanView_of_blocks (by simp) (by simp) (heights_of_bodies (bodies_settleSurfaces s))

theorem scanView_result (s : State) (l : Lane) (c : BitVec 8) (r : Result) : scanView (s.result l c r) = scanView s :=
  scanView_of_blocks (by simp) (by simp) (by simp)

/-- A band decision marks a band and counts (R46 to R48). -/
theorem scanView_decideBand (s : State) (kind : FrameKind) (b : Nat) : scanView (s.decideBand kind b).2 = scanView s := by
  unfold State.decideBand
  split
  · rfl
  · rfl
  · split
    · rfl
    · split
      · exact scanView_onRecord _ fun _ => ⟨rfl, rfl⟩
      · exact scanView_onRecord _ fun _ => ⟨rfl, rfl⟩
      · exact scanView_onRecord _ fun _ => ⟨rfl, rfl⟩

theorem scanView_fetchPoint (s : State) (c : FrameControl) (b : Nat) : scanView (s.fetchPoint c b) = scanView s :=
  scanView_decideBand s c.decision b

theorem scanView_firstPoint (s : State) (t : TimingSet) (c : FrameControl) (n : Nat) :
    scanView (s.firstPoint t c n) = scanView s := by
  unfold State.firstPoint
  split
  · exact scanView_fetchPoint s c 0
  · rfl

theorem scanView_bandPoint (s : State) (c : FrameControl) (j : Nat) : scanView (s.bandPoint c j) = scanView s := by
  unfold State.bandPoint
  split
  · exact scanView_fetchPoint s c _
  · rfl

theorem scanView_completeLag (s : State) (j : Nat) : scanView (s.completeLag j) = scanView s := by
  unfold State.completeLag
  split
  · split
    · exact scanView_onRecord s (f := fun r => { r with lag := _ }) fun _ => ⟨rfl, rfl⟩
    · rfl
  · rfl

theorem scanView_lateBursts {α : Type} (s : State) (l : List α) :
    scanView (l.foldl (fun s _ => s.lateBurst) s) = scanView s :=
  foldl_keeps scanView (fun (s : State) _ => s.lateBurst) (fun u _ => scanView_onRecord (u.raise .fetchLate)
    fun _ => ⟨rfl, rfl⟩) l s

/-! ## Lawful sets and leads (R78, R103) -/

/-- The bounds of a lawful timing set that the scanout leans on (R74, R78). -/
structure SetBounds (t : TimingSet) : Prop where
  hMin : 240 ≤ t.h
  hMax : t.h ≤ 2160
  sMin : 4 ≤ t.s
  fMinPos : 1 ≤ t.fMin
  fOrder : t.fMin ≤ t.fMax

theorem TimingLawful.bounds {t : TimingSet} (h : TimingLawful t) : SetBounds t := by
  obtain ⟨-, -, -, h1, h2, -, -, -, -, h3, -, -, -, -, -, -, -, h4, h5, -⟩ := h
  exact ⟨h1, h2, h3, h4, h5⟩

/-- A lead reduced to the smaller of 16 and S is lawful under that S (R92, R103). -/
theorem leadLawful_limit {timing : Option TimingSet} {f : FetchSet} (h : LeadLawful timing f.lead) {t : TimingSet}
    (ht : TimingLawful t) : LeadLawful (some t) (f.limit t).lead := by
  have hs := ht.bounds.sMin
  obtain ⟨h1, h2, -⟩ := h
  have hl : (f.limit t).lead = min f.lead (min 16 t.s) := rfl
  refine ⟨by omega, by omega, ?_⟩
  rintro u ⟨⟩
  omega

/-! ## Outside a frame -/

/-- The scanout outside a frame, apart from the line's place and the record. -/
structure Idle (s : State) : Prop where
  timing : ∀ t, s.rtm.timing = some t → TimingLawful t
  pending : ∀ t, s.rtm.pendingSet = some t → TimingLawful t
  inForce : LeadLawful s.rtm.timing s.sf.inForce.lead
  waiting : ∀ f, s.sf.waiting = some f → LeadLawful s.rtm.timing f.lead
  frame : s.rtm.frame = none
  buffer : s.sf.buffer = []
  prior : s.sf.prior = none
  heights : ∀ i, BandHeight (heights s.st i)

/-! ## The line's place in each raster state -/

section
variable {r : RasterTimer} {t : TimingSet}

theorem rasterPlaced_off (hr : r.raster = .off) : RasterPlaced r ↔
    r.record = none ∧ r.frame = none ∧ r.pendingSet = none ∧ r.offPending = false ∧ r.ended = false := by
  unfold RasterPlaced; rw [hr]

theorem rasterPlaced_settle (hr : r.raster = .settle) (ht : r.timing = some t) : RasterPlaced r ↔
    r.pos < t.settle ∧ r.record = none ∧ r.frame = none ∧ r.offPending = false := by
  unfold RasterPlaced; rw [hr, ht]

theorem rasterPlaced_frontMin (hr : r.raster = .frontMin) (ht : r.timing = some t) : RasterPlaced r ↔
    r.pos < t.fMin ∧ r.record.isSome = true ∧ r.frame = none ∧ r.offPending = false := by
  unfold RasterPlaced; rw [hr, ht]

theorem rasterPlaced_stretch (hr : r.raster = .stretch) (ht : r.timing = some t) : RasterPlaced r ↔
    t.fMin + r.pos + 1 ≤ t.fMax ∧ r.record.isSome = true ∧ r.frame = none ∧ r.offPending = false := by
  unfold RasterPlaced; rw [hr, ht]

theorem rasterPlaced_backBlank (hr : r.raster = .backBlank) (ht : r.timing = some t) : RasterPlaced r ↔
    r.pos < t.s ∧ r.record.isSome = true ∧ r.frame.isSome = true := by
  unfold RasterPlaced; rw [hr, ht]

theorem rasterPlaced_active (hr : r.raster = .active) (ht : r.timing = some t) : RasterPlaced r ↔
    r.pos < t.h ∧ r.record.isSome = true ∧ r.frame.isSome = true := by
  unfold RasterPlaced; rw [hr, ht]

end

/-- Outside OFF the line's place does not look at a pending set or at the end of the line, and in a frame not at a
pending OUTPUT_OFF. -/
theorem RasterPlaced.congr {r r' : RasterTimer} (hp : RasterPlaced r) (hoff : r.raster ≠ .off)
    (hr : r'.raster = r.raster) (hn : r'.pos = r.pos) (ht : r'.timing = r.timing) (hw : r'.record = r.record)
    (hc : r'.frame = r.frame) (ho : inFrame r.raster = true ∨ r'.offPending = r.offPending) : RasterPlaced r' := by
  have hpend : inFrame r.raster = false → r'.offPending = r.offPending := fun hf => ho.resolve_left (by simp [hf])
  unfold RasterPlaced at hp ⊢
  rw [hr, hn, ht, hw, hc]
  split at hp
  · rename_i h; exact absurd h hoff
  · rename_i h _
    obtain ⟨h1, h2, h3, h4⟩ := hp
    exact ⟨h1, h2, h3, (hpend (by rw [h]; rfl)).trans h4⟩
  · rename_i h _
    obtain ⟨h1, h2, h3, h4⟩ := hp
    exact ⟨h1, h2, h3, (hpend (by rw [h]; rfl)).trans h4⟩
  · rename_i h _
    obtain ⟨h1, h2, h3, h4⟩ := hp
    exact ⟨h1, h2, h3, (hpend (by rw [h]; rfl)).trans h4⟩
  · exact hp
  · exact hp
  · exact hp.elim

/-- No line is in the buffer outside BACK_BLANK and ACTIVE (R107). -/
theorem bufferLines_outside {r : RasterTimer} (h : inFrame r.raster = false) : bufferLines r = [] := by
  unfold bufferLines
  split
  · rename_i hr _ _; rw [hr] at h; cases h
  · rename_i hr _ _; rw [hr] at h; cases h
  · rfl

/-- Outside BACK_BLANK and ACTIVE there is no frame's control (R87). -/
theorem RasterPlaced.frame_none {r : RasterTimer} (hp : RasterPlaced r) (h : inFrame r.raster = false) :
    r.frame = none := by
  unfold RasterPlaced at hp
  split at hp
  · exact hp.2.1
  · exact hp.2.2.1
  · exact hp.2.2.1
  · exact hp.2.2.1
  · rename_i hr _; rw [hr] at h; cases h
  · rename_i hr _; rw [hr] at h; cases h
  · exact hp.elim

theorem Scanout.idle {s : State} (hs : Scanout s) (h : inFrame s.rtm.raster = false) : Idle s := by
  obtain ⟨⟨h1, h2, h3, -, h5, h6, -, h8⟩, ⟨-, -, h11⟩, h12, -⟩ := hs
  rw [bufferLines_outside h, List.map_eq_nil_iff] at h8
  exact ⟨h1, h2, h5, h6, h3.frame_none h, h8, h11 h, h12⟩

/-- Outside a frame the scanout is safe where the line has its place and the record no kind. -/
theorem Idle.scanout {s : State} (hi : Idle s) (hp : RasterPlaced s.rtm) (h : inFrame s.rtm.raster = false)
    (hk : ∀ w, s.rtm.record = some w → w.kind = none) : Scanout s := by
  refine ⟨⟨hi.timing, hi.pending, hp, fun w hw => ?_, hi.inForce, hi.waiting, fun c hc => ?_, ?_⟩,
    ⟨fun t _ slot hslot => ?_, fun t _ line hl => ?_, fun _ => hi.prior⟩, hi.heights, fun c hc => ?_⟩
  · rw [hk w hw, h]
    exact ⟨rfl, fun hc => by cases hc⟩
  · rw [hi.frame] at hc; cases hc
  · rw [hi.buffer, bufferLines_outside h]
    rfl
  · rw [hi.buffer] at hslot; cases hslot
  · rw [hi.prior] at hl; cases hl
  · rw [hi.frame] at hc; cases hc

theorem Idle.congr {s t : State} (hi : Idle s) (h : frameView t = frameView s) : Idle t := by
  unfold frameView at h
  simp only [Prod.mk.injEq] at h
  obtain ⟨h1, h2, h3, -, h5, h6, h7, h8, h9⟩ := h
  exact ⟨by rw [h1]; exact hi.timing, by rw [h2]; exact hi.pending, by rw [h1, h5]; exact hi.inForce,
    by rw [h1, h6]; exact hi.waiting, by rw [h3]; exact hi.frame, by rw [h7]; exact hi.buffer,
    by rw [h8]; exact hi.prior, by rw [h9]; exact hi.heights⟩

/-- A timing set comes into force outside a frame (R92, R103). -/
theorem Idle.timingInForce {s : State} (hi : Idle s) {t : TimingSet} (ht : TimingLawful t) :
    Idle (s.timingInForce t) := by
  have hrt : (s.timingInForce t).rtm = { s.rtm with timing := some t, pendingSet := none } := by
    unfold State.timingInForce; simp
  have hsf : (s.timingInForce t).sf = { s.sf with inForce := s.sf.inForce.limit t
                                                  waiting := s.sf.waiting.map fun f => f.limit t } := by
    unfold State.timingInForce; simp
  have hb := heights_of_bodies (bodies_timingInForce s t)
  constructor
  · rw [hrt]
    rintro u ⟨⟩
    exact ht
  · rw [hrt]
    rintro u ⟨⟩
  · rw [hrt, hsf]
    exact leadLawful_limit hi.inForce ht
  · rw [hrt, hsf]
    intro f hf
    obtain ⟨g, hg, rfl⟩ := Option.map_eq_some_iff.1 hf
    exact leadLawful_limit (hi.waiting g hg) ht
  · rw [hrt]
    exact hi.frame
  · rw [hsf]
    exact hi.buffer
  · rw [hsf]
    exact hi.prior
  · rw [hb]
    exact hi.heights

/-- The lead of a fetch set that comes into force (R102, R103). -/
theorem fetchInForce_lead {s : State} (htl : ∀ t, s.rtm.timing = some t → TimingLawful t) {f : FetchSet}
    (hf : LeadLawful s.rtm.timing f.lead) : LeadLawful s.rtm.timing (s.fetchInForce f).sf.inForce.lead := by
  unfold State.fetchInForce
  cases ht : s.rtm.timing with
  | none =>
    rw [ht] at hf
    exact hf
  | some t => exact leadLawful_limit hf (htl t ht)

theorem Idle.fetchInForce {s : State} (hi : Idle s) {f : FetchSet} (hf : LeadLawful s.rtm.timing f.lead) :
    Idle (s.fetchInForce f) :=
  ⟨hi.timing, hi.pending, fetchInForce_lead hi.timing hf, fun _ h => (by cases h), hi.frame, hi.buffer, hi.prior,
    hi.heights⟩

theorem Idle.waitingInForce {s : State} (hi : Idle s) : Idle s.waitingInForce := by
  unfold State.waitingInForce
  split
  · rename_i f hf
    exact hi.fetchInForce (hi.waiting f hf)
  · exact hi

/-- The entry into OFF (R81, R92, R96, R102). -/
theorem Idle.enterOff {s : State} (hi : Idle s) : Scanout s.enterOff := by
  have h0 : Idle { s with
      rtm := { s.rtm with raster := .off, pos := 0, ended := false, offPending := false, record := none, frame := none
                          lag := none }
      po := { s.po with sent := .nothing, missed := false } } :=
    ⟨hi.timing, hi.pending, hi.inForce, hi.waiting, rfl, hi.buffer, hi.prior, hi.heights⟩
  unfold State.enterOff
  dsimp only
  generalize hu : ({ s with
      rtm := { s.rtm with raster := .off, pos := 0, ended := false, offPending := false, record := none, frame := none
                          lag := none }
      po := { s.po with sent := .nothing, missed := false } } : State) = u at h0
  have hoff : u.rtm.raster = .off ∧ u.rtm.record = none ∧ u.rtm.frame = none ∧ u.rtm.offPending = false ∧
      u.rtm.ended = false := by rw [← hu]; exact ⟨rfl, rfl, rfl, rfl, rfl⟩
  obtain ⟨r1, r2, r3, r4, r5⟩ := hoff
  have hp : Idle u.pendingInForce ∧ u.pendingInForce.rtm.pendingSet = none ∧
      u.pendingInForce.rtm = { u.rtm with timing := u.pendingInForce.rtm.timing, pendingSet := none } := by
    unfold State.pendingInForce
    split
    · rename_i t ht
      have hrt : (u.timingInForce t).rtm = { u.rtm with timing := some t, pendingSet := none } := by
        unfold State.timingInForce; simp
      exact ⟨h0.timingInForce (h0.pending t ht), by rw [hrt], by rw [hrt]⟩
    · rename_i hn
      refine ⟨h0, hn, ?_⟩
      rw [← hn]
  obtain ⟨hi', hpn, hrt⟩ := hp
  have hwr : u.pendingInForce.waitingInForce.rtm = u.pendingInForce.rtm := by
    simp
  have hraster : u.pendingInForce.waitingInForce.rtm.raster = .off := by rw [hwr, hrt]; exact r1
  refine hi'.waitingInForce.scanout ?_ (by rw [hraster]; rfl) ?_
  · unfold RasterPlaced
    rw [hraster]
    dsimp only
    rw [hwr, hrt]
    exact ⟨r2, r3, rfl, r4, r5⟩
  · rw [hwr, hrt]
    dsimp only
    rw [r2]
    rintro w ⟨⟩

/-- FRONT_MIN begins with an empty record (R81, R83). -/
theorem Idle.enterFrontMin {s : State} (hi : Idle s) {t : TimingSet} (ht : s.rtm.timing = some t)
    (ho : s.rtm.offPending = false) : Scanout s.enterFrontMin := by
  have h0 : Idle s.enterFrontMin :=
    ⟨hi.timing, hi.pending, hi.inForce, hi.waiting, hi.frame, hi.buffer, hi.prior, hi.heights⟩
  refine h0.scanout ((rasterPlaced_frontMin (r := s.enterFrontMin.rtm) rfl ht).2
    ⟨(hi.timing t ht).bounds.fMinPos, rfl, hi.frame, ho⟩) rfl ?_
  rintro w ⟨⟩
  rfl

/-- SETTLE begins, or, with a settle of 0 lines, FRONT_MIN at once (R82). -/
theorem Idle.enterSettle {s : State} (hi : Idle s) {t : TimingSet} (ht : s.rtm.timing = some t)
    (ho : s.rtm.offPending = false) (hr : s.rtm.record = none) : Scanout (s.enterSettle t) := by
  unfold State.enterSettle
  split
  · exact Idle.enterFrontMin (hi.congr rfl) ht ho
  · rename_i hn
    have h0 : Idle ((s.boundary .settle 0).sendBlank .settle) :=
      ⟨hi.timing, hi.pending, hi.inForce, hi.waiting, hi.frame, hi.buffer, hi.prior, hi.heights⟩
    refine h0.scanout ((rasterPlaced_settle (r := ((s.boundary .settle 0).sendBlank .settle).rtm) rfl ht).2
      ⟨Nat.pos_of_ne_zero hn, hr, hi.frame, ho⟩) rfl ?_
    intro w hw
    have : s.rtm.record = some w := hw
    rw [hr] at this
    cases this

end Sys2Proof.Safety
end

