-- ==== Sys2Proof/Proofs/Lines.lean ====
section
/-! A frame under way: what its lines, its slots and its control keep at every boundary in BACK_BLANK and ACTIVE. -/

namespace Sys2Proof.Safety

open Sys2Proof.Machine

/-! ## The lines of the buffer (R107) -/

theorem bufferLines_backBlank {r : RasterTimer} {t : TimingSet} {c : FrameControl} (hr : r.raster = .backBlank)
    (ht : r.timing = some t) (hc : r.frame = some c) : bufferLines r = List.range (r.pos + 1 + c.lead - t.s) := by
  unfold bufferLines; rw [hr, ht, hc]

theorem bufferLines_active {r : RasterTimer} {t : TimingSet} {c : FrameControl} (hr : r.raster = .active)
    (ht : r.timing = some t) (hc : r.frame = some c) :
    bufferLines r = List.range' (r.pos + 1) (min c.lead (t.h - (r.pos + 1))) := by
  unfold bufferLines; rw [hr, ht, hc]

/-- No line is in the buffer twice (R107). -/
theorem bufferLines_nodup (r : RasterTimer) : (bufferLines r).Nodup := by
  unfold bufferLines
  split
  · exact List.nodup_range
  · exact List.nodup_range'
  · exact List.nodup_nil

/-! ## Whole slots (R107, R108, R112) -/

theorem slotWhole_slotOf (w l : Nat) (source : BandSource) : SlotWhole w (slotOf w l source) := by
  cases source with
  | fill => rfl
  | surface src =>
    refine ⟨List.length_replicate, fun i pixels h => ?_⟩
    have hm := List.mem_of_getElem? h
    cases List.eq_of_mem_replicate hm

theorem slotOf_line (w l : Nat) (source : BandSource) : (slotOf w l source).line = l := by
  cases source <;> rfl

/-- The pixels of the bursts before burst `k` of a line of `w` pixels (R108). -/
theorem sum_burstLength (f : Format) (w k : Nat) :
    ((List.range k).map (burstLength f w)).sum = min w (f.burstPixels * k) := by
  induction k with
  | zero => simp
  | succ k ih =>
    rw [List.range_succ, List.map_append, List.sum_append, ih, List.map_singleton, List.sum_singleton, burstLength,
      Nat.mul_succ]
    omega

/-- The bursts of a line cover it (R108). -/
theorem burstCount_covers (f : Format) (w : Nat) : w ≤ f.burstPixels * burstCount f w := by
  cases f <;> simp only [burstCount, ceilDiv, burstBytes, Format.bytes, Format.burstPixels] <;> omega

theorem replacement_length {set : FetchSet} {prior : Option (List Pixel)} {w start count : Nat}
    (hp : ∀ line, prior = some line → line.length = w) (hc : count ≤ w - start) :
    (replacement set prior start count).length = count := by
  unfold replacement
  split
  · rename_i line _
    rw [List.length_take, List.length_drop, hp line rfl]
    omega
  · exact List.length_replicate
  · exact List.length_replicate

theorem burstAtDeadline_length {set : FetchSet} {prior : Option (List Pixel)} {f : Format} {w i : Nat} {b : Burst}
    (hp : ∀ line, prior = some line → line.length = w)
    (hb : ∀ pixels, b = .returned pixels → pixels.length = burstLength f w i) :
    (burstAtDeadline set prior f w i b).length = burstLength f w i := by
  have hr : (replacement set prior (f.burstPixels * i) (burstLength f w i)).length = burstLength f w i :=
    replacement_length hp (min_le_right _ _)
  cases b with
  | returned pixels => exact hb pixels rfl
  | notIssued => exact hr
  | inFlight => exact hr
  | failed => exact hr

/-- A whole slot gives a line of W pixels at its deadline (R115, R116). -/
theorem lineAtDeadline_length {set : FetchSet} {prior : Option (List Pixel)} {w : Nat} {slot : Slot}
    (hp : ∀ line, prior = some line → line.length = w) (hw : SlotWhole w slot) :
    (lineAtDeadline set prior w slot).length = w := by
  unfold lineAtDeadline
  unfold SlotWhole at hw
  split
  · exact List.length_replicate
  · rename_i src hsrc
    rw [hsrc] at hw
    obtain ⟨hlen, hpix⟩ := hw
    have hmap : (slot.bursts.zipIdx.map fun p => burstAtDeadline set prior src.format w p.2 p.1).map List.length =
        (List.range slot.bursts.length).map (burstLength src.format w) := by
      apply List.ext_getElem
      · simp
      · intro i h₁ h₂
        simp only [List.length_map, List.length_zipIdx] at h₁
        simp only [List.getElem_map, List.getElem_zipIdx, List.getElem_range, Nat.zero_add]
        refine burstAtDeadline_length hp fun pixels hb => hpix i pixels ?_
        rw [List.getElem?_eq_getElem h₁, hb]
    rw [List.length_flatten, hmap, sum_burstLength, hlen]
    exact min_eq_left (burstCount_covers _ _)

/-! ## A frame under way -/

/-- The scanout in a frame of control `c` under the timing set `t`, at a line's place `p`, with these lines in the
buffer. -/
structure Framed (s : State) (p : Raster × Nat) (t : TimingSet) (c : FrameControl) (lines : List Nat) : Prop where
  place : (s.rtm.raster, s.rtm.pos) = p
  timing : s.rtm.timing = some t
  lawful : TimingLawful t
  pending : ∀ u, s.rtm.pendingSet = some u → TimingLawful u
  frame : s.rtm.frame = some c
  lead : LeadLawful (some t) c.lead
  grid : BandHeight c.hb
  inForce : LeadLawful (some t) s.sf.inForce.lead
  waiting : ∀ f, s.sf.waiting = some f → LeadLawful (some t) f.lead
  record : ∃ k front, s.rtm.record.map (fun w => (w.kind, w.front)) = some (some k, front) ∧
    t.fMin ≤ front ∧ front ≤ t.fMax
  buffer : s.sf.buffer.map Slot.line = lines
  whole : ∀ slot ∈ s.sf.buffer, SlotWhole t.w slot
  prior : ∀ line, s.sf.prior = some line → line.length = t.w
  heights : ∀ i, BandHeight (heights s.st i)

section
variable {s s' : State} {p : Raster × Nat} {t : TimingSet} {c : FrameControl} {lines : List Nat}

theorem Framed.of_scanView (hf : Framed s p t c lines) (h : scanView s' = scanView s) : Framed s' p t c lines := by
  unfold scanView frameView at h
  simp only [Prod.mk.injEq] at h
  obtain ⟨hr, hn, -, -, h1, h2, h3, h4, h5, h6, h7, h8, h9⟩ := h
  exact
    { place := by rw [hr, hn]; exact hf.place
      timing := by rw [h1]; exact hf.timing
      lawful := hf.lawful
      pending := by rw [h2]; exact hf.pending
      frame := by rw [h3]; exact hf.frame
      lead := hf.lead
      grid := hf.grid
      inForce := by rw [h5]; exact hf.inForce
      waiting := by rw [h6]; exact hf.waiting
      record := by rw [h4]; exact hf.record
      buffer := by rw [h7]; exact hf.buffer
      whole := by rw [h7]; exact hf.whole
      prior := by rw [h8]; exact hf.prior
      heights := by rw [h9]; exact hf.heights }

/-- A boundary moves the line's place and sends the line's part (R80, R125, R126). -/
theorem Framed.boundary (hf : Framed s p t c lines) (x : Raster) (n : Nat) :
    Framed (s.boundary x n) (x, n) t c lines :=
  { hf with place := rfl }

theorem Framed.record_isSome (hf : Framed s p t c lines) : s.rtm.record.isSome = true := by
  obtain ⟨k, front, hr, -, -⟩ := hf.record
  obtain ⟨w, hw, -⟩ := Option.map_eq_some_iff.1 hr
  rw [hw]; rfl

/-- Where a frame is under way and the line has its place, the scanout is safe. -/
theorem Framed.scanout (hf : Framed s p t c (bufferLines s.rtm)) (hp : RasterPlaced s.rtm)
    (h : inFrame s.rtm.raster = true) : Scanout s := by
  obtain ⟨k, front, hr, hlo, hhi⟩ := hf.record
  refine ⟨⟨fun u hu => ?_, hf.pending, hp, fun w hw => ?_, ?_, ?_, fun d hd => ?_, hf.buffer⟩,
    ⟨fun u hu => ?_, fun u hu => ?_, fun hn => ?_⟩, hf.heights, fun d hd => ?_⟩
  · rw [hf.timing] at hu
    cases hu
    exact hf.lawful
  · rw [hw] at hr
    simp only [Option.map_some, Option.some.injEq, Prod.mk.injEq] at hr
    obtain ⟨hk, rfl⟩ := hr
    rw [hk, h]
    exact ⟨rfl, fun _ => ⟨t, hf.timing, hlo, hhi⟩⟩
  · rw [hf.timing]; exact hf.inForce
  · rw [hf.timing]; exact hf.waiting
  · rw [hf.timing]
    rw [hf.frame] at hd
    cases hd
    exact hf.lead
  · rw [hf.timing] at hu
    cases hu
    exact hf.whole
  · rw [hf.timing] at hu
    cases hu
    exact hf.prior
  · rw [h] at hn; cases hn
  · rw [hf.frame] at hd
    cases hd
    exact hf.grid

/-- In BACK_BLANK and ACTIVE a frame is under way. -/
theorem Scanout.framed (hs : Scanout s) (ht : s.rtm.timing = some t) (hc : s.rtm.frame = some c)
    (h : inFrame s.rtm.raster = true) : Framed s (s.rtm.raster, s.rtm.pos) t c (bufferLines s.rtm) := by
  obtain ⟨⟨htl, hpl, hp, hfl, hif, hwt, hld, hbl⟩, ⟨hwh, hpr, -⟩, hhb, hgr⟩ := hs
  have hrec : s.rtm.record.isSome = true := by
    cases hr : s.rtm.raster with
    | backBlank => exact ((rasterPlaced_backBlank hr ht).1 hp).2.1
    | active => exact ((rasterPlaced_active hr ht).1 hp).2.1
    | off => rw [hr] at h; cases h
    | settle => rw [hr] at h; cases h
    | frontMin => rw [hr] at h; cases h
    | stretch => rw [hr] at h; cases h
  obtain ⟨w, hw⟩ := Option.isSome_iff_exists.1 hrec
  obtain ⟨hk, hfr⟩ := hfl w hw
  rw [h] at hk
  obtain ⟨k, hk'⟩ := Option.isSome_iff_exists.1 hk
  obtain ⟨u, hu, hlo, hhi⟩ := hfr hk
  rw [ht] at hu
  cases hu
  exact
    { place := rfl
      timing := ht
      lawful := htl t ht
      pending := hpl
      frame := hc
      lead := ht ▸ hld c hc
      grid := hgr c hc
      inForce := ht ▸ hif
      waiting := ht ▸ hwt
      record := ⟨k, w.front, by rw [hw, Option.map_some, hk'], hlo, hhi⟩
      buffer := hbl
      whole := hwh t ht
      prior := hpr t ht
      heights := hhb }

/-- The scanout at a line of BACK_BLANK. -/
theorem Framed.backBlank {n : Nat} (hf : Framed s (.backBlank, n) t c (List.range (n + 1 + c.lead - t.s)))
    (hn : n < t.s) : Scanout s := by
  obtain ⟨hr, hpos⟩ := Prod.mk.inj hf.place
  have hb : bufferLines s.rtm = List.range (n + 1 + c.lead - t.s) := by
    rw [bufferLines_backBlank hr hf.timing hf.frame, hpos]
  rw [← hb] at hf
  refine hf.scanout ((rasterPlaced_backBlank hr hf.timing).2 ⟨hpos ▸ hn, hf.record_isSome, ?_⟩) (by rw [hr]; rfl)
  rw [hf.frame]; rfl

/-- The scanout at a line of ACTIVE. -/
theorem Framed.active {n : Nat}
    (hf : Framed s (.active, n) t c (List.range' (n + 1) (min c.lead (t.h - (n + 1))))) (hn : n < t.h) :
    Scanout s := by
  obtain ⟨hr, hpos⟩ := Prod.mk.inj hf.place
  have hb : bufferLines s.rtm = List.range' (n + 1) (min c.lead (t.h - (n + 1))) := by
    rw [bufferLines_active hr hf.timing hf.frame, hpos]
  rw [← hb] at hf
  refine hf.scanout ((rasterPlaced_active hr hf.timing).2 ⟨hpos ▸ hn, hf.record_isSome, ?_⟩) (by rw [hr]; rfl)
  rw [hf.frame]; rfl

/-! ## The steps of a line (R88, R90, R104, R106, R115 to R117) -/

/-- The fetch start of a line that the frame has adds it to the buffer (R106). -/
theorem Framed.fetchStart (hf : Framed s p t c lines) (d : FrameControl) {l : Nat} (hl : l < t.h) :
    Framed (s.fetchStart t d l) p t c (lines ++ [l]) := by
  unfold State.fetchStart
  rw [if_pos hl]
  exact { hf with
    buffer := by
      rw [List.map_append, hf.buffer, List.map_singleton, slotOf_line]
    whole := fun slot hs => by
      rcases List.mem_append.1 hs with hs | hs
      · exact hf.whole slot hs
      · rw [List.mem_singleton.1 hs]
        exact slotWhole_slotOf _ _ _ }

theorem fetchStart_beyond {d : FrameControl} {l : Nat} (hl : t.h ≤ l) : s.fetchStart t d l = s := by
  unfold State.fetchStart
  rw [if_neg (by omega)]

/-- Back-blank line `n` adds the line that its fetch start names (R88, R104). -/
theorem Framed.backLine {n : Nat} (hf : Framed s p t c (List.range (n + c.lead - t.s))) (hn : n < t.s) :
    Framed (s.backLine t c n) p t c (List.range (n + 1 + c.lead - t.s)) := by
  have hp := hf.of_scanView (scanView_firstPoint s t c n)
  obtain ⟨hl1, hl16, hls⟩ := hf.lead
  have hls := hls t rfl
  have hh := hf.lawful.bounds.hMin
  unfold State.backLine firstPointLine
  dsimp only
  split
  · rename_i hle
    have h1 : n + 1 + c.lead - t.s = n + c.lead - t.s + 1 := by omega
    have h2 : n - (t.s - c.lead) = n + c.lead - t.s := by omega
    rw [h1, List.range_succ, h2]
    exact hp.fetchStart c (by omega)
  · rename_i hlt
    have h1 : n + 1 + c.lead - t.s = n + c.lead - t.s := by omega
    rw [h1]
    exact hp

/-- The deadline and hand-over of the line at the head of the buffer (R115 to R117). -/
theorem Framed.lineDeadline (hf : Framed s p t c lines) {j : Nat} {rest : List Nat} (hl : lines = j :: rest) :
    Framed (s.lineDeadline t j) p t c rest := by
  have hb := hf.buffer
  rw [hl] at hb
  obtain ⟨slot, slots, hbuf, -, hrest⟩ := List.map_eq_cons_iff.1 hb
  unfold State.lineDeadline State.handOver
  rw [hbuf]
  dsimp only [headSlot]
  have hg := hf.of_scanView (scanView_lateBursts s (slot.bursts.filter Burst.late))
  exact { hg with
    buffer := hrest
    whole := fun x hx => hf.whole x (by rw [hbuf]; exact List.mem_cons_of_mem _ hx)
    prior := by
      rintro line ⟨⟩
      exact lineAtDeadline_length hf.prior (hf.whole slot (by rw [hbuf]; exact List.mem_cons_self)) }

/-- A waiting fetch set comes into force at line 0 (R102, R117). -/
theorem Framed.settingsAt (hf : Framed s p t c lines) (j : Nat) : Framed (s.settingsAt j) p t c lines := by
  unfold State.settingsAt State.waitingInForce
  split
  · split
    · rename_i f hw
      refine { hf with inForce := ?_, waiting := fun _ h => by cases h }
      have := fetchInForce_lead (s := s) (f := f) (fun u hu => by rw [hf.timing] at hu; cases hu; exact hf.lawful)
        (by rw [hf.timing]; exact hf.waiting f hw)
      rw [hf.timing] at this
      exact this
    · exact hf
  · exact hf

/-- The decision kind of a frame from a split on (R90). -/
def FrameControl.renewed (c d : FrameControl) : Prop := d = c ∨ d = { c with decision := .new }

/-- The mid-active decision point changes at most the frame's decision kind (R90). -/
theorem Framed.decisionPoint (hf : Framed s p t c lines) (j : Nat) :
    ∃ d, FrameControl.renewed c d ∧ Framed (s.decisionPoint c j) p t d lines := by
  unfold State.decisionPoint
  split
  · rename_i k _
    unfold State.midActive
    split
    · exact ⟨c, .inl rfl, hf⟩
    · split
      · exact ⟨c, .inl rfl, hf⟩
      · rename_i e u hu
        obtain ⟨older, newer, -, rfl⟩ := s.splitSelection_some hu
        have hv : scanView ((s.freeScanning.takeEntry older e newer).onRecord fun r =>
            { r with split := some (e.surface, k) }) = scanView s :=
          (scanView_onRecord _ (f := fun r => { r with split := some (e.surface, k) }) fun _ => ⟨rfl, rfl⟩).trans
            ((scanView_takeEntry _ older e newer).trans (scanView_freeScanning s))
        exact ⟨_, .inr rfl, { hf.of_scanView hv with frame := rfl, lead := hf.lead, grid := hf.grid }⟩
  · exact ⟨c, .inl rfl, hf⟩

/-- The lines that remain after the hand-over of line `j`, with its fetch start (R106, R107, R117). -/
theorem Framed.activeLine {j : Nat} (hf : Framed s p t c (List.range' j (min c.lead (t.h - j)))) (hj : j < t.h) :
    ∃ d, d.lead = c.lead ∧ Framed (s.activeLine t c j) p t d (List.range' (j + 1) (min c.lead (t.h - (j + 1)))) := by
  obtain ⟨d, hd, hp⟩ := (hf.of_scanView (scanView_completeLag s j)).decisionPoint j
  have hlead : d.lead = c.lead := by rcases hd with rfl | rfl <;> rfl
  have h1 : 1 ≤ c.lead := hf.lead.1
  have hcons : List.range' j (min c.lead (t.h - j)) = j :: List.range' (j + 1) (min c.lead (t.h - j) - 1) := by
    rw [← List.range'_succ]
    congr 1
    omega
  have hh := (hp.settingsAt j).lineDeadline hcons
  unfold State.activeLine
  dsimp only
  rw [hh.frame, Option.getD_some]
  have hb := hh.of_scanView (scanView_bandPoint _ d j)
  refine ⟨d, hlead, ?_⟩
  by_cases hl : j + d.lead < t.h
  · have hr : List.range' (j + 1) (min c.lead (t.h - (j + 1))) =
        List.range' (j + 1) (min c.lead (t.h - j) - 1) ++ [j + d.lead] := by
      have e1 : min c.lead (t.h - (j + 1)) = min c.lead (t.h - j) - 1 + 1 := by omega
      have e2 : j + 1 + (min c.lead (t.h - j) - 1) = j + d.lead := by omega
      rw [e1, List.range'_1_concat, e2]
    rw [hr]
    exact hb.fetchStart d hl
  · rw [fetchStart_beyond (by omega)]
    have e1 : min c.lead (t.h - (j + 1)) = min c.lead (t.h - j) - 1 := by omega
    rw [e1]
    exact hb

end

end Sys2Proof.Safety
end

