-- ==== Sys2Proof/Proofs/Boundaries.lean ====
section
/-! Every boundary of the raster keeps the scanout safe. -/

namespace Sys2Proof.Safety

open Sys2Proof.Machine

theorem Scanout.placed {s : State} (hs : Scanout s) : RasterPlaced s.rtm := by
  obtain ⟨⟨-, -, h, -⟩, -⟩ := hs
  exact h

theorem Scanout.lawful {s : State} (hs : Scanout s) {t : TimingSet} (ht : s.rtm.timing = some t) : TimingLawful t :=
  hs.1.1 t ht

/-- Outside a frame a record has no kind (R83). -/
theorem Scanout.kind_none {s : State} (hs : Scanout s) (h : inFrame s.rtm.raster = false) :
    ∀ w, s.rtm.record = some w → w.kind = none := fun w hw => by
  obtain ⟨⟨-, -, -, hfront, -⟩, -⟩ := hs
  have hk := (hfront w hw).1
  rw [h] at hk
  exact Option.isNone_iff_eq_none.1 (Option.isSome_eq_false_iff.1 hk)

section
variable {s t : State}

theorem record_isSome_of_scanView (h : scanView t = scanView s) : t.rtm.record.isSome = s.rtm.record.isSome := by
  unfold scanView frameView at h
  simp only [Prod.mk.injEq] at h
  obtain ⟨-, -, -, -, -, -, -, h4, -⟩ := h
  rw [← Option.isSome_map (f := fun w : WorkingRecord => (w.kind, w.front)), h4, Option.isSome_map]

theorem timing_of_scanView (h : scanView t = scanView s) : t.rtm.timing = s.rtm.timing :=
  congrArg (fun v => v.2.2.2.2.1) h

/-- The scanout is safe or not by what it looks at. -/
theorem Scanout.congr (hs : Scanout s) (h : scanView t = scanView s) : Scanout t := by
  have hsome := record_isSome_of_scanView h
  have hnone : t.rtm.record = none ↔ s.rtm.record = none := by
    rw [← Option.isNone_iff_eq_none, ← Option.isSome_eq_false_iff, hsome, Option.isSome_eq_false_iff,
      Option.isNone_iff_eq_none]
  obtain ⟨⟨h1, h2, h3, h4, h5, h6, h7, h8⟩, ⟨h9, h10, h11⟩, h12, h13⟩ := hs
  unfold scanView frameView at h
  simp only [Prod.mk.injEq] at h
  obtain ⟨hr, hn, he, ho, ht, hp, hf, hw, hi, hwt, hb, hpr, hh⟩ := h
  have hplace : RasterPlaced t.rtm := by
    unfold RasterPlaced at h3 ⊢
    rw [hr, ht, hf, hp, ho, he, hn]
    simp only [hnone, hsome]
    exact h3
  have hlines : bufferLines t.rtm = bufferLines s.rtm := by
    unfold bufferLines
    rw [hr, ht, hf, hn]
  refine ⟨⟨by rw [ht]; exact h1, by rw [hp]; exact h2, hplace, fun w hw' => ?_, by rw [ht, hi]; exact h5,
    by rw [ht, hwt]; exact h6, by rw [ht, hf]; exact h7, by rw [hb, hlines]; exact h8⟩,
    ⟨by rw [ht, hb]; exact h9, by rw [ht, hpr]; exact h10, by rw [hr, hpr]; exact h11⟩,
    fun i => by rw [show (t.st.get i).geo.hb = _ from congrFun hh i]; exact h12 i, by rw [hf]; exact h13⟩
  rw [hw', Option.map_some] at hw
  obtain ⟨x, hx, hxk⟩ := Option.map_eq_some_iff.1 hw.symm
  obtain ⟨hkind, hfront⟩ := Prod.mk.inj hxk
  rw [hr, ht, ← hkind, ← hfront]
  exact h4 x hx

/-! ## The blank lines (R80, R82, R83, R85) -/

/-- A further line of a blank outside a frame. -/
theorem Scanout.blankLine (hs : Scanout s) (x : Raster) (n : Nat) (kind : Token) (hf : inFrame s.rtm.raster = false)
    (hx : inFrame x = false) (hp : RasterPlaced ((s.boundary x n).sendBlank kind).rtm) :
    Scanout ((s.boundary x n).sendBlank kind) :=
  Idle.scanout ((hs.idle hf).congr rfl) hp hx (hs.kind_none hf)

/-- A frame as the end of its front blank fixes it, before its first fetch point (R87, R104). -/
def frameFixed (s : State) (kind : FrameKind) (source : Option (Fin 8)) (front : Nat) (skipped : Bool) (hb nb : Nat) :
    State :=
  let u := (s.boundary .backBlank 0).onRecord fun r =>
    { r with kind := some kind, source := source, front := front, skipped := skipped }
  { u with rtm := { u.rtm with frame := some { decision := kind, hb := hb, nb := nb, lead := s.sf.inForce.lead } }
           sf := { u.sf with sources := List.replicate nb none } }

theorem beginBackBlank_eq (s : State) (tm : TimingSet) (kind : FrameKind) (source : Option (Fin 8)) (front : Nat)
    (skipped : Bool) (hb nb : Nat) : s.beginBackBlank tm kind source front skipped hb nb =
      ((frameFixed s kind source front skipped hb nb).backLine tm
        { decision := kind, hb := hb, nb := nb, lead := s.sf.inForce.lead } 0).sendBlank .back := rfl

theorem scanView_sendBlank (s : State) (kind : Token) : scanView (s.sendBlank kind) = scanView s := rfl

theorem Idle.frameFixed (hi : Idle s) {tm : TimingSet} (ht : s.rtm.timing = some tm)
    (hr : s.rtm.record.isSome = true) {front : Nat} (hlo : tm.fMin ≤ front) (hhi : front ≤ tm.fMax) (kind : FrameKind)
    (source : Option (Fin 8)) (skipped : Bool) {hb : Nat} (hhb : BandHeight hb) (nb : Nat) :
    Framed (frameFixed s kind source front skipped hb nb) (.backBlank, 0) tm
      { decision := kind, hb := hb, nb := nb, lead := s.sf.inForce.lead } [] := by
  obtain ⟨w, hw⟩ := Option.isSome_iff_exists.1 hr
  have hlead : LeadLawful (some tm) s.sf.inForce.lead := ht ▸ hi.inForce
  exact
    { place := rfl
      timing := ht
      lawful := hi.timing tm ht
      pending := hi.pending
      frame := rfl
      lead := hlead
      grid := hhb
      inForce := hlead
      waiting := fun f hf => ht ▸ hi.waiting f hf
      record := ⟨kind, front, by
        show (s.rtm.record.map _).map _ = _
        rw [hw]; rfl, hlo, hhi⟩
      buffer := List.map_eq_nil_iff.2 hi.buffer
      whole := fun slot hslot => by
        have hmem : slot ∈ s.sf.buffer := hslot
        rw [hi.buffer] at hmem
        cases hmem
      prior := fun line hl => by
        have hline : s.sf.prior = some line := hl
        rw [hi.prior] at hline
        cases hline
      heights := hi.heights }

/-- The front blank ends and BACK_BLANK begins (R87, R88, R104). -/
theorem Idle.beginBackBlank (hi : Idle s) {tm : TimingSet} (ht : s.rtm.timing = some tm)
    (hr : s.rtm.record.isSome = true) {front : Nat} (hlo : tm.fMin ≤ front) (hhi : front ≤ tm.fMax) (kind : FrameKind)
    (source : Option (Fin 8)) (skipped : Bool) {hb : Nat} (hhb : BandHeight hb) (nb : Nat) :
    Scanout (s.beginBackBlank tm kind source front skipped hb nb) := by
  have h0 := hi.frameFixed ht hr hlo hhi kind source skipped hhb nb
  have h4 := h0.lawful.bounds.sMin
  have hls : s.sf.inForce.lead ≤ tm.s := h0.lead.2.2 tm rfl
  have hnone : List.range (0 + s.sf.inForce.lead - tm.s) = [] := by
    rw [show 0 + s.sf.inForce.lead - tm.s = 0 by omega, List.range_zero]
  rw [← hnone] at h0
  rw [beginBackBlank_eq]
  exact ((h0.backLine (by omega)).of_scanView (scanView_sendBlank _ .back)).backBlank (by omega)

/-- The front blank ends with a taken entry (R84, R85). -/
theorem Scanout.beginNew (hs : Scanout s) (hf : inFrame s.rtm.raster = false) {tm : TimingSet}
    (ht : s.rtm.timing = some tm) (hr : s.rtm.record.isSome = true) {front : Nat} (hlo : tm.fMin ≤ front)
    (hhi : front ≤ tm.fMax) (skipped : Bool) {e : Entry} (h : s.frontSelection = some (e, t)) :
    Scanout (t.beginNew tm e front skipped) := by
  obtain ⟨older, newer, -, rfl⟩ := s.frontSelection_some h
  have hv := scanView_takeEntry s older e newer
  generalize s.takeEntry older e newer = u at hv
  have hi : Idle u := (hs.idle hf).congr (frameView_of_scanView hv)
  have hl : Idle { u with rtm := { u.rtm with lag := some { arrival := e.arrival, line := 0 } } } := hi.congr rfl
  have htm : u.rtm.timing = some tm := (timing_of_scanView hv).trans ht
  exact hl.beginBackBlank htm ((record_isSome_of_scanView hv).trans hr) hlo hhi _ _ _ (hi.heights e.surface) _

theorem bandHeight_fillGrid {h : Nat} (hh : h ≤ 2160) : BandHeight (fillGrid h) := by
  rw [fillGrid_eq hh]
  split
  · exact .inl rfl
  · exact .inr (.inl rfl)

/-- The front blank expires (R86, R87). -/
theorem Idle.expire (hi : Idle s) {tm : TimingSet} (ht : s.rtm.timing = some tm) (hr : s.rtm.record.isSome = true)
    {front : Nat} (hlo : tm.fMin ≤ front) (hhi : front ≤ tm.fMax) : Scanout (s.expire tm front) := by
  unfold State.expire
  split
  · rename_i i _
    have hu : Idle (s.raise .repeated) := hi.congr rfl
    exact hu.beginBackBlank ht hr hlo hhi _ _ _ (hi.heights i) _
  · have hu : Idle (s.raise .fillFrame) := hi.congr rfl
    exact hu.beginBackBlank ht hr hlo hhi _ _ _ (bandHeight_fillGrid (hi.timing tm ht).bounds.hMax) _

theorem scanout_lineBoundary (hs : Scanout s) : Scanout (lineBoundary s) := by
  have hp := hs.placed
  unfold lineBoundary
  split
  · exact hs
  · rename_i tm ht
    dsimp only
    split
    · rename_i hr
      obtain ⟨-, hrec, hfr, ho⟩ := (rasterPlaced_settle hr ht).1 hp
      split
      · rename_i hn
        exact hs.blankLine .settle _ _ (by rw [hr]; rfl) rfl (Iff.mpr (rasterPlaced_settle rfl ht) ⟨hn, hrec, hfr, ho⟩)
      · exact hs
    · rename_i hr
      obtain ⟨-, hrec, hfr, ho⟩ := (rasterPlaced_frontMin hr ht).1 hp
      split
      · rename_i hn
        exact hs.blankLine .frontMin _ _ (by rw [hr]; rfl) rfl
          (Iff.mpr (rasterPlaced_frontMin rfl ht) ⟨hn, hrec, hfr, ho⟩)
      · exact hs
    · rename_i hr
      split
      · rename_i c hc
        split
        · rename_i hn
          have hfr := hs.framed ht hc (by rw [hr]; rfl)
          rw [bufferLines_backBlank hr ht hc] at hfr
          exact (((hfr.boundary .backBlank (s.rtm.pos + 1)).backLine hn).of_scanView
            (scanView_sendBlank _ .back)).backBlank hn
        · exact hs
      · exact hs
    all_goals exact hs

theorem scanout_settleDone (hs : Scanout s) : Scanout (settleDone s) := by
  unfold settleDone
  split
  · exact hs
  · rename_i tm ht
    split
    · rename_i h
      obtain ⟨-, -, -, ho⟩ := (rasterPlaced_settle h.1 ht).1 hs.placed
      have hi : Idle s := hs.idle (by rw [h.1]; rfl)
      exact Idle.enterFrontMin (s := s.raise .settleDone) (hi.congr rfl) ht ho
    · exact hs

theorem scanout_frontMinEnd (hs : Scanout s) : Scanout (frontMinEnd s) := by
  unfold frontMinEnd
  split
  · exact hs
  · rename_i tm ht
    split
    · rename_i h
      have hf : inFrame s.rtm.raster = false := by rw [h.1]; rfl
      obtain ⟨-, hrec, hfr, ho⟩ := (rasterPlaced_frontMin h.1 ht).1 hs.placed
      have hm := (hs.lawful ht).bounds.fOrder
      split
      · rename_i e u hsel
        exact hs.beginNew hf ht hrec le_rfl hm true hsel
      · split
        · rename_i hlt
          exact hs.blankLine .stretch 0 .stretch hf rfl (Iff.mpr (rasterPlaced_stretch rfl ht) ⟨hlt, hrec, hfr, ho⟩)
        · exact (hs.idle hf).expire ht hrec le_rfl hm
    · exact hs

/-- A boundary in STRETCH, where the front blank has at most F_max lines (R85, R86). -/
theorem scanout_stretchLine (hs : Scanout s) {tm : TimingSet} (ht : s.rtm.timing = some tm)
    (hr : s.rtm.raster = .stretch) : Scanout (s.stretchLine tm (frontLines tm s.rtm.pos)) := by
  have hf : inFrame s.rtm.raster = false := by rw [hr]; rfl
  obtain ⟨hpos, hrec, hfr, ho⟩ := (rasterPlaced_stretch hr ht).1 hs.placed
  have hlo : tm.fMin ≤ frontLines tm s.rtm.pos := by unfold frontLines; omega
  unfold State.stretchLine
  split
  · rename_i e u hsel
    exact hs.beginNew hf ht hrec hlo hpos false hsel
  · split
    · rename_i hlt
      refine hs.blankLine .stretch _ .stretch hf rfl (Iff.mpr (rasterPlaced_stretch rfl ht) ⟨?_, hrec, hfr, ho⟩)
      unfold frontLines at hlt
      exact hlt
    · exact (hs.idle hf).expire ht hrec hlo hpos

theorem scanout_stretchBoundary (hs : Scanout s) : Scanout (stretchBoundary s) := by
  unfold stretchBoundary
  split
  · exact hs
  · rename_i tm ht
    split
    · rename_i hr
      exact scanout_stretchLine hs ht hr
    · exact hs

theorem scanout_stretchExpiry (hs : Scanout s) : Scanout (stretchExpiry s) := by
  unfold stretchExpiry
  split
  · exact hs
  · rename_i tm ht
    split
    · rename_i hr
      exact scanout_stretchLine hs ht hr.1
    · exact hs

/-! ## The active lines and the end of the frame (R89, R91, R117) -/

theorem scanout_activeStart (hs : Scanout s) : Scanout (activeStart s) := by
  unfold activeStart
  split
  · rename_i tm c ht hc
    split
    · rename_i h
      obtain ⟨hpos, -, -⟩ := (rasterPlaced_backBlank h.1 ht).1 hs.placed
      have hf := hs.framed ht hc (by rw [h.1]; rfl)
      have hh := hf.lawful.bounds.hMin
      have hl : c.lead ≤ 16 := hf.lead.2.1
      have hlines : bufferLines s.rtm = List.range' 0 (min c.lead (tm.h - 0)) := by
        rw [bufferLines_backBlank h.1 ht hc, List.range_eq_range']
        congr 1
        omega
      rw [hlines] at hf
      have hv : ∀ u : State, scanView ((u.onRecord fun r => { r with activeLine := u.rtm.lc }).signal .frameStart) =
          scanView u := fun u =>
        (scanView_onRecord u (f := fun r => { r with activeLine := u.rtm.lc }) fun _ => ⟨rfl, rfl⟩)
      obtain ⟨d, hd, hfd⟩ := ((hf.boundary .active 0).of_scanView (hv _)).activeLine (j := 0) (by omega)
      rw [← hd] at hfd
      exact hfd.active (by omega)
    · exact hs
  · exact hs

theorem scanout_activeLine (hs : Scanout s) : Scanout (activeLine s) := by
  unfold activeLine
  split
  · rename_i tm c ht hc
    dsimp only
    split
    · rename_i h
      have hf := hs.framed ht hc (by rw [h.1]; rfl)
      rw [bufferLines_active h.1 ht hc] at hf
      obtain ⟨d, hd, hfd⟩ := (hf.boundary .active (s.rtm.pos + 1)).activeLine h.2
      rw [← hd] at hfd
      exact hfd.active h.2
    · exact hs
  · exact hs

/-- Steps 3 and 4 of R91, from outside a frame with no record. -/
theorem Idle.nextFrame (hi : Idle s) (hr : s.rtm.record = none) {tm : TimingSet} (ht : s.rtm.timing = some tm) :
    Scanout s.nextFrame := by
  unfold State.nextFrame
  split
  · rename_i u hu
    have hi' := hi.timingInForce (hi.pending u hu)
    have hrt : (s.timingInForce u).rtm = { s.rtm with timing := some u, pendingSet := none } := by
      unfold State.timingInForce; simp
    dsimp only
    split
    · exact hi'.enterOff
    · rename_i ho
      refine hi'.enterSettle (by rw [hrt]) (by simpa using ho) (by rw [hrt]; exact hr)
  · split
    · exact hi.enterOff
    · rename_i ho
      exact hi.enterFrontMin ht (by simpa using ho)

theorem scanout_endOfActive (hs : Scanout s) : Scanout (endOfActive s) := by
  unfold endOfActive
  split
  · exact hs
  · rename_i tm ht
    split
    · obtain ⟨⟨h1, h2, -, -, h5, h6, -, -⟩, -, h12, -⟩ := hs
      have hv : frameView s.handRecord.settleSurfaces = frameView s.handRecord :=
        frameView_of_scanView (scanView_settleSurfaces _)
      unfold frameView at hv
      simp only [Prod.mk.injEq] at hv
      obtain ⟨e1, e2, -, e4, e5, e6, -, -, e9⟩ := hv
      have hi : Idle s.handRecord.settleSurfaces.endFrame :=
        { timing := fun u hu => h1 u (e1.symm.trans hu)
          pending := fun u hu => h2 u (e2.symm.trans hu)
          inForce := by
            show LeadLawful s.handRecord.settleSurfaces.rtm.timing s.handRecord.settleSurfaces.sf.inForce.lead
            rw [e1, e5]; exact h5
          waiting := fun f hf => by
            show LeadLawful s.handRecord.settleSurfaces.rtm.timing f.lead
            rw [e1]; exact h6 f (e6.symm.trans hf)
          frame := rfl
          buffer := rfl
          prior := rfl
          heights := by
            show ∀ i, BandHeight (heights s.handRecord.settleSurfaces.st i)
            rw [e9]; exact h12 }
      exact hi.nextFrame (Option.map_eq_none_iff.1 e4) (e1.trans ht)
    · exact hs

end

end Sys2Proof.Safety
end

