-- ==== Sys2Proof/Proofs/Commands.lean ====
section
/-! The commands, the console's traffic and the M-port keep the scanout safe, and with the boundaries every step does. -/

namespace Sys2Proof.Safety

open Sys2Proof.Machine

/-! ## What commands leave of the scanout -/

section
variable (s : State)

theorem scanView_openFrame (id : BitVec 8) : scanView (openFrame id s) = scanView s := by
  unfold openFrame
  split
  · exact scanView_result ..
  · rename_i i _
    have hopen : scanView (s.openSurface i) = scanView s :=
      scanView_of_blocks rfl rfl (heights_modify s.st i (f := fun f =>
        { f with state := .rendering, gen := f.gen + 1, late := 0 }) fun _ => rfl)
    dsimp only
    split
    · exact scanView_result ..
    · split
      · exact scanView_result ..
      · exact (scanView_result ..).trans hopen

theorem scanView_release (id : BitVec 8) (first last : BitVec 16) : scanView (release id first last s) = scanView s := by
  unfold release
  dsimp only
  (repeat' split) <;> exact scanView_result ..

theorem scanView_abandon (id : BitVec 8) : scanView (abandon id s) = scanView s := by
  unfold abandon
  split
  · exact scanView_result ..
  · rename_i i _
    have hgone : scanView (s.abandonSurface i) = scanView s := scanView_freeSurface s i
    split
    · exact scanView_result ..
    · exact scanView_result ..
    · exact scanView_result ..
    · exact (scanView_result ..).trans hgone
    · exact (scanView_result ..).trans hgone

theorem scanView_present (id : BitVec 8) (a b : BitVec 16) : scanView (present id a b s) = scanView s := by
  unfold present
  split
  · exact scanView_result ..
  · rename_i i _
    split
    · exact scanView_result ..
    · split
      · exact scanView_result ..
      · exact scanView_result ..
      · exact scanView_result ..
      · exact scanView_result ..
      · split
        · exact scanView_result ..
        · split
          · exact (scanView_result ..).trans (scanView_setSurface _ i .queued)
          · exact scanView_result ..

theorem scanView_withdraw (id : BitVec 8) : scanView (withdraw id s) = scanView s := by
  unfold withdraw
  split
  · exact scanView_result ..
  · rename_i i _
    split
    · exact (scanView_result ..).trans (scanView_setSurface _ i .rendering)
    · exact scanView_result ..

theorem scanView_settleAge : scanView s.settleAge = scanView s :=
  scanView_of_blocks (by simp) (by simp) (by simp)

theorem scanView_commitNotice (entry : BitVec 16) : scanView (commitNotice entry s) = scanView s := by
  unfold commitNotice
  split
  · exact scanView_result ..
  · split
    · exact scanView_result ..
    · exact (scanView_settleAge _).trans (scanView_result ..)

theorem scanView_commitMarker (entry : BitVec 16) : scanView (commitMarker entry s) = scanView s := by
  unfold commitMarker
  split
  · exact scanView_result ..
  · split
    · exact scanView_result ..
    · exact (scanView_result _ ..).trans rfl

theorem scanView_installReport (base : Addr) (enable : Bool) : scanView (s.installReport base enable) = scanView s :=
  scanView_of_blocks rfl rfl rfl

theorem scanView_commitReport (entry : BitVec 16) : scanView (commitReport entry s) = scanView s := by
  unfold commitReport
  split
  · exact scanView_result ..
  · dsimp only
    split
    · exact scanView_result ..
    · exact ((scanView_settleAge _).trans (scanView_result ..)).trans (scanView_installReport ..)
    · unfold State.enableReport
      split
      · exact scanView_result ..
      · split
        · exact scanView_result ..
        · exact ((scanView_settleAge _).trans (scanView_result ..)).trans (scanView_installReport ..)

theorem scanView_viewSelect (a : BitVec 16) : scanView (viewSelect a s) = scanView s := by
  unfold viewSelect
  split <;> exact scanView_result ..

theorem scanView_tableData (value : BitVec 64) : scanView (tableData value s) = scanView s := by
  unfold tableData
  split
  · rfl
  · exact scanView_result ..

theorem scanView_lateWrite (i : Fin 8) : scanView (s.lateWrite i) = scanView s := by
  have hl : scanView { s with st := s.st.modify i fun f => { f with late := satInc 65535 f.late } } = scanView s :=
    scanView_of_blocks rfl rfl (heights_modify s.st i fun _ => rfl)
  unfold State.lateWrite
  dsimp only
  split
  · exact (scanView_onRecord _ (f := fun r => { r with late := count16 r.late }) fun _ => ⟨rfl, rfl⟩).trans hl
  · exact hl

theorem scanView_takeOffer (tag : Fin 256) (o : Offer) : scanView (s.takeOffer tag o) = scanView s := by
  cases o with
  | notOffered => rfl
  | full => rfl
  | late i => exact scanView_lateWrite s i
  | reuse => rfl
  | track i b => rfl

theorem scanView_acknowledge (tag : Fin 256) (status : Status) : scanView (s.acknowledge tag status) = scanView s :=
  scanView_of_blocks (by simp) (by simp) (by simp)

theorem scanView_consoleResponse (tag : Fin 256) (kind : RespKind) (status : Status) (data : List (BitVec 64)) :
    scanView (consoleResponse tag kind status data s) = scanView s := by
  unfold consoleResponse
  dsimp only
  split
  · rfl
  · split
    · rfl
    · cases kind with
      | readData => rfl
      | writeAck => exact scanView_acknowledge _ tag status

theorem scanView_linkReset : scanView (linkReset s) = scanView s := by
  unfold linkReset
  split <;> rfl

theorem scanView_linkUpChange (level : Bool) (sent : Nat) : scanView (linkUpChange level sent s) = scanView s := by
  unfold linkUpChange
  split <;> rfl

theorem scanView_reportAck (n : Fin 16) (status : Status) : scanView (reportAck n status s) = scanView s := by
  unfold reportAck
  split <;> rfl

theorem scanView_strayResponse (tag : Fin 512) (kind : RespKind) (status : Status) :
    scanView (strayResponse tag kind status s) = scanView s := by
  unfold strayResponse
  (repeat' split) <;> rfl

theorem scanView_statusWriteBegin : scanView (statusWriteBegin s) = scanView s := by
  unfold statusWriteBegin
  split <;> rfl

end

/-! ## The settings (R75, R79, R101, R102) -/

theorem clamp_bounds {lo hi : Nat} (h : lo ≤ hi) (n : Nat) : lo ≤ clamp lo hi n ∧ clamp lo hi n ≤ hi := by
  unfold clamp; omega

/-- The derived front blanks of a set whose fields are in range (R77, R78). -/
theorem deriveTiming_fronts {w h ht clock s fp fhi flo settle : Nat} (hh : h ≤ 2160) (hs : s ≤ 255) (hfp : 1 ≤ fp) :
    let t := deriveTiming w h ht clock s fp fhi flo settle
    1 ≤ t.fMin ∧ t.fMin ≤ t.fMax ∧ t.h + t.s + t.fMax ≤ 65535 := by
  unfold deriveTiming
  generalize shortestTotal clock fhi ht = vtMin
  generalize longestTotal clock flo ht = vtMax
  dsimp only
  simp only [decide_eq_true_eq]
  (repeat' split) <;> omega

/-- A staged set that passes the checks of R75 is installed lawful (R76 to R78). -/
theorem timingLawful_timingSet {row : Table (BitVec 32) 9} (h : timingInRange row = true) :
    TimingLawful (timingSet row).1 := by
  simp only [timingInRange, Bool.and_eq_true, decide_eq_true_eq] at h
  obtain ⟨⟨⟨⟨⟨⟨⟨⟨h1, h2⟩, h3⟩, h4⟩, h5⟩, h6⟩, h7⟩, h8⟩, h9⟩ := h
  have hs := clamp_bounds (show 4 ≤ 255 by omega) (row.get 4).toNat
  have hfp := clamp_bounds (show 1 ≤ 255 by omega) (row.get 5).toNat
  have hhi := clamp_bounds (show 2000 ≤ 50000 by omega) (row.get 6).toNat
  have hlo := clamp_bounds (show 2000 ≤ 50000 by omega) (row.get 7).toNat
  have hset := clamp_bounds (show 0 ≤ 4095 by omega) (row.get 8).toNat
  exact ⟨h1, h2, h3, h4, h5, h6, h7, h8, h9, hs.1, hs.2, hfp.1, hfp.2, le_min hhi.1 hlo.1, min_le_left _ _, hhi.2,
    hset.2, deriveTiming_fronts h5 hs.2 hfp.1⟩

/-- The lead that COMMIT(FETCH) installs (R101, R103). -/
theorem leadLawful_clampLead {timing : Option TimingSet} (ht : ∀ t, timing = some t → TimingLawful t) (n : Nat) :
    LeadLawful timing (clampLead timing n) := by
  have hc := clamp_bounds (show 1 ≤ 16 by omega) n
  cases timing with
  | none => exact ⟨hc.1, hc.2, fun t h => by cases h⟩
  | some t =>
    have hs := (ht t rfl).bounds.sMin
    have hl : clampLead (some t) n = min t.s (clamp 1 16 n) := rfl
    refine ⟨by omega, by omega, ?_⟩
    rintro u ⟨⟩
    omega

theorem fetchSet_lead {timing : Option TimingSet} {row : Table (BitVec 32) 6} {f : FetchSet} {changed : Bool}
    (h : fetchSet timing row = some (f, changed)) : f.lead = clampLead timing (row.get 0).toNat := by
  unfold fetchSet at h
  dsimp only at h
  split at h
  · cases h; rfl
  · cases h

section
variable {s : State}

/-- Surfaces of other geometry: the scanout asks only for their band heights (R5). -/
theorem Scanout.reheight {t : State} (hs : Scanout s) (hr : t.rtm = s.rtm) (hf : t.sf = s.sf)
    (hb : ∀ i : Fin 8, BandHeight (t.st.get i).geo.hb) : Scanout t := by
  obtain ⟨h1, h2, -, h4⟩ := hs
  refine ⟨?_, ?_, hb, ?_⟩
  · unfold Rastering; rw [hr, hf]; exact h1
  · unfold LinesWhole; rw [hr, hf]; exact h2
  · rw [hr]; exact h4

/-- A line buffer of the same lines, each whole. -/
theorem Scanout.rebuffer (hs : Scanout s) {f : Fetcher} (hi : f.inForce = s.sf.inForce) (hw : f.waiting = s.sf.waiting)
    (hp : f.prior = s.sf.prior) (hl : f.buffer.map Slot.line = s.sf.buffer.map Slot.line)
    (hwhole : ∀ t, s.rtm.timing = some t → ∀ slot ∈ f.buffer, SlotWhole t.w slot) : Scanout { s with sf := f } := by
  obtain ⟨⟨h1, h2, h3, h4, h5, h6, h7, h8⟩, ⟨-, h10, h11⟩, h12, h13⟩ := hs
  exact ⟨⟨h1, h2, h3, h4, hi ▸ h5, fun g hg => h6 g (hw ▸ hg), h7, hl.trans h8⟩,
    ⟨hwhole, fun t ht line hline => h10 t ht line (hp ▸ hline), fun hn => hp.trans (h11 hn)⟩, h12, h13⟩

theorem Scanout.timingInForce (hs : Scanout s) (hr : s.rtm.raster = .off) {t : TimingSet} (ht : TimingLawful t) :
    Scanout (s.timingInForce t) := by
  have hrt : (s.timingInForce t).rtm = { s.rtm with timing := some t, pendingSet := none } := by
    unfold State.timingInForce; simp
  obtain ⟨r1, r2, -, r4, r5⟩ := (rasterPlaced_off hr).1 hs.placed
  refine ((hs.idle (by rw [hr]; rfl)).timingInForce ht).scanout ?_ (by rw [hrt]; simp [hr, inFrame]) ?_
  · rw [hrt]
    exact Iff.mpr (rasterPlaced_off hr) ⟨r1, r2, rfl, r4, r5⟩
  · rw [hrt]
    dsimp only
    rw [r1]
    rintro w ⟨⟩

theorem Scanout.commitSurface (hs : Scanout s) (entry : BitVec 16) : Scanout (commitSurface entry s) := by
  have hinstall : ∀ (i : Fin 8) (g : Geometry), BandHeight g.hb → Scanout (s.installGeometry i g) := by
    intro i g hg
    refine hs.reheight (t := s.installGeometry i g) rfl rfl fun j => ?_
    show BandHeight ((s.st.modify i fun f => { f with geo := g }).get j).geo.hb
    rw [Table.get_modify]
    split
    · exact hg
    · exact hs.2.2.1 j
  unfold Machine.commitSurface
  split
  · exact hs.congr (scanView_result ..)
  · rename_i i _
    split
    · exact hs.congr (scanView_result ..)
    · dsimp only
      split
      · exact (hinstall i .undefined (.inl rfl)).congr (scanView_result ..)
      · unfold State.defineSurface
        split
        · exact hs.congr (scanView_result ..)
        · rename_i f _
          split
          · rename_i hg
            split
            · exact hs.congr (scanView_result ..)
            · exact (hinstall i _ (staged_bandHeight hg).2.1).congr (scanView_result ..)
          · exact hs.congr (scanView_result ..)

/-- A timing set that waits for the end of the frame (R79). -/
theorem Scanout.pend (hs : Scanout s) (hr : s.rtm.raster ≠ .off) {t : TimingSet} (ht : TimingLawful t) :
    Scanout { s with rtm := { s.rtm with pendingSet := some t } } := by
  obtain ⟨⟨h1, h2, h3, h4, h5, h6, h7, h8⟩, h9, h10⟩ := hs
  refine ⟨⟨h1, ?_, ?_, h4, h5, h6, h7, h8⟩, h9, h10⟩
  · rintro u ⟨⟩
    exact ht
  · exact h3.congr hr rfl rfl rfl rfl rfl (.inr rfl)

theorem Scanout.commitTiming (hs : Scanout s) (entry : BitVec 16) : Scanout (commitTiming entry s) := by
  unfold Machine.commitTiming
  split
  · exact hs.congr (scanView_result ..)
  · split
    · exact hs.congr (scanView_result ..)
    · split
      · rename_i hin
        have ht := timingLawful_timingSet hin
        refine Scanout.congr ?_ (scanView_result ..)
        unfold State.installTiming
        split
        · rename_i hr
          exact hs.timingInForce hr ht
        all_goals
          rename_i hr
          exact hs.pend (by rw [hr]; exact nofun) ht
      · exact hs.congr (scanView_result ..)

theorem Scanout.commitFetch (hs : Scanout s) (entry : BitVec 16) : Scanout (commitFetch entry s) := by
  unfold Machine.commitFetch
  split
  · exact hs.congr (scanView_result ..)
  · split
    · exact hs.congr (scanView_result ..)
    · rename_i f changed hf
      have hl : LeadLawful s.rtm.timing f.lead := by
        rw [fetchSet_lead hf]
        exact leadLawful_clampLead hs.1.1 _
      refine Scanout.congr ?_ (scanView_result ..)
      unfold State.installFetch
      split
      · rename_i hr
        refine ((hs.idle (by rw [hr]; rfl)).fetchInForce hl).scanout hs.placed ?_ (hs.kind_none (by rw [hr]; rfl))
        show inFrame s.rtm.raster = false
        rw [hr]; rfl
      all_goals
        obtain ⟨⟨h1, h2, h3, h4, h5, -, h7, h8⟩, h9, h10⟩ := hs
        refine ⟨⟨h1, h2, h3, h4, h5, ?_, h7, h8⟩, h9, h10⟩
        rintro g ⟨⟩
        exact hl

/-! ## Output on and off, and the soft reset (R95, R96, R168) -/

theorem Scanout.outputOn (hs : Scanout s) : Scanout (outputOn s) := by
  unfold Machine.outputOn
  split
  · exact hs.congr (scanView_result ..)
  · rename_i t ht
    split
    · rename_i hr
      obtain ⟨r1, -, -, r4, -⟩ := (rasterPlaced_off hr).1 hs.placed
      exact ((hs.idle (by rw [hr]; rfl)).enterSettle ht r4 r1).congr (scanView_result ..)
    all_goals exact hs.congr (scanView_result ..)

/-- An OUTPUT_OFF that waits for the end of the frame (R96). -/
theorem Scanout.offPending (hs : Scanout s) (hr : inFrame s.rtm.raster = true) :
    Scanout { s with rtm := { s.rtm with offPending := true } } := by
  obtain ⟨⟨h1, h2, h3, h4, h5, h6, h7, h8⟩, h9, h10⟩ := hs
  exact ⟨⟨h1, h2, h3.congr (by rintro h; rw [h] at hr; cases hr) rfl rfl rfl rfl rfl (.inl hr), h4, h5, h6, h7, h8⟩,
    h9, h10⟩

theorem Scanout.outputOff (hs : Scanout s) : Scanout (outputOff s) := by
  refine Scanout.congr ?_ (scanView_result ..)
  unfold State.stopRaster
  split
  · exact hs
  · rename_i hr; exact (hs.idle (by rw [hr]; rfl)).enterOff
  · rename_i hr; exact (hs.idle (by rw [hr]; rfl)).enterOff
  · rename_i hr; exact (hs.idle (by rw [hr]; rfl)).enterOff
  · rename_i hr; exact hs.offPending (by rw [hr]; rfl)
  · rename_i hr; exact hs.offPending (by rw [hr]; rfl)

theorem scanView_cutFrame (s : State) : scanView { s with rtm := s.rtm.cutFrame } = scanView s := by
  unfold RasterTimer.cutFrame
  split
  · exact scanView_onRecord s (f := fun w => { w with cut := true }) fun _ => ⟨rfl, rfl⟩
  · exact scanView_onRecord s (f := fun w => { w with cut := true }) fun _ => ⟨rfl, rfl⟩
  all_goals rfl

theorem heights_softReset (t : Table Surface 8) : heights (t.map Surface.softReset) = heights t := by
  funext i
  show ((t.map Surface.softReset).get i).geo.hb = (t.get i).geo.hb
  rw [Table.get_map]
  rfl

theorem Scanout.softReset (hs : Scanout s) : Scanout (softReset s) := by
  refine Scanout.congr ?_ (scanView_result ..)
  have hcut : Scanout { s with rtm := s.rtm.cutFrame, st := s.st.map Surface.softReset } :=
    (hs.congr (scanView_cutFrame s)).reheight rfl rfl fun i => by
      rw [show ((s.st.map Surface.softReset).get i).geo.hb = _ from congrFun (heights_softReset s.st) i]
      exact hs.2.2.1 i
  have hfill := hcut.rebuffer (f := s.sf.softReset) rfl rfl rfl
    (by show (s.sf.buffer.map Slot.fillOf).map Slot.line = _
        rw [List.map_map]; rfl)
    (fun t _ slot hslot => by
      obtain ⟨old, -, rfl⟩ := List.mem_map.1 hslot
      rfl)
  exact hfill.congr rfl

end

/-! ## Power-on (R98, R121) -/

theorem scanout_powerOnReset (wsel : BitVec 4) (linkUp crst : Bool) (s : State) :
    Scanout (powerOnReset wsel linkUp crst s) := by
  obtain ⟨hst, -, -, hr, hf, -⟩ := powerOnReset_blocks wsel linkUp crst s
  have hb : ∀ i : Fin 8, BandHeight (State.reset.st.get i).geo.hb := fun i => by
    rw [reset_st_get]; exact .inl rfl
  have h0 : Scanout State.reset :=
    Idle.scanout ⟨nofun, nofun, ⟨by decide, by decide, nofun⟩, nofun, rfl, rfl, rfl, hb⟩ ⟨rfl, rfl, rfl, rfl, rfl⟩ rfl
      nofun
  exact h0.reheight hr hf (by rw [hst]; exact hb)

/-! ## Reads and their bursts (R110, R112, R113) -/

theorem setBurst_lines (l i : Nat) (b : Burst) (buffer : List Slot) :
    (setBurst l i b buffer).map Slot.line = buffer.map Slot.line := by
  unfold setBurst
  rw [List.map_map]
  refine List.map_congr_left fun slot _ => ?_
  show (if slot.line = l then { slot with bursts := slot.bursts.set i b } else slot).line = slot.line
  split <;> rfl

/-- A burst changed in a whole slot: a RETURNED one has all its pixels (R112). -/
theorem slotWhole_set {w i : Nat} {b : Burst} {slot : Slot} (hw : SlotWhole w slot)
    (hb : ∀ pixels, b = .returned pixels → ∀ src, slot.source = .surface src →
      pixels.length = burstLength src.format w i) : SlotWhole w { slot with bursts := slot.bursts.set i b } := by
  unfold SlotWhole at hw ⊢
  cases hsrc : slot.source with
  | fill =>
    rw [hsrc] at hw
    dsimp only at hw ⊢
    rw [hw, List.set_nil]
  | surface src =>
    rw [hsrc] at hw
    obtain ⟨hlen, hpix⟩ := hw
    refine ⟨by rw [List.length_set]; exact hlen, fun k pixels hk => ?_⟩
    rw [List.getElem?_set] at hk
    split at hk
    · rename_i hik
      subst hik
      split at hk
      · exact hb pixels (Option.some.inj hk) src hsrc
      · cases hk
    · exact hpix k pixels hk

theorem slotWhole_setBurst {w l i : Nat} {b : Burst} {buffer : List Slot} (hw : ∀ slot ∈ buffer, SlotWhole w slot)
    (hb : ∀ pixels, b = .returned pixels → ∀ slot ∈ buffer, slot.line = l → ∀ src, slot.source = .surface src →
      pixels.length = burstLength src.format w i) : ∀ slot ∈ setBurst l i b buffer, SlotWhole w slot := by
  intro slot hslot
  obtain ⟨old, hold, rfl⟩ := List.mem_map.1 hslot
  split
  · rename_i hline
    exact slotWhole_set (hw old hold) fun pixels hp => hb pixels hp old hold hline
  · exact hw old hold

section
variable {s : State}

theorem Scanout.setBurst (hs : Scanout s) {l i : Nat} {b : Burst} {f : Fetcher}
    (hf : f = { s.sf with buffer := setBurst l i b s.sf.buffer, reads := f.reads })
    (hb : ∀ t, s.rtm.timing = some t → ∀ pixels, b = .returned pixels → ∀ slot ∈ s.sf.buffer, slot.line = l →
      ∀ src, slot.source = .surface src → pixels.length = burstLength src.format t.w i) :
    Scanout { s with sf := f } := by
  refine hs.rebuffer (by rw [hf]) (by rw [hf]) (by rw [hf]) (by rw [hf]; exact setBurst_lines ..) fun t ht => ?_
  rw [hf]
  exact slotWhole_setBurst (hs.2.1.1 t ht) (hb t ht)

/-- The buffer holds one slot for each of its lines (R107). -/
theorem lineSource_unique (hs : Scanout s) {l : Nat} {src : SurfaceSource} (h : s.sf.lineSource l = some src)
    {slot : Slot} (hm : slot ∈ s.sf.buffer) (hl : slot.line = l) {src' : SurfaceSource}
    (hsrc : slot.source = .surface src') : src' = src := by
  obtain ⟨found, hfind, hfs⟩ := Option.bind_eq_some_iff.1 h
  have hfl : found.line = l := by simpa using List.find?_some hfind
  have hnd : (s.sf.buffer.map Slot.line).Nodup := by
    obtain ⟨⟨-, -, -, -, -, -, -, hlines⟩, -⟩ := hs
    rw [hlines]
    exact bufferLines_nodup _
  have heq : slot = found :=
    List.inj_on_of_nodup_map hnd hm (List.mem_of_find?_eq_some hfind) (hl.trans hfl.symm)
  rw [← heq, hsrc] at hfs
  exact Option.some.inj hfs

/-- The data of a burst is placed (R112). -/
theorem Scanout.completeBurst (hs : Scanout s) (e : ReadEntry) (data : List (BitVec 64)) :
    Scanout (s.completeBurst e data) := by
  unfold State.completeBurst
  split
  · exact hs
  · rename_i src hsrc
    have hplaced : ∀ draw, Scanout (s.setReadBurst e (.returned (burstPixels src.format draw data
        (burstLength src.format (s.rtm.timing.elim 0 TimingSet.w) e.burst)))) := fun draw =>
      hs.setBurst rfl fun t ht pixels hp slot hm hl src' hs' => by
        cases hp
        rw [lineSource_unique hs hsrc hm hl hs', ht]
        simp [burstPixels]
    dsimp only
    split
    · exact (hplaced s.freeDraw).congr rfl
    · exact hplaced s.freeDraw

theorem Scanout.failBurst (hs : Scanout s) (e : ReadEntry) : Scanout (s.failBurst e) := by
  have hset : Scanout (s.setReadBurst e .failed) := hs.setBurst rfl fun _ _ _ hp => by cases hp
  exact hset.congr (scanView_onRecord _ (f := fun r => { r with fetchError := count16 r.fetchError })
    fun _ => ⟨rfl, rfl⟩)

theorem Scanout.fetchResponse (hs : Scanout s) (n : Fin 64) (kind : RespKind) (status : Status)
    (data : List (BitVec 64)) : Scanout (fetchResponse n kind status data s) := by
  unfold Machine.fetchResponse
  split
  · exact hs.congr rfl
  · exact hs.congr rfl
  · rename_i e _
    have hfree : Scanout (s.freeRead n) := hs.congr rfl
    unfold State.readData
    split
    · exact hfree
    · cases status with
      | ok => exact hfree.completeBurst e data
      | error => exact hfree.failBurst e

theorem Scanout.grantFetch (hs : Scanout s) (grade : Claimant) : Scanout (s.grantFetch grade) := by
  unfold State.grantFetch
  split
  · rename_i slot src i n _ _
    have hset := hs.setBurst (l := slot.line) (i := i) (b := .inFlight)
      (f := { s.sf with buffer := Machine.setBurst slot.line i .inFlight s.sf.buffer
                        reads := s.sf.reads.set n (some { line := slot.line, burst := i, state := .inFlight }) })
      rfl fun _ _ _ hp => by cases hp
    exact hset.congr rfl
  · exact hs

theorem Scanout.grant (hs : Scanout s) : Scanout (grant s) := by
  unfold Machine.grant
  split
  · exact hs
  · split
    · exact hs
    · exact hs.grantFetch _
    · exact hs.congr (scanView_of_blocks (by simp) (by simp) (by simp))
    · exact hs.grantFetch _
    · exact hs.congr (scanView_of_blocks (by simp) (by simp) (by simp))

/-! ## The console's traffic (R138, R158) -/

theorem Scanout.runCommand (hs : Scanout s) (c : Instr) : Scanout (runCommand c s) := by
  cases c with
  | openFrame id => exact hs.congr (scanView_openFrame s id)
  | release id first last => exact hs.congr (scanView_release s id first last)
  | abandon id => exact hs.congr (scanView_abandon s id)
  | present id a b => exact hs.congr (scanView_present s id a b)
  | withdraw id => exact hs.congr (scanView_withdraw s id)
  | commitSurface e => exact hs.commitSurface e
  | commitTiming e => exact hs.commitTiming e
  | commitFetch e => exact hs.commitFetch e
  | commitNotice e => exact hs.congr (scanView_commitNotice s e)
  | commitMarker e => exact hs.congr (scanView_commitMarker s e)
  | commitReport e => exact hs.congr (scanView_commitReport s e)
  | outputOn => exact hs.outputOn
  | outputOff => exact hs.outputOff
  | clearEvents b c => exact hs.congr (scanView_result ..)
  | viewSelect a => exact hs.congr (scanView_viewSelect s a)
  | softReset => exact hs.softReset
  | unknown lane code => exact hs.congr (scanView_result ..)
  | wrongLane lane code => exact hs.congr (scanView_result ..)
  | tableIndex v => exact hs.congr rfl
  | tableData v => exact hs.congr (scanView_tableData s v)
  | reportNow v => exact hs.congr rfl
  | misplacedWrite => exact hs.congr rfl
  | _ => exact hs

theorem Scanout.decodeBeats (hs : Scanout s) (r : Request) : Scanout (s.decodeBeats r) :=
  State.decodeBeats_keeps s Scanout (fun i _ h => h.runCommand i) (fun _ h => h.congr (scanView_result ..)) r hs

theorem Scanout.retraffic (hs : Scanout s) (c : Classifier) : Scanout { s with tc := c } := hs.congr rfl

/-- The action of an accepted request's class (R138). -/
theorem Scanout.pageOrOffer (hs : Scanout s) (r : Request) (o : Offer) :
    Scanout (if s.toPage r then s.decodeBeats r else s.takeOffer r.tag o) := by
  split
  · exact hs.decodeBeats r
  · exact hs.congr (scanView_takeOffer s r.tag o)

theorem Scanout.accept (hs : Scanout s) (r : Request) (rest : List Request) (o : Offer) : Scanout (s.accept r rest o) := by
  have hfault : ∀ {u : State} (b : Bool) (c : FaultCause) (n : Nat), Scanout u →
      Scanout (if b then u.linkProtocol c n else u) := by
    intro u b c n hu
    split
    · exact hu.congr rfl
    · exact hu
  have h0 : Scanout { s with tc := { s.tc with arrivals := rest }, bt := { s.bt with stall := false } } := hs.congr rfl
  unfold State.accept
  exact ((hfault _ _ _ (hfault _ _ _ h0)).pageOrOffer r o).retraffic _

theorem Scanout.tryHead (hs : Scanout s) : Scanout s.tryHead := by
  unfold State.tryHead
  split
  · exact hs
  · split
    · split
      · unfold State.stallWrite
        split
        · exact hs
        · exact hs.congr rfl
      all_goals exact hs.accept _ _ _
    · exact hs

/-! ## Every step -/

/-- A step with nothing to do ends the line (log 33). -/
theorem Scanout.endLine (hs : Scanout s) : Scanout { s with rtm := s.rtm.endLine } := by
  by_cases hr : s.rtm.raster = .off
  · rw [RasterTimer.endLine_off hr]
    exact hs
  · rw [RasterTimer.endLine_on hr]
    obtain ⟨⟨h1, h2, h3, h4, h5, h6, h7, h8⟩, h9, h10⟩ := hs
    exact ⟨⟨h1, h2, h3.congr hr rfl rfl rfl rfl rfl (.inr rfl), h4, h5, h6, h7, h8⟩, h9, h10⟩

theorem Scanout.exec (hs : Scanout s) (c : Instr) {t : State} (h : exec c s = .next t) : Scanout t := by
  cases c with
  | powerOnReset wsel linkUp crst => cases h; exact scanout_powerOnReset wsel linkUp crst s
  | linkReset => cases h; exact hs.congr (scanView_linkReset s)
  | crstRelease => cases h; exact hs.congr rfl
  | linkUpChange level sent => cases h; exact hs.congr (scanView_linkUpChange s level sent)
  | requestAccept arriving => cases h; exact Scanout.tryHead (hs.congr rfl)
  | consoleResponse tag kind status data => cases h; exact hs.congr (scanView_consoleResponse s tag kind status data)
  | fetchResponse n kind status data => cases h; exact hs.fetchResponse n kind status data
  | reportAck n status => cases h; exact hs.congr (scanView_reportAck s n status)
  | strayResponse tag kind status => cases h; exact hs.congr (scanView_strayResponse s tag kind status)
  | grant => cases h; exact hs.grant
  | channelFree => cases h; exact hs.congr rfl
  | statusWriteBegin => cases h; exact hs.congr (scanView_statusWriteBegin s)
  | lineBoundary => cases h; exact scanout_lineBoundary hs
  | settleDone => cases h; exact scanout_settleDone hs
  | frontMinEnd => cases h; exact scanout_frontMinEnd hs
  | stretchBoundary => cases h; exact scanout_stretchBoundary hs
  | stretchExpiry => cases h; exact scanout_stretchExpiry hs
  | activeStart => cases h; exact scanout_activeStart hs
  | activeLine => cases h; exact scanout_activeLine hs
  | endOfActive => cases h; exact scanout_endOfActive hs
  | openFrame id => cases h; exact hs.runCommand (.openFrame id)
  | release id first last => cases h; exact hs.runCommand (.release id first last)
  | abandon id => cases h; exact hs.runCommand (.abandon id)
  | present id a b => cases h; exact hs.runCommand (.present id a b)
  | withdraw id => cases h; exact hs.runCommand (.withdraw id)
  | commitSurface e => cases h; exact hs.runCommand (.commitSurface e)
  | commitTiming e => cases h; exact hs.runCommand (.commitTiming e)
  | commitFetch e => cases h; exact hs.runCommand (.commitFetch e)
  | commitNotice e => cases h; exact hs.runCommand (.commitNotice e)
  | commitMarker e => cases h; exact hs.runCommand (.commitMarker e)
  | commitReport e => cases h; exact hs.runCommand (.commitReport e)
  | outputOn => cases h; exact hs.runCommand .outputOn
  | outputOff => cases h; exact hs.runCommand .outputOff
  | clearEvents b c => cases h; exact hs.runCommand (.clearEvents b c)
  | viewSelect a => cases h; exact hs.runCommand (.viewSelect a)
  | softReset => cases h; exact hs.runCommand .softReset
  | unknown lane code => cases h; exact hs.runCommand (.unknown lane code)
  | wrongLane lane code => cases h; exact hs.runCommand (.wrongLane lane code)
  | tableIndex v => cases h; exact hs.runCommand (.tableIndex v)
  | tableData v => cases h; exact hs.runCommand (.tableData v)
  | reportNow v => cases h; exact hs.runCommand (.reportNow v)
  | misplacedWrite => cases h; exact hs.runCommand .misplacedWrite

end

/-- Settles O55: by the boundaries, which carry the frame and its lines on, and the commands, which leave both. -/
theorem scanoutKept : Obligations.ScanoutKept := by
  intro s t hs h
  unfold step at h
  split at h
  · cases h
    exact hs.endLine
  · rename_i c rest _
    exact Scanout.exec (s := { s with pending := rest }) (hs.congr rfl) c h

end Sys2Proof.Safety
end

