-- ==== Sys2Proof/Proofs/Surfaces.lean ====
section
/-! OPEN_FRAME, ABANDON and COMMIT(SURFACE): their checks in order, and what a surface is after them. -/

namespace Sys2Proof.Safety

open Sys2Proof.Machine

/-! ## Results after a change that marked the record -/

/-- A result marks the status record dirty whatever its code, so a mark before it is lost in it (R181). -/
theorem result_marked (u : State) (l : Lane) (code : BitVec 8) (r : Result) :
    State.result { u with rw := u.rw.mark } l code r = u.result l code r := by
  unfold State.result
  dsimp only
  split <;> rfl

/-- A result of a state that a change left marked is that of the change without its mark (R159, R181). -/
theorem resulted_marked {u v : State} (l : Lane) (code : BitVec 8) (r : Result) (h : u = { v with rw := v.rw.mark }) :
    Resulted v (u.result l code r) l code r := by
  rw [h, result_marked]
  exact resulted_result v l code r

/-! ## OPEN_FRAME (R10) -/

theorem openFrame_beyond (s : State) {id : BitVec 8} (h : 8 ≤ id.toNat) :
    openFrame id s = s.result .render 0x01 .badSurface := by
  unfold openFrame
  rw [definedSurface_beyond s h]

theorem openFrame_of (s : State) {id : BitVec 8} {i : Fin 8} (h : id.toNat = i.val) :
    openFrame id s =
      if (s.st.get i).geo.defined then
        if (s.st.get i).state ≠ .free then s.result .render 0x01 .badState
        else if s.bt.tracks i ((s.st.get i).gen + 1) then s.result .render 0x01 .busy
        else (s.openSurface i).result .render 0x01 .ok
      else s.result .render 0x01 .badSurface := by
  unfold openFrame
  rw [definedSurface_of s h]
  split
  · rename_i hn
    split at hn
    · cases hn
    · rename_i hd; rw [if_neg hd]
  · rename_i j hj
    split at hj
    · rename_i hd
      cases hj
      rw [if_pos hd]
    · cases hj

/-- Does the Write Tracking Table remember a generation of a surface (R10)? -/
theorem tracks_iff (t : BandTracker) (i : Fin 8) (gen : BitVec 8) :
    t.tracks i gen = true ↔ ∃ tag w, t.wtt.get tag = some w ∧ w.surface = i ∧ w.gen = gen := by
  unfold BandTracker.tracks
  rw [Table.any_iff]
  refine exists_congr fun tag => ?_
  cases t.wtt.get tag with
  | none => simp
  | some w => simp

theorem openSurface_marked (s : State) (i : Fin 8) : s.openSurface i =
    { { s with st := s.st.set i { s.st.get i with state := .rendering, gen := (s.st.get i).gen + 1, late := 0 }
               bt := { s.bt with bands := s.bt.bands.set i Bands.cleared } } with rw := s.rw.mark } := rfl

/-! ## ABANDON (R12) -/

theorem abandon_beyond (s : State) {id : BitVec 8} (h : 8 ≤ id.toNat) :
    abandon id s = s.result .render 0x03 .badSurface := by
  unfold abandon
  rw [definedSurface_beyond s h]

theorem abandon_undefined (s : State) {id : BitVec 8} {i : Fin 8} (h : id.toNat = i.val)
    (hd : (s.st.get i).geo.defined = false) : abandon id s = s.result .render 0x03 .badSurface := by
  unfold abandon
  rw [definedSurface_of s h, hd]
  rfl

theorem abandon_defined (s : State) {id : BitVec 8} {i : Fin 8} (h : id.toNat = i.val)
    (hd : (s.st.get i).geo.defined = true) : abandon id s =
      if (s.st.get i).state = .free ∨ (s.st.get i).state = .scanning ∨ (s.st.get i).state = .held then
        s.result .render 0x03 .badState
      else (s.abandonSurface i).result .render 0x03 .ok := by
  unfold abandon
  rw [definedSurface_of s h, hd]
  cases hst : (s.st.get i).state <;> simp [hst]

theorem abandonSurface_marked (s : State) (i : Fin 8) : s.abandonSurface i =
    { { s with st := s.st.set i { s.st.get i with state := .free }
               bt := { s.bt with bands := s.bt.bands.set i Bands.cleared }
               pq := { s.pq with queue := s.pq.queue.filter fun e => e.surface ≠ i } } with rw := s.rw.mark } := rfl

/-! ## COMMIT(SURFACE) (R3 to R7) -/

/-- The refusals of R4 and of a format value of R163, on a staged entry as numbers. -/
def StagedOut (g : StagedSurface) : Prop :=
  g.base % 4096 ≠ 0 ∨ g.width < 320 ∨ 3840 < g.width ∨ g.width % 4 ≠ 0 ∨ g.height < 240 ∨ 2160 < g.height ∨
    1 < g.format ∨ g.pitch < 1280 ∨ 65536 < g.pitch ∨ g.pitch % 256 ≠ 0 ∨
    g.pitch < g.width * (if g.format = 0 then 4 else 8) ∨ (g.hb ≠ 16 ∧ g.hb ≠ 32 ∧ g.hb ≠ 64 ∧ g.hb ≠ 128) ∨
    2 ^ 40 < g.base + g.pitch * g.height

/-- The overlaps of R6 of `size` bytes from `base`, for surface `i`. -/
def Clash (s : State) (i : Fin 8) (base size : Nat) : Prop :=
  (∃ j : Fin 8, j ≠ i ∧ (s.st.get j).geo.defined = true ∧
      base < (s.st.get j).geo.base.toNat + (s.st.get j).geo.pitch * (s.st.get j).geo.height ∧
        (s.st.get j).geo.base.toNat < base + size) ∨
    (base < 0xFFFFF00000 + 0x1000 * s.cd.wsel.toNat + 4096 ∧ 0xFFFFF00000 + 0x1000 * s.cd.wsel.toNat < base + size) ∨
    (s.rw.enable = true ∧ base < s.rw.base.toNat + 8192 ∧ s.rw.base.toNat < base + size)

theorem formatOf_of_le {n : Nat} (h : n ≤ 1) : formatOf n = some (if n = 0 then .p32 else .p64) := by
  interval_cases n <;> rfl

theorem formatOf_beyond {n : Nat} (h : 1 < n) : formatOf n = none := by
  unfold formatOf
  split
  · omega
  · omega
  · rfl

/-- A staged entry of a known format passes the checks of R4 exactly where none of them refuses it. -/
theorem inRange_iff_not_stagedOut {g : StagedSurface} (h : g.format ≤ 1) :
    g.inRange (if g.format = 0 then .p32 else .p64) = true ↔ ¬ StagedOut g := by
  have hbytes : (if g.format = 0 then Format.p32 else Format.p64).bytes = if g.format = 0 then 4 else 8 := by
    split <;> rfl
  rw [inRange_iff, hbytes]
  unfold StagedOut BandHeight Config.addressLimit
  omega

theorem surfaceOverlap_iff (s : State) (i : Fin 8) (base size : Nat) :
    s.surfaceOverlap i base size = true ↔ Clash s i base size := by
  unfold State.surfaceOverlap State.meetsSurface State.meetsPage State.meetsReportArea overlaps commandPage
    Config.commandPageBase reportAreaSize Clash
  simp only [Bool.or_eq_true, Bool.and_eq_true, decide_eq_true_eq, List.any_eq_true, List.mem_finRange, true_and,
    bne_iff_ne, or_assoc, and_assoc, ne_eq]

section
variable (s : State) {entry : BitVec 16} {i : Fin 8}

theorem commitSurface_beyond (h : 8 ≤ entry.toNat) : commitSurface entry s = s.commitResult .badSurface := by
  unfold commitSurface
  rw [entryNumber_beyond h]

theorem commitSurface_of (h : entry.toNat = i.val) : commitSurface entry s =
    if (s.st.get i).state ≠ .free then s.commitResult .badState
    else if (stagedSurface (s.cd.staging.surface.get i)).height = 0 then
      (s.installGeometry i .undefined).commitResult .ok
    else s.defineSurface i (stagedSurface (s.cd.staging.surface.get i)) := by
  unfold commitSurface
  rw [entryNumber_of h]

theorem defineSurface_out {g : StagedSurface} (h : StagedOut g) : s.defineSurface i g = s.commitResult .range := by
  unfold State.defineSurface
  by_cases hf : g.format ≤ 1
  · rw [formatOf_of_le hf]
    dsimp only
    rw [if_neg (fun hr => (inRange_iff_not_stagedOut hf).1 hr h)]
  · rw [formatOf_beyond (by omega)]

/-- A staged entry that passes the checks of R4 (R6, R7). -/
theorem defineSurface_in {g : StagedSurface} (h : ¬ StagedOut g) : s.defineSurface i g =
    if s.surfaceOverlap i g.base (g.pitch * g.height) then s.commitResult .overlap
    else (s.installGeometry i (g.geometry (if g.format = 0 then .p32 else .p64))).commitResult
      (if (g.geometry (if g.format = 0 then .p32 else .p64)).hb = g.hb then .ok else .adjusted) := by
  have hf : g.format ≤ 1 := by
    by_contra hc
    exact h (by unfold StagedOut; omega)
  unfold State.defineSurface
  rw [formatOf_of_le hf]
  dsimp only
  rw [if_pos ((inRange_iff_not_stagedOut hf).2 h)]

theorem installGeometry_marked (g : Geometry) : s.installGeometry i g =
    { { s with st := s.st.set i { s.st.get i with geo := g } } with rw := s.rw.mark } := rfl

end

/-- The geometry of a staged entry that passes the checks of R4, with the band height of R5 written out. -/
theorem geometry_of_not_stagedOut {g : StagedSurface} (h : ¬ StagedOut g) :
    let raised := if g.height ≤ 128 * g.hb then g.hb else 32
    g.geometry (if g.format = 0 then .p32 else .p64) =
      { defined := true, base := BitVec.ofNat 40 g.base, pitch := g.pitch, width := g.width, height := g.height
        format := if g.format = 0 then .p32 else .p64, hb := raised, nb := (g.height + raised - 1) / raised } := by
  have hr : raiseBandHeight g.height g.hb 3 = if g.height ≤ 128 * g.hb then g.hb else 32 := by
    refine raiseBandHeight_eq ?_ ?_
    · by_contra hc
      exact h (by unfold StagedOut; omega)
    · unfold BandHeight
      by_contra hc
      exact h (by unfold StagedOut; omega)
  unfold StagedSurface.geometry ceilDiv
  rw [hr]

/-- COMMIT(SURFACE) of a surface number below 8, from its staged entry (R3 to R7). -/
theorem resulted_commitSurface (s : State) {entry : BitVec 16} {i : Fin 8} (h : entry.toNat = i.val)
    {g : StagedSurface} (hg : stagedSurface (s.cd.staging.surface.get i) = g) :
    let f := s.st.get i
    let t := commitSurface entry s
    let raised := if g.height ≤ 128 * g.hb then g.hb else 32
    (f.state ≠ .free → Resulted s t .control 0x20 .badState) ∧
    (f.state = .free → g.height = 0 →
      Resulted { s with st := s.st.set i { f with geo := .undefined } } t .control 0x20 .ok) ∧
    (f.state = .free → g.height ≠ 0 → StagedOut g → Resulted s t .control 0x20 .range) ∧
    (f.state = .free → g.height ≠ 0 → ¬ StagedOut g → Clash s i g.base (g.pitch * g.height) →
      Resulted s t .control 0x20 .overlap) ∧
    (f.state = .free → g.height ≠ 0 → ¬ StagedOut g → ¬ Clash s i g.base (g.pitch * g.height) →
      Resulted { s with st := s.st.set i { f with geo :=
        { defined := true, base := BitVec.ofNat 40 g.base, pitch := g.pitch, width := g.width, height := g.height
          format := if g.format = 0 then .p32 else .p64, hb := raised, nb := (g.height + raised - 1) / raised } } } t
        .control 0x20 (if raised = g.hb then .ok else .adjusted)) := by
  dsimp only
  rw [commitSurface_of s h, hg]
  refine ⟨fun hf => ?_, fun hf hz => ?_, fun hf hz ho => ?_, fun hf hz ho hc => ?_, fun hf hz ho hc => ?_⟩
  · rw [if_pos hf]
    exact resulted_result ..
  · rw [if_neg (not_not.2 hf), if_pos hz]
    exact resulted_marked _ _ _ (installGeometry_marked s .undefined)
  · rw [if_neg (not_not.2 hf), if_neg hz, defineSurface_out s ho]
    exact resulted_result ..
  · rw [if_neg (not_not.2 hf), if_neg hz, defineSurface_in s ho, if_pos ((surfaceOverlap_iff ..).2 hc)]
    exact resulted_result ..
  · rw [if_neg (not_not.2 hf), if_neg hz, defineSurface_in s ho, if_neg (mt (surfaceOverlap_iff ..).1 hc),
      geometry_of_not_stagedOut ho]
    exact resulted_marked _ _ _ (installGeometry_marked s _)

end Sys2Proof.Safety

namespace Sys2Proof.Settled

open Sys2Proof.Machine Sys2Proof.Safety

/-- Settles O3, by the checks of R10 in their order. -/
theorem openFrame : Obligations.OpenFrame := by
  intro id s
  refine ⟨_, rfl, fun h => ?_, fun i h => ?_⟩
  · rw [openFrame_beyond s h]
    exact resulted_result ..
  · rw [openFrame_of s h]
    dsimp only
    refine ⟨fun hd => ?_, fun hd hf => ?_, fun hd hf hr => ?_, fun hd hf hr => ?_⟩
    · rw [if_neg (by simp [hd])]
      exact resulted_result ..
    · rw [if_pos hd, if_pos hf]
      exact resulted_result ..
    · rw [if_pos hd, if_neg (not_not.2 hf), if_pos ((tracks_iff ..).2 hr)]
      exact resulted_result ..
    · rw [if_pos hd, if_neg (not_not.2 hf), if_neg (mt (tracks_iff ..).1 hr)]
      exact resulted_marked _ _ _ (openSurface_marked s i)

/-- Settles O5, by the checks of R12. -/
theorem abandon : Obligations.Abandon := by
  intro id s
  refine ⟨_, rfl, fun h => ?_, fun i h => ?_⟩
  · rw [abandon_beyond s h]
    exact resulted_result ..
  · dsimp only
    split
    · rename_i hd
      rw [abandon_undefined s h hd]
      exact resulted_result ..
    · rename_i hd
      rw [abandon_defined s h (by simpa using hd)]
      split
      · exact resulted_result ..
      · exact resulted_marked _ _ _ (abandonSurface_marked s i)

/-- Settles O8, by the checks of R3, R4 and R6 in their order. -/
theorem commitSurface : Obligations.CommitSurface := by
  intro entry s
  refine ⟨_, rfl, fun h => ?_, fun i h => resulted_commitSurface s h rfl⟩
  rw [commitSurface_beyond s h]
  exact resulted_result ..

end Sys2Proof.Settled
end

