-- ==== Sys2Proof/Proofs/Effects.lean ====
section
/-! Untracked writes, the end of a frame, and the two resets: what each leaves of every block. -/

namespace Sys2Proof.Safety

open Sys2Proof.Machine

/-! ## Untracked writes (R32, R33) -/

/-- What a late write leaves (R32). -/
theorem lateWrite_eq (s : State) (i : Fin 8) : s.lateWrite i =
    { s with
      st := s.st.set i { s.st.get i with late := min 65535 ((s.st.get i).late + 1) }
      rtm := if (s.st.get i).state = .scanning then
          { s.rtm with record := s.rtm.record.map fun w => { w with late := min 65535 (w.late + 1) } }
        else s.rtm
      rw := s.rw.raise .lateWrite } := by
  unfold State.lateWrite
  dsimp only
  rw [Table.get_modify_self]
  split <;> rfl

/-- A write to a DRAINING or READY band is late, whatever its tag (R29, R32). -/
theorem decideOffer_late {s : State} {r : Request} {i : Fin 8}
    (h : (s.bt.band i ((s.st.get i).geo.bandOf r.addr)).status ≠ .opened) : s.decideOffer r i = .late i := by
  unfold State.decideOffer
  dsimp only
  split
  · rfl
  · rfl
  · rename_i ho; exact absurd ho h

/-- A write to an OPEN band under a tag that the table holds reuses it (R29, R33). -/
theorem decideOffer_reuse {s : State} {r : Request} {i : Fin 8}
    (h : (s.bt.band i ((s.st.get i).geo.bandOf r.addr)).status = .opened) (ht : s.bt.wtt.get r.tag ≠ none) :
    s.decideOffer r i = .reuse := by
  unfold State.decideOffer
  dsimp only
  rw [h]
  dsimp only
  rw [if_pos (Option.isSome_iff_ne_none.2 ht)]

/-! ## The end of a frame (R91) -/

/-- The finished record is handed over (R81, R185, R187). -/
theorem recordHanded_takeRecord (r : ReportWriter) (number : BitVec 32) (body : WorkingRecord) :
    RecordHanded number body r (r.takeRecord number body).mark := by
  unfold ReportWriter.takeRecord
  dsimp only
  by_cases h : r.enable = true ∧ r.frames.length < Config.frameQueueSize
  · rw [if_pos h]
    exact ⟨fun _ => ⟨rfl, notified_occur _ _ _⟩, fun hn => absurd h hn, rfl⟩
  · rw [if_neg h]
    exact ⟨fun hq => absurd hq h, fun _ => ⟨rfl, notified_occur _ _ _⟩, rfl⟩

theorem AtMostOne.shrink {s t : State} {x : SurfState} (h : AtMostOne s x)
    (hs : ∀ i, (t.st.get i).state = x → (s.st.get i).state = x) : AtMostOne t x :=
  fun i j hi hj => h i j (hs i hi) (hs j hj)

/-- A timing set that comes into force makes no surface HELD (R92). -/
theorem TimingInForce.atMostOne {s t : State} {tm : TimingSet} (h : TimingInForce tm s t) (h1 : AtMostOne s .held) :
    AtMostOne t .held := by
  obtain ⟨-, -, hfreed, -⟩ := h
  refine h1.shrink fun i hi => ?_
  by_cases hf : freedBy s tm i
  · rw [((hfreed i).1 hf).1] at hi
    cases hi
  · rw [((hfreed i).2 hf).1] at hi
    exact hi

/-- What follows a frame: OFF, SETTLE or FRONT_MIN, after a pending set comes into force (R91). -/
theorem nextFrame_cases (s : State) (h : AtMostOne s .held) :
    (s.rtm.pendingSet = none → (s.rtm.offPending = true → EnteredOff s s.nextFrame) ∧
      (s.rtm.offPending = false → FrontMinBegun s s.nextFrame)) ∧
    (∀ new, s.rtm.pendingSet = some new → ∃ y, TimingInForce new s y ∧
      (s.rtm.offPending = true → EnteredOff y s.nextFrame) ∧
      (s.rtm.offPending = false → SettleBegun new y s.nextFrame)) := by
  refine ⟨fun hp => ?_, fun new hp => ?_⟩
  · have hn : s.nextFrame = if s.rtm.offPending then s.enterOff else s.enterFrontMin := by
      unfold State.nextFrame; rw [hp]
    rw [hn]
    refine ⟨fun ho => ?_, fun ho => ?_⟩
    · rw [if_pos ho]
      exact enteredOff_enterOff s h
    · rw [ho]
      exact frontMinBegun_enterFrontMin s
  · have hin := timingInForce_timingInForce s new h
    have hoff : (s.timingInForce new).rtm.offPending = s.rtm.offPending := by
      rw [hin.1]
    have hn : s.nextFrame = if s.rtm.offPending then (s.timingInForce new).enterOff
        else (s.timingInForce new).enterSettle new := by
      unfold State.nextFrame
      rw [hp]
      dsimp only
      rw [hoff]
    rw [hn]
    refine ⟨_, hin, fun ho => ?_, fun ho => ?_⟩
    · rw [if_pos ho]
      exact enteredOff_enterOff _ (hin.atMostOne h)
    · rw [ho]
      exact settleBegun_enterSettle _ new

/-- END_OF_ACTIVE where it is due (R91). -/
theorem endOfActive_due {s : State} {tm : TimingSet} (ht : s.rtm.timing = some tm)
    (h : s.rtm.raster = .active ∧ tm.h ≤ s.rtm.pos + 1) :
    endOfActive s = s.handRecord.settleSurfaces.endFrame.nextFrame := by
  unfold endOfActive
  rw [ht]
  dsimp only
  rw [if_pos h]

theorem endOfActive_not_due {s : State} {tm : TimingSet} (ht : s.rtm.timing = some tm)
    (h : ¬ (s.rtm.raster = .active ∧ tm.h ≤ s.rtm.pos + 1)) : endOfActive s = s := by
  unfold endOfActive
  rw [ht]
  dsimp only
  rw [if_neg h]

/-! ## The resets (R168, R189) -/

theorem cutFrame_eq (r : RasterTimer) : r.cutFrame =
    { r with record := if inFrame r.raster = true then r.record.map fun w => { w with cut := true } else r.record } := by
  unfold RasterTimer.cutFrame
  split
  · rename_i hr; rw [if_pos (by rw [hr]; rfl)]
  · rename_i hr; rw [if_pos (by rw [hr]; rfl)]
  all_goals rename_i hr; rw [if_neg (by rw [hr]; decide)]

/-- Every flag is cleared, and with the last of them the summary (R176, R189). -/
theorem reportsSoftReset_eq (r : ReportWriter) : r.softReset =
    { r with flags := 0, summary := false, counters := {}, causes := { r.causes with soft := true } } := by
  have hf : r.flags &&& ~~~(BitVec.allOnes 16) = 0 := by simp
  unfold ReportWriter.softReset ReportWriter.clearFlags
  rw [hf]
  rfl

/-- The state that SOFT_RESET leaves before its own result (R168). -/
def softResetBlocks (s : State) : State :=
  { s with cd := { s.cd with render := .zero, present := .zero, control := .zero }
           st := s.st.map Surface.softReset
           bt := { s.bt with bands := .replicate 8 .cleared, wtt := .replicate 256 none }
           pq := { s.pq with queue := [] }
           rtm := s.rtm.cutFrame
           sf := s.sf.softReset
           rw := s.rw.softReset }

/-- The Report Writer of a power-on reset with LINK_UP low: a level that does not change (R177, R189). -/
def reportsPoweredOn (causes : Causes) : ReportWriter := { State.reset.rw with causes := causes.powerOn }

/-- The blocks of a power-on reset that its pins reach: LINK_UP high is a change of level, which raises OUTPUT_CHANGE
(R124, R128, R130, R137, R154). -/
theorem powerOnReset_pins (wsel : BitVec 4) (linkUp crst : Bool) (s : State) :
    (powerOnReset wsel linkUp crst s).tc = { State.reset.tc with cport := cportOf crst, crst := crst } ∧
    (powerOnReset wsel linkUp crst s).cd = { State.reset.cd with wsel := wsel } ∧
    (powerOnReset wsel linkUp crst s).po =
      (if linkUp then State.reset.po.linkChange true 0 else State.reset.po) ∧
    (powerOnReset wsel linkUp crst s).rw =
      (if linkUp then (reportsPoweredOn s.rw.causes).raise .outputChange else reportsPoweredOn s.rw.causes) := by
  cases linkUp
  · exact ⟨rfl, rfl, rfl, rfl⟩
  · exact ⟨rfl, rfl, rfl, rfl⟩

/-- No entry is enabled after power-on, so no event leaves a notice waiting (R186, R187). -/
theorem poweredOn_waiting (causes : Causes) (x : Event) (e : Fin 8) :
    ((reportsPoweredOn causes).raise x).waiting.get e = none := by
  have hw : (reportsPoweredOn causes).waiting.get e = none := Table.get_replicate e _
  have hn : (reportsPoweredOn causes).notices.get e = .idle := Table.get_replicate e _
  rw [ReportWriter.raise_waiting, Table.get_zipWith, hw, hn]
  rfl

/-- A field of a row of zeros is zero. -/
theorem fieldAt_replicate {n f : Nat} {v : BitVec 32} (h : fieldAt (Table.replicate n 0) f = some v) : v = 0 := by
  obtain ⟨i, hi⟩ := (Table.mem_list (Table.replicate n (0 : BitVec 32)) v).1 (List.mem_of_getElem? h)
  rw [← hi, Table.get_replicate]

/-- A field of a table of rows of zeros is zero. -/
theorem rowField_replicate {k n e f : Nat} {v : BitVec 32}
    (h : ((Table.replicate k (Table.replicate n (0 : BitVec 32))).list[e]?).bind (fun row => fieldAt row f) = some v) :
    v = 0 := by
  obtain ⟨row, hrow, hv⟩ := Option.bind_eq_some_iff.1 h
  obtain ⟨i, hi⟩ := (Table.mem_list _ row).1 (List.mem_of_getElem? hrow)
  rw [Table.get_replicate] at hi
  subst hi
  exact fieldAt_replicate hv

/-- Every staged field is zero after power-on (R163). -/
theorem stagedField_zero {k e f : Nat} {v : BitVec 32} (h : stagedField Staging.zero k e f = some v) : v = 0 := by
  unfold stagedField at h
  split at h
  · exact rowField_replicate h
  · split at h
    · exact fieldAt_replicate h
    · cases h
  · split at h
    · exact fieldAt_replicate h
    · cases h
  · exact rowField_replicate h
  · split at h
    · exact fieldAt_replicate h
    · cases h
  · split at h
    · exact fieldAt_replicate h
    · cases h
  · cases h

end Sys2Proof.Safety

namespace Sys2Proof.Settled

open Sys2Proof.Machine Sys2Proof.Safety

/-- Settles O27, by the band's status. -/
theorem acceptUntracked : Obligations.AcceptUntracked := by
  intro arriving s r rest i b harr hadm hw hp hin huniq hb hcase
  obtain ⟨hpage, hoffer⟩ := offer_surface s r i hw hp hin huniq
  have hband := bandOf_eq s r i b hb
  have hreq := requestAccept_admitted s arriving r rest harr hadm
  rw [hoffer] at hreq
  refine ⟨_, rfl, ?_⟩
  rw [hreq]
  by_cases ho : (s.bt.band i b).status = .opened
  · have hd : s.decideOffer r i = .reuse :=
      decideOffer_reuse (hband ▸ ho) (hcase.resolve_left (not_not.2 ho))
    rw [hd]
    obtain ⟨u, hchk, hfwd, -⟩ := accept_checked s (r :: rest) r rest .reuse False (by simp [State.raisesReuse])
    rw [hpage] at hfwd
    exact ⟨u, _, hchk, hfwd, fun hn => absurd ho hn, fun _ => linkFaulted_linkProtocol u _ _⟩
  · have hd : s.decideOffer r i = .late i := decideOffer_late (hband ▸ ho)
    rw [hd]
    obtain ⟨u, hchk, hfwd, hst, -⟩ := accept_checked s (r :: rest) r rest (.late i) False (by simp [State.raisesReuse])
    rw [hpage] at hfwd
    have hv : u.takeOffer r.tag (.late i) = u.lateWrite i := rfl
    refine ⟨u, _, hchk, hfwd, fun _ => ?_, fun hn => absurd hn ho⟩
    rw [if_neg Bool.false_ne_true, hv, lateWrite_eq, ← hst]
    exact ⟨eventTaken_raise u.rw .lateWrite, rfl⟩

/-- Settles O46, by the steps of R91 in their order. -/
theorem endOfActive : Obligations.EndOfActive := by
  intro s h1 h2
  refine ⟨_, rfl, fun tm w ht hw => ⟨fun hn => endOfActive_not_due ht hn, fun hdue => ?_⟩⟩
  obtain ⟨hset, hheld⟩ := settled_settleSurfaces s.handRecord h1 h2
  have hr : s.handRecord.settleSurfaces.rtm = s.handRecord.rtm := by simp
  have hnext := nextFrame_cases s.handRecord.settleSurfaces.endFrame hheld
  have hp : s.handRecord.settleSurfaces.endFrame.rtm.pendingSet = s.rtm.pendingSet := by
    show s.handRecord.settleSurfaces.rtm.pendingSet = _
    rw [hr]; rfl
  have ho : s.handRecord.settleSurfaces.endFrame.rtm.offPending = s.rtm.offPending := by
    show s.handRecord.settleSurfaces.rtm.offPending = _
    rw [hr]; rfl
  rw [hp, ho] at hnext
  have hbody : s.rtm.record.getD .empty = w := by rw [hw]; rfl
  have hand := recordHanded_takeRecord s.rw s.rtm.frameCount (s.rtm.record.getD .empty)
  rw [endOfActive_due ht hdue]
  exact ⟨s.handRecord, _, _, hbody ▸ hand, rfl, hset, rfl, hnext⟩

/-- Settles O19: each block's row of R168. -/
theorem softReset : Obligations.SoftReset := by
  intro s
  have hbands : ∀ i : Fin 8, (softResetBlocks s).bt.bands.get i = Bands.cleared := fun i => Table.get_replicate i _
  refine ⟨_, rfl, softResetBlocks s, resulted_result (softResetBlocks s) .control 0x25 .ok, fun l => ?_, fun i => ?_,
    fun i b => ?_, fun tag => Table.get_replicate tag _, rfl, fun n => ?_, rfl, rfl, cutFrame_eq s.rtm,
    reportsSoftReset_eq s.rw, rfl⟩
  · cases l <;> rfl
  · exact Table.get_map ..
  · unfold BandTracker.band
    rw [hbands, cleared_get]
    rfl
  · exact Table.get_map ..

/-- Settles O22: State.reset with the levels of the pins and the causes that stay. -/
theorem powerOnReset : Obligations.PowerOnReset := by
  intro wsel linkUp crst s
  obtain ⟨hst, hbt, hpq, hr, hf, hm⟩ := powerOnReset_blocks wsel linkUp crst s
  obtain ⟨htc, hcd, hpo, hrw⟩ := powerOnReset_pins wsel linkUp crst s
  refine ⟨_, rfl, ?_⟩
  rw [hst, hbt, hpq, hr, hf, hm]
  refine ⟨reset_st_get, ⟨fun i b => ?_, fun tag => Table.get_replicate tag _, rfl⟩, ⟨rfl, rfl, rfl⟩,
    ⟨rfl, rfl, rfl, rfl, rfl, rfl, rfl⟩, ⟨rfl, rfl, rfl, rfl, fun n => Table.get_replicate n _, rfl⟩, ?_, ?_, ?_, ?_,
    rfl, rfl⟩
  · unfold BandTracker.band
    rw [reset_bands_get, cleared_get]
    rfl
  · rw [hpo]
    cases linkUp <;> exact ⟨rfl, rfl, rfl, rfl, fun m => Table.get_replicate m _, rfl⟩
  · rw [htc]
    exact ⟨rfl, rfl, rfl, fun tag => ⟨Table.get_replicate tag _, Table.get_replicate tag _⟩⟩
  · rw [hcd]
    exact ⟨fun l => by cases l <;> rfl, fun _ _ _ _ => stagedField_zero, rfl, rfl⟩
  · rw [hrw]
    cases linkUp
    · exact ⟨rfl, rfl, rfl, rfl, rfl, rfl, rfl, rfl, rfl, fun e => ⟨Table.get_replicate e _, Table.get_replicate e _⟩,
        fun n => Table.get_replicate n _, rfl, rfl, rfl⟩
    · exact ⟨rfl, rfl, rfl, rfl, rfl, rfl, rfl, rfl, rfl, fun e => ⟨poweredOn_waiting .., Table.get_replicate e _⟩,
        fun n => Table.get_replicate n _, rfl, rfl, BitVec.zero_or⟩

end Sys2Proof.Settled
end

