-- ==== Sys2Proof/Proofs/PowerOn.lean ====
section
/-! The state after a power-on reset meets every law of the device. -/

namespace Sys2Proof.Safety

open Sys2Proof.Machine

/-- A Report Writer that holds no tag, writes nothing, keeps no notice and has no area is safe (R179, R187). -/
theorem reportsLawful_idle {r : ReportWriter} (ht : r.tags = .replicate 16 none) (hw : r.write = none)
    (hn : ∀ e : Fin 8, r.waiting.get e = none) (hf : r.frames = []) : ReportsLawful r := by
  have htags : ∀ w, tagsHolding r w = 0 := fun w => by
    unfold tagsHolding
    rw [ht, Table.count_replicate]
    rfl
  unfold ReportsLawful
  rw [hw, hf]
  simp only [htags, hn]
  exact ⟨rfl, rfl, nofun, nofun, nofun, fun _ => ⟨trivial, nofun, nofun⟩⟩

/-- The Report Writer after power-on, whatever the level of LINK_UP (R189). -/
theorem reportsLawful_powerOnReset (wsel : BitVec 4) (linkUp crst : Bool) (s : State) :
    ReportsLawful (powerOnReset wsel linkUp crst s).rw := by
  obtain ⟨-, -, -, hrw⟩ := powerOnReset_pins wsel linkUp crst s
  rw [hrw]
  cases linkUp
  · exact reportsLawful_idle rfl rfl (fun e => Table.get_replicate e _) rfl
  · exact reportsLawful_idle rfl rfl (poweredOn_waiting s.rw.causes .outputChange) rfl

/-- The traffic path after power-on: nothing forwarded, no tag outstanding (R137, R154). -/
theorem traffic_powerOnReset (wsel : BitVec 4) (linkUp crst : Bool) (s : State) :
    Traffic (powerOnReset wsel linkUp crst s) := by
  obtain ⟨htc, -⟩ := powerOnReset_pins wsel linkUp crst s
  obtain ⟨-, hbt, -⟩ := powerOnReset_blocks wsel linkUp crst s
  have htag : ∀ tag : Fin 256, State.reset.tc.tags.get tag = {} := fun tag => Table.get_replicate tag _
  have hdiscard : ∀ tag : Fin 256, State.reset.tc.discard.get tag = false := fun tag => Table.get_replicate tag _
  unfold Traffic
  rw [htc, hbt]
  dsimp only
  simp only [htag, hdiscard]
  refine ⟨Nat.zero_le _, fun _ => rfl, fun _ => Nat.zero_le _, nofun, ?_, fun _ => ⟨rfl, fun _ => trivial⟩, nofun⟩
  cases crst <;> decide

/-- The reads after power-on: none (R110). -/
theorem readsMatched_none {s : State} (h : ∀ n : Fin 64, s.sf.reads.get n = none) : ReadsMatched s := by
  have hnone : ∀ n e, ¬ InFlight s n e := fun n e hf => by
    rw [InFlight, h n] at hf
    cases hf.1
  exact ⟨fun n e hf => absurd hf (hnone n e), fun m n e _ hf => absurd hf (hnone m e)⟩

/-- Every law holds after a power-on reset, whatever the levels of the pins. -/
theorem safe_powerOnReset (wsel : BitVec 4) (linkUp crst : Bool) (s : State) : Safe (powerOnReset wsel linkUp crst s) := by
  obtain ⟨-, -, -, -, hsf, hma⟩ := powerOnReset_blocks wsel linkUp crst s
  have hscan := scanout_powerOnReset wsel linkUp crst s
  have hreads : ReadsMatched (powerOnReset wsel linkUp crst s) :=
    readsMatched_none fun n => by rw [hsf]; exact Table.get_replicate n _
  have hage : AgeLawful (powerOnReset wsel linkUp crst s) := fun _ => by rw [hma]; rfl
  exact ⟨tracking_powerOnReset .., presentation_powerOnReset .., extents_powerOnReset .., hscan, ⟨hscan.1, hreads⟩,
    ⟨reportsLawful_powerOnReset .., hage⟩, bounded_powerOnReset .., traffic_powerOnReset ..⟩

end Sys2Proof.Safety

namespace Sys2Proof.Settled

open Sys2Proof.Machine Sys2Proof.Safety

/-- Settles O51: State.reset is a power-on reset of itself with these levels of the pins. -/
theorem resetSafe : Obligations.ResetSafe := by
  refine ⟨?_, fun wsel linkUp crst s t h => ?_⟩
  · exact safe_powerOnReset 0 false false State.reset
  · cases h
    exact safe_powerOnReset wsel linkUp crst s

end Sys2Proof.Settled
end

