-- ==== Sys2Proof/Proofs/Path.lean ====
section
/-! What leaves the traffic path as it is: the stall episode through the commands, the boundaries and the offers, and with
it the Traffic Classifier. -/

namespace Sys2Proof.Machine

variable (s : State)

/-! ## What leaves the stall episode as it is (R31) -/

theorem State.decideBand_stall (k : FrameKind) (b : Nat) : (s.decideBand k b).2.bt.stall = s.bt.stall := by
  unfold State.decideBand
  (repeat' split) <;> rfl

theorem State.fetchPoint_stall (c : FrameControl) (b : Nat) : (s.fetchPoint c b).bt.stall = s.bt.stall :=
  s.decideBand_stall c.decision b

theorem State.bandPoint_stall (c : FrameControl) (j : Nat) : (s.bandPoint c j).bt.stall = s.bt.stall := by
  unfold State.bandPoint
  split
  · exact s.fetchPoint_stall c _
  · rfl

theorem State.backLine_stall (t : TimingSet) (c : FrameControl) (n : Nat) :
    (s.backLine t c n).bt.stall = s.bt.stall := by
  have hp : (s.firstPoint t c n).bt.stall = s.bt.stall := by
    unfold State.firstPoint
    split
    · exact s.fetchPoint_stall c 0
    · rfl
  unfold State.backLine
  dsimp only
  split <;> simp [hp]

@[simp] theorem State.beginBackBlank_stall (t : TimingSet) (k : FrameKind) (x : Option (Fin 8)) (f : Nat) (b : Bool)
    (h n : Nat) : (s.beginBackBlank t k x f b h n).bt.stall = s.bt.stall :=
  State.backLine_stall _ t _ 0

@[simp] theorem State.expire_stall (t : TimingSet) (f : Nat) : (s.expire t f).bt.stall = s.bt.stall := by
  unfold State.expire
  split <;> simp

@[simp] theorem State.freeScanning_stall : s.freeScanning.bt.stall = s.bt.stall := by
  unfold State.freeScanning
  split <;> rfl

/-- A front-blank selection that takes an entry, and the frame it begins (R84, R85). -/
theorem State.beginNew_stall {e : Entry} {u : State} (h : s.frontSelection = some (e, u)) (t : TimingSet) (f : Nat)
    (b : Bool) : (u.beginNew t e f b).bt.stall = s.bt.stall := by
  obtain ⟨older, newer, -, rfl⟩ := s.frontSelection_some h
  exact (State.beginBackBlank_stall ..).trans (s.takeEntry_wtt older e newer).2

@[simp] theorem State.stretchLine_stall (t : TimingSet) (f : Nat) : (s.stretchLine t f).bt.stall = s.bt.stall := by
  unfold State.stretchLine
  split
  · rename_i h
    exact s.beginNew_stall h t f false
  · split <;> simp

theorem State.midActive_stall (c : FrameControl) (k : Nat) : (s.midActive c k).bt.stall = s.bt.stall := by
  unfold State.midActive
  split
  · rfl
  · split
    · rfl
    · rename_i h
      obtain ⟨older, newer, -, rfl⟩ := s.splitSelection_some h
      exact (State.takeEntry_wtt _ older _ newer).2.trans s.freeScanning_stall

theorem State.decisionPoint_stall (c : FrameControl) (j : Nat) : (s.decisionPoint c j).bt.stall = s.bt.stall := by
  unfold State.decisionPoint
  split
  · exact s.midActive_stall c _
  · rfl

@[simp] theorem State.activeLine_stall (t : TimingSet) (c : FrameControl) (j : Nat) :
    (s.activeLine t c j).bt.stall = s.bt.stall := by
  unfold State.activeLine
  simp [State.bandPoint_stall, State.decisionPoint_stall]

@[simp] theorem State.timingInForce_stall (t : TimingSet) : (s.timingInForce t).bt.stall = s.bt.stall := by
  have hd : ∀ u : State, (u.dropMisfits t).bt.stall = u.bt.stall := by
    intro u
    unfold State.dropMisfits
    simp [foldl_dropSurface_wtt]
  have hf : ∀ u : State, (u.freeHeldMisfit t).bt.stall = u.bt.stall := by
    intro u
    unfold State.freeHeldMisfit
    (repeat' split) <;> rfl
  unfold State.timingInForce
  rw [hd, hf]

@[simp] theorem State.enterOff_stall : s.enterOff.bt.stall = s.bt.stall := by
  have hp : ∀ u : State, u.pendingInForce.bt.stall = u.bt.stall := by
    intro u
    unfold State.pendingInForce
    split <;> simp
  unfold State.enterOff
  simp [hp]

@[simp] theorem State.settleSurfaces_stall : s.settleSurfaces.bt.stall = s.bt.stall := by
  unfold State.settleSurfaces
  (repeat' split) <;> rfl

@[simp] theorem State.nextFrame_stall : s.nextFrame.bt.stall = s.bt.stall := by
  unfold State.nextFrame
  split <;> (try dsimp only) <;> split <;> simp

/-! ### The commands of the command page -/

theorem openFrame_stall (id : BitVec 8) : (openFrame id s).bt.stall = s.bt.stall := by
  unfold openFrame
  dsimp only
  (repeat' split) <;> simp

theorem release_stall (id : BitVec 8) (a b : BitVec 16) : (release id a b s).bt.stall = s.bt.stall := by
  unfold release
  dsimp only
  (repeat' split) <;> simp

theorem abandon_stall (id : BitVec 8) : (abandon id s).bt.stall = s.bt.stall := by
  unfold abandon
  (repeat' split) <;> simp

theorem present_stall (id : BitVec 8) (a b : BitVec 16) : (present id a b s).bt.stall = s.bt.stall := by
  unfold present
  dsimp only
  (repeat' split) <;> simp

theorem withdraw_stall (id : BitVec 8) : (withdraw id s).bt.stall = s.bt.stall := by
  unfold withdraw
  (repeat' split) <;> simp

@[simp] theorem State.commitResult_stall (r : Result) : (s.commitResult r).bt.stall = s.bt.stall := by
  unfold State.commitResult
  simp

theorem commitSurface_stall (e : BitVec 16) : (commitSurface e s).bt.stall = s.bt.stall := by
  unfold commitSurface State.defineSurface
  dsimp only
  (repeat' split) <;> simp

theorem commitTiming_stall (e : BitVec 16) : (commitTiming e s).bt.stall = s.bt.stall := by
  unfold commitTiming State.installTiming
  dsimp only
  (repeat' split) <;> simp

theorem commitFetch_stall (e : BitVec 16) : (commitFetch e s).bt.stall = s.bt.stall := by
  unfold commitFetch State.installFetch
  (repeat' split) <;> simp

theorem commitNotice_stall (e : BitVec 16) : (commitNotice e s).bt.stall = s.bt.stall := by
  unfold commitNotice
  (repeat' split) <;> simp

theorem commitMarker_stall (e : BitVec 16) : (commitMarker e s).bt.stall = s.bt.stall := by
  unfold commitMarker
  (repeat' split) <;> simp

@[simp] theorem State.enableReport_stall (base : Nat) : (s.enableReport base).bt.stall = s.bt.stall := by
  unfold State.enableReport
  (repeat' split) <;> simp

theorem commitReport_stall (e : BitVec 16) : (commitReport e s).bt.stall = s.bt.stall := by
  unfold commitReport
  dsimp only
  (repeat' split) <;> simp

theorem outputOn_stall : (outputOn s).bt.stall = s.bt.stall := by
  unfold outputOn
  (repeat' split) <;> simp

theorem outputOff_stall : (outputOff s).bt.stall = s.bt.stall := by
  unfold outputOff State.stopRaster
  (repeat' split) <;> simp

theorem viewSelect_stall (a : BitVec 16) : (viewSelect a s).bt.stall = s.bt.stall := by
  unfold viewSelect
  split <;> simp

theorem softReset_stall : (softReset s).bt.stall = s.bt.stall := by
  unfold softReset
  simp

theorem tableData_stall (v : BitVec 64) : (tableData v s).bt.stall = s.bt.stall := by
  unfold tableData
  split <;> simp

/-- A command of the command page leaves the stall episode as it is (R31, R158). -/
theorem runCommand_stall (i : Instr) : (runCommand i s).bt.stall = s.bt.stall := by
  have hr : ∀ (u : State) l c x, (u.result l c x).bt = u.bt := fun u l c x => (u.result_frame l c x).2.2.1
  cases i with
  | openFrame id => exact openFrame_stall s id
  | release id a b => exact release_stall s id a b
  | abandon id => exact abandon_stall s id
  | present id a b => exact present_stall s id a b
  | withdraw id => exact withdraw_stall s id
  | commitSurface e => exact commitSurface_stall s e
  | commitTiming e => exact commitTiming_stall s e
  | commitFetch e => exact commitFetch_stall s e
  | commitNotice e => exact commitNotice_stall s e
  | commitMarker e => exact commitMarker_stall s e
  | commitReport e => exact commitReport_stall s e
  | outputOn => exact outputOn_stall s
  | outputOff => exact outputOff_stall s
  | clearEvents b c => exact congrArg BandTracker.stall (hr _ .control 0x23 .ok)
  | viewSelect a => exact viewSelect_stall s a
  | softReset => exact softReset_stall s
  | unknown lane code => exact congrArg BandTracker.stall (hr s lane code .unknown)
  | wrongLane lane code => exact congrArg BandTracker.stall (hr s lane code .wrongLane)
  | tableData v => exact tableData_stall s v
  | tableIndex | reportNow | misplacedWrite
  | powerOnReset | linkReset | crstRelease | linkUpChange | requestAccept | consoleResponse | fetchResponse
  | reportAck | strayResponse | grant | channelFree | statusWriteBegin | lineBoundary | settleDone | frontMinEnd
  | stretchBoundary | stretchExpiry | activeStart | activeLine | endOfActive => rfl

/-! ### The boundaries -/

/-- A boundary leaves the traffic path as it is. -/
theorem lineBoundary_path : (lineBoundary s).tc = s.tc ∧ (lineBoundary s).bt.stall = s.bt.stall := by
  unfold lineBoundary
  dsimp only
  (repeat' split) <;> simp [State.backLine_stall]

theorem settleDone_path : (settleDone s).tc = s.tc ∧ (settleDone s).bt.stall = s.bt.stall := by
  unfold settleDone
  (repeat' split) <;> exact ⟨rfl, rfl⟩

theorem frontMinEnd_path : (frontMinEnd s).tc = s.tc ∧ (frontMinEnd s).bt.stall = s.bt.stall := by
  unfold frontMinEnd
  split
  · exact ⟨rfl, rfl⟩
  · split
    · split
      · rename_i h
        exact ⟨(State.beginNew_frame ..).1.trans (s.frontSelection_frame h).1, s.beginNew_stall h ..⟩
      · split <;> simp
    · exact ⟨rfl, rfl⟩

theorem stretchBoundary_path : (stretchBoundary s).tc = s.tc ∧ (stretchBoundary s).bt.stall = s.bt.stall := by
  unfold stretchBoundary
  (repeat' split) <;> simp

theorem stretchExpiry_path : (stretchExpiry s).tc = s.tc ∧ (stretchExpiry s).bt.stall = s.bt.stall := by
  unfold stretchExpiry
  (repeat' split) <;> simp

theorem activeStart_path : (activeStart s).tc = s.tc ∧ (activeStart s).bt.stall = s.bt.stall := by
  unfold activeStart
  (repeat' split) <;> simp

theorem activeLine_path : (activeLine s).tc = s.tc ∧ (activeLine s).bt.stall = s.bt.stall := by
  unfold activeLine
  dsimp only
  (repeat' split) <;> simp

theorem endOfActive_path : (endOfActive s).tc = s.tc ∧ (endOfActive s).bt.stall = s.bt.stall := by
  unfold endOfActive
  (repeat' split) <;> simp

/-! ### Offers and acknowledgements -/

theorem State.acknowledge_stall (tag : Fin 256) (x : Status) : (s.acknowledge tag x).bt.stall = s.bt.stall := by
  unfold State.acknowledge
  dsimp only
  (repeat' split) <;> rfl

end Sys2Proof.Machine
end

