-- ==== Sys2Proof/Proofs/Traffic.lean ====
section
/-! The traffic path: the pins, the console's traffic and the PASS grant change it, and each keeps its law. -/

namespace Sys2Proof.Safety

open Sys2Proof.Machine

/-! ## The law of the traffic path (R137, R144, R146) -/

/-- The law of the traffic path, of the Traffic Classifier and the stall episode alone. -/
structure PathLawful (c : Classifier) (stall : Bool) : Prop where
  room : c.forward.length ≤ Config.forwardSize
  queued : ∀ tag : Fin 256, (c.tags.get tag).queued = c.forward.countP fun r => r.tag == tag
  issued : ∀ tag : Fin 256, (c.tags.get tag).issued ≤ 255
  discard : ∀ tag : Fin 256, c.discard.get tag = true → (c.tags.get tag).queued = 0 ∧ (c.tags.get tag).issued = 0
  reset : c.cport = .inReset ↔ c.crst = true
  empty : c.cport = .inReset → c.forward = [] ∧ ∀ tag : Fin 256, (c.tags.get tag).issued = 0
  stall : stall = true → c.arrivals ≠ [] ∧ c.cport = .live

theorem traffic_iff (s : State) : Traffic s ↔ PathLawful s.tc s.bt.stall :=
  ⟨fun ⟨h1, h2, h3, h4, h5, h6, h7⟩ => ⟨h1, h2, h3, h4, h5, h6, h7⟩,
    fun ⟨h1, h2, h3, h4, h5, h6, h7⟩ => ⟨h1, h2, h3, h4, h5, h6, h7⟩⟩

/-! ## What leaves the traffic path as it is -/

/-- Has the traffic path stayed as it was, but for the last link fault and the response returned? -/
def PathKept (s t : State) : Prop :=
  t.tc = { s.tc with fault := t.tc.fault, returned := t.tc.returned } ∧ t.bt.stall = s.bt.stall

theorem PathKept.of_eq {s t : State} (h : t.tc = s.tc ∧ t.bt.stall = s.bt.stall) : PathKept s t :=
  ⟨by rw [h.1], h.2⟩

theorem PathKept.trans {s t u : State} (h : PathKept s t) (h' : PathKept t u) : PathKept s u :=
  ⟨by rw [h'.1, h.1], h'.2.trans h.2⟩

theorem PathKept.refl (s : State) : PathKept s s := ⟨rfl, rfl⟩

theorem PathKept.linkFaulted {c : FaultCause} {n : Nat} {s t : State} (h : LinkFaulted c n s t) : PathKept s t := by
  obtain ⟨htc, -, ht⟩ := h
  have hbt := congrArg State.bt ht
  exact ⟨by rw [htc], congrArg BandTracker.stall hbt⟩

theorem PathKept.linkProtocol (s : State) (c : FaultCause) (n : Nat) : PathKept s (s.linkProtocol c n) :=
  .linkFaulted (linkFaulted_linkProtocol s c n)

/-- The checks of an acceptance raise link faults or nothing (R138). -/
theorem PathKept.checked {r : Request} {reuse : Prop} {s u : State} (h : Checked r reuse s u) : PathKept s u := by
  obtain ⟨v, hcrossing, hwithin, hreuse, hfresh⟩ := h
  have hv : PathKept s v := by
    by_cases hc : Crossing r
    · exact .linkFaulted (hcrossing hc)
    · rw [hwithin hc]; exact .refl s
  have hu : PathKept v u := by
    by_cases hr : reuse
    · exact .linkFaulted (hreuse hr)
    · rw [hfresh hr]; exact .refl v
  exact hv.trans hu

theorem PathKept.decodeBeats (s : State) (r : Request) : PathKept s (s.decodeBeats r) :=
  .of_eq ⟨(s.decodeBeats_frame r).1, State.decodeBeats_keeps s (fun t => t.bt.stall = s.bt.stall)
    (fun i t h => (runCommand_stall t i).trans h) (fun t h => (t.commitResult_stall .range).trans h) r rfl⟩

/-- The outcome of an offer (R30, R32, R33). -/
theorem PathKept.takeOffer (s : State) (tag : Fin 256) (o : Offer) : PathKept s (s.takeOffer tag o) := by
  cases o with
  | late i =>
    obtain ⟨htc, -, hbt, -⟩ := s.lateWrite_frame i
    exact .of_eq ⟨htc, congrArg BandTracker.stall hbt⟩
  | notOffered | full | reuse | track => exact ⟨rfl, rfl⟩

theorem Traffic.congr {s t : State} (hs : Traffic s) (h : PathKept s t) : Traffic t := by
  obtain ⟨h1, h2, h3, h4, h5, h6, h7⟩ := (traffic_iff s).1 hs
  rw [traffic_iff, h.1, h.2]
  exact ⟨h1, h2, h3, h4, h5, h6, h7⟩

/-! ## What changes the traffic path -/

namespace PathLawful

variable {c : Classifier} {stall : Bool}

/-- A request arrives on the C-port (R138). -/
theorem arrive (h : PathLawful c stall) (l : List Request) :
    PathLawful { c with arrivals := c.arrivals ++ l } stall :=
  { h with stall := fun hs => ⟨fun hn => (h.stall hs).1 (List.append_eq_nil_iff.1 hn).1, (h.stall hs).2⟩ }

/-- The head request is taken, and a stall episode ends with it (R31). -/
theorem take (h : PathLawful c stall) (l : List Request) : PathLawful { c with arrivals := l } false :=
  { h with stall := nofun }

/-- A stall episode begins with a request that waits on a LIVE C-port (R31). -/
theorem stalled (h : PathLawful c stall) (ha : c.arrivals ≠ []) (hl : c.cport = .live) : PathLawful c true :=
  { h with stall := fun _ => ⟨ha, hl⟩ }

/-- A request joins the forwarding buffer, which has room, with a tag that isn't in the discard set (R138). -/
theorem forwarded (h : PathLawful c stall) (r : Request) (hl : c.cport = .live)
    (hroom : c.forward.length < Config.forwardSize) (hd : c.discard.get r.tag = false) :
    PathLawful { c with
      forward := c.forward ++ [r]
      tags := c.tags.modify r.tag fun n => { n with queued := n.queued + 1 } } stall := by
  have hissued : ∀ tag, ((c.tags.modify r.tag fun n => { n with queued := n.queued + 1 }).get tag).issued =
      (c.tags.get tag).issued := by
    intro tag
    rw [Table.get_modify]
    split <;> rfl
  refine ⟨?_, fun tag => ?_, fun tag => ?_, fun tag ht => ?_, h.reset, fun hr => ?_, h.stall⟩
  · rw [List.length_append]
    exact hroom
  · rw [Table.get_modify, List.countP_append, ← h.queued tag]
    by_cases ht : tag = r.tag
    · simp [ht]
    · simp [ht, Ne.symm ht]
  · rw [hissued]
    exact h.issued tag
  · have hne : tag ≠ r.tag := fun he => by rw [he, hd] at ht; cases ht
    rw [Table.get_modify_ne _ hne]
    exact h.discard tag ht
  · rw [hl] at hr
    cases hr

/-- The head of the forwarding buffer is issued (R141): its tag was queued, so it isn't in the discard set. -/
theorem issue (h : PathLawful c stall) {r : Request} {rest : List Request} (hf : c.forward = r :: rest) :
    PathLawful { c with forward := rest, tags := c.tags.modify r.tag TagCount.issue } stall := by
  have hcount : ∀ tag, (c.tags.get tag).queued =
      (rest.countP fun x => x.tag == tag) + if tag = r.tag then 1 else 0 := by
    intro tag
    rw [h.queued tag, hf, List.countP_cons]
    by_cases ht : tag = r.tag
    · simp [ht]
    · simp [ht, Ne.symm ht]
  refine ⟨?_, fun tag => ?_, fun tag => ?_, fun tag ht => ?_, h.reset, fun hr => ?_, h.stall⟩
  · have := h.room
    rw [hf, List.length_cons] at this
    exact Nat.le_of_succ_le this
  · have hq := hcount tag
    rw [Table.get_modify]
    by_cases ht : tag = r.tag
    · rw [if_pos ht] at hq ⊢
      exact congrArg (· - 1) hq
    · rw [if_neg ht] at hq ⊢
      exact hq
  · rw [Table.get_modify]
    split
    · exact min_le_left _ _
    · exact h.issued tag
  · have hne : tag ≠ r.tag := by
      intro he
      have hq := hcount tag
      rw [if_pos he, (h.discard tag ht).1] at hq
      omega
    rw [Table.get_modify_ne _ hne]
    exact h.discard tag ht
  · rw [(h.empty hr).1] at hf
    cases hf

/-- A response to an issued request (R144). -/
theorem answered (h : PathLawful c stall) (tag : Fin 256) :
    PathLawful { c with tags := c.tags.modify tag fun n => { n with issued := n.issued - 1 } } stall := by
  have hget : ∀ x, ((c.tags.modify tag fun n => { n with issued := n.issued - 1 }).get x).queued =
      (c.tags.get x).queued ∧
      ((c.tags.modify tag fun n => { n with issued := n.issued - 1 }).get x).issued ≤ (c.tags.get x).issued := by
    intro x
    rw [Table.get_modify]
    split
    · exact ⟨rfl, Nat.sub_le _ _⟩
    · exact ⟨rfl, le_rfl⟩
  have hzero : ∀ x, (c.tags.get x).issued = 0 →
      ((c.tags.modify tag fun n => { n with issued := n.issued - 1 }).get x).issued = 0 := fun x hx =>
    Nat.le_zero.1 (hx ▸ (hget x).2)
  refine ⟨h.room, fun x => ?_, fun x => (hget x).2.trans (h.issued x), fun x hx => ?_, h.reset, fun hr => ?_, h.stall⟩
  · rw [(hget x).1]
    exact h.queued x
  · rw [(hget x).1]
    exact ⟨(h.discard x hx).1, hzero x (h.discard x hx).2⟩
  · exact ⟨(h.empty hr).1, fun x => hzero x ((h.empty hr).2 x)⟩

/-- A response to a request of before a link reset takes its tag out of the discard set (R144, R147). -/
theorem discarded (h : PathLawful c stall) (tag : Fin 256) :
    PathLawful { c with discard := c.discard.set tag false } stall := by
  refine { h with discard := fun x hx => ?_ }
  rw [Table.get_set] at hx
  split at hx
  · cases hx
  · exact h.discard x hx

/-- A link reset empties the buffer and the tag table (R146). -/
theorem linkReset (c : Classifier) : PathLawful c.linkReset false := by
  have htag : ∀ tag, c.linkReset.tags.get tag = {} := fun tag => Table.get_replicate tag _
  refine ⟨Nat.zero_le _, fun tag => ?_, fun tag => ?_, fun tag _ => ?_, iff_of_true rfl rfl, fun _ => ⟨rfl, fun tag => ?_⟩,
    nofun⟩
  · rw [htag]; rfl
  · rw [htag]; exact Nat.zero_le _
  · rw [htag]; exact ⟨rfl, rfl⟩
  · rw [htag]

/-- CRST is released (R146). -/
theorem released (h : PathLawful c stall) : PathLawful { c with cport := .live, crst := false } stall :=
  { h with reset := by simp
           empty := nofun
           stall := fun hs => ⟨(h.stall hs).1, rfl⟩ }

end PathLawful

/-! ## Every step keeps the law -/

section Steps

variable {s : State} (hs : Traffic s)

include hs

/-- A request joins the forwarding buffer (R138). -/
theorem Traffic.forwarded {r : Request} {t : State} (ha : Admitted s r) (h : Forwarded r s t) : Traffic t := by
  obtain ⟨hlive, hroom, hdiscard⟩ := ha
  obtain ⟨ht, htags⟩ := h
  have hmodify : t.tc.tags = s.tc.tags.modify r.tag fun n => { n with queued := n.queued + 1 } :=
    Table.ext_get fun tag => by rw [htags, Table.get_modify]
  have hbt := congrArg State.bt ht
  have htc := congrArg State.tc ht
  dsimp only at htc hbt
  rw [traffic_iff, htc, hbt, hmodify]
  exact ((traffic_iff s).1 hs).forwarded r hlive hroom hdiscard

/-- An accepted request's checks and its action leave the path as it is, and it joins the buffer (R138). -/
theorem Traffic.accept {r : Request} (ha : Admitted s r) (rest : List Request) (o : Offer) :
    Traffic (s.accept r rest o) := by
  obtain ⟨u, hchecked, hforwarded, -⟩ := accept_checked s s.tc.arrivals r rest o _ Iff.rfl
  have haction : PathKept u (if s.toPage r then u.decodeBeats r else u.takeOffer r.tag o) := by
    split
    · exact .decodeBeats u r
    · exact .takeOffer u r.tag o
  have htaken : Traffic (headTaken rest s) := (traffic_iff _).2 (((traffic_iff s).1 hs).take rest)
  have hkept := (PathKept.checked hchecked).trans haction
  refine (htaken.congr hkept).forwarded ?_ hforwarded
  unfold Admitted
  rw [hkept.1]
  exact ha

theorem Traffic.tryHead : Traffic s.tryHead := by
  unfold State.tryHead
  split
  · exact hs
  · rename_i r rest harr
    split
    · rename_i had
      have ha := (admits_iff s r).1 had
      split
      · unfold State.stallWrite
        split
        · exact hs
        · exact (traffic_iff _).2 (((traffic_iff s).1 hs).stalled (by rw [harr]; exact List.cons_ne_nil r rest) ha.1)
      all_goals exact hs.accept ha rest _
    · exact hs

theorem Traffic.answered (tag : Fin 256) :
    Traffic { s with tc := { s.tc with tags := s.tc.tags.modify tag fun n => { n with issued := n.issued - 1 } } } :=
  (traffic_iff _).2 (((traffic_iff s).1 hs).answered tag)

theorem Traffic.consoleResponse (tag : Fin 256) (kind : RespKind) (status : Status) (data : List (BitVec 64)) :
    Traffic (consoleResponse tag kind status data s) := by
  have h0 : Traffic { s with tc := { s.tc with returned := none } } := hs.congr ⟨rfl, rfl⟩
  unfold Machine.consoleResponse
  dsimp only
  split
  · exact (traffic_iff _).2 (((traffic_iff _).1 h0).discarded tag)
  · split
    · exact h0.congr (.linkProtocol _ _ _)
    · have h1 := h0.answered tag
      cases kind with
      | readData => exact h1.congr ⟨rfl, rfl⟩
      | writeAck =>
        have h2 := h1.congr (.of_eq ⟨(State.acknowledge_frame _ tag status).1, State.acknowledge_stall _ tag status⟩)
        exact h2.congr ⟨rfl, rfl⟩

theorem Traffic.fetchResponse (n : Fin 64) (kind : RespKind) (status : Status) (data : List (BitVec 64)) :
    Traffic (fetchResponse n kind status data s) := by
  unfold Machine.fetchResponse
  split
  · exact hs.congr (.linkProtocol _ _ _)
  · exact hs.congr (.linkProtocol _ _ _)
  · rename_i e _
    obtain ⟨htc, -, -, hbt, -⟩ := State.readData_frame (s.freeRead n) e status data
    exact hs.congr (.of_eq ⟨htc, congrArg BandTracker.stall hbt⟩)

theorem Traffic.reportAck (n : Fin 16) (status : Status) : Traffic (reportAck n status s) := by
  unfold Machine.reportAck
  split
  · exact hs.congr (.linkProtocol _ _ _)
  · exact hs.congr ⟨rfl, rfl⟩

theorem Traffic.strayResponse (tag : Fin 512) (kind : RespKind) (status : Status) :
    Traffic (strayResponse tag kind status s) := by
  unfold Machine.strayResponse
  (repeat' split)
  · exact hs.congr (.linkProtocol _ _ _)
  · exact hs.congr (.linkProtocol _ _ _)
  · exact hs

/-- Of the grants PASS alone takes from the forwarding buffer (R141). -/
theorem Traffic.grant : Traffic (grant s) := by
  have hfetch : ∀ g, Traffic (s.grantFetch g) := fun g => by
    obtain ⟨htc, -, -, hbt, -⟩ := s.grantFetch_frame g
    exact hs.congr (.of_eq ⟨htc, congrArg BandTracker.stall hbt⟩)
  unfold Machine.grant
  split
  · exact hs
  · split
    · exact hs
    · exact hfetch _
    · unfold State.grantPass
      split
      · exact hs
      · rename_i hf
        exact (traffic_iff _).2 (((traffic_iff s).1 hs).issue hf)
    · exact hfetch _
    · obtain ⟨htc, -, -, hbt, -⟩ := s.grantReport_frame
      exact hs.congr (.of_eq ⟨htc, congrArg BandTracker.stall hbt⟩)

theorem Traffic.linkReset : Traffic (linkReset s) := by
  unfold Machine.linkReset
  split
  · exact hs
  · exact (traffic_iff _).2 (.linkReset s.tc)

theorem Traffic.linkUpChange (level : Bool) (sent : Nat) : Traffic (linkUpChange level sent s) := by
  unfold Machine.linkUpChange
  split
  · exact hs
  · exact hs.congr ⟨rfl, rfl⟩

theorem Traffic.statusWriteBegin : Traffic (statusWriteBegin s) := by
  unfold Machine.statusWriteBegin
  split
  · exact hs.congr ⟨rfl, rfl⟩
  · exact hs

theorem Traffic.runCommand (i : Instr) : Traffic (runCommand i s) :=
  hs.congr (.of_eq ⟨(runCommand_frame s i).1, runCommand_stall s i⟩)

theorem Traffic.exec (c : Instr) {t : State} (h : exec c s = .next t) : Traffic t := by
  cases c with
  | powerOnReset wsel linkUp crst => cases h; exact traffic_powerOnReset wsel linkUp crst s
  | linkReset => cases h; exact hs.linkReset
  | crstRelease => cases h; exact (traffic_iff _).2 ((traffic_iff s).1 hs).released
  | linkUpChange level sent => cases h; exact hs.linkUpChange level sent
  | requestAccept arriving =>
    cases h
    exact Traffic.tryHead ((traffic_iff _).2 (((traffic_iff s).1 hs).arrive arriving.toList))
  | consoleResponse tag kind status data => cases h; exact hs.consoleResponse tag kind status data
  | fetchResponse n kind status data => cases h; exact hs.fetchResponse n kind status data
  | reportAck n status => cases h; exact hs.reportAck n status
  | strayResponse tag kind status => cases h; exact hs.strayResponse tag kind status
  | grant => cases h; exact hs.grant
  | channelFree => cases h; exact hs.congr ⟨rfl, rfl⟩
  | statusWriteBegin => cases h; exact hs.statusWriteBegin
  | lineBoundary => cases h; exact hs.congr (.of_eq (lineBoundary_path s))
  | settleDone => cases h; exact hs.congr (.of_eq (settleDone_path s))
  | frontMinEnd => cases h; exact hs.congr (.of_eq (frontMinEnd_path s))
  | stretchBoundary => cases h; exact hs.congr (.of_eq (stretchBoundary_path s))
  | stretchExpiry => cases h; exact hs.congr (.of_eq (stretchExpiry_path s))
  | activeStart => cases h; exact hs.congr (.of_eq (activeStart_path s))
  | activeLine => cases h; exact hs.congr (.of_eq (activeLine_path s))
  | endOfActive => cases h; exact hs.congr (.of_eq (endOfActive_path s))
  | openFrame id => cases h; exact hs.runCommand (.openFrame id)
  | release id first last => cases h; exact hs.runCommand (.release id first last)
  | abandon id => cases h; exact hs.runCommand (.abandon id)
  | present id a b => cases h; exact hs.runCommand (.present id a b)
  | withdraw id => cases h; exact hs.runCommand (.withdraw id)
  | commitSurface e => cases h; exact hs.runCommand (.commitSurface e)
  | commitTiming e => cases h; exact hs.runCommand (.commitTiming e)
  | commitFetch e => cases h; exact hs.runCommand (.commitFetch e)
  | commitNotice e => cases h; exact hs.runCommand (.commitNotice e)
  | commitMarker e => cases h; exact hs.runCommand (.commitMarker e)
  | commitReport e => cases h; exact hs.runCommand (.commitReport e)
  | outputOn => cases h; exact hs.runCommand .outputOn
  | outputOff => cases h; exact hs.runCommand .outputOff
  | clearEvents b c => cases h; exact hs.runCommand (.clearEvents b c)
  | viewSelect a => cases h; exact hs.runCommand (.viewSelect a)
  | softReset => cases h; exact hs.runCommand .softReset
  | unknown lane code => cases h; exact hs.runCommand (.unknown lane code)
  | wrongLane lane code => cases h; exact hs.runCommand (.wrongLane lane code)
  | tableIndex v => cases h; exact hs.runCommand (.tableIndex v)
  | tableData v => cases h; exact hs.runCommand (.tableData v)
  | reportNow v => cases h; exact hs.runCommand (.reportNow v)
  | misplacedWrite => cases h; exact hs.runCommand .misplacedWrite

end Steps

end Sys2Proof.Safety

namespace Sys2Proof.Settled

open Sys2Proof.Machine Sys2Proof.Safety

/-- Settles O59, by the command of the step: the pins, the console's traffic and the PASS grant change the path. -/
theorem trafficKept : Obligations.TrafficKept := by
  intro s t hs h
  unfold step at h
  split at h
  · cases h
    exact hs.congr ⟨rfl, rfl⟩
  · rename_i c rest _
    have hq : Traffic { s with pending := rest } := hs.congr ⟨rfl, rfl⟩
    exact hq.exec c h

end Sys2Proof.Settled
end

