-- ==== Sys2Proof/Proofs/Bands.lean ====
section
/-! Band tracking: the console's releases, tracked writes and acknowledgements, the link reset, and the band decision. -/

namespace Sys2Proof.Safety

open Sys2Proof.Machine

/-! ## Band records (R36, R40, R42) -/

theorem release_eq (lc : Line) (b : Band) : b.release lc =
    if b.status = .opened then
      if b.pending = 0 then { b with status := .ready, stamp := some lc } else { b with status := .draining }
    else b := by
  unfold Band.release
  cases b.status <;> rfl

theorem closeDrain_eq (lc : Line) (b : Band) : b.closeDrain lc =
    if b.status = .draining then { b with pending := 0, status := .ready, stamp := some lc, fault := true }
    else { b with pending := 0 } := by
  unfold Band.closeDrain
  cases b.status <;> rfl

/-- The bands of one surface released: those of the range, and no other surface's (R36). -/
theorem band_release (t : BandTracker) (i j : Fin 8) (b : Fin 128) (lc : Line) (first last : Nat) :
    ({ t with bands := t.bands.modify i (Bands.release lc first last) } : BandTracker).band j b =
      if j = i ∧ first ≤ b.val ∧ b.val ≤ last then (t.band j b).release lc else t.band j b := by
  unfold BandTracker.band Bands.release
  rw [Table.get_modify]
  by_cases hj : j = i
  · rw [if_pos hj, Table.get_mapIdx]
    simp [hj]
  · rw [if_neg hj, if_neg (fun h => hj h.1)]

/-! ## RELEASE (R35) -/

theorem release_beyond (s : State) {id : BitVec 8} (first last : BitVec 16) (h : 8 ≤ id.toNat) :
    release id first last s = s.result .render 0x02 .badSurface := by
  unfold release
  rw [definedSurface_beyond s h]

theorem release_undefined (s : State) {id : BitVec 8} {i : Fin 8} (first last : BitVec 16) (h : id.toNat = i.val)
    (hd : (s.st.get i).geo.defined = false) : release id first last s = s.result .render 0x02 .badSurface := by
  unfold release
  rw [definedSurface_of s h, hd]
  rfl

/-- RELEASE of a defined surface: the checks of R35 in their order, and the release of the clamped range. -/
theorem release_defined (s : State) {id : BitVec 8} {i : Fin 8} (first last : BitVec 16) (h : id.toNat = i.val)
    (hd : (s.st.get i).geo.defined = true) : release id first last s =
      if (s.st.get i).state = .free then s.result .render 0x02 .badState
      else if (s.st.get i).geo.nb ≤ first.toNat then s.result .render 0x02 .range
      else if last.toNat < first.toNat then s.result .render 0x02 .range
      else
        let bands := s.bt.bands.modify i
          (Bands.release s.rtm.now first.toNat (min last.toNat ((s.st.get i).geo.nb - 1)))
        State.result { s with bt := { s.bt with bands := bands } } .render 0x02 .ok := by
  unfold release
  rw [definedSurface_of s h, hd]
  rfl

/-! ## Tracked writes (R30, R31) -/

/-- A write to an OPEN band under a tag that the table doesn't hold is tracked while the table has room (R29 to R31). -/
theorem decideOffer_opened {s : State} {r : Request} {i : Fin 8} {b : Fin 128}
    (hb : (s.st.get i).geo.bandOf r.addr = b) (ho : (s.bt.band i b).status = .opened)
    (ht : s.bt.wtt.get r.tag = none) :
    s.decideOffer r i = if 64 ≤ s.bt.wtt.count Option.isSome then .full else .track i b := by
  unfold State.decideOffer
  dsimp only
  rw [hb, ho, ht]
  rfl

/-- The stall of a write that finds the table full, at the first offer of an episode (R31). -/
theorem stallWrite_eq (s : State) : s.stallWrite =
    if s.bt.stall then s else { s with bt := { s.bt with stall := true }, rw := s.rw.raise .trackStall } := rfl

/-! ## Acknowledgements (R39 to R41) -/

/-- An acknowledgement without an entry changes nothing (R39). -/
theorem acknowledge_none {s : State} {tag : Fin 256} (status : Status) (h : s.bt.wtt.get tag = none) :
    s.acknowledge tag status = s := by
  unfold State.acknowledge
  rw [h]

/-- An acknowledgement for an entry: the entry goes, the band of a live use is credited, and an ERROR raises WRITE_FAULT
(R40, R41). -/
theorem acknowledge_some {s : State} {tag : Fin 256} (status : Status) {w : Tracked} (h : s.bt.wtt.get tag = some w) :
    s.acknowledge tag status = { s with
      bt := (s.acknowledge tag status).bt
      rw := if status = .error then s.rw.raise .writeFault else s.rw } := by
  rw [acknowledge_bt s status h]
  unfold State.acknowledge
  rw [h]
  by_cases hl : (s.st.get w.surface).state ≠ .free ∧ (s.st.get w.surface).gen = w.gen
  · rw [if_pos hl]
    cases status <;> exact if_pos hl
  · rw [if_neg hl]
    cases status <;> exact if_neg hl

/-- An acknowledgement changes band records, the table and the Report Writer (R39 to R41). -/
theorem acknowledge_frame {s : State} {tag : Fin 256} (status : Status) {w : Tracked} (h : s.bt.wtt.get tag = some w) :
    s.acknowledge tag status = { s with
      bt := { s.bt with bands := (s.acknowledge tag status).bt.bands, wtt := (s.acknowledge tag status).bt.wtt }
      rw := (s.acknowledge tag status).rw } := by
  have hack := acknowledge_some status h
  refine hack.trans ?_
  rw [congrArg State.rw hack]
  dsimp only
  rw [← s.acknowledge_stall tag status]

/-- An acknowledgement doesn't look at the traffic path. -/
theorem acknowledge_withTraffic (s : State) (c : Classifier) (tag : Fin 256) (status : Status) :
    ({ s with tc := c } : State).acknowledge tag status = { s.acknowledge tag status with tc := c } := by
  cases h : s.bt.wtt.get tag with
  | none => rw [acknowledge_none (s := { s with tc := c }) status h, acknowledge_none status h]
  | some w =>
    rw [acknowledge_some (s := { s with tc := c }) status h, acknowledge_some status h,
      acknowledge_bt { s with tc := c } status h, acknowledge_bt s status h]

theorem credit_eq (lc : Line) (error : Bool) (b : Band) : b.credit lc error =
    if b.status = .draining ∧ b.pending - 1 = 0 then
      { b with pending := b.pending - 1, fault := b.fault || error, status := .ready, stamp := some lc }
    else { b with pending := b.pending - 1, fault := b.fault || error } := rfl

/-- The band records and the table after an acknowledgement for an entry (R40). -/
theorem acknowledge_bands {s : State} {tag : Fin 256} (status : Status) {w : Tracked}
    (h : s.bt.wtt.get tag = some w) :
    (s.acknowledge tag status).bt.wtt = s.bt.wtt.set tag none ∧
    ∀ (j : Fin 8) (b : Fin 128), (s.acknowledge tag status).bt.band j b =
      if ((s.st.get w.surface).state ≠ .free ∧ (s.st.get w.surface).gen = w.gen) ∧ j = w.surface ∧ b = w.band then
        (s.bt.band j b).credit s.rtm.now (decide (status = .error))
      else s.bt.band j b := by
  rw [acknowledge_bt s status h]
  by_cases hl : (s.st.get w.surface).state ≠ .free ∧ (s.st.get w.surface).gen = w.gen
  · rw [if_pos hl]
    refine ⟨rfl, fun j b => ?_⟩
    rw [band_modifyBand]
    simp only [hl, ne_eq, not_false_eq_true, and_self, true_and]
    rfl
  · rw [if_neg hl]
    exact ⟨rfl, fun j b => (if_neg fun hc => hl hc.1).symm⟩

/-! ## CONSOLE_RESPONSE (R144) -/

section

variable (tag : Fin 256) (kind : RespKind) (status : Status) (data : List (BitVec 64)) (s : State)

/-- A response on a tag of the discard set (R144, R147). -/
theorem consoleResponse_discard (h : s.tc.discard.get tag = true) : consoleResponse tag kind status data s =
    { s with tc := { s.tc with returned := none, discard := s.tc.discard.set tag false } } := by
  unfold consoleResponse
  dsimp only
  rw [if_pos h]

/-- A response on a tag with nothing issued (R144). -/
theorem consoleResponse_none (h : s.tc.discard.get tag = false) (hi : (s.tc.tags.get tag).issued = 0) :
    consoleResponse tag kind status data s =
      State.linkProtocol { s with tc := { s.tc with returned := none } } .noRequest tag.val := by
  unfold consoleResponse
  dsimp only
  rw [if_neg (by rw [h]; exact Bool.false_ne_true), if_pos hi]

/-- A response to an issued request: a WRITE_ACK is shown to the Band Tracker, and the response returned on a LIVE
C-port (R144, R145). -/
theorem consoleResponse_issued (h : s.tc.discard.get tag = false) (hi : 0 < (s.tc.tags.get tag).issued) :
    consoleResponse tag kind status data s =
      let u := match kind with
        | .writeAck => State.acknowledge { s with tc := { s.tc with returned := none } } tag status
        | .readData => { s with tc := { s.tc with returned := none } }
      { u with tc := { u.tc with
        tags := s.tc.tags.modify tag fun c => { c with issued := c.issued - 1 }
        returned := if s.tc.cport = .live then
            some { tag := tag, kind := kind, status := status, data := data } else none } } := by
  unfold consoleResponse
  dsimp only
  rw [if_neg (by rw [h]; exact Bool.false_ne_true), if_neg (by omega)]
  cases kind with
  | readData => rfl
  | writeAck =>
    have hc := acknowledge_withTraffic { s with tc := { s.tc with returned := none } } { s.tc with
      returned := none, tags := s.tc.tags.modify tag fun c => { c with issued := c.issued - 1 } } tag status
    have hf := (State.acknowledge_frame { s with tc := { s.tc with returned := none } } tag status).1
    dsimp only at hc hf ⊢
    rw [hc, hf]
    rfl

end

/-! ## The band decision (R46 to R48) -/

/-- Where at most one surface is in a state, the one that is in it is found (R8). -/
theorem inState_of {s : State} {x : SurfState} (h : AtMostOne s x) {i : Fin 8} (hi : (s.st.get i).state = x) :
    s.inState x = some i := by
  unfold State.inState
  exact Table.find_unique (by simpa using hi) fun j hj => h j i (by simpa using hj) hi

/-- The HELD surface as a source, or fill (R46). -/
theorem heldSource_of {s : State} (h : AtMostOne s .held) :
    (∀ i : Fin 8, (s.st.get i).state = .held → s.heldSource = asSource s i) ∧
      ((∀ i : Fin 8, (s.st.get i).state ≠ .held) → s.heldSource = .fill) := by
  refine ⟨fun i hi => ?_, fun hn => ?_⟩
  · have hh : s.held = some i := inState_of h hi
    unfold State.heldSource
    rw [hh]
    rfl
  · unfold State.heldSource
    rw [s.held_none.2 hn]

theorem bandNumber_val (b : Fin 128) : bandNumber b.val = b := Fin.ext (Nat.mod_eq_of_lt b.isLt)

/-- A NEW frame's band of the SCANNING surface (R46 to R48). -/
theorem decideBand_new {s : State} {i : Fin 8} (b : Fin 128) (hi : s.scanning = some i) :
    s.decideBand .new b.val =
      if (s.bt.band i b).status = .ready then (s.sourceOf i, s.scanBand i b.val)
      else (s.heldSource, s.missBand i b.val) := by
  unfold State.decideBand
  dsimp only
  rw [hi]
  dsimp only
  rw [bandNumber_val]
  cases (s.bt.band i b).status <;> rfl

/-- One band record takes a scan status, and no other changes (R24). -/
theorem band_scan (t : BandTracker) (i : Fin 8) (b : Fin 128) (x : Scan) (j : Fin 8) (k : Fin 128) :
    (t.modifyBand i b fun r => { r with scan := x }).band j k =
      if j = i ∧ k = b then { t.band i b with scan := x } else t.band j k := by
  rw [band_modifyBand]
  split
  · rename_i h
    rw [h.1, h.2]
  · rfl

/-- The least margin of a record after a margin joins it (R47). -/
theorem leastOf_eq (margin : Nat) (least : Option Nat) : leastOf margin least = some (min margin (least.getD margin)) := by
  cases least with
  | none => exact congrArg some (min_self margin).symm
  | some m => exact congrArg some (min_comm m margin)

/-- A READY band at its fetch point: SCANNED, its margin joining the record's least (R47). -/
theorem scanBand_eq {s : State} {i : Fin 8} {b : Fin 128} {stamp : Line} (h : (s.bt.band i b).stamp = some stamp) :
    s.scanBand i b.val = { s with
      bt := s.bt.modifyBand i b fun r => { r with scan := .scanned }
      rtm := { s.rtm with record := s.rtm.record.map fun w =>
        { w with leastMargin := some (min (min 65535 (s.rtm.lc - stamp).toNat)
          (w.leastMargin.getD (min 65535 (s.rtm.lc - stamp).toNat))) } } } := by
  unfold State.scanBand
  rw [bandNumber_val, h]
  simp only [leastOf_eq]
  rfl

/-- A band that isn't READY at its fetch point: MISSED, raised and counted (R48, R133). -/
theorem missBand_eq (s : State) (i : Fin 8) (b : Fin 128) : s.missBand i b.val = { s with
      bt := s.bt.modifyBand i b fun r => { r with scan := .missed }
      rw := s.rw.raise .bandMiss
      po := { s.po with missed := true }
      rtm := { s.rtm with record := s.rtm.record.map fun w =>
        { w with misses := min 65535 (w.misses + 1), firstMissed := some (w.firstMissed.getD b.val) } } } := by
  unfold State.missBand
  rw [bandNumber_val]
  rfl

end Sys2Proof.Safety

namespace Sys2Proof.Settled

open Sys2Proof.Machine Sys2Proof.Safety

/-- Settles O4, by the checks of R35 in their order. -/
theorem release : Obligations.Release := by
  intro id first last s
  refine ⟨_, rfl, fun h => ?_, fun i h => ?_⟩
  · rw [release_beyond s first last h]
    exact resulted_result ..
  dsimp only
  cases hd : (s.st.get i).geo.defined with
  | false =>
    rw [if_pos rfl, release_undefined s first last h hd]
    exact resulted_result ..
  | true =>
    rw [if_neg (by decide), release_defined s first last h hd]
    split
    · exact resulted_result ..
    · split
      · exact resulted_result ..
      · split
        · exact resulted_result ..
        · refine ⟨_, resulted_result .., rfl, fun j b => ?_⟩
          rw [band_release, release_eq]
          simp only [← and_assoc, ite_and]

/-- Settles O23: an assertion of CRST, an assertion held, and the release. -/
theorem linkReset : Obligations.LinkReset := by
  refine ⟨fun s h => ?_, fun s h => ?_, fun s => rfl⟩
  · exact congrArg Host.Outcome.next (if_pos h)
  · have hr : Machine.linkReset s = _ := if_neg (by rw [h]; exact Bool.false_ne_true)
    refine ⟨_, rfl, ?_⟩
    rw [hr]
    refine ⟨⟨rfl, rfl, rfl, rfl, fun tag => ⟨Table.get_replicate tag _, Table.get_zipWith ..⟩, rfl, rfl⟩,
      ⟨fun tag => Table.get_replicate tag _, rfl, fun i b => ?_⟩, ⟨_, eventTaken_raise s.rw .linkReset, rfl⟩, rfl⟩
    show ((Table.zipWith (closeDrains s.rtm.now) s.st s.bt.bands).get i).get b = _
    rw [Table.get_zipWith]
    unfold closeDrains
    split
    · rfl
    · rw [Table.get_map, closeDrain_eq]
      rfl

/-- Settles O26, by the room in the Write Tracking Table. -/
theorem acceptTracked : Obligations.AcceptTracked := by
  intro arriving s r rest i b harr hadm hw hp hin huniq hb ho ht
  obtain ⟨hpage, hoffer⟩ := offer_surface s r i hw hp hin huniq
  have hreq := requestAccept_admitted s arriving r rest harr hadm
  rw [hoffer, decideOffer_opened (bandOf_eq s r i b hb) ho ht] at hreq
  refine ⟨_, rfl, fun hroom => ?_, fun hfull => ?_⟩
  · rw [if_neg (Nat.not_le.2 hroom)] at hreq
    rw [hreq]
    obtain ⟨u, hchk, hfwd, hst, hbt, -⟩ := accept_checked s (r :: rest) r rest (.track i b) (Outstanding s r.tag)
      (outstanding_iff s r.tag)
    rw [hpage, if_neg Bool.false_ne_true] at hfwd
    refine ⟨u, u.trackWrite r.tag i b, hchk, fun j k => ?_, fun tag => ?_, rfl, hfwd⟩
    · show (u.bt.modifyBand i b fun x => { x with pending := x.pending + 1 }).band j k = _
      rw [band_modifyBand, hbt]
      split
      · rename_i h
        rw [h.1, h.2]
        rfl
      · rfl
    · show (u.bt.wtt.set r.tag (some { surface := i, gen := (u.st.get i).gen, band := b })).get tag = _
      rw [Table.get_set, hbt, hst]
  · rw [if_pos hfull] at hreq
    rw [hreq, stallWrite_eq]
    refine ⟨fun hs => if_pos hs, fun hs => ?_⟩
    rw [if_neg (by rw [hs]; exact Bool.false_ne_true)]
    exact ⟨eventTaken_raise s.rw .trackStall, rfl⟩

/-- Settles O31, by the cases of R144 in their order. -/
theorem consoleResponse : Obligations.ConsoleResponse := by
  intro tag kind status data s
  refine ⟨_, rfl, fun hd => ?_, fun hd hi => ?_, fun hd hi => ?_⟩
  · rw [consoleResponse_discard tag kind status data s hd]
    refine ⟨fun x => ?_, rfl⟩
    show (s.tc.discard.set tag false).get x = _
    rw [Table.get_set]
    by_cases hx : x = tag <;> simp [hx]
  · rw [consoleResponse_none tag kind status data s hd hi]
    exact linkFaulted_linkProtocol ..
  · rw [consoleResponse_issued tag kind status data s hd hi]
    refine ⟨_, ?_, ?_, fun x => ?_, rfl⟩
    · rintro (rfl | hw)
      · rfl
      · cases kind with
        | readData => rfl
        | writeAck => exact acknowledge_none status hw
    · rintro w rfl hw
      obtain ⟨hwtt, hband⟩ := acknowledge_bands (s := { s with tc := { s.tc with returned := none } }) status hw
      have hrw := congrArg State.rw (acknowledge_some (s := { s with tc := { s.tc with returned := none } }) status hw)
      refine ⟨fun x => ?_, fun j b => ?_, ?_, ?_, acknowledge_frame status hw⟩
      · dsimp only
        rw [hwtt, Table.get_set]
      · dsimp only
        rw [hband, credit_eq]
      · rintro rfl
        exact hrw
      · rintro rfl
        dsimp only
        rw [hrw]
        exact eventTaken_raise s.rw .writeFault
    · dsimp only
      rw [Table.get_modify]

/-- Settles O43, by the decision kind and the band's status. -/
theorem bandDecision : Obligations.BandDecision := by
  intro s b h1 h2
  have hheld := heldSource_of h2
  refine ⟨⟨hheld, rfl⟩, rfl, fun hn => ?_, fun i hi => ?_⟩
  · unfold State.decideBand
    rw [s.scanning_none.2 hn]
  rw [decideBand_new b (inState_of h1 hi)]
  refine ⟨fun hr stamp hst => ?_, fun hr => ?_⟩
  · rw [if_pos hr]
    dsimp only
    rw [scanBand_eq hst]
    exact ⟨rfl, band_scan s.bt i b .scanned, rfl⟩
  · rw [if_neg hr]
    dsimp only
    rw [missBand_eq]
    exact ⟨hheld, band_scan s.bt i b .missed, eventTaken_raise s.rw .bandMiss, rfl⟩

end Sys2Proof.Settled
end

