-- ==== Sys2Proof/Proofs/Pages.lean ====
section
/-! The view pages: what a list of fields spells at an offset of a page, and the pages position by position. -/

namespace Sys2Proof.Safety

open Sys2Proof.Machine

/-! ## Numbers as bytes (R196) -/

@[simp] theorem bytesLE_length (n v : Nat) : (bytesLE n v).length = n := by
  induction n generalizing v with
  | zero => rfl
  | succ n ih => exact congrArg (· + 1) (ih (v / 256))

/-- The bytes of a number spell it, as far as they reach. -/
theorem foldr_bytesLE (n v : Nat) : (bytesLE n v).foldr (fun b n => b.toNat + 256 * n) 0 = v % 256 ^ n := by
  induction n generalizing v with
  | zero => exact (Nat.mod_one v).symm
  | succ n ih =>
    show (BitVec.ofNat 8 v).toNat + 256 * (bytesLE n (v / 256)).foldr (fun b n => b.toNat + 256 * n) 0 = _
    rw [ih, BitVec.toNat_ofNat]
    exact Nat.mod_mul.symm.trans (congrArg (v % ·) (pow_succ' 256 n).symm)

theorem zeros_eq_bytesLE (n : Nat) : zeros n = bytesLE n 0 := by
  induction n with
  | zero => rfl
  | succ n ih => exact congrArg (List.cons 0) ih

theorem byte_eq_bytesLE (b : Byte) : [b] = bytesLE 1 b.toNat := by
  show [b] = [BitVec.ofNat 8 b.toNat]
  rw [BitVec.ofNat_toNat, BitVec.setWidth_eq]

/-! ## Fields of a page -/

/-- Do these bytes stand in a page from an offset on? -/
def BytesAt (page : List Byte) (offset : Nat) (bytes : List Byte) : Prop := bytes <+: page.drop offset

/-- The bytes of fields, each a size and a value, one after another. -/
def fieldBytes (fields : List (Nat × Nat)) : List Byte := (fields.map fun f => bytesLE f.1 f.2).flatten

/-- The offset, size and value of each field, the first at `offset`. -/
def fieldsFrom (offset : Nat) : List (Nat × Nat) → List (Nat × Nat × Nat)
  | [] => []
  | f :: rest => (offset, f.1, f.2) :: fieldsFrom (offset + f.1) rest

theorem fieldBytes_cons (f : Nat × Nat) (rest : List (Nat × Nat)) :
    fieldBytes (f :: rest) = bytesLE f.1 f.2 ++ fieldBytes rest := rfl

theorem fieldBytes_length (fields : List (Nat × Nat)) : (fieldBytes fields).length = (fields.map Prod.fst).sum := by
  induction fields with
  | nil => rfl
  | cons f rest ih => rw [fieldBytes_cons, List.length_append, bytesLE_length, ih, List.map_cons, List.sum_cons]

variable {page a b x y : List Byte} {offset : Nat}

/-- Bytes that stand in a page stand there part by part. -/
theorem BytesAt.parts (h : BytesAt page offset (x ++ y)) :
    BytesAt page offset x ∧ BytesAt page (offset + x.length) y := by
  refine ⟨(List.prefix_append x y).trans h, ?_⟩
  have hd := h.drop x.length
  rwa [List.drop_left, List.drop_drop] at hd

theorem BytesAt.append_right (h : BytesAt a offset x) (b : List Byte) : BytesAt (a ++ b) offset x := by
  unfold BytesAt
  rw [List.drop_append]
  exact List.prefix_append_of_prefix h

theorem BytesAt.append_left (a : List Byte) (h : BytesAt b offset x) : BytesAt (a ++ b) (a.length + offset) x := by
  unfold BytesAt
  rw [List.drop_length_add_append]
  exact h

/-- Bytes that stand in a page's last part, from its beginning. -/
theorem BytesAt.last (a : List Byte) (b : List Byte) : BytesAt (a ++ b) a.length b := by
  unfold BytesAt
  rw [List.drop_left]

theorem BytesAt.numberAt {n v : Nat} (h : BytesAt page offset (bytesLE n v)) : numberAt page offset n = v % 256 ^ n := by
  have ht := List.prefix_iff_eq_take.1 h
  rw [bytesLE_length] at ht
  unfold Safety.numberAt
  rw [← ht, foldr_bytesLE]

/-- A page that holds the bytes of fields holds the fields. -/
theorem BytesAt.holds {fields : List (Nat × Nat)} (h : BytesAt page offset (fieldBytes fields)) :
    Holds page (fieldsFrom offset fields) := by
  induction fields generalizing offset with
  | nil => exact fun f hf => nomatch hf
  | cons f rest ih =>
    obtain ⟨hfirst, hrest⟩ := h.parts
    rw [bytesLE_length] at hrest
    intro g hg
    rcases List.mem_cons.1 hg with rfl | hg
    · exact hfirst.numberAt
    · exact ih hrest g hg

/-! ## Pages of positions -/

/-- Position `p` of a page of positions of one size. -/
theorem BytesAt.position {l : List (List Byte)} {n p : Nat} (hl : ∀ x ∈ l, x.length = n) (h : l[p]? = some x) :
    BytesAt l.flatten (n * p) x := by
  induction l generalizing p with
  | nil => cases h
  | cons y l ih =>
    cases p with
    | zero =>
      cases h
      exact List.prefix_append x _
    | succ p =>
      have hp := (ih (fun x hx => hl x (List.mem_cons_of_mem y hx)) h).append_left y
      rwa [hl y List.mem_cons_self, Nat.add_comm, ← Nat.mul_succ] at hp

theorem flatten_length {l : List (List Byte)} {n : Nat} (hl : ∀ x ∈ l, x.length = n) :
    l.flatten.length = l.length * n := by
  rw [List.length_flatten, List.sum_eq_card_nsmul (l.map List.length) n (by simpa using hl), List.length_map,
    smul_eq_mul]

/-- An empty position holds the sequence alone (R196). -/
theorem emptyPosition_eq (n : Nat) (sequence : BitVec 32) :
    emptyPosition n sequence = fieldBytes [(4, sequence.toNat), (n - 4, 0)] := by
  unfold emptyPosition
  rw [zeros_eq_bytesLE]
  simp [fieldBytes]

section Positions

variable {n size p : Nat} {sequence : BitVec 32} {occupied : List (List Byte)}

theorem mem_positions (hsize : 4 ≤ size) (ho : ∀ x ∈ occupied, x.length = size) :
    ∀ x ∈ (occupied ++ List.replicate n (emptyPosition size sequence)).take n, x.length = size := by
  intro x hx
  rcases List.mem_append.1 (List.mem_of_mem_take hx) with hx | hx
  · exact ho x hx
  · rw [List.eq_of_mem_replicate hx, emptyPosition_eq, fieldBytes_length]
    simp
    omega

theorem positions_length (hsize : 4 ≤ size) (ho : ∀ x ∈ occupied, x.length = size) :
    (positions n size sequence occupied).length = n * size := by
  unfold positions
  rw [flatten_length (mem_positions hsize ho), List.length_take, List.length_append, List.length_replicate,
    min_eq_left (Nat.le_add_left n _)]

/-- An occupied position (R51, R73). -/
theorem positions_occupied (hsize : 4 ≤ size) (ho : ∀ x ∈ occupied, x.length = size) (hp : p < n)
    (h : occupied[p]? = some x) : BytesAt (positions n size sequence occupied) (size * p) x := by
  refine BytesAt.position (mem_positions hsize ho) ?_
  rw [List.getElem?_take, if_pos hp, List.getElem?_append_left (List.getElem?_eq_some_iff.1 h).1, h]

/-- A position behind the occupied ones is empty (R51, R73, R196). -/
theorem positions_empty (hsize : 4 ≤ size) (ho : ∀ x ∈ occupied, x.length = size) (hp : p < n)
    (h : occupied.length ≤ p) :
    BytesAt (positions n size sequence occupied) (size * p) (fieldBytes [(4, sequence.toNat), (size - 4, 0)]) := by
  rw [← emptyPosition_eq]
  refine BytesAt.position (mem_positions hsize ho) ?_
  rw [List.getElem?_take, if_pos hp, List.getElem?_append_right h, List.getElem?_replicate, if_pos (by omega)]

end Positions

/-! ## The entries of the pages (R50, R51, R73, R99) -/

theorem bandBytes_eq (sequence : BitVec 32) (number : Nat) (b : Band) : bandBytes sequence number b =
    fieldBytes [(4, sequence.toNat), (1, b.status.code), (1, b.pending), (1, b.scan.code),
      (1, b.fault.toNat + 2 * b.stamp.isSome.toNat), (4, b.stamp.elim 0 BitVec.toNat), (1, number), (3, 0)] := by
  unfold bandBytes
  simp [fieldBytes, zeros_eq_bytesLE, bitsByte]

theorem trackedBytes_eq (sequence : BitVec 32) (tag : Nat) (t : Tracked) : trackedBytes sequence tag t =
    fieldBytes [(4, sequence.toNat), (1, 1), (1, t.surface.val), (1, t.gen.toNat), (1, t.band.val), (2, tag),
      (6, 0)] := by
  unfold trackedBytes
  rw [byte_eq_bytesLE]
  simp [fieldBytes, zeros_eq_bytesLE]

theorem entryBytes_eq (sequence : BitVec 32) (position : Nat) (e : Entry) : entryBytes sequence position e =
    fieldBytes [(4, sequence.toNat), (1, 1), (1, e.surface.val), (1, e.mode.code), (1, e.latest.toNat),
      (1, e.admission), (1, position), (2, e.number.toNat), (4, e.arrival.toNat), (16, 0)] := by
  unfold entryBytes
  simp [fieldBytes, zeros_eq_bytesLE]

theorem timingBytes_none (sequence : BitVec 32) :
    timingBytes sequence none = fieldBytes [(4, sequence.toNat), (60, 0)] := by
  show emptyPosition 64 sequence = _
  rw [emptyPosition_eq]

theorem timingBytes_some (sequence : BitVec 32) (t : TimingSet) : timingBytes sequence (some t) =
    fieldBytes [(4, sequence.toNat), (1, 1 + 2 * t.floorRaised.toNat + 4 * t.rangeCollapsed.toNat), (1, t.s), (1, t.fp),
      (1, 0), (2, t.w), (2, t.h), (2, t.ht), (2, t.settle), (4, t.clock), (2, t.fhi), (2, t.flo), (4, t.vtMin),
      (4, t.vtMax), (2, t.fMin), (2, t.fMax), (28, 0)] := by
  have hbits : bitsByte [true, t.floorRaised, t.rangeCollapsed] =
      1 + 2 * t.floorRaised.toNat + 4 * t.rangeCollapsed.toNat := by
    simp [bitsByte]
    omega
  unfold timingBytes
  simp [fieldBytes, zeros_eq_bytesLE, hbits]

theorem timingBytes_length (sequence : BitVec 32) (set : Option TimingSet) : (timingBytes sequence set).length = 64 := by
  cases set with
  | none => simp [timingBytes_none, fieldBytes_length]
  | some t => simp [timingBytes_some, fieldBytes_length]

/-! ## The Write Tracking Table in ascending order of tag (R51) -/

/-- What the occupied entries of a list give, each at the number of occupied entries before it. -/
theorem filterMap_zipIdx_occupied {α β : Type} (f : Nat → α → β) (l : List (Option α)) (k : Nat) :
    ((l.zipIdx k).filterMap fun p => p.1.map (f p.2)).length = l.countP Option.isSome ∧
    ∀ j v, l[j]? = some (some v) →
      ((l.zipIdx k).filterMap fun p => p.1.map (f p.2))[(l.take j).countP Option.isSome]? = some (f (k + j) v) := by
  induction l generalizing k with
  | nil => exact ⟨rfl, fun j v h => nomatch h⟩
  | cons o l ih =>
    obtain ⟨hlen, hget⟩ := ih (k + 1)
    refine ⟨?_, fun j v h => ?_⟩
    · cases o <;> simp [hlen]
    · cases j with
      | zero =>
        cases h
        simp
      | succ j =>
        have hj := hget j v h
        rw [Nat.add_right_comm] at hj
        cases o <;> simp [hj, Nat.add_assoc]

theorem lt_of_mem_take_finRange {n k : Nat} {x : Fin n} (h : x ∈ (List.finRange n).take k) : x.val < k := by
  obtain ⟨j, hj, rfl⟩ := List.mem_take_iff_getElem.1 h
  rw [List.getElem_finRange]
  exact (lt_min_iff.1 hj).1

theorem le_of_mem_drop_finRange {n k : Nat} {x : Fin n} (h : x ∈ (List.finRange n).drop k) : k ≤ x.val := by
  obtain ⟨j, hj, rfl⟩ := List.mem_drop_iff_getElem.1 h
  rw [List.getElem_finRange]
  exact Nat.le_add_right k j

/-- How many entries with a lower number meet a test. -/
theorem countP_take_table {α : Type} {n : Nat} (t : Table α n) (q : α → Bool) (i : Fin n) :
    (t.list.take i.val).countP q = ((List.finRange n).filter fun x => x < i ∧ q (t.get x)).length := by
  have hlist : t.list = (List.finRange n).map t.get := by
    refine List.ext_getElem (by simp [t.len]) fun k h1 h2 => ?_
    simp [Table.get]
  have hsplit : (List.finRange n).filter (fun x => x < i ∧ q (t.get x)) =
      ((List.finRange n).take i.val).filter fun x => q (t.get x) := by
    conv_lhs => rw [← List.take_append_drop i.val (List.finRange n), List.filter_append]
    have hlow : ((List.finRange n).take i.val).filter (fun x => x < i ∧ q (t.get x)) =
        ((List.finRange n).take i.val).filter fun x => q (t.get x) :=
      List.filter_congr fun x hx => by simp [Fin.lt_def, lt_of_mem_take_finRange hx]
    have hhigh : ((List.finRange n).drop i.val).filter (fun x => x < i ∧ q (t.get x)) = [] :=
      List.filter_eq_nil_iff.2 fun x hx => by simp [Fin.lt_def, Nat.not_lt.2 (le_of_mem_drop_finRange hx)]
    rw [hlow, hhigh, List.append_nil]
  rw [hsplit, hlist, ← List.map_take, List.countP_map, List.countP_eq_length_filter]
  rfl

/-! ## The view pages (R184) -/

section Pages

variable (s : State) (sequence : BitVec 32)

/-- The entries of the Write Tracking Table page, all of one size (R51). -/
theorem wttPositions_size (t : Table (Option Tracked) 256) : ∀ x ∈ wttPositions sequence t, x.length = 16 := by
  intro x hx
  obtain ⟨p, -, hp⟩ := List.mem_filterMap.1 hx
  obtain ⟨w, -, rfl⟩ := Option.map_eq_some_iff.1 hp
  simp [trackedBytes_eq, fieldBytes_length]

/-- The entries of the Present Queue page (R73). -/
def queuePositions (sequence : BitVec 32) (queue : List Entry) : List (List Byte) :=
  queue.zipIdx.map fun p => entryBytes sequence (p.2 + 1) p.1

theorem queuePositions_size (queue : List Entry) : ∀ x ∈ queuePositions sequence queue, x.length = 32 := by
  intro x hx
  obtain ⟨p, -, rfl⟩ := List.mem_map.1 hx
  simp [entryBytes_eq, fieldBytes_length]

/-- The entries of a band-record page (R50). -/
def bandPositions (sequence : BitVec 32) (bands : Bands) : List (List Byte) :=
  bands.list.zipIdx.map fun p => bandBytes sequence p.2 p.1

theorem bandPositions_size (bands : Bands) : ∀ x ∈ bandPositions sequence bands, x.length = 16 := by
  intro x hx
  obtain ⟨p, -, rfl⟩ := List.mem_map.1 hx
  simp [bandBytes_eq, fieldBytes_length]

/-- The record of a band stands at its position (R50). -/
theorem bandPositions_get (bands : Bands) (b : Fin 128) :
    (bandPositions sequence bands)[b.val]? = some (bandBytes sequence b.val (bands.get b)) := by
  have hb : b.val < bands.list.length := bands.len.symm ▸ b.isLt
  unfold bandPositions
  rw [List.getElem?_map, List.getElem?_zipIdx, List.getElem?_eq_getElem hb, Nat.zero_add]
  rfl

/-- An entry of the table stands at the number of entries with a lower tag (R51). -/
theorem wttPositions_get {t : Table (Option Tracked) 256} {tag : Fin 256} {w : Tracked} (h : t.get tag = some w) :
    (wttPositions sequence t)[((List.finRange 256).filter fun x => x < tag ∧ (t.get x).isSome).length]? =
      some (trackedBytes sequence tag.val w) := by
  have hlist : t.list[tag.val]? = some (some w) :=
    List.getElem?_eq_some_iff.2 ⟨t.len.symm ▸ tag.isLt, h⟩
  have hget := (filterMap_zipIdx_occupied (trackedBytes sequence) t.list 0).2 tag.val w hlist
  rwa [countP_take_table, Nat.zero_add] at hget

theorem wttPositions_length (t : Table (Option Tracked) 256) :
    (wttPositions sequence t).length = t.count Option.isSome :=
  (filterMap_zipIdx_occupied (trackedBytes sequence) t.list 0).1

/-- An entry of the queue stands at its place from the head (R73). -/
theorem queuePositions_get {queue : List Entry} {p : Nat} {e : Entry} (h : queue[p]? = some e) :
    (queuePositions sequence queue)[p]? = some (entryBytes sequence (p + 1) e) := by
  unfold queuePositions
  rw [List.getElem?_map, List.getElem?_zipIdx, h, Nat.zero_add]
  rfl

theorem queuePositions_length (queue : List Entry) : (queuePositions sequence queue).length = queue.length := by
  unfold queuePositions
  rw [List.length_map, List.length_zipIdx]

/-- The reserved bytes at the end of a page (R196). -/
theorem holds_zeros (a : List Byte) (n : Nat) {offset : Nat} (h : a.length = offset) :
    Holds (a ++ zeros n) [(offset, n, 0)] := by
  intro f hf
  rw [List.mem_singleton.1 hf, zeros_eq_bytesLE, ← h]
  exact (BytesAt.last a _).numberAt

/-- A timing block, absent or present (R99). -/
theorem holds_timingBytes {page : List Byte} {offset : Nat} {set : Option TimingSet}
    (h : BytesAt page offset (timingBytes sequence set)) :
    (set = none → Holds page [(offset, 4, sequence.toNat), (offset + 4, 60, 0)]) ∧
    ∀ t, set = some t → Holds page [
      (offset, 4, sequence.toNat), (offset + 4, 1, 1 + 2 * t.floorRaised.toNat + 4 * t.rangeCollapsed.toNat),
      (offset + 5, 1, t.s), (offset + 6, 1, t.fp), (offset + 7, 1, 0), (offset + 8, 2, t.w), (offset + 10, 2, t.h),
      (offset + 12, 2, t.ht), (offset + 14, 2, t.settle), (offset + 16, 4, t.clock), (offset + 20, 2, t.fhi),
      (offset + 22, 2, t.flo), (offset + 24, 4, t.vtMin), (offset + 28, 4, t.vtMax), (offset + 32, 2, t.fMin),
      (offset + 34, 2, t.fMax), (offset + 36, 28, 0)] := by
  refine ⟨?_, ?_⟩
  · rintro rfl
    rw [timingBytes_none] at h
    exact h.holds
  · rintro t rfl
    rw [timingBytes_some] at h
    exact h.holds

theorem viewPage_bands {i : Fin 8} (h : s.rw.page.val = i.val) :
    viewPage s sequence = (bandPositions sequence (s.bt.bands.get i)).flatten := by
  have hi : s.rw.page.val < 8 := by omega
  have he : (⟨s.rw.page.val, hi⟩ : Fin 8) = i := Fin.ext h
  unfold viewPage
  dsimp only
  rw [dif_pos hi, he]
  rfl

theorem viewPage_wtt (h : s.rw.page = 8) :
    viewPage s sequence = positions 64 16 sequence (wttPositions sequence s.bt.wtt) ++ zeros 1024 := by
  unfold viewPage
  rw [h]
  rfl

theorem viewPage_queue (h : s.rw.page = 9) :
    viewPage s sequence = positions 4 32 sequence (queuePositions sequence s.pq.queue) ++ zeros 1920 := by
  unfold viewPage
  rw [h]
  rfl

theorem viewPage_timing (h : s.rw.page = 10) :
    viewPage s sequence =
      timingBytes sequence s.rtm.timing ++ timingBytes sequence s.rtm.pendingSet ++ zeros 1920 := by
  unfold viewPage
  rw [h]
  rfl

/-- The page selection names a surface, the Write Tracking Table, the Present Queue or the timing sets (R184). -/
theorem page_cases (page : Fin 11) : (∃ i : Fin 8, page.val = i.val) ∨ page = 8 ∨ page = 9 ∨ page = 10 := by
  by_cases h : page.val < 8
  · exact .inl ⟨⟨page.val, h⟩, rfl⟩
  · refine .inr ?_
    simp only [Fin.ext_iff]
    omega

theorem viewPage_length : (viewPage s sequence).length = 2048 := by
  have hz : ∀ n, (zeros n).length = n := fun n => List.length_replicate
  rcases page_cases s.rw.page with ⟨i, h⟩ | h | h | h
  · rw [viewPage_bands s sequence h, flatten_length (bandPositions_size sequence _)]
    unfold bandPositions
    rw [List.length_map, List.length_zipIdx, (s.bt.bands.get i).len]
  · rw [viewPage_wtt s sequence h, List.length_append, positions_length (by omega) (wttPositions_size sequence _), hz]
  · rw [viewPage_queue s sequence h, List.length_append, positions_length (by omega) (queuePositions_size sequence _),
      hz]
  · rw [viewPage_timing s sequence h, List.length_append, List.length_append, timingBytes_length, timingBytes_length,
      hz]

end Pages

end Sys2Proof.Safety

namespace Sys2Proof.Settled

open Sys2Proof.Machine Sys2Proof.Safety

/-- Settles O50, page by page, from the bytes that stand at each position. -/
theorem viewPages : Obligations.ViewPages := by
  intro s sequence hwtt hqueue
  refine ⟨viewPage_length s sequence, fun i b h => ?_, fun h => ?_, fun h => ?_, fun h => ?_⟩
  · have hat := BytesAt.position (bandPositions_size sequence _) (bandPositions_get sequence (s.bt.bands.get i) b)
    rw [bandBytes_eq, ← viewPage_bands s sequence h] at hat
    exact hat.holds
  · rw [viewPage_wtt s sequence h]
    have hsize := wttPositions_size sequence s.bt.wtt
    have hlen := wttPositions_length sequence s.bt.wtt
    refine ⟨fun tag w hw => ?_, fun p hp hp' => ?_, holds_zeros _ 1024 (positions_length (by omega) hsize)⟩
    · have hget := wttPositions_get sequence hw
      have hlt := (List.getElem?_eq_some_iff.1 hget).1.trans_le (hlen.trans_le hwtt)
      have hat := (positions_occupied (sequence := sequence) (by omega) hsize hlt hget).append_right (zeros 1024)
      rw [trackedBytes_eq] at hat
      exact hat.holds
    · exact ((positions_empty (by omega) hsize hp' (hlen.trans_le hp)).append_right (zeros 1024)).holds
  · rw [viewPage_queue s sequence h]
    have hsize := queuePositions_size sequence s.pq.queue
    have hlen := queuePositions_length sequence s.pq.queue
    refine ⟨fun p e he => ?_, fun p hp hp' => ?_, holds_zeros _ 1920 (positions_length (by omega) hsize)⟩
    · have hlt := (List.getElem?_eq_some_iff.1 he).1.trans_le hqueue
      have hat := (positions_occupied (sequence := sequence) (by omega) hsize hlt
        (queuePositions_get sequence he)).append_right (zeros 1920)
      rw [entryBytes_eq] at hat
      exact hat.holds
    · exact ((positions_empty (by omega) hsize hp' (hlen.trans_le hp)).append_right (zeros 1920)).holds
  · rw [viewPage_timing s sequence h]
    have hfirst := timingBytes_length sequence s.rtm.timing
    have hblocks : (timingBytes sequence s.rtm.timing ++ timingBytes sequence s.rtm.pendingSet).length = 128 := by
      rw [List.length_append, timingBytes_length, timingBytes_length]
    have hpending := BytesAt.last (timingBytes sequence s.rtm.timing) (timingBytes sequence s.rtm.pendingSet)
    rw [hfirst] at hpending
    have hforce : BytesAt (timingBytes sequence s.rtm.timing ++ timingBytes sequence s.rtm.pendingSet) 0
        (timingBytes sequence s.rtm.timing) := List.prefix_append _ _
    exact ⟨holds_timingBytes sequence (hforce.append_right _), holds_timingBytes sequence (hpending.append_right _),
      holds_zeros _ 1920 hblocks⟩

end Sys2Proof.Settled
end

