-- ==== Sys2Proof/Proofs/Presents.lean ====
section
/-! PRESENT and WITHDRAW: their checks in order, and what they queue and remove; and the boundaries that end a line of a
front blank: the selection, and what follows it. -/

namespace Sys2Proof.Safety

open Sys2Proof.Machine

/-- A check that refuses where `c` holds: what is left to show is of the state that the later checks give (R160). -/
theorem resulted_check {c P : Prop} [Decidable c] {s t u : State} {l : Lane} {code : BitVec 8} {r : Result}
    (ht : t = if c then s.result l code r else u) (h : ¬ c → t = u → P) :
    if c then Resulted s t l code r else P := by
  by_cases hc : c
  · rw [if_pos hc] at ht ⊢
    exact ht ▸ resulted_result s l code r
  · rw [if_neg hc] at ht ⊢
    exact h hc ht

/-! ## PRESENT (R55 to R58) -/

/-- The mode field is argument A modulo 4, and its value 3 names no mode (R56, R191). -/
theorem presentMode_eq (a : BitVec 16) :
    presentMode a =
      if a.toNat % 4 = 3 then none
      else some (if a.toNat % 4 = 0 then .race else if a.toNat % 4 = 1 then .whole else .split) := by
  have hfield : (a.extractLsb' 0 2).toNat = a.toNat % 4 := by simp
  have hlt : a.toNat % 4 < 4 := Nat.mod_lt _ (by omega)
  unfold presentMode
  rw [hfield]
  interval_cases a.toNat % 4 <;> rfl

/-- The admission count of a taken PRESENT by its mode field: B clamped to the surface's bands for RACE, all its bands
otherwise; a clamp that changes B gives ADJUSTED (R57). -/
theorem admissionOf_eq (field b nb : Nat) :
    admissionOf (if field = 0 then .race else if field = 1 then .whole else .split) b nb =
      (if field = 0 then if b = 0 then 1 else min b nb else nb,
        if field = 0 ∧ (b = 0 ∨ nb < b) then .adjusted else .ok) := by
  by_cases hrace : field = 0
  · by_cases hzero : b = 0
    · simp [admissionOf, hrace, hzero]
    · by_cases hle : b ≤ nb
      · simp [admissionOf, hrace, hzero, hle]
      · simp [admissionOf, hrace, hzero, hle, not_le.1 hle, le_of_lt (not_le.1 hle)]
  · by_cases hwhole : field = 1 <;> simp [admissionOf, hrace, hwhole]

/-- A surface has the size of the timing set in force, which there then is (R56, R59). -/
theorem sizeMatches_iff (s : State) (i : Fin 8) : s.sizeMatches i = true ↔
    ∃ tm, s.rtm.timing = some tm ∧ (s.st.get i).geo.width = tm.w ∧ (s.st.get i).geo.height = tm.h := by
  unfold State.sizeMatches Geometry.fits
  cases s.rtm.timing <;> simp

theorem present_beyond (s : State) {id : BitVec 8} (a b : BitVec 16) (h : 8 ≤ id.toNat) :
    present id a b s = s.result .present 0x10 .badSurface := by
  unfold present
  rw [definedSurface_beyond s h]

/-- PRESENT of a surface that there is: the checks of R56 in their order, then the entry of R57. -/
theorem present_of (s : State) {id : BitVec 8} {i : Fin 8} (a b : BitVec 16) (h : id.toNat = i.val) :
    present id a b s =
      if (s.st.get i).geo.defined = false then s.result .present 0x10 .badSurface
      else if a.toNat % 4 = 3 then s.result .present 0x10 .range
      else if (s.st.get i).state = .queued then s.result .present 0x10 .duplicate
      else if (s.st.get i).state ≠ .rendering then s.result .present 0x10 .badState
      else if 4 ≤ s.pq.queue.length then s.result .present 0x10 .queueFull
      else if s.sizeMatches i then
        (s.enqueue i (if a.toNat % 4 = 0 then .race else if a.toNat % 4 = 1 then .whole else .split) (a.getLsbD 8)
          (if a.toNat % 4 = 0 then if b.toNat = 0 then 1 else min b.toNat (s.st.get i).geo.nb
            else (s.st.get i).geo.nb)).result .present 0x10
          (if a.toNat % 4 = 0 ∧ (b.toNat = 0 ∨ (s.st.get i).geo.nb < b.toNat) then .adjusted else .ok)
      else s.result .present 0x10 .sizeMismatch := by
  unfold present
  rw [definedSurface_of s h, presentMode_eq]
  cases (s.st.get i).geo.defined with
  | false => rfl
  | true =>
    rw [if_pos rfl, if_neg (Bool.noConfusion : ¬ true = false)]
    by_cases hfield : a.toNat % 4 = 3
    · rw [if_pos hfield, if_pos hfield]
    · rw [if_neg hfield, if_neg hfield]
      dsimp only
      rw [admissionOf_eq]
      cases (s.st.get i).state <;> rfl

theorem enqueue_marked (s : State) (i : Fin 8) (mode : Mode) (latest : Bool) (admission : Nat) :
    s.enqueue i mode latest admission =
      { { s with
          st := s.st.set i { s.st.get i with state := .queued }
          pq := { s.pq with
            queue := s.pq.queue ++ [({ surface := i, mode := mode, admission := admission, latest := latest
                                       arrival := s.rtm.now, number := s.pq.count + 1 } : Entry)]
            count := s.pq.count + 1 } } with rw := s.rw.mark } := rfl

/-! ## WITHDRAW (R60) -/

theorem withdraw_beyond (s : State) {id : BitVec 8} (h : 8 ≤ id.toNat) :
    withdraw id s = s.result .present 0x11 .badSurface := by
  unfold withdraw
  rw [definedSurface_beyond s h]

/-- WITHDRAW of a surface that there is: the checks of R60 in their order. -/
theorem withdraw_of (s : State) {id : BitVec 8} {i : Fin 8} (h : id.toNat = i.val) : withdraw id s =
    if (s.st.get i).geo.defined = false then s.result .present 0x11 .badSurface
    else if (s.st.get i).state ≠ .queued then s.result .present 0x11 .badState
    else ({ s with pq := s.pq.remove i }.setSurface i .rendering).result .present 0x11 .ok := by
  unfold withdraw
  rw [definedSurface_of s h, ite_not]
  cases (s.st.get i).geo.defined <;> rfl

theorem withdrawn_marked (s : State) (i : Fin 8) : { s with pq := s.pq.remove i }.setSurface i .rendering =
    { { s with st := s.st.set i { s.st.get i with state := .rendering }
               pq := { s.pq with queue := s.pq.queue.filter fun e => e.surface ≠ i } } with rw := s.rw.mark } := rfl

/-! ## The boundary that ends a front-blank line (R84 to R86)

FRONT_MIN_END and the boundaries in STRETCH do the same but for the stretch-skipped indication and the number of the
STRETCH line that follows a selection which takes nothing. -/

/-- A boundary at `front` front-blank lines: a taken entry begins a NEW frame; otherwise STRETCH line `pos` begins, or,
at F_max lines, the front blank expires. -/
def frontLineEnd (s : State) (tm : TimingSet) (front : Nat) (skipped : Bool) (pos : Nat) : State :=
  match s.frontSelection with
  | some (e, u) => u.beginNew tm e front skipped
  | none =>
    if front < tm.fMax then (s.boundary .stretch pos).sendBlank .stretch else s.expire tm front

theorem frontMinEnd_due (s : State) {tm : TimingSet} (ht : s.rtm.timing = some tm)
    (h : s.rtm.raster = .frontMin ∧ tm.fMin ≤ s.rtm.pos + 1) :
    frontMinEnd s = frontLineEnd s tm tm.fMin true 0 := by
  unfold frontMinEnd
  rw [ht]
  exact if_pos h

theorem frontMinEnd_not_due (s : State) {tm : TimingSet} (ht : s.rtm.timing = some tm)
    (h : ¬ (s.rtm.raster = .frontMin ∧ tm.fMin ≤ s.rtm.pos + 1)) : frontMinEnd s = s := by
  unfold frontMinEnd
  rw [ht]
  exact if_neg h

/-- Outside STRETCH neither of its boundaries comes (log 2). -/
theorem stretchBoundary_elsewhere (s : State) (h : s.rtm.raster ≠ .stretch) : stretchBoundary s = s := by
  unfold stretchBoundary
  split
  · rfl
  · exact if_neg h

theorem stretchExpiry_elsewhere (s : State) (h : s.rtm.raster ≠ .stretch) : stretchExpiry s = s := by
  unfold stretchExpiry
  split
  · rfl
  · exact if_neg fun hs => h hs.1

theorem stretchBoundary_stretch (s : State) {tm : TimingSet} (ht : s.rtm.timing = some tm)
    (hr : s.rtm.raster = .stretch) :
    stretchBoundary s = frontLineEnd s tm (tm.fMin + s.rtm.pos + 1) false (s.rtm.pos + 1) := by
  unfold stretchBoundary
  rw [ht]
  exact if_pos hr

/-- STRETCH_EXPIRY comes at F_max front-blank lines, and does there what STRETCH_BOUNDARY does (log 12). -/
theorem stretchExpiry_stretch (s : State) {tm : TimingSet} (ht : s.rtm.timing = some tm)
    (hr : s.rtm.raster = .stretch) :
    stretchExpiry s = if tm.fMax ≤ tm.fMin + s.rtm.pos + 1 then stretchBoundary s else s := by
  unfold stretchExpiry stretchBoundary
  rw [ht]
  dsimp only
  rw [if_pos hr]
  exact if_congr (and_iff_right hr) rfl rfl

section

variable {s : State} {tm : TimingSet} {front pos : Nat} {skipped : Bool}

theorem frontLineEnd_chosen {older newer : List Entry} {e : Entry}
    (h : Chosen (Admissible s) s.pq.queue older e newer) :
    NewBegun tm older e newer front skipped s (frontLineEnd s tm front skipped pos) := by
  unfold frontLineEnd
  rw [frontSelection_chosen s h]
  exact newBegun_beginNew s tm older e newer front skipped

theorem frontLineEnd_stretch (h : NoneChosen (Admissible s) s.pq.queue) (hf : front < tm.fMax) :
    BlankBegun .stretch .stretch pos s (frontLineEnd s tm front skipped pos) := by
  unfold frontLineEnd
  rw [frontSelection_noneChosen s h]
  dsimp only
  rw [if_pos hf]
  exact blankBegun_boundary .stretch .stretch pos s

theorem frontLineEnd_expired (h : NoneChosen (Admissible s) s.pq.queue) (hheld : AtMostOne s .held)
    (hh : tm.h ≤ 2160) (hf : tm.fMax ≤ front) : Expired tm front s (frontLineEnd s tm front skipped pos) := by
  unfold frontLineEnd
  rw [frontSelection_noneChosen s h]
  dsimp only
  rw [if_neg (not_lt.2 hf)]
  exact expired_expire s tm front hheld hh

end

end Sys2Proof.Safety

namespace Sys2Proof.Settled

open Sys2Proof.Machine Sys2Proof.Safety

/-- Settles O6, by the checks of R56 in their order. -/
theorem present : Obligations.Present := by
  intro id a b s
  refine ⟨_, rfl, fun h => ?_, fun i h => ?_⟩
  · rw [present_beyond s a b h]
    exact resulted_result ..
  · refine resulted_check (present_of s a b h) fun _ ht => resulted_check ht fun _ ht => resulted_check ht fun _ ht =>
      resulted_check ht fun _ ht => resulted_check ht fun _ ht => ?_
    rw [ht, ← sizeMatches_iff]
    refine ⟨fun hsized => ?_, fun hsized => ?_⟩
    · rw [if_neg hsized]
      exact resulted_result ..
    · rw [if_pos hsized]
      exact resulted_marked _ _ _ (enqueue_marked ..)

/-- Settles O7, by the checks of R60. -/
theorem withdraw : Obligations.Withdraw := by
  intro id s
  refine ⟨_, rfl, fun h => ?_, fun i h => ?_⟩
  · rw [withdraw_beyond s h]
    exact resulted_result ..
  · refine resulted_check (withdraw_of s h) fun _ ht => resulted_check ht fun _ ht => ?_
    rw [ht]
    exact resulted_marked _ _ _ (withdrawn_marked s i)

/-- Settles O40, from the selection at the end of the F_min-th line. -/
theorem frontMinEnd : Obligations.FrontMinEnd := by
  intro s hheld
  refine ⟨_, rfl, fun tm ht hh => ⟨frontMinEnd_not_due s ht, fun hdue => ?_⟩⟩
  rw [frontMinEnd_due s ht hdue]
  exact ⟨fun _ _ _ => frontLineEnd_chosen, fun hn =>
    ⟨frontLineEnd_stretch hn, frontLineEnd_expired hn hheld hh⟩⟩

/-- Settles O41, from the selection at each boundary in STRETCH. -/
theorem stretchEnd : Obligations.StretchEnd := by
  intro s hheld
  refine ⟨_, _, rfl, rfl, fun hr => ⟨stretchBoundary_elsewhere s hr, stretchExpiry_elsewhere s hr⟩,
    fun tm ht hh hr => ⟨fun hf => ?_, fun hf => ?_, ?_⟩⟩
  · rw [stretchExpiry_stretch s ht hr, if_neg (not_le.2 hf)]
  · rw [stretchExpiry_stretch s ht hr, if_pos hf]
  · rw [stretchBoundary_stretch s ht hr]
    exact ⟨fun _ _ _ => frontLineEnd_chosen, fun hn =>
      ⟨frontLineEnd_stretch hn, frontLineEnd_expired hn hheld hh⟩⟩

/-- Settles O42, from the rules of `pick` and of the two kinds of candidates. -/
theorem selectionChoice : Obligations.SelectionChoice :=
  ⟨fun candidate queue => pick_iff candidate queue _ fun _ => Iff.rfl,
    fun s e hb => ⟨admissible_iff s e, splitCandidate_iff s hb e⟩⟩

end Sys2Proof.Settled
end

