-- ==== Sys2Proof/Proofs/Raster.lean ====
section
/-! COMMIT(TIMING) and the refresh arithmetic, OUTPUT_ON and OUTPUT_OFF; the blank and active lines, boundary by boundary;
and the line counter, as an event sees it and as each boundary counts it. -/

namespace Sys2Proof.Safety

open Sys2Proof.Machine

/-! ## COMMIT(TIMING) (R75, R79, R166) -/

/-- The refusals of R75, on the staged W, H, HT and pixel clock. -/
def TimingOut (row : Table (BitVec 32) 9) : Prop :=
  (row.get 0).toNat < 320 ∨ 3840 < (row.get 0).toNat ∨ (row.get 0).toNat % 4 ≠ 0 ∨ (row.get 1).toNat < 240 ∨
    2160 < (row.get 1).toNat ∨ (row.get 2).toNat < (row.get 0).toNat + 16 ∨ 8192 < (row.get 2).toNat ∨
    (row.get 3).toNat < 10000 ∨ 1500000 < (row.get 3).toNat

theorem timingInRange_iff (row : Table (BitVec 32) 9) : timingInRange row = true ↔ ¬ TimingOut row := by
  unfold TimingOut
  simp only [timingInRange, Bool.and_eq_true, decide_eq_true_eq]
  omega

/-- The checks of R166 and R75 in their order. -/
theorem commitTiming_eq (entry : BitVec 16) (s : State) : commitTiming entry s =
    if entry ≠ 0 then s.result .control 0x20 .range
    else if s.rtm.raster ≠ .off ∧ s.rtm.pendingSet ≠ none then s.result .control 0x20 .busy
    else if timingInRange s.cd.staging.timing then
      (s.installTiming (timingSet s.cd.staging.timing).1).result .control 0x20
        (if (timingSet s.cd.staging.timing).2 then .adjusted else .ok)
    else s.result .control 0x20 .range := by
  have hbusy : (s.rtm.raster ≠ .off ∧ s.rtm.pendingSet.isSome = true) ↔
      (s.rtm.raster ≠ .off ∧ s.rtm.pendingSet ≠ none) := and_congr_right fun _ => Option.isSome_iff_ne_none
  unfold commitTiming
  dsimp only
  rw [if_congr hbusy rfl rfl]
  rfl

theorem installTiming_off {s : State} (h : s.rtm.raster = .off) (tm : TimingSet) :
    s.installTiming tm = s.timingInForce tm := by
  unfold State.installTiming
  rw [h]

theorem installTiming_running {s : State} (h : s.rtm.raster ≠ .off) (tm : TimingSet) :
    s.installTiming tm = { s with rtm := { s.rtm with pendingSet := some tm } } := by
  unfold State.installTiming
  split
  · rename_i hoff
    exact absurd hoff h
  all_goals rfl

/-! ## The refresh arithmetic (R76 to R78) -/

/-- A clamp of R76 changed a staged field, said of the set that is installed. -/
theorem timingSet_changed (row : Table (BitVec 32) 9) :
    let tm := (timingSet row).1
    (timingSet row).2 = true ↔ ¬ (tm.s = (row.get 4).toNat ∧ tm.fp = (row.get 5).toNat ∧ tm.fhi = (row.get 6).toNat ∧
      tm.flo = (row.get 7).toNat ∧ tm.settle = (row.get 8).toNat) := by
  dsimp only [timingSet, deriveTiming]
  simp only [Bool.or_eq_true, bne_iff_ne, ne_eq, not_and_or, or_assoc]

/-- F_min of R78 before the bound of step 6: what the shortest total leaves beside H and S, or FP if that is more. -/
def firstMin (tm : TimingSet) : Int :=
  if (tm.vtMin : Int) - tm.h - tm.s < tm.fp then tm.fp else tm.vtMin - tm.h - tm.s

/-- F_max of R78 before steps 5 and 6: what the longest total leaves beside H and S. -/
def firstMax (tm : TimingSet) : Int := tm.vtMax - tm.h - tm.s

/-- The model's subtraction in step 4 of R78 is exact: FP stands in where the difference would be negative. -/
theorem cast_frontMin (total h s fp : Nat) :
    ((if (total : Int) - h - s < fp then fp else total - h - s : Nat) : Int) =
      if (total : Int) - h - s < fp then (fp : Int) else total - h - s := by
  split <;> omega

/-- The front blank limits of a derived set (R78): the bound of step 6 where H, S and F_min together exceed it, and
otherwise F_min and the greater of F_min and F_max, the range collapsed where F_max is the less. -/
theorem deriveTiming_limits {w h ht clock s fp fhi flo settle : Nat} :
    let tm := deriveTiming w h ht clock s fp fhi flo settle
    if 65535 < tm.h + tm.s + firstMin tm then
      tm.fMin = 65535 - tm.h - tm.s ∧ tm.fMax = 65535 - tm.h - tm.s ∧ tm.rangeCollapsed = true
    else tm.fMin = firstMin tm ∧ tm.fMax = max (firstMin tm) (firstMax tm) ∧
      (tm.rangeCollapsed = true ↔ firstMax tm < firstMin tm) := by
  unfold deriveTiming firstMin firstMax
  dsimp only
  generalize shortestTotal clock fhi ht = shortest
  generalize min 65535 (longestTotal clock flo ht) = longest
  rw [← cast_frontMin]
  generalize (if (shortest : Int) - h - s < fp then fp else shortest - h - s) = least
  by_cases hbeyond : 65535 < h + s + least
  · rw [if_pos (by omega)]
    simp [hbeyond]
  · rw [if_neg (by omega)]
    by_cases hcollapsed : (longest : Int) - h - s < least
    · simp [hbeyond, hcollapsed, le_of_lt]
    · have hexact : ((longest - h - s : Nat) : Int) = longest - h - s := by omega
      simp [hbeyond, hcollapsed, hexact, not_lt.1 hcollapsed]

/-! ## OUTPUT_ON and OUTPUT_OFF (R95, R96) -/

theorem outputOn_untimed {s : State} (h : s.rtm.timing = none) : outputOn s = s.result .control 0x21 .badState := by
  unfold outputOn
  rw [h]

theorem outputOn_off {s : State} {tm : TimingSet} (ht : s.rtm.timing = some tm) (hr : s.rtm.raster = .off) :
    outputOn s = (s.enterSettle tm).result .control 0x21 .ok := by
  unfold outputOn
  rw [ht, hr]

theorem outputOn_running {s : State} {tm : TimingSet} (ht : s.rtm.timing = some tm) (hr : s.rtm.raster ≠ .off) :
    outputOn s = s.result .control 0x21 .ok := by
  unfold outputOn
  rw [ht]
  dsimp only
  split
  · rename_i hoff
    exact absurd hoff hr
  all_goals rfl

theorem stopRaster_off {s : State} (h : s.rtm.raster = .off) : s.stopRaster = s := by
  unfold State.stopRaster
  rw [h]

theorem stopRaster_front {s : State}
    (h : s.rtm.raster = .settle ∨ s.rtm.raster = .frontMin ∨ s.rtm.raster = .stretch) : s.stopRaster = s.enterOff := by
  unfold State.stopRaster
  rcases h with h | h | h <;> rw [h]

theorem stopRaster_frame {s : State} (h : s.rtm.raster = .backBlank ∨ s.rtm.raster = .active) :
    s.stopRaster = { s with rtm := { s.rtm with offPending := true } } := by
  unfold State.stopRaster
  rcases h with h | h <;> rw [h]

/-! ## The blank lines (R80, R82, R83, R88, R104) -/

section
variable {s : State} {tm : TimingSet}

/-- Without a timing set no boundary comes (log 2). -/
theorem lineBoundary_untimed (h : s.rtm.timing = none) : lineBoundary s = s := by
  unfold lineBoundary
  rw [h]

theorem lineBoundary_settle (ht : s.rtm.timing = some tm) (hr : s.rtm.raster = .settle) : lineBoundary s =
    if s.rtm.pos + 1 < tm.settle then (s.boundary .settle (s.rtm.pos + 1)).sendBlank .settle else s := by
  unfold lineBoundary
  rw [ht, hr]

theorem lineBoundary_frontMin (ht : s.rtm.timing = some tm) (hr : s.rtm.raster = .frontMin) : lineBoundary s =
    if s.rtm.pos + 1 < tm.fMin then (s.boundary .frontMin (s.rtm.pos + 1)).sendBlank .front else s := by
  unfold lineBoundary
  rw [ht, hr]

theorem lineBoundary_backBlank {c : FrameControl} (ht : s.rtm.timing = some tm) (hr : s.rtm.raster = .backBlank)
    (hc : s.rtm.frame = some c) : lineBoundary s =
      if s.rtm.pos + 1 < tm.s then
        ((s.boundary .backBlank (s.rtm.pos + 1)).backLine tm c (s.rtm.pos + 1)).sendBlank .back
      else s := by
  unfold lineBoundary
  rw [ht, hr, hc]

/-- LINE_BOUNDARY has no part in the other states: the boundaries of STRETCH and ACTIVE are other rows (log 2). -/
theorem lineBoundary_elsewhere (h : s.rtm.raster = .off ∨ s.rtm.raster = .stretch ∨ s.rtm.raster = .active) :
    lineBoundary s = s := by
  unfold lineBoundary
  rcases h with h | h | h <;> rw [h] <;> cases s.rtm.timing <;> rfl

theorem settleDone_untimed (h : s.rtm.timing = none) : settleDone s = s := by
  unfold settleDone
  rw [h]

theorem settleDone_eq (ht : s.rtm.timing = some tm) : settleDone s =
    if s.rtm.raster = .settle ∧ tm.settle ≤ s.rtm.pos + 1 then (s.raise .settleDone).enterFrontMin else s := by
  unfold settleDone
  rw [ht]

/-- The boundary after the last SETTLE line (R82). -/
theorem settleDone_begins (s : State) : ∃ v, EventTaken .settleDone s.rw v.rw ∧ v = { s with rw := v.rw } ∧
    FrontMinBegun v (s.raise .settleDone).enterFrontMin :=
  ⟨s.raise .settleDone, eventTaken_raise s.rw .settleDone, rfl, frontMinBegun_enterFrontMin _⟩

/-- A further BACK_BLANK line, with the steps that the fetcher takes there (R88, R104). -/
theorem backBlank_line (s : State) (tm : TimingSet) (c : FrameControl) (n : Nat) :
    let t := ((s.boundary .backBlank n).backLine tm c n).sendBlank .back
    ∃ v, BlankBegun .back .backBlank n s v ∧ (n < tm.s - c.lead → t = v) ∧
      (n = tm.s - c.lead → ∃ x, PointTaken c 0 v x ∧ LineFetched tm c 0 x t) ∧
      (tm.s - c.lead < n → LineFetched tm c (n - (tm.s - c.lead)) v t) :=
  ⟨_, blankBegun_boundary .back .backBlank n s, backLine_steps (s.boundary .backBlank n) tm c n⟩

/-! ## The active lines (R89, R117) -/

/-- The boundary of active line 0, before the line's own steps: its LC is kept and FRAME_START signalled (R89). -/
def activeBegun (s : State) : State :=
  ((s.boundary .active 0).onRecord fun r => { r with activeLine := s.rtm.lc + 1 }).signal .frameStart

theorem activeStart_eq {c : FrameControl} (ht : s.rtm.timing = some tm) (hc : s.rtm.frame = some c) : activeStart s =
    if s.rtm.raster = .backBlank ∧ tm.s ≤ s.rtm.pos + 1 then (activeBegun s).activeLine tm c 0 else s := by
  unfold activeStart
  rw [ht, hc]
  rfl

theorem activeLine_eq {c : FrameControl} (ht : s.rtm.timing = some tm) (hc : s.rtm.frame = some c) : activeLine s =
    if s.rtm.raster = .active ∧ s.rtm.pos + 1 < tm.h then
      (s.boundary .active (s.rtm.pos + 1)).activeLine tm c (s.rtm.pos + 1)
    else s := by
  unfold activeLine
  rw [ht, hc]

end

/-! ## The line counter (R80, log 33) -/

/-- LC of the line that the boundary of the current line begins; LC as it is where that boundary begins none (R80). -/
def nextLine (r : RasterTimer) : Line := if r.begins then r.lc + 1 else r.lc

/-- A boundary that does not come changes nothing; one that comes counts LC once, if it begins a line, and clears the
mark of an ended line (R80, log 2, log 33). -/
def BoundaryCounts (s t : State) : Prop := t = s ∨ counter t = (nextLine s.rtm, false)

theorem nextLine_begins {r : RasterTimer} (h : r.begins = true) : nextLine r = r.lc + 1 := if_pos h

theorem nextLine_none {r : RasterTimer} (h : ¬ r.begins = true) : nextLine r = r.lc := if_neg h

/-- Every blank line is followed by another line. -/
theorem begins_blank {r : RasterTimer} (hoff : r.raster ≠ .off) (hactive : r.raster ≠ .active) : r.begins = true :=
  (begins_iff r).2 ⟨hoff, fun h => hactive h.1⟩

/-- An active line that is not the last is followed by another. -/
theorem begins_further {r : RasterTimer} {tm : TimingSet} (hr : r.raster = .active) (ht : r.timing = some tm)
    (hn : r.pos + 1 < tm.h) : r.begins = true := by
  refine (begins_iff r).2 ⟨by rw [hr]; decide, fun ⟨_, _, u, hu, hlast⟩ => ?_⟩
  cases ht.symm.trans hu
  omega

/-- The last active line is followed by another unless an OUTPUT_OFF is pending (R91). -/
theorem begins_last {r : RasterTimer} {tm : TimingSet} (hr : r.raster = .active) (ht : r.timing = some tm)
    (hn : tm.h ≤ r.pos + 1) : r.begins = true ↔ r.offPending = false := by
  rw [begins_iff]
  refine ⟨fun h => ?_, fun h => ⟨by rw [hr]; decide, fun hl => ?_⟩⟩
  · by_contra ho
    exact h.2 ⟨hr, by simpa using ho, tm, ht, hn⟩
  · rw [h] at hl
    cases hl.2.1

section
variable {s t : State}

/-- A boundary that begins a line where one is to begin. -/
theorem BoundaryCounts.of_begins (h : s.rtm.begins = true) (hc : counter t = (s.rtm.lc + 1, false)) :
    BoundaryCounts s t :=
  .inr (hc.trans (by rw [nextLine_begins h]))

/-- A boundary that begins a line after a blank line. -/
theorem BoundaryCounts.of_blank {x : Raster} (hx : s.rtm.raster = x) (hoff : x ≠ .off) (hactive : x ≠ .active)
    (hc : counter t = (s.rtm.lc + 1, false)) : BoundaryCounts s t :=
  .of_begins (begins_blank (hx ▸ hoff) (hx ▸ hactive)) hc

theorem boundaryCounts_lineBoundary (s : State) : BoundaryCounts s (lineBoundary s) := by
  unfold lineBoundary
  split
  · exact .inl rfl
  · dsimp only
    split
    · rename_i hr
      split
      · exact .of_blank hr (by decide) (by decide) rfl
      · exact .inl rfl
    · rename_i hr
      split
      · exact .of_blank hr (by decide) (by decide) rfl
      · exact .inl rfl
    · rename_i hr
      split
      · split
        · exact .of_blank hr (by decide) (by decide) (counter_backLine ..)
        · exact .inl rfl
      · exact .inl rfl
    all_goals exact .inl rfl

theorem boundaryCounts_settleDone (s : State) : BoundaryCounts s (settleDone s) := by
  unfold settleDone
  split
  · exact .inl rfl
  · split
    · rename_i h
      exact .of_blank h.1 (by decide) (by decide) rfl
    · exact .inl rfl

/-- The boundary of a front-blank line, whatever its selection takes (R84 to R86). -/
theorem counter_frontLineEnd (s : State) (tm : TimingSet) (front : Nat) (skipped : Bool) (pos : Nat) :
    counter (frontLineEnd s tm front skipped pos) = (s.rtm.lc + 1, false) := by
  unfold frontLineEnd
  split
  · rename_i e u hu
    have hlc : u.rtm.lc = s.rtm.lc := congrArg Prod.fst (counter_frontSelection s u e hu)
    rw [counter_beginNew, hlc]
  · split
    · rfl
    · exact counter_expire ..

theorem boundaryCounts_frontMinEnd (s : State) : BoundaryCounts s (frontMinEnd s) := by
  cases ht : s.rtm.timing with
  | none =>
    unfold frontMinEnd
    rw [ht]
    exact .inl rfl
  | some tm =>
    by_cases h : s.rtm.raster = .frontMin ∧ tm.fMin ≤ s.rtm.pos + 1
    · rw [frontMinEnd_due s ht h]
      exact .of_blank h.1 (by decide) (by decide) (counter_frontLineEnd ..)
    · exact .inl (frontMinEnd_not_due s ht h)

theorem boundaryCounts_stretchBoundary (s : State) : BoundaryCounts s (stretchBoundary s) := by
  by_cases hr : s.rtm.raster = .stretch
  · cases ht : s.rtm.timing with
    | none =>
      unfold stretchBoundary
      rw [ht]
      exact .inl rfl
    | some tm =>
      rw [stretchBoundary_stretch s ht hr]
      exact .of_blank hr (by decide) (by decide) (counter_frontLineEnd ..)
  · exact .inl (stretchBoundary_elsewhere s hr)

theorem boundaryCounts_stretchExpiry (s : State) : BoundaryCounts s (stretchExpiry s) := by
  by_cases hr : s.rtm.raster = .stretch
  · cases ht : s.rtm.timing with
    | none =>
      unfold stretchExpiry
      rw [ht]
      exact .inl rfl
    | some tm =>
      rw [stretchExpiry_stretch s ht hr]
      split
      · exact boundaryCounts_stretchBoundary s
      · exact .inl rfl
  · exact .inl (stretchExpiry_elsewhere s hr)

theorem boundaryCounts_activeStart (s : State) : BoundaryCounts s (activeStart s) := by
  unfold activeStart
  split
  · split
    · rename_i h
      exact .of_blank h.1 (by decide) (by decide) (counter_activeLine ..)
    · exact .inl rfl
  · exact .inl rfl

theorem boundaryCounts_activeLine (s : State) : BoundaryCounts s (activeLine s) := by
  unfold activeLine
  split
  · rename_i tm c ht hc
    dsimp only
    split
    · rename_i h
      exact .of_begins (begins_further h.1 ht h.2) (counter_activeLine ..)
    · exact .inl rfl
  · exact .inl rfl

/-- Steps 3 and 4 of R91: the entry into OFF counts no line, and every other state begins with one. -/
theorem counter_nextFrame (s : State) :
    counter s.nextFrame = (if s.rtm.offPending then s.rtm.lc else s.rtm.lc + 1, false) := by
  unfold State.nextFrame
  split
  · rename_i tm _
    have hlc : (s.timingInForce tm).rtm.lc = s.rtm.lc := congrArg Prod.fst (counter_timingInForce s tm)
    have hoff : (s.timingInForce tm).rtm.offPending = s.rtm.offPending := by simp [State.timingInForce]
    dsimp only
    rw [hoff]
    split
    · rw [counter_enterOff, hlc]
    · rw [counter_enterSettle, hlc]
  · split
    · exact counter_enterOff s
    · exact counter_enterFrontMin s

theorem boundaryCounts_endOfActive (s : State) : BoundaryCounts s (endOfActive s) := by
  cases ht : s.rtm.timing with
  | none =>
    unfold endOfActive
    rw [ht]
    exact .inl rfl
  | some tm =>
    by_cases h : s.rtm.raster = .active ∧ tm.h ≤ s.rtm.pos + 1
    · have hoff : s.handRecord.settleSurfaces.endFrame.rtm.offPending = s.rtm.offPending := by
        simp [State.endFrame, State.handRecord]
      have hlc : s.handRecord.settleSurfaces.endFrame.rtm.lc = s.rtm.lc := congrArg Prod.fst (counter_endFrame s)
      refine .inr ?_
      rw [endOfActive_due ht h, counter_nextFrame, hoff, hlc]
      unfold nextLine
      simp only [begins_last h.1 ht h.2]
      cases s.rtm.offPending <;> rfl
    · exact .inl (endOfActive_not_due ht h)

end

end Sys2Proof.Safety

namespace Sys2Proof.Settled

open Sys2Proof.Machine Sys2Proof.Safety

/-- Settles O9, by the checks of R166 and R75 in their order. -/
theorem commitTiming : Obligations.CommitTiming := by
  intro entry s hheld
  refine ⟨_, rfl, resulted_check (commitTiming_eq entry s) fun _ ht => resulted_check ht fun _ ht =>
    ⟨fun hout => ?_, fun hin hr => ?_, fun hin hr => ?_⟩⟩
  · rw [ht, if_neg fun h => (timingInRange_iff _).1 h hout]
    exact resulted_result ..
  · rw [ht, if_pos ((timingInRange_iff _).2 hin), installTiming_off hr]
    exact ⟨_, timingInForce_timingInForce s _ hheld, resulted_result ..⟩
  · rw [ht, if_pos ((timingInRange_iff _).2 hin), installTiming_running hr]
    exact resulted_result ..

/-- Settles O10, from the limits of a derived set, which hold for every H. -/
theorem timingArithmetic : Obligations.TimingArithmetic := by
  intro row
  have hsettle : (timingSet row).1.settle = min 4095 (row.get 8).toNat := Nat.zero_max _
  exact ⟨⟨rfl, rfl, rfl, rfl⟩, ⟨rfl, rfl, hsettle, rfl, rfl⟩, timingSet_changed row,
    ⟨rfl, rfl, decide_eq_true_iff⟩, fun _ => deriveTiming_limits⟩

/-- Settles O15, by the raster's state. -/
theorem outputOn : Obligations.OutputOn := by
  intro s
  refine ⟨_, rfl, fun ht => ?_, fun tm ht => ⟨fun hr => ?_, fun hr => ?_⟩⟩
  · rw [outputOn_untimed ht]
    exact resulted_result ..
  · rw [outputOn_running ht hr]
    exact resulted_result ..
  · rw [outputOn_off ht hr]
    exact ⟨_, settleBegun_enterSettle s tm, resulted_result ..⟩

/-- Settles O16, by the raster's state. -/
theorem outputOff : Obligations.OutputOff := by
  intro s hheld
  have hres : Resulted s.stopRaster (Machine.outputOff s) .control 0x22 .ok := resulted_result ..
  refine ⟨_, rfl, fun hr => ?_, fun hr => ⟨s.enterOff, enteredOff_enterOff s hheld, ?_⟩, fun hr => ?_⟩
  · rw [stopRaster_off hr] at hres
    exact hres
  · rw [stopRaster_front hr] at hres
    exact hres
  · rw [stopRaster_frame hr] at hres
    exact hres

/-- Settles O39, by the blank state that the line is of. -/
theorem blankLines : Obligations.BlankLines := by
  intro s
  refine ⟨_, _, rfl, rfl, fun ht => ⟨lineBoundary_untimed ht, settleDone_untimed ht⟩, fun tm ht => ?_⟩
  dsimp only
  rw [settleDone_eq ht]
  refine ⟨fun hr hn => ?_, fun hr hn => ?_, fun hr => if_neg fun h => hr h.1, fun hr => ?_, fun hr c hc => ?_,
    lineBoundary_elsewhere⟩
  · rw [lineBoundary_settle ht hr, if_pos hn]
    exact ⟨blankBegun_boundary .settle .settle _ s, if_neg fun h => not_le.2 hn h.2⟩
  · rw [lineBoundary_settle ht hr, if_neg (not_lt.2 hn), if_pos ⟨hr, hn⟩]
    exact ⟨rfl, settleDone_begins s⟩
  · rw [lineBoundary_frontMin ht hr]
    refine ⟨fun hn => ?_, fun hn => if_neg (not_lt.2 hn)⟩
    rw [if_pos hn]
    exact blankBegun_boundary .front .frontMin _ s
  · rw [lineBoundary_backBlank ht hr hc]
    refine ⟨fun hn => if_neg (not_lt.2 hn), fun hn => ?_⟩
    rw [if_pos hn]
    exact backBlank_line s tm c _

/-- Settles O44: the boundary of each active line, then the line's own steps. -/
theorem activeLines : Obligations.ActiveLines := by
  intro s tm c hscan ht hc hhb _
  refine ⟨_, _, rfl, rfl, ?_⟩
  dsimp only
  rw [activeStart_eq ht hc, activeLine_eq ht hc]
  refine ⟨fun hn => if_neg hn, fun hn => if_neg hn, fun hr hn => ?_, fun hr hn => ?_⟩
  · rw [if_pos ⟨hr, hn⟩]
    exact ⟨activeBegun s, notified_occur s.rw .frameStart .released, rfl,
      lineBegun_activeLine (activeBegun s) tm c 0 hscan hc hhb⟩
  · rw [if_pos ⟨hr, hn⟩]
    exact lineBegun_activeLine (s.boundary .active (s.rtm.pos + 1)) tm c _ hscan hc hhb

/-- Settles O60: what the mark of an ended line shows, and what each of the eight boundaries counts. -/
theorem lineCounter : Obligations.LineCounter := by
  intro s
  dsimp only
  rw [← begins_iff]
  have hnext : (s.rtm.begins = true → nextLine s.rtm = s.rtm.lc + 1) ∧
      (¬ s.rtm.begins = true → nextLine s.rtm = s.rtm.lc) := ⟨nextLine_begins, nextLine_none⟩
  have hcounts : ∀ t, BoundaryCounts s t → t = s ∨
      (((s.rtm.begins = true → t.rtm.lc = s.rtm.lc + 1) ∧ (¬ s.rtm.begins = true → t.rtm.lc = s.rtm.lc)) ∧
        t.rtm.ended = false ∧ t.rtm.now = t.rtm.lc) := by
    refine fun t h => h.imp_right fun hc => ?_
    obtain ⟨hlc, hended⟩ := Prod.mk.inj hc
    exact ⟨hlc ▸ hnext, hended, RasterTimer.now_current hended⟩
  refine ⟨⟨fun he => ?_, RasterTimer.now_current⟩, ?_⟩
  · rw [RasterTimer.now_ended he]
    exact hnext
  · simp only [List.forall_mem_cons]
    exact ⟨⟨_, rfl, hcounts _ (boundaryCounts_lineBoundary s)⟩, ⟨_, rfl, hcounts _ (boundaryCounts_settleDone s)⟩,
      ⟨_, rfl, hcounts _ (boundaryCounts_frontMinEnd s)⟩, ⟨_, rfl, hcounts _ (boundaryCounts_stretchBoundary s)⟩,
      ⟨_, rfl, hcounts _ (boundaryCounts_stretchExpiry s)⟩, ⟨_, rfl, hcounts _ (boundaryCounts_activeStart s)⟩,
      ⟨_, rfl, hcounts _ (boundaryCounts_activeLine s)⟩, ⟨_, rfl, hcounts _ (boundaryCounts_endOfActive s)⟩, nofun⟩

end Sys2Proof.Settled
end

