-- ==== Sys2Proof/Proofs/Reads.lean ====
section
/-! Reads in flight and their bursts: the next burst of the buffer, and what a change of one burst, of the buffer or of the
outstanding read table leaves matched. -/

namespace Sys2Proof.Safety

open Sys2Proof.Machine

/-! ## The next burst (R109) -/

theorem firstNotIssued_iff (l : List Burst) (i : Nat) : firstNotIssued l = some i ↔
    l[i]? = some .notIssued ∧ ∀ k, k < i → l[k]? ≠ some .notIssued := by
  induction l generalizing i with
  | nil => simp [firstNotIssued]
  | cons b rest ih =>
    by_cases hb : b = .notIssued
    · subst hb
      refine ⟨fun h => ?_, fun ⟨_, h⟩ => ?_⟩
      · cases h
        exact ⟨rfl, nofun⟩
      · cases i with
        | zero => rfl
        | succ i => exact absurd rfl (h 0 i.succ_pos)
    · have hrest : firstNotIssued (b :: rest) = (firstNotIssued rest).map (· + 1) := by
        cases b with
        | notIssued => exact absurd rfl hb
        | inFlight => rfl
        | returned pixels => rfl
        | failed => rfl
      rw [hrest]
      cases i with
      | zero => simp [hb]
      | succ i =>
        simp only [Option.map_eq_some_iff, Nat.add_right_cancel_iff, exists_eq_right, ih i, List.getElem?_cons_succ]
        refine and_congr_right fun _ => ⟨fun h k hk => ?_, fun h k hk => h (k + 1) (Nat.succ_lt_succ hk)⟩
        cases k with
        | zero => exact fun h0 => hb (Option.some.inj h0)
        | succ k => exact h k (Nat.lt_of_succ_lt_succ hk)

/-- The next burst is the first to be issued of a surface's line in the buffer (R109). -/
theorem nextBurst_some {l : List Slot} {slot : Slot} {src : SurfaceSource} {i : Nat}
    (h : nextBurst l = some (slot, src, i)) :
    slot ∈ l ∧ slot.source = .surface src ∧ firstNotIssued slot.bursts = some i := by
  induction l with
  | nil => cases h
  | cons x rest ih =>
    unfold nextBurst at h
    split at h
    · rename_i hsrc hi
      cases h
      exact ⟨List.mem_cons_self, hsrc, hi⟩
    · obtain ⟨hm, hs⟩ := ih h
      exact ⟨List.mem_cons_of_mem _ hm, hs⟩

/-- The slots before the first with a burst to issue are passed over (R109). -/
theorem nextBurst_append {ahead behind : List Slot} {slot : Slot} {src : SurfaceSource} {i : Nat}
    (ha : ∀ x ∈ ahead, ¬ ToIssue x) (hs : slot.source = .surface src) (hi : firstNotIssued slot.bursts = some i) :
    nextBurst (ahead ++ slot :: behind) = some (slot, src, i) := by
  induction ahead with
  | nil =>
    rw [List.nil_append, nextBurst, hs, hi]
  | cons x rest ih =>
    rw [List.forall_mem_cons] at ha
    obtain ⟨hx, hrest⟩ := ha
    rw [List.cons_append, nextBurst]
    split
    · rename_i hsrc hk
      have hmem : Burst.notIssued ∈ x.bursts := (firstNotIssued_isSome _).1 (by rw [hk]; rfl)
      exact absurd ⟨by rw [hsrc]; exact nofun, hmem⟩ hx
    · exact ih hrest

/-! ## Reads and their bursts (R110, R111) -/

section
variable {s t : State}

/-- A read in flight is left with its burst where its slot stays in the buffer. -/
theorem ReadsMatched.stay (hs : ReadsMatched s) (hr : ∀ n e, InFlight t n e → InFlight s n e)
    (hb : ∀ n e, InFlight t n e → ∀ slot ∈ s.sf.buffer, slot.line = e.line → slot ∈ t.sf.buffer) : ReadsMatched t := by
  obtain ⟨hburst, hone⟩ := hs
  refine ⟨fun n e h => ?_, fun m n e f hm hn => hone m n e f (hr m e hm) (hr n f hn)⟩
  obtain ⟨slot, hslot, hline, hin⟩ := hburst n e (hr n e h)
  exact ⟨slot, hb n e h slot hslot hline, hline, hin⟩

theorem ReadsMatched.congr (hs : ReadsMatched s) (hr : t.sf.reads = s.sf.reads) (hb : t.sf.buffer = s.sf.buffer) :
    ReadsMatched t :=
  hs.stay (fun n e h => by unfold InFlight at h ⊢; rwa [← hr]) fun _ _ _ _ hslot _ => by rwa [hb]

/-- Another burst than the one that changes keeps its status. -/
theorem setBurst_other {l i line k : Nat} {b x : Burst} {buffer : List Slot} (hne : ¬ (line = l ∧ k = i))
    (h : ∃ slot ∈ buffer, slot.line = line ∧ slot.bursts[k]? = some x) :
    ∃ slot ∈ setBurst l i b buffer, slot.line = line ∧ slot.bursts[k]? = some x := by
  obtain ⟨slot, hslot, hline, hk⟩ := h
  refine ⟨_, List.mem_map_of_mem hslot, ?_⟩
  split
  · rename_i hl
    refine ⟨hline, ?_⟩
    show (slot.bursts.set i b)[k]? = some x
    rw [List.getElem?_set_ne fun hik => hne ⟨hline.symm.trans hl, hik.symm⟩]
    exact hk
  · exact ⟨hline, hk⟩

/-- A burst of a slot of the buffer takes the status set. -/
theorem setBurst_self {slot : Slot} {i : Nat} {b x : Burst} {buffer : List Slot} (hslot : slot ∈ buffer)
    (hi : slot.bursts[i]? = some x) :
    ∃ y ∈ setBurst slot.line i b buffer, y.line = slot.line ∧ y.bursts[i]? = some b := by
  obtain ⟨hlen, -⟩ := List.getElem?_eq_some_iff.1 hi
  refine ⟨_, List.mem_map_of_mem hslot, ?_⟩
  rw [if_pos rfl]
  exact ⟨rfl, List.getElem?_set_self hlen⟩

/-- A burst that is issued under a free tag is matched with its read (R110). -/
theorem ReadsMatched.issue (hs : ReadsMatched s) (hnd : (s.sf.buffer.map Slot.line).Nodup) {slot : Slot} {i : Nat}
    (hslot : slot ∈ s.sf.buffer) (hi : slot.bursts[i]? = some .notIssued) (n : Fin 64)
    (hb : t.sf.buffer = setBurst slot.line i .inFlight s.sf.buffer)
    (hr : t.sf.reads = s.sf.reads.set n (some { line := slot.line, burst := i, state := .inFlight })) :
    ReadsMatched t := by
  obtain ⟨hburst, hone⟩ := hs
  have hread : ∀ m e, InFlight t m e → (m = n ∧ e = { line := slot.line, burst := i, state := .inFlight }) ∨
      (m ≠ n ∧ InFlight s m e) := by
    rintro m e ⟨hm, he⟩
    rw [hr, Table.get_set] at hm
    split at hm
    · exact .inl ⟨by assumption, (Option.some.inj hm).symm⟩
    · exact .inr ⟨by assumption, hm, he⟩
  have hother : ∀ m e, InFlight s m e → ¬ (e.line = slot.line ∧ e.burst = i) := by
    rintro m e h ⟨hl, rfl⟩
    obtain ⟨old, hold, hline, hin⟩ := hburst m e h
    rw [List.inj_on_of_nodup_map hnd hold hslot (hline.trans hl), hi] at hin
    cases hin
  rw [ReadsMatched, hb]
  refine ⟨fun m e h => ?_, fun m k e f hm hk hl hbu => ?_⟩
  · rcases hread m e h with ⟨-, rfl⟩ | ⟨-, h⟩
    · exact setBurst_self hslot hi
    · exact setBurst_other (hother m e h) (hburst m e h)
  · rcases hread m e hm with ⟨rfl, rfl⟩ | ⟨-, hm⟩ <;> rcases hread k f hk with ⟨rfl, rfl⟩ | ⟨-, hk⟩
    · rfl
    · exact absurd ⟨hl.symm, hbu.symm⟩ (hother k f hk)
    · exact absurd ⟨hl, hbu⟩ (hother m e hm)
    · exact hone m k e f hm hk hl hbu

/-- Once the tag of a read in flight is freed no other read has its burst, which may change (R112, R113). -/
theorem ReadsMatched.answer (hs : ReadsMatched s) {n : Fin 64} {e : ReadEntry} (he : InFlight s n e)
    (hr : t.sf.reads = s.sf.reads.set n none) (b : Burst) (hb : t.sf.buffer = setBurst e.line e.burst b s.sf.buffer) :
    ReadsMatched t := by
  obtain ⟨hburst, hone⟩ := hs
  have hread : ∀ m f, InFlight t m f → m ≠ n ∧ InFlight s m f := by
    rintro m f ⟨hm, hf⟩
    rw [hr, Table.get_set] at hm
    split at hm
    · cases hm
    · exact ⟨by assumption, hm, hf⟩
  rw [ReadsMatched, hb]
  refine ⟨fun m f h => ?_, fun m k f g hm hk => hone m k f g (hread m f hm).2 (hread k g hk).2⟩
  obtain ⟨hmn, h⟩ := hread m f h
  exact setBurst_other (fun ⟨hl, hbu⟩ => hmn (hone m n f e h he hl hbu)) (hburst m f h)

/-- A freed tag has no read in flight. -/
theorem ReadsMatched.free (hs : ReadsMatched s) (n : Fin 64) (hr : t.sf.reads = s.sf.reads.set n none)
    (hb : t.sf.buffer = s.sf.buffer) : ReadsMatched t := by
  refine hs.stay (fun m e ⟨hm, he⟩ => ?_) fun _ _ _ _ hslot _ => by rwa [hb]
  rw [hr, Table.get_set] at hm
  split at hm
  · cases hm
  · exact ⟨hm, he⟩

end

end Sys2Proof.Safety
end

