-- ==== Sys2Proof/Proofs/Course.lean ====
section
/-! The fetcher's course: the settings, the lines of the buffer and the reads in flight, without the line's place in its
raster state. FetchingKept gives neither whole lines nor lawful band heights, which the laws of a frame under way in
Proofs/Lines ask for; a course asks for neither, and it is the same in a frame and outside one. -/

namespace Sys2Proof.Safety

open Sys2Proof.Machine

/-! ## What fetching looks at -/

/-- The line's place as a frame under way keeps it: the raster state and position, the set in force, the frame's lead and
the record's kind and front blank. -/
def placeView (r : RasterTimer) :=
  (r.raster, r.pos, r.timing, r.frame.map FrameControl.lead, r.record.map fun w => (w.kind, w.front))

/-- The settings and the fetcher's lines and reads. -/
def courseView (s : State) :=
  (s.rtm.timing, s.rtm.pendingSet, s.rtm.frame, s.sf.inForce, s.sf.waiting, s.sf.buffer, s.sf.reads)

/-- The safe raster, its settings, the lines of the buffer and the reads in flight. -/
structure Course (s : State) (lines : List Nat) : Prop where
  timing : ∀ t, s.rtm.timing = some t → TimingLawful t
  pending : ∀ t, s.rtm.pendingSet = some t → TimingLawful t
  inForce : LeadLawful s.rtm.timing s.sf.inForce.lead
  waiting : ∀ f, s.sf.waiting = some f → LeadLawful s.rtm.timing f.lead
  frame : ∀ c, s.rtm.frame = some c → LeadLawful s.rtm.timing c.lead
  buffer : s.sf.buffer.map Slot.line = lines
  reads : ReadsMatched s

section
variable {s t : State} {lines : List Nat} {tm : TimingSet} {c : FrameControl}

theorem placeView_of_scanView (h : scanView t = scanView s) : placeView t.rtm = placeView s.rtm := by
  unfold scanView frameView at h
  simp only [Prod.mk.injEq] at h
  obtain ⟨h1, h2, -, -, h3, -, h4, h5, -⟩ := h
  unfold placeView
  rw [h1, h2, h3, h4, h5]

theorem courseView_of_scanView (h : scanView t = scanView s) (hr : t.sf.reads = s.sf.reads) :
    courseView t = courseView s := by
  unfold scanView frameView at h
  simp only [Prod.mk.injEq] at h
  obtain ⟨-, -, -, -, h1, h2, h3, -, h5, h6, h7, -⟩ := h
  unfold courseView
  rw [h1, h2, h3, h5, h6, h7, hr]

theorem Course.congr (hc : Course s lines) (h : courseView t = courseView s) : Course t lines := by
  unfold courseView at h
  simp only [Prod.mk.injEq] at h
  obtain ⟨h1, h2, h3, h4, h5, h6, h7⟩ := h
  exact ⟨by rw [h1]; exact hc.timing, by rw [h2]; exact hc.pending, by rw [h1, h4]; exact hc.inForce,
    by rw [h1, h5]; exact hc.waiting, by rw [h1, h3]; exact hc.frame, by rw [h6]; exact hc.buffer,
    hc.reads.congr h7 h6⟩

/-! ## The line's place and the course -/

theorem Fetching.course (hs : Fetching s) : Course s (bufferLines s.rtm) := by
  obtain ⟨⟨h1, h2, -, -, h5, h6, h7, h8⟩, h9⟩ := hs
  exact ⟨h1, h2, h5, h6, h7, h8, h9⟩

theorem Fetching.placed (hs : Fetching s) : RasterPlaced s.rtm := by
  obtain ⟨⟨-, -, h, -⟩, -⟩ := hs
  exact h

theorem Fetching.front (hs : Fetching s) : FrontLawful s.rtm := by
  obtain ⟨⟨-, -, -, h, -⟩, -⟩ := hs
  exact h

theorem Course.fetching (hc : Course s (bufferLines s.rtm)) (hp : RasterPlaced s.rtm) (hf : FrontLawful s.rtm) :
    Fetching s :=
  ⟨⟨hc.timing, hc.pending, hp, hf, hc.inForce, hc.waiting, hc.frame, hc.buffer⟩, hc.reads⟩

/-- Fetching is safe or not by what the scanout looks at and by the reads. -/
theorem Fetching.congr (hs : Fetching s) (h : scanView t = scanView s) (hr : t.sf.reads = s.sf.reads) :
    Fetching t := by
  have hc := hs.course.congr (courseView_of_scanView h hr)
  have hp := hs.placed
  have hsome := record_isSome_of_scanView h
  have hnone : t.rtm.record = none ↔ s.rtm.record = none := by
    rw [← Option.isNone_iff_eq_none, ← Option.isSome_eq_false_iff, hsome, Option.isSome_eq_false_iff,
      Option.isNone_iff_eq_none]
  unfold scanView frameView at h
  simp only [Prod.mk.injEq] at h
  obtain ⟨hr, hn, he, ho, ht, hpend, hf, hw, -⟩ := h
  have hlines : bufferLines t.rtm = bufferLines s.rtm := by
    unfold bufferLines
    rw [hr, ht, hf, hn]
  rw [← hlines] at hc
  refine hc.fetching ?_ fun w hw' => ?_
  · unfold RasterPlaced at hp ⊢
    rw [hr, ht, hf, hpend, ho, he, hn]
    simp only [hnone, hsome]
    exact hp
  · rw [hw', Option.map_some] at hw
    obtain ⟨x, hx, hxk⟩ := Option.map_eq_some_iff.1 hw.symm
    obtain ⟨hkind, hfront⟩ := Prod.mk.inj hxk
    rw [hr, ht, ← hkind, ← hfront]
    exact hs.front x hx

/-- Fetching is safe or not by the Raster Timer and the fetcher. -/
theorem Fetching.of_blocks (hs : Fetching s) (hr : t.rtm = s.rtm) (hf : t.sf = s.sf) : Fetching t := by
  unfold Fetching Rastering ReadsMatched InFlight
  rw [hr, hf]
  exact hs

/-- Outside BACK_BLANK and ACTIVE the buffer is empty. -/
theorem Fetching.idle (hs : Fetching s) (h : inFrame s.rtm.raster = false) : Course s [] :=
  bufferLines_outside h ▸ hs.course

/-- Outside BACK_BLANK and ACTIVE a record has no kind (R83). -/
theorem Fetching.kind_none (hs : Fetching s) (h : inFrame s.rtm.raster = false) :
    ∀ w, s.rtm.record = some w → w.kind = none := fun w hw => by
  obtain ⟨hk, -⟩ := hs.front w hw
  rw [h] at hk
  exact Option.isNone_iff_eq_none.1 (Option.isSome_eq_false_iff.1 hk)

/-- Outside BACK_BLANK and ACTIVE fetching is safe where the line has its place and the record no kind. -/
theorem Course.outside (hc : Course s []) (hp : RasterPlaced s.rtm) (h : inFrame s.rtm.raster = false)
    (hk : ∀ w, s.rtm.record = some w → w.kind = none) : Fetching s := by
  refine Course.fetching (bufferLines_outside h ▸ hc) hp fun w hw => ?_
  rw [hk w hw, h]
  exact ⟨rfl, fun hn => by cases hn⟩

/-! ## Settings that come into force (R92, R102, R103) -/

theorem timingInForce_rtm (s : State) (tm : TimingSet) :
    (s.timingInForce tm).rtm = { s.rtm with timing := some tm, pendingSet := none } := by
  unfold State.timingInForce; simp

theorem timingInForce_sf (s : State) (tm : TimingSet) : (s.timingInForce tm).sf =
    { s.sf with inForce := s.sf.inForce.limit tm, waiting := s.sf.waiting.map fun f => f.limit tm } := by
  unfold State.timingInForce; simp

theorem Course.timingInForce (hc : Course s lines) (hf : s.rtm.frame = none) (ht : TimingLawful tm) :
    Course (s.timingInForce tm) lines := by
  have hr := timingInForce_rtm s tm
  have hs := timingInForce_sf s tm
  constructor
  · rw [hr]
    rintro u ⟨⟩
    exact ht
  · rw [hr]
    exact nofun
  · rw [hr, hs]
    exact leadLawful_limit hc.inForce ht
  · rw [hr, hs]
    intro f hw
    obtain ⟨g, hg, rfl⟩ := Option.map_eq_some_iff.1 hw
    exact leadLawful_limit (hc.waiting g hg) ht
  · rw [hr]
    intro c hfc
    rw [show s.rtm.frame = some c from hfc] at hf
    cases hf
  · rw [hs]
    exact hc.buffer
  · exact hc.reads.congr (by rw [hs]) (by rw [hs])

theorem Course.pendingInForce (hc : Course s lines) (hf : s.rtm.frame = none) : Course s.pendingInForce lines := by
  unfold State.pendingInForce
  split
  · rename_i u hu
    exact hc.timingInForce hf (hc.pending u hu)
  · exact hc

theorem pendingInForce_rtm (s : State) : s.pendingInForce.rtm =
    { s.rtm with timing := s.rtm.pendingSet.or s.rtm.timing, pendingSet := none } := by
  unfold State.pendingInForce
  cases h : s.rtm.pendingSet with
  | none => exact congrArg (fun p => { s.rtm with pendingSet := p }) h
  | some u => exact timingInForce_rtm s u

theorem Course.fetchInForce (hc : Course s lines) {f : FetchSet} (hf : LeadLawful s.rtm.timing f.lead) :
    Course (s.fetchInForce f) lines :=
  ⟨hc.timing, hc.pending, fetchInForce_lead hc.timing hf, nofun, hc.frame, hc.buffer, hc.reads⟩

theorem Course.waitingInForce (hc : Course s lines) : Course s.waitingInForce lines := by
  unfold State.waitingInForce
  split
  · rename_i f hf
    exact hc.fetchInForce (hc.waiting f hf)
  · exact hc

/-! ## Into OFF, SETTLE and FRONT_MIN (R81 to R83, R96) -/

/-- The raster in OFF, before the sets that wait come into force (R81, R96). -/
def switchedOff (s : State) : State :=
  { s with rtm := { s.rtm with raster := .off, pos := 0, ended := false, offPending := false, record := none
                               frame := none, lag := none }
           po := { s.po with sent := .nothing, missed := false } }

theorem enterOff_eq (s : State) : s.enterOff = (switchedOff s).pendingInForce.waitingInForce := rfl

theorem Course.enterOff (hc : Course s []) : Fetching s.enterOff := by
  have h0 : Course (switchedOff s) [] :=
    ⟨hc.timing, hc.pending, hc.inForce, hc.waiting, nofun, hc.buffer, hc.reads⟩
  have hr : s.enterOff.rtm = (switchedOff s).pendingInForce.rtm := by rw [enterOff_eq]; simp
  rw [pendingInForce_rtm] at hr
  refine Course.outside (h0.pendingInForce rfl).waitingInForce ?_ (by rw [hr]; rfl) ?_
  · rw [hr]
    exact (rasterPlaced_off rfl).2 ⟨rfl, rfl, rfl, rfl, rfl⟩
  · rw [hr]
    exact nofun

theorem Course.enterFrontMin (hc : Course s []) (ht : s.rtm.timing = some tm) (hf : s.rtm.frame = none)
    (ho : s.rtm.offPending = false) : Fetching s.enterFrontMin := by
  have h0 : Course s.enterFrontMin [] :=
    ⟨hc.timing, hc.pending, hc.inForce, hc.waiting, hc.frame, hc.buffer, hc.reads⟩
  refine h0.outside ((rasterPlaced_frontMin (r := s.enterFrontMin.rtm) rfl ht).2
    ⟨(hc.timing tm ht).bounds.fMinPos, rfl, hf, ho⟩) rfl ?_
  rintro w ⟨⟩
  rfl

theorem Course.enterSettle (hc : Course s []) (ht : s.rtm.timing = some tm) (hf : s.rtm.frame = none)
    (ho : s.rtm.offPending = false) (hr : s.rtm.record = none) : Fetching (s.enterSettle tm) := by
  unfold State.enterSettle
  split
  · exact Course.enterFrontMin (s := s.raise .settleDone) (hc.congr rfl) ht hf ho
  · rename_i hn
    have h0 : Course ((s.boundary .settle 0).sendBlank .settle) [] :=
      ⟨hc.timing, hc.pending, hc.inForce, hc.waiting, hc.frame, hc.buffer, hc.reads⟩
    refine h0.outside ((rasterPlaced_settle (r := ((s.boundary .settle 0).sendBlank .settle).rtm) rfl ht).2
      ⟨Nat.pos_of_ne_zero hn, hr, hf, ho⟩) rfl fun w hw => ?_
    rw [show s.rtm.record = some w from hw] at hr
    cases hr

/-- A further line of a blank outside a frame (R80, R82, R83, R85). -/
theorem Fetching.blankLine (hs : Fetching s) (x : Raster) (n : Nat) (kind : Token) (hf : inFrame s.rtm.raster = false)
    (hx : inFrame x = false) (hp : RasterPlaced ((s.boundary x n).sendBlank kind).rtm) :
    Fetching ((s.boundary x n).sendBlank kind) :=
  Course.outside ((hs.idle hf).congr rfl) hp hx (hs.kind_none hf)

/-! ## The steps of a line in a frame (R88, R90, R104, R106, R115 to R117) -/

/-- A part of a line that the scanout does not see leaves the fetcher's reads, and so its course. -/
theorem Course.unseen (hc : Course s lines) (h : scanView t = scanView s) (hr : t.sf.reads = s.sf.reads) :
    Course t lines := hc.congr (courseView_of_scanView h hr)

theorem fetchPoint_reads (s : State) (c : FrameControl) (b : Nat) : (s.fetchPoint c b).sf.reads = s.sf.reads := by
  unfold State.fetchPoint; simp

/-- The fetch start of a line that the frame has adds it to the buffer (R106). -/
theorem Course.fetchStart (hc : Course s lines) (c : FrameControl) {l : Nat} (hl : l < tm.h) :
    Course (s.fetchStart tm c l) (lines ++ [l]) := by
  unfold State.fetchStart
  rw [if_pos hl]
  refine { hc with buffer := ?_, reads := ?_ }
  · rw [List.map_append, hc.buffer, List.map_singleton, slotOf_line]
  · exact hc.reads.stay (fun _ _ h => h) fun _ _ _ _ hslot _ => List.mem_append_left _ hslot

theorem Course.firstPoint (hc : Course s lines) (tm : TimingSet) (c : FrameControl) (n : Nat) :
    Course (s.firstPoint tm c n) lines := by
  refine hc.unseen (scanView_firstPoint s tm c n) ?_
  unfold State.firstPoint
  split
  · exact fetchPoint_reads s c 0
  · rfl

theorem Course.bandPoint (hc : Course s lines) (c : FrameControl) (j : Nat) : Course (s.bandPoint c j) lines := by
  refine hc.unseen (scanView_bandPoint s c j) ?_
  unfold State.bandPoint
  split
  · exact fetchPoint_reads s c _
  · rfl

/-- Back-blank line `n` adds the line that its fetch start names (R88, R104). -/
theorem Course.backLine {n : Nat} (hc : Course s (List.range (n + c.lead - tm.s))) (ht : s.rtm.timing = some tm)
    (hlead : LeadLawful (some tm) c.lead) (hn : n < tm.s) :
    Course (s.backLine tm c n) (List.range (n + 1 + c.lead - tm.s)) := by
  obtain ⟨-, hl16, hls⟩ := hlead
  have hls := hls tm rfl
  have hh := (hc.timing tm ht).bounds.hMin
  have hp := hc.firstPoint tm c n
  unfold State.backLine firstPointLine
  dsimp only
  split
  · have h1 : n + 1 + c.lead - tm.s = n + c.lead - tm.s + 1 := by omega
    have h2 : n - (tm.s - c.lead) = n + c.lead - tm.s := by omega
    rw [h1, List.range_succ, h2]
    exact hp.fetchStart c (by omega)
  · have h1 : n + 1 + c.lead - tm.s = n + c.lead - tm.s := by omega
    rw [h1]
    exact hp

theorem placeView_backLine (s : State) (tm : TimingSet) (c : FrameControl) (n : Nat) :
    placeView (s.backLine tm c n).rtm = placeView s.rtm := by
  have h := placeView_of_scanView (scanView_firstPoint s tm c n)
  unfold State.backLine
  dsimp only
  split
  · simpa using h
  · exact h

/-- The reads that are in flight after the hand-over of line `j` were in flight before, for other lines (R115). -/
theorem inFlight_discardLine {j : Nat} (hr : t.sf.reads = s.sf.reads.map (discardLine j)) {n : Fin 64} {e : ReadEntry}
    (h : InFlight t n e) : InFlight s n e ∧ e.line ≠ j := by
  obtain ⟨hn, he⟩ := h
  rw [hr, Table.get_map] at hn
  unfold discardLine at hn
  split at hn
  · rename_i r hold
    have hr := Option.some.inj hn
    split at hr
    · subst hr
      cases he
    · rename_i hnot
      subst hr
      exact ⟨⟨hold, he⟩, fun hl => hnot ⟨hl, he⟩⟩
  · cases hn

/-- The deadline and hand-over of the line at the head of the buffer (R115 to R117). -/
theorem Course.lineDeadline {j : Nat} {rest : List Nat} (hc : Course s (j :: rest)) (tm : TimingSet) :
    Course (s.lineDeadline tm j) rest := by
  obtain ⟨slot, slots, hbuf, hj, hrest⟩ := List.map_eq_cons_iff.1 hc.buffer
  have hg := hc.unseen (scanView_lateBursts s (slot.bursts.filter Burst.late)) (by simp)
  unfold State.lineDeadline State.handOver
  rw [hbuf]
  dsimp only [headSlot]
  refine { hg with buffer := hrest, reads := ?_ }
  refine hg.reads.stay (fun n e h => (inFlight_discardLine rfl h).1) fun n e h x hx hl => ?_
  have hne := (inFlight_discardLine rfl h).2
  have hx : x ∈ s.sf.buffer := by simpa using hx
  rw [hbuf] at hx
  rcases List.mem_cons.1 hx with rfl | hx
  · exact absurd (hl.symm.trans hj) hne
  · exact hx

theorem placeView_lineDeadline (s : State) (tm : TimingSet) (j : Nat) :
    placeView (s.lineDeadline tm j).rtm = placeView s.rtm := by
  have h := placeView_of_scanView (scanView_lateBursts s ((headSlot j s.sf.buffer).1.bursts.filter Burst.late))
  exact h

/-- The mid-active decision point changes at most the frame's decision kind (R90). -/
theorem Course.decisionPoint (hc : Course s lines) (hf : s.rtm.frame = some c) (j : Nat) :
    Course (s.decisionPoint c j) lines ∧ placeView (s.decisionPoint c j).rtm = placeView s.rtm := by
  unfold State.decisionPoint
  split
  · rename_i k _
    unfold State.midActive
    split
    · exact ⟨hc, rfl⟩
    · split
      · exact ⟨hc, rfl⟩
      · rename_i e u hu
        obtain ⟨older, newer, -, rfl⟩ := s.splitSelection_some hu
        have hv : scanView ((s.freeScanning.takeEntry older e newer).onRecord fun r =>
            { r with split := some (e.surface, k) }) = scanView s :=
          (scanView_onRecord _ (f := fun r => { r with split := some (e.surface, k) }) fun _ => ⟨rfl, rfl⟩).trans
            ((scanView_takeEntry _ older e newer).trans (scanView_freeScanning s))
        have hu := hc.unseen hv (by simp)
        have hframe := hu.frame c ((congrArg (fun v => v.2.2.2.2.2.2.1) hv).trans hf)
        refine ⟨{ hu with frame := ?_ }, ?_⟩
        · rintro d ⟨⟩
          exact hframe
        · have hp := placeView_of_scanView hv
          unfold placeView at hp ⊢
          simp only [Prod.mk.injEq] at hp ⊢
          obtain ⟨h1, h2, h3, -, h5⟩ := hp
          exact ⟨h1, h2, h3, by rw [hf]; rfl, h5⟩
  · exact ⟨hc, rfl⟩

theorem Course.settingsAt (hc : Course s lines) (j : Nat) : Course (s.settingsAt j) lines := by
  unfold State.settingsAt
  split
  · exact hc.waitingInForce
  · exact hc

/-- Active line `j` hands line `j` over and fetches the line that its fetch start names (R106, R107, R117). -/
theorem Course.activeLine {j : Nat} (hc : Course s (List.range' j (min c.lead (tm.h - j))))
    (hf : s.rtm.frame = some c) (hj : j < tm.h) :
    Course (s.activeLine tm c j) (List.range' (j + 1) (min c.lead (tm.h - (j + 1)))) ∧
      placeView (s.activeLine tm c j).rtm = placeView s.rtm := by
  have h1 : 1 ≤ c.lead := (hc.frame c hf).1
  have hcons : List.range' j (min c.lead (tm.h - j)) = j :: List.range' (j + 1) (min c.lead (tm.h - j) - 1) := by
    rw [← List.range'_succ]
    congr 1
    omega
  rw [hcons] at hc
  have hlag := scanView_completeLag s j
  have hframe : (s.completeLag j).rtm.frame = some c := (congrArg (fun v => v.2.2.2.2.2.2.1) hlag).trans hf
  obtain ⟨hd, hdv⟩ := (hc.unseen hlag (by simp)).decisionPoint hframe j
  have hh := (hd.settingsAt j).lineDeadline tm
  have hv : placeView ((((s.completeLag j).decisionPoint c j).settingsAt j).lineDeadline tm j).rtm = placeView s.rtm := by
    rw [placeView_lineDeadline, (State.settingsAt_frame _ j).2.2.2.2.2.1, hdv, placeView_of_scanView hlag]
  unfold State.activeLine
  dsimp only
  generalize (((s.completeLag j).decisionPoint c j).settingsAt j).lineDeadline tm j = u at hh hv
  have hlead : u.rtm.frame.map FrameControl.lead = some c.lead :=
    (congrArg (fun v => v.2.2.2.1) hv).trans (congrArg (Option.map FrameControl.lead) hf)
  obtain ⟨d, hud, hdl⟩ := Option.map_eq_some_iff.1 hlead
  rw [hud, Option.getD_some]
  have hb := hh.bandPoint d j
  have hbv := (placeView_of_scanView (scanView_bandPoint u d j)).trans hv
  by_cases hl : j + d.lead < tm.h
  · have hr : List.range' (j + 1) (min c.lead (tm.h - (j + 1))) =
        List.range' (j + 1) (min c.lead (tm.h - j) - 1) ++ [j + d.lead] := by
      have e1 : min c.lead (tm.h - (j + 1)) = min c.lead (tm.h - j) - 1 + 1 := by omega
      have e2 : j + 1 + (min c.lead (tm.h - j) - 1) = j + d.lead := by omega
      rw [e1, List.range'_1_concat, e2]
    rw [hr]
    exact ⟨hb.fetchStart d hl, by simpa using hbv⟩
  · rw [fetchStart_beyond (by omega)]
    have e1 : min c.lead (tm.h - (j + 1)) = min c.lead (tm.h - j) - 1 := by omega
    rw [e1]
    exact ⟨hb, hbv⟩

/-! ## The lines of a frame -/

/-- A frame under way at its line's place has a record of a kind, its front blank between F_min and F_max (R83). -/
def UnderWay (s : State) (x : Raster) (n : Nat) (tm : TimingSet) (lead : Nat) : Prop :=
  ∃ k front, placeView s.rtm = (x, n, some tm, some lead, some (some k, front)) ∧ tm.fMin ≤ front ∧ front ≤ tm.fMax

theorem UnderWay.congr {x : Raster} {n lead : Nat} (hu : UnderWay s x n tm lead)
    (h : placeView t.rtm = placeView s.rtm) : UnderWay t x n tm lead := by
  unfold UnderWay
  rw [h]
  exact hu

theorem UnderWay.boundary {x : Raster} {n lead : Nat} (hu : UnderWay s x n tm lead) (y : Raster) (m : Nat) :
    UnderWay (s.boundary y m) y m tm lead := by
  obtain ⟨k, front, hv, hlo, hhi⟩ := hu
  unfold placeView at hv
  simp only [Prod.mk.injEq] at hv
  obtain ⟨-, -, ht, hc, hw⟩ := hv
  refine ⟨k, front, ?_, hlo, hhi⟩
  unfold placeView
  rw [State.boundary_rtm, ht, hc, hw]

/-- What a place of a frame under way says of the Raster Timer. -/
theorem UnderWay.parts {x : Raster} {n lead : Nat} (hu : UnderWay s x n tm lead) (hx : inFrame x = true) :
    s.rtm.raster = x ∧ s.rtm.pos = n ∧ s.rtm.timing = some tm ∧ (∃ d, s.rtm.frame = some d ∧ d.lead = lead) ∧
      s.rtm.record.isSome = true ∧ FrontLawful s.rtm := by
  obtain ⟨k, front, hv, hlo, hhi⟩ := hu
  unfold placeView at hv
  simp only [Prod.mk.injEq] at hv
  obtain ⟨hr, hn, ht, hc, hw⟩ := hv
  obtain ⟨w, hrec, hwk⟩ := Option.map_eq_some_iff.1 hw
  obtain ⟨hk, rfl⟩ := Prod.mk.inj hwk
  refine ⟨hr, hn, ht, Option.map_eq_some_iff.1 hc, by rw [hrec]; rfl, fun v hv => ?_⟩
  rw [hrec] at hv
  cases hv
  rw [hk, hr, hx]
  exact ⟨rfl, fun _ => ⟨tm, ht, hlo, hhi⟩⟩

/-- In BACK_BLANK and ACTIVE a frame is under way. -/
theorem Fetching.underWay (hs : Fetching s) (ht : s.rtm.timing = some tm) (hc : s.rtm.frame = some c)
    (h : inFrame s.rtm.raster = true) : UnderWay s s.rtm.raster s.rtm.pos tm c.lead := by
  have hrec : s.rtm.record.isSome = true := by
    have hp := hs.placed
    cases hr : s.rtm.raster with
    | backBlank => exact ((rasterPlaced_backBlank hr ht).1 hp).2.1
    | active => exact ((rasterPlaced_active hr ht).1 hp).2.1
    | off => rw [hr] at h; cases h
    | settle => rw [hr] at h; cases h
    | frontMin => rw [hr] at h; cases h
    | stretch => rw [hr] at h; cases h
  obtain ⟨w, hw⟩ := Option.isSome_iff_exists.1 hrec
  obtain ⟨hk, hfr⟩ := hs.front w hw
  rw [h] at hk
  obtain ⟨k, hk'⟩ := Option.isSome_iff_exists.1 hk
  obtain ⟨u, hu, hlo, hhi⟩ := hfr hk
  rw [ht] at hu
  cases hu
  refine ⟨k, w.front, ?_, hlo, hhi⟩
  unfold placeView
  rw [ht, hc, hw, Option.map_some, Option.map_some, hk']

/-- Fetching at a line of BACK_BLANK. -/
theorem Course.backBlank {n lead : Nat} (hc : Course s (List.range (n + 1 + lead - tm.s)))
    (hu : UnderWay s .backBlank n tm lead) (hn : n < tm.s) : Fetching s := by
  obtain ⟨hr, rfl, ht, ⟨d, hd, rfl⟩, hrec, hfront⟩ := hu.parts rfl
  rw [← bufferLines_backBlank hr ht hd] at hc
  exact hc.fetching ((rasterPlaced_backBlank hr ht).2 ⟨hn, hrec, by rw [hd]; rfl⟩) hfront

/-- Fetching at a line of ACTIVE. -/
theorem Course.active {n lead : Nat} (hc : Course s (List.range' (n + 1) (min lead (tm.h - (n + 1)))))
    (hu : UnderWay s .active n tm lead) (hn : n < tm.h) : Fetching s := by
  obtain ⟨hr, rfl, ht, ⟨d, hd, rfl⟩, hrec, hfront⟩ := hu.parts rfl
  rw [← bufferLines_active hr ht hd] at hc
  exact hc.fetching ((rasterPlaced_active hr ht).2 ⟨hn, hrec, by rw [hd]; rfl⟩) hfront

end

end Sys2Proof.Safety
end

