-- ==== Sys2Proof/Proofs/Fetching.lean ====
section
/-! Every step keeps each read in flight matched with its burst: the boundaries, the commands and the M-port. -/

namespace Sys2Proof.Safety

open Sys2Proof.Machine

section
variable {s t : State} {tm : TimingSet}

/-! ## The boundaries (chapter 4) -/

/-- The frame that the end of a front blank fixes begins with no line in the buffer (R87, R104). -/
theorem Course.frameFixed (hc : Course s []) (kind : FrameKind)
    (source : Option (Fin 8)) (front : Nat) (skipped : Bool) (hb nb : Nat) :
    Course (frameFixed s kind source front skipped hb nb) [] :=
  ⟨hc.timing, hc.pending, hc.inForce, hc.waiting, by rintro c ⟨⟩; exact hc.inForce, hc.buffer, hc.reads⟩

theorem underWay_frameFixed (ht : s.rtm.timing = some tm) (hr : s.rtm.record.isSome = true) {front : Nat}
    (hlo : tm.fMin ≤ front) (hhi : front ≤ tm.fMax) (kind : FrameKind) (source : Option (Fin 8)) (skipped : Bool)
    (hb nb : Nat) :
    UnderWay (frameFixed s kind source front skipped hb nb) .backBlank 0 tm s.sf.inForce.lead := by
  obtain ⟨w, hw⟩ := Option.isSome_iff_exists.1 hr
  refine ⟨kind, front, ?_, hlo, hhi⟩
  unfold frameFixed placeView
  simp [ht, hw]

/-- The front blank ends and BACK_BLANK begins (R87, R88, R104). -/
theorem Course.beginBackBlank (hc : Course s []) (ht : s.rtm.timing = some tm) (hr : s.rtm.record.isSome = true)
    {front : Nat} (hlo : tm.fMin ≤ front) (hhi : front ≤ tm.fMax) (kind : FrameKind) (source : Option (Fin 8))
    (skipped : Bool) (hb nb : Nat) : Fetching (s.beginBackBlank tm kind source front skipped hb nb) := by
  have h0 := hc.frameFixed kind source front skipped hb nb
  have h4 := (hc.timing tm ht).bounds.sMin
  have hlead : LeadLawful (some tm) s.sf.inForce.lead := ht ▸ hc.inForce
  have hls : s.sf.inForce.lead ≤ tm.s := hlead.2.2 tm rfl
  have hnone : List.range (0 + s.sf.inForce.lead - tm.s) = [] := by
    rw [show 0 + s.sf.inForce.lead - tm.s = 0 by omega, List.range_zero]
  rw [← hnone] at h0
  have hb1 := h0.backLine (c := { decision := kind, hb := hb, nb := nb, lead := s.sf.inForce.lead }) ht hlead (by omega)
  have hu := (underWay_frameFixed ht hr hlo hhi kind source skipped hb nb).congr
    (placeView_backLine _ tm { decision := kind, hb := hb, nb := nb, lead := s.sf.inForce.lead } 0)
  rw [beginBackBlank_eq]
  exact Course.backBlank (hb1.congr rfl) (hu.congr rfl) (by omega)

/-- The front blank ends with a taken entry (R84, R85). -/
theorem Fetching.beginNew (hs : Fetching s) (hf : inFrame s.rtm.raster = false) (ht : s.rtm.timing = some tm)
    (hr : s.rtm.record.isSome = true) {front : Nat} (hlo : tm.fMin ≤ front) (hhi : front ≤ tm.fMax) (skipped : Bool)
    {e : Entry} (h : s.frontSelection = some (e, t)) : Fetching (t.beginNew tm e front skipped) := by
  obtain ⟨older, newer, -, rfl⟩ := s.frontSelection_some h
  have hv := scanView_takeEntry s older e newer
  have hc := (hs.idle hf).unseen hv (by simp)
  generalize s.takeEntry older e newer = u at hv hc
  have hl : Course { u with rtm := { u.rtm with lag := some { arrival := e.arrival, line := 0 } } } [] := hc.congr rfl
  exact hl.beginBackBlank ((timing_of_scanView hv).trans ht) ((record_isSome_of_scanView hv).trans hr) hlo hhi ..

/-- The front blank expires (R86, R87). -/
theorem Course.expire (hc : Course s []) (ht : s.rtm.timing = some tm) (hr : s.rtm.record.isSome = true) {front : Nat}
    (hlo : tm.fMin ≤ front) (hhi : front ≤ tm.fMax) : Fetching (s.expire tm front) := by
  unfold State.expire
  split
  · exact Course.beginBackBlank (s := s.raise .repeated) (hc.congr rfl) ht hr hlo hhi ..
  · exact Course.beginBackBlank (s := s.raise .fillFrame) (hc.congr rfl) ht hr hlo hhi ..

theorem Fetching.lineBoundary (hs : Fetching s) : Fetching (lineBoundary s) := by
  have hp := hs.placed
  cases ht : s.rtm.timing with
  | none => rw [lineBoundary_untimed ht]; exact hs
  | some tm =>
    cases hr : s.rtm.raster with
    | settle =>
      obtain ⟨-, hrec, hfr, ho⟩ := (rasterPlaced_settle hr ht).1 hp
      rw [lineBoundary_settle ht hr]
      split
      · rename_i hn
        exact hs.blankLine .settle _ _ (by rw [hr]; rfl) rfl (Iff.mpr (rasterPlaced_settle rfl ht) ⟨hn, hrec, hfr, ho⟩)
      · exact hs
    | frontMin =>
      obtain ⟨-, hrec, hfr, ho⟩ := (rasterPlaced_frontMin hr ht).1 hp
      rw [lineBoundary_frontMin ht hr]
      split
      · rename_i hn
        exact hs.blankLine .frontMin _ _ (by rw [hr]; rfl) rfl
          (Iff.mpr (rasterPlaced_frontMin rfl ht) ⟨hn, hrec, hfr, ho⟩)
      · exact hs
    | backBlank =>
      obtain ⟨-, -, hfr⟩ := (rasterPlaced_backBlank hr ht).1 hp
      obtain ⟨c, hc⟩ := Option.isSome_iff_exists.1 hfr
      have hco := hs.course
      rw [bufferLines_backBlank hr ht hc] at hco
      have hu := hs.underWay ht hc (by rw [hr]; rfl)
      rw [lineBoundary_backBlank ht hr hc]
      split
      · rename_i hn
        have hb : Course (s.boundary .backBlank (s.rtm.pos + 1)) (List.range (s.rtm.pos + 1 + c.lead - tm.s)) :=
          hco.congr rfl
        exact Course.backBlank (lead := c.lead) ((hb.backLine ht (ht ▸ hco.frame c hc) hn).congr rfl)
          (((hu.boundary .backBlank _).congr (placeView_backLine ..)).congr rfl) hn
      · exact hs
    | off => rw [lineBoundary_elsewhere (.inl hr)]; exact hs
    | stretch => rw [lineBoundary_elsewhere (.inr (.inl hr))]; exact hs
    | active => rw [lineBoundary_elsewhere (.inr (.inr hr))]; exact hs

theorem Fetching.settleDone (hs : Fetching s) : Fetching (settleDone s) := by
  cases ht : s.rtm.timing with
  | none => rw [settleDone_untimed ht]; exact hs
  | some tm =>
    rw [settleDone_eq ht]
    split
    · rename_i h
      obtain ⟨-, -, hfr, ho⟩ := (rasterPlaced_settle h.1 ht).1 hs.placed
      have hc : Course s [] := hs.idle (by rw [h.1]; rfl)
      exact Course.enterFrontMin (s := s.raise .settleDone) (hc.congr rfl) ht hfr ho
    · exact hs

/-- The boundary that ends a line of a front blank of at most F_max lines (R84 to R86). -/
theorem Fetching.frontLineEnd (hs : Fetching s) (hf : inFrame s.rtm.raster = false) (ht : s.rtm.timing = some tm)
    (hr : s.rtm.record.isSome = true) (ho : s.rtm.offPending = false) {front pos : Nat}
    (hpos : front = tm.fMin + pos) (hhi : front ≤ tm.fMax) (skipped : Bool) :
    Fetching (frontLineEnd s tm front skipped pos) := by
  have hlo : tm.fMin ≤ front := hpos ▸ Nat.le_add_right ..
  unfold Safety.frontLineEnd
  split
  · rename_i e u hsel
    exact hs.beginNew hf ht hr hlo hhi skipped hsel
  · split
    · rename_i hlt
      exact hs.blankLine .stretch pos .stretch hf rfl
        (Iff.mpr (rasterPlaced_stretch rfl ht) ⟨hpos ▸ hlt, hr, hs.placed.frame_none hf, ho⟩)
    · exact (hs.idle hf).expire ht hr hlo hhi

theorem Fetching.frontMinEnd (hs : Fetching s) : Fetching (frontMinEnd s) := by
  cases ht : s.rtm.timing with
  | none => unfold Machine.frontMinEnd; rw [ht]; exact hs
  | some tm =>
    by_cases h : s.rtm.raster = .frontMin ∧ tm.fMin ≤ s.rtm.pos + 1
    · obtain ⟨-, hrec, -, ho⟩ := (rasterPlaced_frontMin h.1 ht).1 hs.placed
      rw [frontMinEnd_due s ht h]
      exact hs.frontLineEnd (by rw [h.1]; rfl) ht hrec ho (by rfl) (hs.course.timing tm ht).bounds.fOrder true
    · rw [frontMinEnd_not_due s ht h]
      exact hs

theorem Fetching.stretchBoundary (hs : Fetching s) : Fetching (stretchBoundary s) := by
  by_cases hr : s.rtm.raster = .stretch
  · cases ht : s.rtm.timing with
    | none => unfold Machine.stretchBoundary; rw [ht]; exact hs
    | some tm =>
      obtain ⟨hpos, hrec, -, ho⟩ := (rasterPlaced_stretch hr ht).1 hs.placed
      rw [stretchBoundary_stretch s ht hr]
      exact hs.frontLineEnd (by rw [hr]; rfl) ht hrec ho (by rfl) hpos false
  · rw [stretchBoundary_elsewhere s hr]
    exact hs

theorem Fetching.stretchExpiry (hs : Fetching s) : Fetching (stretchExpiry s) := by
  by_cases hr : s.rtm.raster = .stretch
  · cases ht : s.rtm.timing with
    | none => unfold Machine.stretchExpiry; rw [ht]; exact hs
    | some tm =>
      rw [stretchExpiry_stretch s ht hr]
      split
      · exact hs.stretchBoundary
      · exact hs
  · rw [stretchExpiry_elsewhere s hr]
    exact hs

theorem Fetching.activeStart (hs : Fetching s) : Fetching (activeStart s) := by
  by_cases h : ∃ tm c, s.rtm.timing = some tm ∧ s.rtm.frame = some c
  · obtain ⟨tm, c, ht, hc⟩ := h
    rw [activeStart_eq ht hc]
    split
    · rename_i h
      obtain ⟨hpos, -, -⟩ := (rasterPlaced_backBlank h.1 ht).1 hs.placed
      have hco := hs.course
      have hh := (hco.timing tm ht).bounds.hMin
      have hl : c.lead ≤ 16 := (hco.frame c hc).2.1
      have hlines : bufferLines s.rtm = List.range' 0 (min c.lead (tm.h - 0)) := by
        rw [bufferLines_backBlank h.1 ht hc, List.range_eq_range']
        congr 1
        omega
      rw [hlines] at hco
      have hb : Course (activeBegun s) (List.range' 0 (min c.lead (tm.h - 0))) := hco.congr rfl
      have hu : UnderWay (activeBegun s) .active 0 tm c.lead :=
        ((hs.underWay ht hc (by rw [h.1]; rfl)).boundary .active 0).congr (placeView_of_scanView
          (scanView_onRecord _ (f := fun r => { r with activeLine := s.rtm.lc + 1 }) fun _ => ⟨rfl, rfl⟩))
      obtain ⟨hline, hv⟩ := hb.activeLine hc (by omega)
      exact hline.active (hu.congr hv) (by omega)
    · exact hs
  · unfold Machine.activeStart
    split
    · rename_i tm c ht hc
      exact absurd ⟨tm, c, ht, hc⟩ h
    · exact hs

theorem Fetching.activeLine (hs : Fetching s) : Fetching (activeLine s) := by
  by_cases h : ∃ tm c, s.rtm.timing = some tm ∧ s.rtm.frame = some c
  · obtain ⟨tm, c, ht, hc⟩ := h
    rw [activeLine_eq ht hc]
    split
    · rename_i h
      have hco := hs.course
      rw [bufferLines_active h.1 ht hc] at hco
      have hb : Course (s.boundary .active (s.rtm.pos + 1))
        (List.range' (s.rtm.pos + 1) (min c.lead (tm.h - (s.rtm.pos + 1)))) := hco.congr rfl
      obtain ⟨hline, hv⟩ := hb.activeLine hc h.2
      exact hline.active (((hs.underWay ht hc (by rw [h.1]; rfl)).boundary .active _).congr hv) h.2
    · exact hs
  · unfold Machine.activeLine
    split
    · rename_i tm c ht hc
      exact absurd ⟨tm, c, ht, hc⟩ h
    · exact hs

/-- Steps 3 and 4 of R91, from outside a frame with no record. -/
theorem Course.nextFrame (hc : Course s []) (hf : s.rtm.frame = none) (hr : s.rtm.record = none)
    (ht : s.rtm.timing = some tm) : Fetching s.nextFrame := by
  unfold State.nextFrame
  split
  · rename_i u hu
    have hc' := hc.timingInForce hf (hc.pending u hu)
    have hrt := timingInForce_rtm s u
    dsimp only
    split
    · exact hc'.enterOff
    · rename_i ho
      exact hc'.enterSettle (by rw [hrt]) (by rw [hrt]; exact hf) (by simpa using ho) (by rw [hrt]; exact hr)
  · split
    · exact hc.enterOff
    · rename_i ho
      exact hc.enterFrontMin ht hf (by simpa using ho)

/-- When the last active line ends, the buffer is empty already, and so no read is in flight (R107, R115). -/
theorem Fetching.endOfActive (hs : Fetching s) : Fetching (endOfActive s) := by
  cases ht : s.rtm.timing with
  | none => unfold Machine.endOfActive; rw [ht]; exact hs
  | some tm =>
    by_cases h : s.rtm.raster = .active ∧ tm.h ≤ s.rtm.pos + 1
    · rw [endOfActive_due ht h]
      obtain ⟨-, -, hframe⟩ := (rasterPlaced_active h.1 ht).1 hs.placed
      obtain ⟨c, hc⟩ := Option.isSome_iff_exists.1 hframe
      have hco := hs.course
      have hempty : bufferLines s.rtm = [] := by
        rw [bufferLines_active h.1 ht hc, Nat.sub_eq_zero_of_le h.2, Nat.min_zero]
        rfl
      rw [hempty] at hco
      have hbuf : s.sf.buffer = [] := List.map_eq_nil_iff.1 hco.buffer
      have hrtm : s.handRecord.settleSurfaces.endFrame.rtm =
          { s.rtm with record := none, frameCount := s.rtm.frameCount + 1, frame := none, lag := none } := by
        unfold State.endFrame; simp [State.handRecord]
      have hsf : s.handRecord.settleSurfaces.endFrame.sf = { s.sf with sources := [], buffer := [], prior := none } := by
        unfold State.endFrame; simp [State.handRecord]
      have hend : Course s.handRecord.settleSurfaces.endFrame [] := by
        constructor
        · rw [hrtm]; exact hco.timing
        · rw [hrtm]; exact hco.pending
        · rw [hrtm, hsf]; exact hco.inForce
        · rw [hrtm, hsf]; exact hco.waiting
        · rw [hrtm]; exact nofun
        · rw [hsf]; rfl
        · exact hco.reads.congr (by rw [hsf]) (by rw [hsf, hbuf])
      exact hend.nextFrame (by rw [hrtm]) (by rw [hrtm]) (by rw [hrtm]; exact ht)
    · rw [endOfActive_not_due ht h]
      exact hs

/-! ## The commands that set the raster, the settings or the reads -/

/-- A result changes neither the raster nor the fetcher (R159). -/
theorem Fetching.result (hs : Fetching s) (l : Lane) (code : BitVec 8) (r : Result) : Fetching (s.result l code r) :=
  hs.of_blocks (by simp) (by simp)

theorem Fetching.timingInForce (hs : Fetching s) (hr : s.rtm.raster = .off) (ht : TimingLawful tm) :
    Fetching (s.timingInForce tm) := by
  have hrt := timingInForce_rtm s tm
  obtain ⟨r1, r2, -, r4, r5⟩ := (rasterPlaced_off hr).1 hs.placed
  refine ((hs.idle (by rw [hr]; rfl)).timingInForce r2 ht).outside ?_ (by rw [hrt]; simp [hr, inFrame]) ?_
  · rw [hrt]
    exact Iff.mpr (rasterPlaced_off hr) ⟨r1, r2, rfl, r4, r5⟩
  · rw [hrt]
    exact fun w hw => absurd (r1.symm.trans hw) nofun

theorem Fetching.pend (hs : Fetching s) (hr : s.rtm.raster ≠ .off) (ht : TimingLawful tm) :
    Fetching { s with rtm := { s.rtm with pendingSet := some tm } } := by
  have hc := hs.course
  refine Course.fetching ⟨hc.timing, ?_, hc.inForce, hc.waiting, hc.frame, hc.buffer, hc.reads⟩
    (hs.placed.congr hr rfl rfl rfl rfl rfl (.inr rfl)) hs.front
  rintro u ⟨⟩
  exact ht

theorem Fetching.commitTiming (hs : Fetching s) (entry : BitVec 16) : Fetching (commitTiming entry s) := by
  unfold Machine.commitTiming
  split
  · exact hs.result ..
  · split
    · exact hs.result ..
    · split
      · rename_i hin
        have ht := timingLawful_timingSet hin
        refine Fetching.result ?_ ..
        by_cases hr : s.rtm.raster = .off
        · rw [installTiming_off hr]
          exact hs.timingInForce hr ht
        · rw [installTiming_running hr]
          exact hs.pend hr ht
      · exact hs.result ..

theorem installFetch_off {f : FetchSet} (h : s.rtm.raster = .off) : s.installFetch f = s.fetchInForce f := by
  unfold State.installFetch
  rw [h]

theorem installFetch_running {f : FetchSet} (h : s.rtm.raster ≠ .off) :
    s.installFetch f = { s with sf := { s.sf with waiting := some f } } := by
  unfold State.installFetch
  split
  · rename_i hoff
    exact absurd hoff h
  all_goals rfl

theorem Fetching.commitFetch (hs : Fetching s) (entry : BitVec 16) : Fetching (commitFetch entry s) := by
  unfold Machine.commitFetch
  split
  · exact hs.result ..
  · split
    · exact hs.result ..
    · rename_i f changed hf
      have hc := hs.course
      have hl : LeadLawful s.rtm.timing f.lead := by
        rw [fetchSet_lead hf]
        exact leadLawful_clampLead hc.timing _
      refine Fetching.result ?_ ..
      by_cases hr : s.rtm.raster = .off
      · rw [installFetch_off hr]
        exact (hc.fetchInForce hl).fetching hs.placed hs.front
      · rw [installFetch_running hr]
        refine Course.fetching ⟨hc.timing, hc.pending, hc.inForce, ?_, hc.frame, hc.buffer, hc.reads⟩ hs.placed hs.front
        rintro g ⟨⟩
        exact hl

theorem Fetching.outputOn (hs : Fetching s) : Fetching (outputOn s) := by
  cases ht : s.rtm.timing with
  | none => rw [outputOn_untimed ht]; exact hs.result ..
  | some tm =>
    by_cases hr : s.rtm.raster = .off
    · obtain ⟨r1, r2, -, r4, -⟩ := (rasterPlaced_off hr).1 hs.placed
      rw [outputOn_off ht hr]
      exact ((hs.idle (by rw [hr]; rfl)).enterSettle ht r2 r4 r1).result ..
    · rw [outputOn_running ht hr]
      exact hs.result ..

theorem Fetching.outputOff (hs : Fetching s) : Fetching (outputOff s) := by
  refine Fetching.result ?_ ..
  unfold State.stopRaster
  have hpend : inFrame s.rtm.raster = true → Fetching { s with rtm := { s.rtm with offPending := true } } := by
    intro hr
    have hc := hs.course
    refine Course.fetching ⟨hc.timing, hc.pending, hc.inForce, hc.waiting, hc.frame, hc.buffer, hc.reads⟩
      (hs.placed.congr (fun h => ?_) rfl rfl rfl rfl rfl (.inl hr)) hs.front
    rw [h] at hr
    cases hr
  split
  · exact hs
  · rename_i hr; exact (hs.idle (by rw [hr]; rfl)).enterOff
  · rename_i hr; exact (hs.idle (by rw [hr]; rfl)).enterOff
  · rename_i hr; exact (hs.idle (by rw [hr]; rfl)).enterOff
  · rename_i hr; exact hpend (by rw [hr]; rfl)
  · rename_i hr; exact hpend (by rw [hr]; rfl)

/-- After a soft reset no read is in flight (R120). -/
theorem readsMatched_softReset {f : Fetcher} (h : t.sf = f.softReset) : ReadsMatched t := by
  have hnone : ∀ n e, ¬ InFlight t n e := by
    rintro n e ⟨hn, he⟩
    rw [h] at hn
    unfold Fetcher.softReset at hn
    rw [Table.get_map] at hn
    obtain ⟨r, -, rfl⟩ := Option.map_eq_some_iff.1 hn
    cases he
  exact ⟨fun n e h => absurd h (hnone n e), fun m _ e _ h => absurd h (hnone m e)⟩

theorem Fetching.softReset (hs : Fetching s) : Fetching (softReset s) := by
  have hcut : Fetching { s with rtm := s.rtm.cutFrame } := hs.congr (scanView_cutFrame s) rfl
  have hc := hcut.course
  refine Fetching.result (s := { s with
    cd := { s.cd with render := .zero, present := .zero, control := .zero }
    st := s.st.map Surface.softReset
    bt := { s.bt with bands := .replicate 8 .cleared, wtt := .replicate 256 none }
    pq := { s.pq with queue := [] }, rtm := s.rtm.cutFrame, sf := s.sf.softReset, rw := s.rw.softReset }) ?_ ..
  refine Course.fetching ⟨hc.timing, hc.pending, hc.inForce, hc.waiting, hc.frame, ?_, readsMatched_softReset rfl⟩
    hcut.placed hcut.front
  show (s.sf.buffer.map Slot.fillOf).map Slot.line = _
  rw [List.map_map]
  exact hc.buffer

theorem fetching_powerOnReset (wsel : BitVec 4) (linkUp crst : Bool) (s : State) :
    Fetching (powerOnReset wsel linkUp crst s) := by
  obtain ⟨-, -, -, -, hf, -⟩ := powerOnReset_blocks wsel linkUp crst s
  exact ⟨(scanout_powerOnReset wsel linkUp crst s).1, readsMatched_none fun n => by
    rw [hf]; exact Table.get_replicate n _⟩

/-! ## The M-port (R110, R112, R113) -/

/-- The buffer holds no line twice (R107). -/
theorem Fetching.nodup (hs : Fetching s) : (s.sf.buffer.map Slot.line).Nodup :=
  hs.course.buffer ▸ bufferLines_nodup _

/-- Another status of a burst and other reads, matched again, under the same raster and settings. -/
theorem Fetching.rebuffer (hs : Fetching s) {l i : Nat} {b : Burst} {f : Fetcher}
    (hf : f = { s.sf with buffer := setBurst l i b s.sf.buffer, reads := f.reads })
    (hm : ReadsMatched { s with sf := f }) : Fetching { s with sf := f } := by
  have hc := hs.course
  refine Course.fetching ⟨hc.timing, hc.pending, ?_, ?_, hc.frame, ?_, hm⟩ hs.placed hs.front
  · rw [hf]; exact hc.inForce
  · rw [hf]; exact hc.waiting
  · rw [hf]; exact (setBurst_lines ..).trans hc.buffer

/-- The next burst is issued under a free tag (R110). -/
theorem Fetching.grantFetch (hs : Fetching s) (grade : Claimant) : Fetching (s.grantFetch grade) := by
  unfold State.grantFetch
  split
  · rename_i slot src i n hnext _
    obtain ⟨hslot, -, hi⟩ := nextBurst_some hnext
    obtain ⟨hi, -⟩ := (firstNotIssued_iff _ _).1 hi
    have hset := hs.rebuffer (l := slot.line) (i := i) (b := .inFlight)
      (f := { s.sf with buffer := setBurst slot.line i .inFlight s.sf.buffer
                        reads := s.sf.reads.set n (some { line := slot.line, burst := i, state := .inFlight }) })
      rfl (hs.2.issue hs.nodup hslot hi n rfl rfl)
    exact hset.of_blocks rfl rfl
  · exact hs

theorem Fetching.grant (hs : Fetching s) : Fetching (grant s) := by
  unfold Machine.grant
  split
  · exact hs
  · split
    · exact hs
    · exact hs.grantFetch _
    · exact hs.of_blocks (by simp) (by simp)
    · exact hs.grantFetch _
    · exact hs.of_blocks (by simp) (by simp)

/-- A read in flight is answered: its tag is free, and its burst has another status (R112, R113). -/
theorem Fetching.answer (hs : Fetching s) {n : Fin 64} {e : ReadEntry} (he : InFlight s n e) (b : Burst) :
    Fetching ((s.freeRead n).setReadBurst e b) :=
  hs.rebuffer (f := ((s.freeRead n).setReadBurst e b).sf) rfl (hs.2.answer he rfl b rfl)

theorem Fetching.freeRead (hs : Fetching s) (n : Fin 64) : Fetching (s.freeRead n) := by
  have hc := hs.course
  exact Course.fetching ⟨hc.timing, hc.pending, hc.inForce, hc.waiting, hc.frame, hc.buffer, hc.reads.free n rfl rfl⟩
    hs.placed hs.front

theorem Fetching.fetchResponse (hs : Fetching s) (n : Fin 64) (kind : RespKind) (status : Status)
    (data : List (BitVec 64)) : Fetching (fetchResponse n kind status data s) := by
  unfold Machine.fetchResponse
  split
  · exact hs.of_blocks rfl rfl
  · exact hs.of_blocks rfl rfl
  · rename_i e hread
    unfold State.readData
    split
    · exact hs.freeRead n
    · rename_i hstate
      cases status with
      | ok =>
        dsimp only
        unfold State.completeBurst
        split
        · exact hs.freeRead n
        · dsimp only
          split
          · exact (hs.answer ⟨hread, hstate⟩ _).of_blocks rfl rfl
          · exact hs.answer ⟨hread, hstate⟩ _
      | error =>
        exact (hs.answer ⟨hread, hstate⟩ .failed).congr (scanView_onRecord _
          (f := fun r => { r with fetchError := count16 r.fetchError }) fun _ => ⟨rfl, rfl⟩) rfl

end

/-! ## The commands that leave the fetcher as it is -/

section
variable (s : State)

theorem openFrame_sf (id : BitVec 8) : (openFrame id s).sf = s.sf := by
  unfold openFrame; dsimp only; (repeat' split) <;> simp

theorem release_sf (id : BitVec 8) (first last : BitVec 16) : (release id first last s).sf = s.sf := by
  unfold release; dsimp only; (repeat' split) <;> simp

theorem abandon_sf (id : BitVec 8) : (abandon id s).sf = s.sf := by
  unfold abandon; (repeat' split) <;> simp

theorem present_sf (id : BitVec 8) (a b : BitVec 16) : (present id a b s).sf = s.sf := by
  unfold present; (repeat' split) <;> simp

theorem withdraw_sf (id : BitVec 8) : (withdraw id s).sf = s.sf := by
  unfold withdraw; (repeat' split) <;> simp

theorem commitResult_blocks (r : Result) : (s.commitResult r).rtm = s.rtm ∧ (s.commitResult r).sf = s.sf := by
  unfold State.commitResult; simp

theorem defineSurface_blocks (i : Fin 8) (g : StagedSurface) :
    (s.defineSurface i g).rtm = s.rtm ∧ (s.defineSurface i g).sf = s.sf := by
  unfold State.defineSurface
  split
  · exact commitResult_blocks s _
  · split
    · split
      · exact commitResult_blocks s _
      · exact commitResult_blocks (s.installGeometry i _) _
    · exact commitResult_blocks s _

/-- COMMIT(SURFACE) leaves the raster and the fetcher: it changes no frame under way (R3 to R7). -/
theorem commitSurface_blocks (entry : BitVec 16) :
    (commitSurface entry s).rtm = s.rtm ∧ (commitSurface entry s).sf = s.sf := by
  unfold commitSurface
  split
  · exact commitResult_blocks s _
  · split
    · exact commitResult_blocks s _
    · dsimp only
      split
      · exact commitResult_blocks (s.installGeometry _ _) _
      · exact defineSurface_blocks s _ _

theorem commitNotice_sf (entry : BitVec 16) : (commitNotice entry s).sf = s.sf := by
  unfold commitNotice; (repeat' split) <;> simp [commitResult_blocks]

theorem commitMarker_sf (entry : BitVec 16) : (commitMarker entry s).sf = s.sf := by
  unfold commitMarker; (repeat' split) <;> simp [commitResult_blocks]

theorem enableReport_sf (base : Nat) : (s.enableReport base).sf = s.sf := by
  unfold State.enableReport; (repeat' split) <;> simp [commitResult_blocks]

theorem commitReport_sf (entry : BitVec 16) : (commitReport entry s).sf = s.sf := by
  unfold commitReport
  split
  · exact (commitResult_blocks s _).2
  · dsimp only
    split
    · exact (commitResult_blocks s _).2
    · simp [commitResult_blocks]
    · exact enableReport_sf s _

theorem viewSelect_sf (a : BitVec 16) : (viewSelect a s).sf = s.sf := by
  unfold viewSelect; split <;> simp

theorem tableData_sf (value : BitVec 64) : (tableData value s).sf = s.sf := by
  unfold tableData; split <;> simp

theorem consoleResponse_sf (tag : Fin 256) (kind : RespKind) (status : Status) (data : List (BitVec 64)) :
    (consoleResponse tag kind status data s).sf = s.sf := by
  unfold consoleResponse; dsimp only; (repeat' split) <;> simp

theorem linkReset_sf : (linkReset s).sf = s.sf := by
  unfold linkReset; split <;> rfl

theorem linkUpChange_sf (level : Bool) (sent : Nat) : (linkUpChange level sent s).sf = s.sf := by
  unfold linkUpChange; split <;> rfl

theorem reportAck_sf (n : Fin 16) (status : Status) : (reportAck n status s).sf = s.sf := by
  unfold reportAck; split <;> rfl

theorem strayResponse_sf (tag : Fin 512) (kind : RespKind) (status : Status) :
    (strayResponse tag kind status s).sf = s.sf := by
  unfold strayResponse; (repeat' split) <;> rfl

theorem statusWriteBegin_sf : (statusWriteBegin s).sf = s.sf := by
  unfold statusWriteBegin; split <;> rfl

end

/-! ## The console's traffic, and every step -/

section
variable {s t : State}

/-- What the scanout does not see, of a command that leaves the fetcher. -/
theorem Fetching.unseen (hs : Fetching s) (h : scanView t = scanView s) (hf : t.sf = s.sf) : Fetching t :=
  hs.congr h (congrArg Fetcher.reads hf)

theorem Fetching.runCommand (hs : Fetching s) (c : Instr) : Fetching (runCommand c s) := by
  cases c with
  | openFrame id => exact hs.unseen (scanView_openFrame s id) (openFrame_sf s id)
  | release id first last => exact hs.unseen (scanView_release s id first last) (release_sf s id first last)
  | abandon id => exact hs.unseen (scanView_abandon s id) (abandon_sf s id)
  | present id a b => exact hs.unseen (scanView_present s id a b) (present_sf s id a b)
  | withdraw id => exact hs.unseen (scanView_withdraw s id) (withdraw_sf s id)
  | commitSurface e => exact hs.of_blocks (commitSurface_blocks s e).1 (commitSurface_blocks s e).2
  | commitTiming e => exact hs.commitTiming e
  | commitFetch e => exact hs.commitFetch e
  | commitNotice e => exact hs.unseen (scanView_commitNotice s e) (commitNotice_sf s e)
  | commitMarker e => exact hs.unseen (scanView_commitMarker s e) (commitMarker_sf s e)
  | commitReport e => exact hs.unseen (scanView_commitReport s e) (commitReport_sf s e)
  | outputOn => exact hs.outputOn
  | outputOff => exact hs.outputOff
  | clearEvents b c => exact hs.of_blocks (State.result_frame ..).2.2.2.2.1 (State.result_frame ..).2.2.2.2.2.1
  | viewSelect a => exact hs.unseen (scanView_viewSelect s a) (viewSelect_sf s a)
  | softReset => exact hs.softReset
  | unknown lane code => exact hs.result ..
  | wrongLane lane code => exact hs.result ..
  | tableIndex v => exact hs.of_blocks rfl rfl
  | tableData v => exact hs.unseen (scanView_tableData s v) (tableData_sf s v)
  | reportNow v => exact hs.of_blocks rfl rfl
  | misplacedWrite => exact hs.of_blocks rfl rfl
  | _ => exact hs

theorem Fetching.accept (hs : Fetching s) (r : Request) (rest : List Request) (o : Offer) :
    Fetching (s.accept r rest o) := by
  have hfault : ∀ {u : State} (b : Bool) (c : FaultCause) (n : Nat), Fetching u →
      Fetching (if b then u.linkProtocol c n else u) := by
    intro u b c n hu
    split
    · exact hu.of_blocks rfl rfl
    · exact hu
  have haction : ∀ {u : State}, Fetching u → Fetching (if u.toPage r then u.decodeBeats r else u.takeOffer r.tag o) := by
    intro u hu
    split
    · exact State.decodeBeats_keeps u Fetching (fun i _ h => h.runCommand i) (fun _ h => h.result ..) r hu
    · exact hu.unseen (scanView_takeOffer u r.tag o) (by simp)
  have h0 : Fetching (headTaken rest s) := hs.of_blocks rfl rfl
  unfold State.accept
  exact Fetching.of_blocks (haction (hfault _ _ _ (hfault _ _ _ h0))) rfl rfl

theorem Fetching.tryHead (hs : Fetching s) : Fetching s.tryHead := by
  unfold State.tryHead
  split
  · exact hs
  · split
    · split
      · unfold State.stallWrite
        split
        · exact hs
        · exact hs.of_blocks rfl rfl
      all_goals exact hs.accept _ _ _
    · exact hs

/-- A step with nothing to do ends the line (log 33). -/
theorem Fetching.endLine (hs : Fetching s) : Fetching { s with rtm := s.rtm.endLine } := by
  by_cases hr : s.rtm.raster = .off
  · rw [RasterTimer.endLine_off hr]
    exact hs
  · rw [RasterTimer.endLine_on hr]
    have hc := hs.course
    exact Course.fetching ⟨hc.timing, hc.pending, hc.inForce, hc.waiting, hc.frame, hc.buffer, hc.reads⟩
      (hs.placed.congr hr rfl rfl rfl rfl rfl (.inr rfl)) hs.front

theorem Fetching.exec (hs : Fetching s) (c : Instr) (h : exec c s = .next t) : Fetching t := by
  cases c with
  | powerOnReset wsel linkUp crst => cases h; exact fetching_powerOnReset wsel linkUp crst s
  | linkReset => cases h; exact hs.unseen (scanView_linkReset s) (linkReset_sf s)
  | crstRelease => cases h; exact hs.of_blocks rfl rfl
  | linkUpChange level sent =>
    cases h; exact hs.unseen (scanView_linkUpChange s level sent) (linkUpChange_sf s level sent)
  | requestAccept arriving => cases h; exact Fetching.tryHead (hs.of_blocks rfl rfl)
  | consoleResponse tag kind status data =>
    cases h
    exact hs.unseen (scanView_consoleResponse s tag kind status data) (consoleResponse_sf s tag kind status data)
  | fetchResponse n kind status data => cases h; exact hs.fetchResponse n kind status data
  | reportAck n status => cases h; exact hs.unseen (scanView_reportAck s n status) (reportAck_sf s n status)
  | strayResponse tag kind status =>
    cases h; exact hs.unseen (scanView_strayResponse s tag kind status) (strayResponse_sf s tag kind status)
  | grant => cases h; exact hs.grant
  | channelFree => cases h; exact hs.of_blocks rfl rfl
  | statusWriteBegin => cases h; exact hs.unseen (scanView_statusWriteBegin s) (statusWriteBegin_sf s)
  | lineBoundary => cases h; exact hs.lineBoundary
  | settleDone => cases h; exact hs.settleDone
  | frontMinEnd => cases h; exact hs.frontMinEnd
  | stretchBoundary => cases h; exact hs.stretchBoundary
  | stretchExpiry => cases h; exact hs.stretchExpiry
  | activeStart => cases h; exact hs.activeStart
  | activeLine => cases h; exact hs.activeLine
  | endOfActive => cases h; exact hs.endOfActive
  | openFrame id => cases h; exact hs.runCommand (.openFrame id)
  | release id first last => cases h; exact hs.runCommand (.release id first last)
  | abandon id => cases h; exact hs.runCommand (.abandon id)
  | present id a b => cases h; exact hs.runCommand (.present id a b)
  | withdraw id => cases h; exact hs.runCommand (.withdraw id)
  | commitSurface e => cases h; exact hs.runCommand (.commitSurface e)
  | commitTiming e => cases h; exact hs.runCommand (.commitTiming e)
  | commitFetch e => cases h; exact hs.runCommand (.commitFetch e)
  | commitNotice e => cases h; exact hs.runCommand (.commitNotice e)
  | commitMarker e => cases h; exact hs.runCommand (.commitMarker e)
  | commitReport e => cases h; exact hs.runCommand (.commitReport e)
  | outputOn => cases h; exact hs.runCommand .outputOn
  | outputOff => cases h; exact hs.runCommand .outputOff
  | clearEvents b c => cases h; exact hs.runCommand (.clearEvents b c)
  | viewSelect a => cases h; exact hs.runCommand (.viewSelect a)
  | softReset => cases h; exact hs.runCommand .softReset
  | unknown lane code => cases h; exact hs.runCommand (.unknown lane code)
  | wrongLane lane code => cases h; exact hs.runCommand (.wrongLane lane code)
  | tableIndex v => cases h; exact hs.runCommand (.tableIndex v)
  | tableData v => cases h; exact hs.runCommand (.tableData v)
  | reportNow v => cases h; exact hs.runCommand (.reportNow v)
  | misplacedWrite => cases h; exact hs.runCommand .misplacedWrite

end

end Sys2Proof.Safety

namespace Sys2Proof.Settled

open Sys2Proof.Machine Sys2Proof.Safety

/-- Settles O56: the boundaries carry the course of the lines on, a grant and a response change one read with its burst,
and the other commands leave both. -/
theorem fetchingKept : Obligations.FetchingKept := by
  intro s t hs h
  unfold step at h
  split at h
  · cases h
    exact hs.endLine
  · rename_i c rest _
    exact Fetching.exec (s := { s with pending := rest }) (hs.of_blocks rfl rfl) c h

end Sys2Proof.Settled
end

