-- ==== Sys2Proof/Proofs/FetchSets.lean ====
section
/-! COMMIT(FETCH): its checks, its clamps and its install. -/

namespace Sys2Proof.Safety

open Sys2Proof.Machine

/-- The set that a staged FETCH entry within its ranges installs (R101). -/
def stagedFetch (timing : Option TimingSet) (row : Table (BitVec 32) 6) : FetchSet :=
  { lead := clampLead timing (row.get 0).toNat
    mode := if (row.get 1).toNat = 0 then .fill else .prior
    fill := { red := BitVec.ofNat 10 (row.get 2).toNat, green := BitVec.ofNat 10 (row.get 3).toNat
              blue := BitVec.ofNat 10 (row.get 4).toNat }
    ppt := clampPpt (row.get 5).toNat }

theorem errorModeOf_beyond {n : Nat} (h : 1 < n) : errorModeOf n = none := by
  match n, h with
  | n + 2, _ => rfl

theorem errorModeOf_of_le {n : Nat} (h : n ≤ 1) : errorModeOf n = some (if n = 0 then .fill else .prior) := by
  interval_cases n <;> rfl

/-- The fill colour of channels of at most 1023 (R101). -/
theorem fillOf_eq (r g b : Nat) : fillOf r g b = if 1023 < r ∨ 1023 < g ∨ 1023 < b then none
    else some { red := BitVec.ofNat 10 r, green := BitVec.ofNat 10 g, blue := BitVec.ofNat 10 b } := by
  by_cases h : 1023 < r ∨ 1023 < g ∨ 1023 < b
  · rw [if_pos h]
    exact if_neg (by omega)
  · rw [if_neg h]
    exact if_pos (by omega)

theorem clampLead_eq (timing : Option TimingSet) (n : Nat) : clampLead timing n =
    timing.elim (max 1 (min 16 n)) fun tm => min (max 1 (min 16 n)) tm.s := by
  cases timing with
  | none => rfl
  | some tm => exact min_comm ..

theorem clampPpt_eq (n : Nat) : clampPpt n = if n = 0 then 1 else if n = 3 then 2 else min n 4 := by
  unfold clampPpt
  (repeat' split) <;> omega

/-- A lead that the commit has clamped is not reduced again when its set comes into force (R101, R103). -/
theorem fetchInForce_clamped (s : State) {f : FetchSet} {n : Nat} (hf : f.lead = clampLead s.rtm.timing n) :
    s.fetchInForce f = { s with sf := { s.sf with inForce := f, waiting := none }, po := { s.po with ppt := f.ppt } } := by
  unfold State.fetchInForce
  cases ht : s.rtm.timing with
  | none => rfl
  | some tm =>
    have hl : f.limit tm = f := by
      rw [ht, clampLead_eq] at hf
      have hle : f.lead ≤ min 16 tm.s := by
        rw [hf, Option.elim_some]
        omega
      unfold FetchSet.limit
      rw [min_eq_left hle]
    dsimp only
    rw [hl]

/-- The checks of R101 in their order, and the set with whether a clamp changed a field. -/
theorem fetchSet_eq (timing : Option TimingSet) (row : Table (BitVec 32) 6) : fetchSet timing row =
    if 1 < (row.get 1).toNat then none
    else if 1023 < (row.get 2).toNat ∨ 1023 < (row.get 3).toNat ∨ 1023 < (row.get 4).toNat then none
    else some (stagedFetch timing row, !decide (clampLead timing (row.get 0).toNat = (row.get 0).toNat ∧
      clampPpt (row.get 5).toNat = (row.get 5).toNat)) := by
  unfold fetchSet
  dsimp only
  by_cases hm : 1 < (row.get 1).toNat
  · rw [errorModeOf_beyond hm, if_pos hm]
  · rw [errorModeOf_of_le (not_lt.1 hm), if_neg hm, fillOf_eq]
    by_cases hc : 1023 < (row.get 2).toNat ∨ 1023 < (row.get 3).toNat ∨ 1023 < (row.get 4).toNat
    · rw [if_pos hc, if_pos hc]
    · rw [if_neg hc, if_neg hc, Bool.decide_and, Bool.not_and]
      rfl

/-- The checks of R166 and R101 in their order, and the install of a set within its ranges. -/
theorem commitFetch_eq (entry : BitVec 16) (s : State) : Machine.commitFetch entry s =
    let row := s.cd.staging.fetch
    if entry ≠ 0 then s.result .control 0x20 .range
    else if 1 < (row.get 1).toNat then s.result .control 0x20 .range
    else if 1023 < (row.get 2).toNat ∨ 1023 < (row.get 3).toNat ∨ 1023 < (row.get 4).toNat then
      s.result .control 0x20 .range
    else
      (s.installFetch (stagedFetch s.rtm.timing row)).result .control 0x20
        (if clampLead s.rtm.timing (row.get 0).toNat = (row.get 0).toNat ∧ clampPpt (row.get 5).toNat = (row.get 5).toNat
          then .ok else .adjusted) := by
  unfold Machine.commitFetch
  rw [fetchSet_eq]
  dsimp only
  generalize s.cd.staging.fetch = row
  by_cases hm : 1 < (row.get 1).toNat
  · simp only [if_pos hm]
    rfl
  · by_cases hc : 1023 < (row.get 2).toNat ∨ 1023 < (row.get 3).toNat ∨ 1023 < (row.get 4).toNat
    · simp only [if_neg hm, if_pos hc]
      rfl
    · simp only [if_neg hm, if_neg hc, Bool.not_eq_true', decide_eq_false_iff_not, ite_not]
      rfl

end Sys2Proof.Safety

namespace Sys2Proof.Settled

open Sys2Proof.Machine Sys2Proof.Safety

/-- Settles O11, by the checks of R166 and R101 in their order, and then by whether the raster is in OFF. -/
theorem commitFetch : Obligations.CommitFetch := by
  intro entry s
  refine ⟨_, rfl, ?_⟩
  dsimp only
  rw [← clampLead_eq, ← clampPpt_eq]
  refine resulted_check (commitFetch_eq entry s) fun _ ht => resulted_check ht fun _ ht => resulted_check ht fun _ ht => ?_
  rw [ht]
  by_cases hr : s.rtm.raster = .off
  · rw [if_pos hr, installFetch_off hr, fetchInForce_clamped s rfl]
    exact resulted_result ..
  · rw [if_neg hr, installFetch_running hr]
    exact resulted_result ..

end Sys2Proof.Settled
end

