-- ==== Sys2Proof/Proofs/Half.lean ====
section
/-! The conversion of half-precision channels to 10 bits (R119). -/

namespace Sys2Proof.Safety

open Sys2Proof.Machine

theorem half_exponent (h : BitVec 16) : (h.extractLsb' 10 5).toNat = h.toNat / 2 ^ 10 % 32 := by
  simp [BitVec.extractLsb'_toNat, Nat.shiftRight_eq_div_pow]

theorem half_fraction (h : BitVec 16) : (h.extractLsb' 0 10).toNat = h.toNat % 2 ^ 10 := by
  simp [BitVec.extractLsb'_toNat]

theorem half_negative (h : BitVec 16) : h.getLsbD 15 = true ↔ 2 ^ 15 ≤ h.toNat := by
  rw [← decide_eq_true_iff (p := 2 ^ 15 ≤ h.toNat), ← BitVec.msb_eq_decide h]
  rfl

/-- The four cases of R119, in the words of the statement. -/
theorem halfChannel_eq (h : BitVec 16) : halfChannel h =
    if h.toNat / 2 ^ 10 % 32 = 31 ∧ h.toNat % 2 ^ 10 ≠ 0 then 0
    else if 2 ^ 15 ≤ h.toNat then 0
    else if h.toNat / 2 ^ 10 % 32 = 31 ∨ 2 ^ 24 ≤ halfUnits (h.toNat / 2 ^ 10 % 32) (h.toNat % 2 ^ 10) then 1023
    else BitVec.ofNat 10 (roundHalfEven (halfUnits (h.toNat / 2 ^ 10 % 32) (h.toNat % 2 ^ 10) * 1023) (2 ^ 24)) := by
  unfold halfChannel
  dsimp only
  rw [half_exponent, half_fraction, if_congr (half_negative h) rfl rfl]

/-- A finite value is its number of units of 2^(−24). -/
theorem halfValue_eq (exponent fraction : Nat) : halfValue exponent fraction = (halfUnits exponent fraction : ℚ) / 2 ^ 24 := by
  unfold halfValue halfUnits
  cases exponent with
  | zero => rfl
  | succ e =>
    rw [if_neg e.succ_ne_zero, if_neg e.succ_ne_zero, Nat.add_sub_cancel, pow_succ]
    push_cast
    ring

theorem one_le_halfValue (exponent fraction : Nat) :
    1 ≤ halfValue exponent fraction ↔ 2 ^ 24 ≤ halfUnits exponent fraction := by
  rw [halfValue_eq, le_div_iff₀ (by positivity), one_mul]
  exact_mod_cast Iff.rfl

/-- Rounding to the nearest whole number, to the even one of two equally near (R119). -/
theorem roundHalfEven_nearest (n : Nat) {d : Nat} (hd : 0 < d) :
    |(roundHalfEven n d : ℚ) - n / d| ≤ 1 / 2 ∧ (|(roundHalfEven n d : ℚ) - n / d| = 1 / 2 → roundHalfEven n d % 2 = 0) := by
  have hq : (0 : ℚ) < d := by exact_mod_cast hd
  have hsplit : (n : ℚ) / d = (n / d : Nat) + (n % d : Nat) / d := by
    rw [div_eq_iff hq.ne', add_mul, div_mul_cancel₀ _ hq.ne']
    exact_mod_cast (Nat.div_add_mod' n d).symm
  have hr : ((n % d : Nat) : ℚ) / d < 1 := (div_lt_one hq).2 (by exact_mod_cast Nat.mod_lt n hd)
  have hr0 : (0 : ℚ) ≤ ((n % d : Nat) : ℚ) / d := by positivity
  have hhalf : ∀ {x : Nat}, (x : ℚ) / d = 1 / 2 ↔ 2 * x = d := fun {x} => by
    rw [div_eq_div_iff hq.ne' two_ne_zero, one_mul, mul_comm (x : ℚ)]
    exact_mod_cast Iff.rfl
  rw [hsplit]
  unfold roundHalfEven
  dsimp only
  generalize n / d = q at *
  generalize n % d = r at *
  split
  · rename_i hup
    have hge : 1 / 2 ≤ (r : ℚ) / d := by
      rw [le_div_iff₀ hq]
      have : (d : ℚ) ≤ 2 * r := by exact_mod_cast (show d ≤ 2 * r by omega)
      linarith
    have hdist : |((q + 1 : Nat) : ℚ) - (q + r / d)| = 1 - r / d := by
      rw [abs_of_nonneg (by push_cast; linarith)]
      push_cast
      ring
    rw [hdist]
    refine ⟨by linarith, fun heq => ?_⟩
    have := hhalf.1 (show (r : ℚ) / d = 1 / 2 by linarith)
    omega
  · rename_i hdown
    have hle : (r : ℚ) / d ≤ 1 / 2 := by
      rw [div_le_iff₀ hq]
      have : (2 * r : ℚ) ≤ d := by exact_mod_cast (show 2 * r ≤ d by omega)
      linarith
    have hdist : |((q : Nat) : ℚ) - (q + r / d)| = r / d := by
      rw [sub_add_cancel_left, abs_neg, abs_of_nonneg hr0]
    rw [hdist]
    refine ⟨hle, fun heq => ?_⟩
    have := hhalf.1 heq
    omega

/-- A value below 1 rounds to at most 1023. -/
theorem roundHalfEven_lt {u : Nat} (h : u < 2 ^ 24) : roundHalfEven (u * 1023) (2 ^ 24) < 2 ^ 10 := by
  have hq : u * 1023 / 2 ^ 24 < 1023 := (Nat.div_lt_iff_lt_mul (by norm_num)).2 (by omega)
  unfold roundHalfEven
  dsimp only
  split <;> omega

end Sys2Proof.Safety

namespace Sys2Proof.Settled

open Sys2Proof.Machine Sys2Proof.Safety

/-- Settles O48, by the cases of R119; below 1 the channel is the rounded number of units, 1023 of them for each. -/
theorem halfChannel : Obligations.HalfChannel := by
  refine ⟨fun _ => rfl, fun h => ?_⟩
  dsimp only
  rw [one_le_halfValue, ← not_le, one_le_halfValue, halfChannel_eq, halfValue_eq]
  generalize h.toNat / 2 ^ 10 % 32 = exponent
  generalize h.toNat % 2 ^ 10 = fraction
  refine ⟨fun hzero => ?_, fun hnan hneg hone => ?_, fun hnan hneg hfin hlt => ?_⟩
  · by_cases hnan : exponent = 31 ∧ fraction ≠ 0
    · rw [if_pos hnan]; rfl
    · rw [if_neg hnan, if_pos (hzero.resolve_left hnan)]; rfl
  · rw [if_neg hnan, if_neg hneg, if_pos hone]; rfl
  · rw [if_neg hnan, if_neg hneg, if_neg (not_or.2 ⟨hfin, hlt⟩)]
    rw [not_le] at hlt
    rw [BitVec.toNat_ofNat, Nat.mod_eq_of_lt (roundHalfEven_lt hlt)]
    have hvalue : (1023 : ℚ) * (halfUnits exponent fraction / 2 ^ 24) =
        ((halfUnits exponent fraction * 1023 : Nat) : ℚ) / ((2 ^ 24 : Nat) : ℚ) := by
      push_cast
      ring
    rw [hvalue]
    exact roundHalfEven_nearest _ (by norm_num)

end Sys2Proof.Settled
end

