-- ==== Sys2Proof/Proofs/Deadline.lean ====
section
/-! The pixels of a line at its deadline (R115, R116): each is found in the burst that covers its place (R108). -/

namespace Sys2Proof.Safety

open Sys2Proof.Machine

theorem burstPixels_eq (f : Format) : f.burstPixels = if f = .p32 then 64 else 32 := by
  cases f <;> rfl

theorem burstPixels_pos (f : Format) : 0 < f.burstPixels := by
  cases f <;> decide

/-- A line cut into pieces of `per` places, the last one shorter: place `x` is place `x % per` of piece `x / per`. -/
theorem flatten_getElem?_pieces {α : Type} {per : Nat} (hper : 0 < per) (pieces : List (List α)) {w x : Nat}
    (hlen : ∀ i p, pieces[i]? = some p → p.length = min per (w - per * i)) (hx : x < w)
    (hcover : w ≤ per * pieces.length) : pieces.flatten[x]? = pieces[x / per]?.bind fun p => p[x % per]? := by
  induction pieces generalizing w x with
  | nil => exact absurd (hx.trans_le hcover) (Nat.not_lt_zero x)
  | cons p rest ih =>
    have hp : p.length = min per w := by simpa using hlen 0 p rfl
    rw [List.flatten_cons]
    by_cases hfirst : x < per
    · rw [List.getElem?_append_left (by omega), Nat.div_eq_of_lt hfirst, Nat.mod_eq_of_lt hfirst]
      rfl
    · obtain ⟨y, rfl⟩ := Nat.exists_eq_add_of_le' (not_lt.1 hfirst)
      rw [List.getElem?_append_right (by omega), Nat.add_div_right _ hper, Nat.add_mod_right, List.getElem?_cons_succ,
        show y + per - p.length = y by omega]
      refine ih (w := w - per) (fun i q hq => ?_) (by omega) ?_
      · rw [hlen (i + 1) q hq, Nat.mul_succ, Nat.sub_sub, Nat.add_comm per]
      · rw [List.length_cons, Nat.mul_succ] at hcover
        omega

/-- The place of a pixel in its burst lies within the burst. -/
theorem mod_lt_burstLength (f : Format) {w x : Nat} (hx : x < w) :
    x % f.burstPixels < burstLength f w (x / f.burstPixels) := by
  have hsplit := Nat.div_add_mod x f.burstPixels
  have := Nat.mod_lt x (burstPixels_pos f)
  unfold burstLength
  omega

/-- A place of a surface's line at its deadline, in the burst that covers it. -/
theorem lineAtDeadline_getElem? {set : FetchSet} {prior : Option (List Pixel)} {w x : Nat} {slot : Slot}
    {src : SurfaceSource} (hp : ∀ line, prior = some line → line.length = w) (hw : SlotWhole w slot)
    (hsrc : slot.source = .surface src) (hx : x < w) : ∃ b, slot.bursts[x / src.format.burstPixels]? = some b ∧
      (lineAtDeadline set prior w slot)[x]? =
        (burstAtDeadline set prior src.format w (x / src.format.burstPixels) b)[x % src.format.burstPixels]? := by
  unfold SlotWhole at hw
  rw [hsrc] at hw
  obtain ⟨hlen, hpix⟩ := hw
  have hcover : w ≤ src.format.burstPixels * slot.bursts.length := hlen ▸ burstCount_covers ..
  have hi : x / src.format.burstPixels < slot.bursts.length := Nat.div_lt_of_lt_mul (hx.trans_le hcover)
  refine ⟨_, List.getElem?_eq_getElem hi, ?_⟩
  unfold lineAtDeadline
  rw [hsrc]
  dsimp only
  rw [flatten_getElem?_pieces (w := w) (burstPixels_pos src.format) _ (fun i p hpiece => ?_) hx (by simpa using hcover)]
  · simp [List.getElem?_eq_getElem hi]
  · rw [List.getElem?_map, List.getElem?_zipIdx, Option.map_map, Nat.zero_add] at hpiece
    obtain ⟨b, hb, rfl⟩ := Option.map_eq_some_iff.1 hpiece
    exact burstAtDeadline_length hp fun pixels h => hpix i pixels (h ▸ hb)

theorem burstAtDeadline_replaced {set : FetchSet} {prior : Option (List Pixel)} {f : Format} {w i : Nat} {b : Burst}
    (h : ∀ pixels, b ≠ .returned pixels) :
    burstAtDeadline set prior f w i b = replacement set prior (f.burstPixels * i) (burstLength f w i) := by
  cases b with
  | returned pixels => exact absurd rfl (h pixels)
  | notIssued => rfl
  | inFlight => rfl
  | failed => rfl

theorem replacement_prior {set : FetchSet} {l : List Pixel} {start count k : Nat} (hm : set.mode = .prior)
    (hk : k < count) : (replacement set (some l) start count)[k]? = l[start + k]? := by
  unfold replacement
  rw [hm]
  dsimp only
  rw [List.getElem?_take_of_lt hk, List.getElem?_drop]

theorem replacement_fill {set : FetchSet} {prior : Option (List Pixel)} {start count k : Nat}
    (h : set.mode = .fill ∨ prior = none) (hk : k < count) :
    (replacement set prior start count)[k]? = some set.fill := by
  have heq : replacement set prior start count = List.replicate count set.fill := by
    unfold replacement
    split
    · rename_i hm
      exact h.elim (fun hf => absurd (hm.symm.trans hf) nofun) nofun
    · rfl
    · rfl
  rw [heq, List.getElem?_replicate, if_pos hk]

end Sys2Proof.Safety

namespace Sys2Proof.Settled

open Sys2Proof.Machine Sys2Proof.Safety

/-- Settles O45: a pixel of a surface's line is a place of one burst, which is as returned or replaced (R115, R116). -/
theorem deadlineLine : Obligations.DeadlineLine := by
  intro set prior w slot hw hp
  refine ⟨lineAtDeadline_length hp hw, fun hfill => ?_, fun src hsrc x hx => ?_⟩
  · unfold lineAtDeadline
    rw [hfill]
  · dsimp only
    rw [← burstPixels_eq]
    obtain ⟨b, hb, hrow⟩ := lineAtDeadline_getElem? (set := set) hp hw hsrc hx
    have hk := mod_lt_burstLength src.format hx
    rw [hb, hrow]
    refine ⟨fun pixels h => ?_, fun h => ?_⟩
    · cases h
      rfl
    · rw [burstAtDeadline_replaced fun pixels heq => h pixels (congrArg some heq)]
      refine ⟨fun l hm hl => ?_, fun hf => replacement_fill hf hk⟩
      rw [hl, replacement_prior hm hk, Nat.div_add_mod]

end Sys2Proof.Settled
end

