-- ==== Sys2Proof/Proofs/Grants.lean ====
section
/-! The grants of the Memory Arbiter: the order of the claims (R151), and the fetcher's next burst (R108 to R110). -/

namespace Sys2Proof.Safety

open Sys2Proof.Machine

variable {s : State}

/-! ## The order of R151 -/

theorem granted_order (s : State) : Granted s s.granted := by
  unfold Granted State.granted
  dsimp only
  have hage : decide (Config.reportAgeLimit ≤ s.ma.age) = true ↔ 32 ≤ s.ma.age := decide_eq_true_iff
  simp only [← fetchClaims_iff, ← urgent_iff, ← reportClaims_iff, Bool.and_eq_true, hage, Bool.not_eq_true',
    List.isEmpty_eq_false_iff]
  refine ⟨fun hf hu => if_pos ⟨hf, hu⟩, fun hn ha => ?_, fun hn ha hp => ?_, fun ha hp hf hu => ?_,
    fun hf hp hr => ?_, fun hf hp hr => ?_⟩
  · rw [if_neg hn, if_pos ha]
  · rw [if_neg hn, if_neg ha, if_pos hp]
  · rw [if_neg fun h => hu h.2, if_neg ha, if_neg hp, if_pos hf]
  · rw [if_neg fun h => hf h.1, if_neg hp, if_neg hf, if_pos hr, ite_self]
  · rw [if_neg fun h => hf h.1, if_neg fun h => hr h.1, if_neg hp, if_neg hf, if_neg hr]

/-- What the claim of a claimant rests on (R109, R141, R150, R179). -/
def Claims (s : State) : Claimant → Prop
  | .fetchUrgent | .fetch => FetchClaims s
  | .report => ReportClaims s
  | .pass => s.tc.forward ≠ []

theorem claims_of_granted {c : Claimant} (h : s.granted = some c) : Claims s c := by
  unfold State.granted at h
  split_ifs at h with hurgent haged hpass hfetch hreport <;> cases h
  · exact (fetchClaims_iff s).1 (Bool.and_eq_true_iff.1 hurgent).1
  · exact (reportClaims_iff s).1 (Bool.and_eq_true_iff.1 haged).1
  · exact fun hnil => by simp [hnil] at hpass
  · exact (fetchClaims_iff s).1 hfetch
  · exact (reportClaims_iff s).1 hreport

/-! ## The request placed -/

theorem grantFetch_channel (h : FetchClaims s) (grade : Claimant) :
    ∃ request, (s.grantFetch grade).ma.channel = some { claimant := grade, request := request } := by
  rw [← fetchClaims_iff, Fetcher.claims, Bool.and_eq_true, Option.isSome_iff_exists, Option.isSome_iff_exists] at h
  obtain ⟨⟨⟨slot, src, i⟩, hnext⟩, n, hn⟩ := h
  unfold State.grantFetch
  rw [hnext, hn]
  exact ⟨_, rfl⟩

theorem grantReport_channel (h : ReportClaims s) :
    ∃ request, s.grantReport.ma.channel = some { claimant := .report, request := request } := by
  rw [← reportClaims_iff, ReportWriter.claims, Bool.and_eq_true, Option.isSome_iff_exists, Option.isSome_iff_exists] at h
  obtain ⟨⟨w, hw⟩, n, hn⟩ := h
  unfold State.grantReport
  rw [hw, hn]
  exact ⟨_, rfl⟩

theorem grantPass_channel (h : s.tc.forward ≠ []) :
    ∃ request, s.grantPass.ma.channel = some { claimant := .pass, request := request } := by
  obtain ⟨r, rest, hr⟩ := List.exists_cons_of_ne_nil h
  unfold State.grantPass
  rw [hr]
  exact ⟨_, rfl⟩

theorem grant_busy (h : s.ma.channel ≠ none) : grant s = s := by
  obtain ⟨m, hm⟩ := Option.ne_none_iff_exists'.1 h
  unfold grant
  rw [hm]

theorem grant_unclaimed (hfree : s.ma.channel = none) (h : s.granted = none) : grant s = s := by
  unfold grant
  rw [hfree, h]

/-- A claimant that is granted has the channel with its request (R149, R151). -/
theorem grant_channel (hfree : s.ma.channel = none) {c : Claimant} (h : s.granted = some c) :
    ∃ request, (grant s).ma.channel = some { claimant := c, request := request } := by
  have hclaims := claims_of_granted h
  unfold grant
  rw [hfree, h]
  cases c with
  | fetchUrgent => exact grantFetch_channel hclaims _
  | pass => exact grantPass_channel hclaims
  | fetch => exact grantFetch_channel hclaims _
  | report => exact grantReport_channel hclaims

/-! ## The fetch grants -/

theorem find_of_lowestFree {α : Type} {k : Nat} {table : Table (Option α) k} {n : Fin k} (h : LowestFree table n) :
    table.find Option.isNone = some n := by
  obtain ⟨hn, hlow⟩ := h
  cases hf : table.find Option.isNone with
  | none =>
    have := Table.find_none.1 hf n
    rw [hn] at this
    cases this
  | some m =>
    have hm : table.get m = none := Option.isNone_iff_eq_none.1 (Table.find_some hf)
    rcases lt_trichotomy m n with hlt | rfl | hgt
    · exact absurd hm (hlow m hlt)
    · rfl
    · have := Table.find_least hf n hgt
      rw [hn] at this
      cases this

theorem agedBy_aged (s : State) : AgedBy s s.aged := by
  unfold AgedBy State.aged
  rw [← reportClaims_iff]
  exact ⟨fun h => if_pos h, fun h => if_neg h⟩

/-- The grade of a fetch grant, by the place of the fetcher's claims in the order of R151. -/
theorem grant_fetch (hfree : s.ma.channel = none) (hf : FetchClaims s)
    (h : Urgent s ∨ (¬ (ReportClaims s ∧ 32 ≤ s.ma.age) ∧ s.tc.forward = [])) :
    ∃ grade, (Urgent s → grade = .fetchUrgent) ∧ (¬ Urgent s → grade = .fetch) ∧ grant s = s.grantFetch grade := by
  obtain ⟨hurgent, -, -, hfetch, -, -⟩ := granted_order s
  by_cases hu : Urgent s
  · refine ⟨.fetchUrgent, fun _ => rfl, fun hn => absurd hu hn, ?_⟩
    unfold grant
    rw [hfree, hurgent hf hu]
  · obtain ⟨haged, hpass⟩ := h.resolve_left hu
    refine ⟨.fetch, fun h => absurd h hu, fun _ => rfl, ?_⟩
    unfold grant
    rw [hfree, hfetch haged (not_not.2 hpass) hf hu]

/-- The beats of a burst: two P32 pixels to a beat, one P64 pixel (R108, R195). -/
theorem burstBeats_burstLength (f : Format) (w i : Nat) :
    (f = .p32 → burstBeats f (burstLength f w i) = min 64 (w - 64 * i) * 4 / 8) ∧
      (f = .p64 → burstBeats f (burstLength f w i) = min 32 (w - 32 * i)) := by
  refine ⟨fun h => ?_, fun h => ?_⟩
  · subst h
    rfl
  · subst h
    exact Nat.mul_div_cancel (min 32 (w - 32 * i)) (by decide)

end Sys2Proof.Safety

namespace Sys2Proof.Settled

open Sys2Proof.Machine Sys2Proof.Safety

/-- Settles O34: the claim granted is the first of R151, and a claim presented has a request to place. -/
theorem grantOrder : Obligations.GrantOrder := by
  refine ⟨fun s => ⟨_, s.granted, rfl, grant_busy, fun hfree => ⟨granted_order s, grant_unclaimed hfree, ?_⟩⟩,
    fun _ => rfl⟩
  exact fun c => grant_channel hfree

/-- Settles O36, by the next burst of the buffer, the lowest free tag and the grade of the claim. -/
theorem grantFetch : Obligations.GrantFetch := by
  intro s tm ahead behind slot src i n hfree htm hbuf hahead hsrc hi hfirst hn hturn
  have hnext : nextBurst s.sf.buffer = some (slot, src, i) := by
    rw [hbuf]
    exact nextBurst_append hahead hsrc ((firstNotIssued_iff _ _).2 ⟨hi, hfirst⟩)
  have htag : s.sf.freeTag = some n := find_of_lowestFree hn
  have hclaims : FetchClaims s := by
    rw [← fetchClaims_iff, Fetcher.claims, hnext, htag]
    rfl
  obtain ⟨grade, hu, hnu, hgrant⟩ := grant_fetch hfree hclaims hturn
  refine ⟨s.grantFetch grade, grade, congrArg Host.Outcome.next hgrant, ?_⟩
  unfold State.grantFetch
  rw [hnext, htag, htm]
  obtain ⟨hp32, hp64⟩ := burstBeats_burstLength src.format tm.w i
  exact ⟨agedBy_aged s, hu, hnu, ⟨_, rfl, rfl, rfl, rfl, rfl, hp32, hp64⟩, rfl⟩

end Sys2Proof.Settled
end

