-- ==== Sys2Proof/Proofs/Responses.lean ====
section
/-! Responses on fetch tags (R112 to R115), and the pixels that the data of a burst gives (R118, R119, R195). -/

namespace Sys2Proof.Safety

open Sys2Proof.Machine

variable {s : State}

/-! ## The pixels of a burst -/

theorem burstPixels_length (f : Format) (draw : Nat) (data : List (BitVec 64)) (w i : Nat) :
    (burstPixels f draw data (burstLength f w i)).length =
      min (if f = .p32 then 64 else 32) (w - (if f = .p32 then 64 else 32) * i) := by
  rw [← burstPixels_eq]
  simp [burstPixels, burstLength]

theorem burstPixels_getElem? {f : Format} {draw : Nat} {data : List (BitVec 64)} {count k : Nat}
    (hk : k < (burstPixels f draw data count).length) :
    (burstPixels f draw data count)[k]? = some (dataPixel f draw data k) := by
  rw [List.getElem?_eq_getElem hk]
  simp [burstPixels]

theorem dataBeat_present {draw i : Nat} {data : List (BitVec 64)} {v : BitVec 64} (h : data[i]? = some v) :
    dataBeat draw data i = v := by
  unfold dataBeat
  rw [h]

/-- Bits of a field of a word are bits of the word. -/
theorem extractLsb'_field {w width : Nat} (v : BitVec w) (start b len : Nat) (h : b + len ≤ width) :
    (v.extractLsb' start width).extractLsb' b len = v.extractLsb' (start + b) len := by
  ext i hi
  rw [BitVec.getElem_extractLsb', BitVec.getElem_extractLsb', BitVec.getLsbD_extractLsb',
    decide_eq_true (show b + i < width by omega), Bool.true_and, Nat.add_assoc]

/-- Two P32 pixels to a beat, the first in its low half (R118, R195). -/
theorem dataPixel_p32 {draw k : Nat} {data : List (BitVec 64)} {v : BitVec 64} (h : data[k / 2]? = some v) :
    dataPixel .p32 draw data k = { red := v.extractLsb' (32 * (k % 2)) 10, green := v.extractLsb' (32 * (k % 2) + 10) 10
                                   blue := v.extractLsb' (32 * (k % 2) + 20) 10 } := by
  unfold dataPixel pixelP32
  dsimp only
  rw [dataBeat_present h, extractLsb'_field _ _ _ _ (by norm_num), extractLsb'_field _ _ _ _ (by norm_num),
    extractLsb'_field _ _ _ _ (by norm_num), Nat.add_zero]

theorem dataPixel_p64 {draw k : Nat} {data : List (BitVec 64)} {v : BitVec 64} (h : data[k]? = some v) :
    dataPixel .p64 draw data k = { red := halfChannel (v.extractLsb' 0 16), green := halfChannel (v.extractLsb' 16 16)
                                   blue := halfChannel (v.extractLsb' 32 16) } := by
  unfold dataPixel pixelP64
  dsimp only
  rw [dataBeat_present h]

/-! ## The response -/

theorem fetchResponse_unmatched {n : Fin 64} {kind : RespKind} {status : Status} {data : List (BitVec 64)}
    (h : kind = .writeAck ∨ s.sf.reads.get n = none) :
    fetchResponse n kind status data s = s.linkProtocol .fetchTag (256 + n.val) := by
  unfold fetchResponse
  cases kind with
  | writeAck => rfl
  | readData => rw [h.resolve_left nofun]

theorem fetchResponse_readData {n : Fin 64} {status : Status} {data : List (BitVec 64)} {e : ReadEntry}
    (h : s.sf.reads.get n = some e) :
    fetchResponse n .readData status data s = (s.freeRead n).readData e status data := by
  unfold fetchResponse
  rw [h]

/-- The source of a line of the buffer, where its slots agree on it. -/
theorem lineSource_eq {f : Fetcher} {l : Nat} {src : SurfaceSource} (hex : ∃ slot ∈ f.buffer, slot.line = l)
    (hsrc : ∀ slot ∈ f.buffer, slot.line = l → slot.source = .surface src) : f.lineSource l = some src := by
  obtain ⟨slot, hslot⟩ : ∃ slot, f.buffer.find? (fun slot => decide (slot.line = l)) = some slot := by
    rw [← Option.isSome_iff_exists, List.find?_isSome]
    simpa using hex
  unfold Fetcher.lineSource
  rw [hslot, Option.bind_some, hsrc slot (List.mem_of_find?_eq_some hslot) (by simpa using List.find?_some hslot)]

/-- The burst's pixels are placed; only an absent beat draws on the free value (R112, log 5). -/
theorem completeBurst_eq {e : ReadEntry} {src : SurfaceSource} {tm : TimingSet} (data : List (BitVec 64))
    (hsrc : s.sf.lineSource e.line = some src) (htm : s.rtm.timing = some tm) :
    s.completeBurst e data = { s.setReadBurst e
        (.returned (burstPixels src.format s.freeDraw data (burstLength src.format tm.w e.burst))) with
      freeDraw := (s.completeBurst e data).freeDraw } := by
  unfold State.completeBurst
  rw [hsrc, htm]
  dsimp only
  split <;> rfl

end Sys2Proof.Safety

namespace Sys2Proof.Settled

open Sys2Proof.Machine Sys2Proof.Safety

/-- Settles O32, by the response's kind and its tag's entry, then by the read's state and the response's status. -/
theorem fetchResponse : Obligations.FetchResponse := by
  intro n kind status data s
  refine ⟨_, rfl, fun h => ?_, fun e hk he => ?_⟩
  · rw [fetchResponse_unmatched h]
    exact linkFaulted_linkProtocol ..
  · subst hk
    rw [fetchResponse_readData he]
    unfold State.readData
    refine ⟨fun hd => ?_, fun hf hs => ?_, fun hf hs tm src htm hex hsrc => ?_⟩
    · rw [hd]
      rfl
    · rw [hf, hs]
      exact ⟨eventTaken_raise .., rfl⟩
    · rw [hf, hs]
      refine ⟨_, burstPixels_length .., fun k v hk hp32 hv => ?_, fun k v hk hp64 hv => ?_,
        completeBurst_eq (s := s.freeRead n) data (lineSource_eq hex hsrc) htm⟩
      · rw [burstPixels_getElem? hk, hp32, dataPixel_p32 hv]
      · rw [burstPixels_getElem? hk, hp64, dataPixel_p64 hv]

end Sys2Proof.Settled
end

