-- ==== Sys2Proof/Proofs/PixelOutput.lean ====
section
/-! The Pixel Output Port: LINK_UP and the port states (R128 to R130), the levels of the marker functions (R131 to R134),
and COMMIT(MARKER). -/

namespace Sys2Proof.Safety

open Sys2Proof.Machine

/-! ## LINK_UP (R128 to R130) -/

theorem linkUpChange_same {level : Bool} {s : State} (h : level = s.po.level) (sent : Nat) :
    linkUpChange level sent s = s := if_pos h

theorem linkUpChange_change {level : Bool} {s : State} (h : level ≠ s.po.level) (sent : Nat) :
    linkUpChange level sent s = { s with po := s.po.linkChange level sent }.raise .outputChange := if_neg h

/-- A rise takes the port out of DOWN, and leaves what it sent (R128). -/
theorem linkChange_rise (p : PixelPort) (sent : Nat) : p.linkChange true sent =
    { p with linkUp := true, level := true, state := if p.state = .down then .waiting else p.state } := by
  unfold PixelPort.linkChange
  cases p.state <;> rfl

/-- A fall takes the port to DOWN, and cuts the line only where it was SENDING (R128, R129). -/
theorem linkChange_fall (p : PixelPort) (sent : Nat) : p.linkChange false sent =
    { p with linkUp := false, level := false, state := .down
             sent := if p.state = .sending then p.sent.cut sent else p.sent } := by
  unfold PixelPort.linkChange
  cases p.state <;> rfl

theorem cut_active (sent : Nat) (transfers : List Transfer) :
    (PortLine.active transfers).cut sent = .active (transfers.take sent) := rfl

/-- A token and an empty line are not cut (R129). -/
theorem cut_of_not_active {l : PortLine} (h : ∀ transfers, l ≠ .active transfers) (sent : Nat) : l.cut sent = l := by
  cases l with
  | nothing => rfl
  | token kind => rfl
  | active transfers => exact absurd rfl (h transfers)

/-! ## The levels of the marker functions (R131 to R134) -/

theorem repeats_iff (r : RasterTimer) :
    r.repeats = true ↔ ∃ w, r.record = some w ∧ (w.kind = some .repeated ∨ w.kind = some .fill) := by
  unfold RasterTimer.repeats
  cases r.record with
  | none => simp
  | some w => cases hk : w.kind with
    | none => simp [hk]
    | some kind => cases kind <;> simp [hk]

/-- A line follows the function routed to it (R131). -/
theorem markerLevel_of_routing {s : State} {line : Fin 2} {m : MarkerFn} (h : s.po.routing.get line = m) :
    s.markerLevel line = s.functionLevel m :=
  congrArg s.functionLevel h

section
variable (s : State)

theorem functionLevel_frameStart :
    s.functionLevel .frameStart = true ↔ s.rtm.raster = .active ∧ s.rtm.pos = 0 := by
  simp [State.functionLevel]

theorem functionLevel_active : s.functionLevel .active = true ↔ s.rtm.raster = .active := by
  simp [State.functionLevel]

theorem functionLevel_stretch : s.functionLevel .stretch = true ↔ s.rtm.raster = .stretch := by
  simp [State.functionLevel]

theorem functionLevel_repeated :
    s.functionLevel .repeated = true ↔ s.rtm.raster = .active ∧
      ∃ w, s.rtm.record = some w ∧ (w.kind = some .repeated ∨ w.kind = some .fill) := by
  rw [← repeats_iff]
  simp [State.functionLevel]

end

/-! ## COMMIT(MARKER) (R131) -/

theorem markerOf_code (m : MarkerFn) : markerOf m.code = some m := by
  cases m <;> rfl

theorem markerOf_beyond {n : Nat} (h : 7 ≤ n) : markerOf n = none := by
  match n, h with
  | n + 7, _ => rfl

/-- The codes 0 to 6 are those of the marker functions (R131). -/
theorem exists_markerFn_code {n : Nat} (h : n < 7) : ∃ m : MarkerFn, m.code = n := by
  interval_cases n
  exacts [⟨.off, rfl⟩, ⟨.frameStart, rfl⟩, ⟨.active, rfl⟩, ⟨.stretch, rfl⟩, ⟨.bandMiss, rfl⟩, ⟨.repeated, rfl⟩,
    ⟨.summary, rfl⟩]

section
variable (s : State) {entry : BitVec 16} {e : Fin 2}

theorem commitMarker_beyond (h : 2 ≤ entry.toNat) : commitMarker entry s = s.commitResult .range := by
  unfold commitMarker
  rw [entryNumber_beyond h]

theorem commitMarker_noFunction (h : entry.toNat = e.val) (hc : 7 ≤ (s.cd.staging.marker.get e).toNat) :
    commitMarker entry s = s.commitResult .range := by
  unfold commitMarker
  rw [entryNumber_of h]
  dsimp only
  rw [markerOf_beyond hc]

theorem commitMarker_function (h : entry.toNat = e.val) {m : MarkerFn}
    (hm : m.code = (s.cd.staging.marker.get e).toNat) : commitMarker entry s =
      { s with po := { s.po with routing := s.po.routing.set e m } }.commitResult .ok := by
  unfold commitMarker
  rw [entryNumber_of h]
  dsimp only
  rw [← hm, markerOf_code]

end

end Sys2Proof.Safety

namespace Sys2Proof.Settled

open Sys2Proof.Machine Sys2Proof.Safety

/-- Settles O13, by the checks of R131 in their order. -/
theorem commitMarker : Obligations.CommitMarker := by
  intro entry s
  refine ⟨_, rfl, fun h => ?_, fun e h => ?_⟩
  · rw [commitMarker_beyond s h]
    exact resulted_result ..
  · dsimp only
    split_ifs with hc
    · rw [commitMarker_noFunction s h hc]
      exact resulted_result ..
    · obtain ⟨m, hm⟩ := exists_markerFn_code (not_le.1 hc)
      rw [commitMarker_function s h hm]
      exact ⟨m, hm, markerLevel_of_routing (Table.get_set_self ..), resulted_result ..⟩

/-- Settles O24, by whether the level changes, and then by the level that the input takes. -/
theorem linkUpChange : Obligations.LinkUpChange := by
  intro level sent s
  refine ⟨_, rfl, fun h => linkUpChange_same h sent, fun h => ?_⟩
  rw [linkUpChange_change h]
  cases level with
  | true =>
    rw [linkChange_rise]
    exact ⟨eventTaken_raise .., rfl, rfl, fun _ => ⟨rfl, rfl⟩, nofun, rfl⟩
  | false =>
    rw [linkChange_fall]
    refine ⟨eventTaken_raise .., rfl, rfl, nofun, fun _ => ⟨rfl, fun hs transfers hl => ?_, fun hn => ?_⟩, rfl⟩
    · exact (if_pos hs).trans (by rw [hl, cut_active])
    · exact ite_eq_right_iff.2 fun hs => cut_of_not_active (hn.resolve_left (not_not_intro hs)) sent

/-- Settles O47, from the level of each function. -/
theorem markerLevels : Obligations.MarkerLevels := fun s _ =>
  ⟨fun _ => markerLevel_of_routing, rfl, functionLevel_frameStart s, functionLevel_active s, functionLevel_stretch s,
    Iff.rfl, functionLevel_repeated s, Iff.rfl⟩

end Sys2Proof.Settled
end

