-- ==== Sys2Proof/Proofs/Notices.lean ====
section
/-! The Report Writer's own rules: what each of its changes leaves its held tags, its waiting notices and its claim with
(R174, R179, R182, R185, R187). -/

namespace Sys2Proof.Safety

open Sys2Proof.Machine

variable {r r' : ReportWriter}

/-! ## Release conditions (R174, R182, R185, R187) -/

theorem atSnapshot_eq_record {c : Condition} {f : BitVec 32} : c.atSnapshot = .record f ↔ c = .record f := by
  cases c <;> simp [Condition.atSnapshot]

theorem atWriteEnd_eq (c : Condition) : c.atWriteEnd = if c = .thisWrite then .released else c := by
  cases c <;> rfl

theorem atRecord_eq (f : BitVec 32) (c : Condition) : c.atRecord f = if c = .record f then .released else c := by
  cases c <;> simp [Condition.atRecord]

/-- The records that a COMMIT(REPORT) discards release their notices (R174). -/
theorem foldl_atRecord (l : List FrameRecord) (c : Condition) :
    l.foldl (fun c f => c.atRecord f.number) c =
      match c with
      | .record f => if f ∈ l.map FrameRecord.number then .released else .record f
      | .released => .released
      | .nextWrite => .nextWrite
      | .thisWrite => .thisWrite := by
  induction l generalizing c with
  | nil => cases c <;> rfl
  | cons x l ih =>
    rw [List.foldl_cons, ih]
    cases c with
    | record f =>
      by_cases hf : f = x.number
      · simp [Condition.atRecord, hf]
      · simp [Condition.atRecord, hf]
    | released => rfl
    | nextWrite => rfl
    | thisWrite => rfl

/-- A status write's end, for one entry (R187). -/
theorem map_atWriteEnd (x : Option Condition) :
    x.map Condition.atWriteEnd = if x = some .thisWrite then some .released else x := by
  cases x with
  | none => rfl
  | some c =>
    rw [Option.map_some, atWriteEnd_eq]
    by_cases hc : c = .thisWrite <;> simp [hc]

/-- The acknowledgement of a frame record, for one entry (R185, R187). -/
theorem map_atRecord (f : BitVec 32) (x : Option Condition) :
    x.map (Condition.atRecord f) = if x = some (.record f) then some .released else x := by
  cases x with
  | none => rfl
  | some c =>
    rw [Option.map_some, atRecord_eq]
    by_cases hc : c = .record f <;> simp [hc]

/-! ## Held tags (R179) -/

/-- A tag freed. -/
theorem tagsHolding_freed {n : Fin 16} {w : ReportWrite} (hn : r.tags.get n = some w)
    (hr : r'.tags = r.tags.set n none) (v : ReportWrite) :
    tagsHolding r v = tagsHolding r' v + if v = w then 1 else 0 := by
  have hcount := r.tags.count_set (fun x => x == some v) n none
  unfold tagsHolding
  rw [hr]
  by_cases hv : v = w
  · simpa [hn, hv] using hcount.symm
  · simpa [hn, hv, beq_eq_false_iff_ne.2 (Ne.symm hv)] using hcount.symm

/-- A free tag taken. -/
theorem tagsHolding_taken {n : Fin 16} {w : ReportWrite} (hn : r.tags.get n = none)
    (hr : r'.tags = r.tags.set n (some w)) (v : ReportWrite) :
    tagsHolding r' v = tagsHolding r v + if v = w then 1 else 0 := by
  have hcount := r.tags.count_set (fun x => x == some v) n (some w)
  unfold tagsHolding
  rw [hr]
  by_cases hv : v = w
  · simpa [hn, hv] using hcount
  · simpa [hn, hv, beq_eq_false_iff_ne.2 (Ne.symm hv)] using hcount

/-! ## The claim (R149, R179) -/

theorem claims_iff (r : ReportWriter) : r.claims = true ↔
    (r.frames ≠ [] ∨ (∃ w, r.write = some w ∧ BurstReady w) ∨ ∃ e : Fin 8, r.waiting.get e = some .released) ∧
      ∃ n : Fin 16, r.tags.get n = none :=
  reportClaims_iff { State.reset with rw := r }

/-- A claim stays where whatever it rests on does. -/
theorem claims_stay (hf : r.frames ≠ [] → r'.frames ≠ [])
    (hw : ∀ w, r.write = some w → BurstReady w → ∃ v, r'.write = some v ∧ BurstReady v)
    (hn : ∀ e, r.waiting.get e = some .released → r'.waiting.get e = some .released)
    (ht : ∀ n, r.tags.get n = none → r'.tags.get n = none) (h : r.claims = true) : r'.claims = true := by
  rw [claims_iff] at h ⊢
  obtain ⟨hready, n, htag⟩ := h
  refine ⟨?_, n, ht n htag⟩
  rcases hready with h | ⟨w, hw', hb⟩ | ⟨e, he⟩
  · exact .inl (hf h)
  · exact .inr (.inl (hw w hw' hb))
  · exact .inr (.inr ⟨e, hn e he⟩)

/-! ## Notices gained -/

/-- Has the Report Writer at most gained notices, each released or held behind the next status write, and that only
while the area is enabled (R187)? -/
structure Told (r r' : ReportWriter) : Prop where
  enable : r'.enable = r.enable
  frames : r'.frames = r.frames
  write : r'.write = r.write
  tags : r'.tags = r.tags
  waiting : ∀ e, r'.waiting.get e = r.waiting.get e ∨ (r.waiting.get e = none ∧
    (r'.waiting.get e = some .released ∨ (r'.waiting.get e = some .nextWrite ∧ r.enable = true)))

/-- No notice gained, and what tags and claim rest on as it was. -/
theorem Told.of_eq (he : r'.enable = r.enable) (hf : r'.frames = r.frames) (hw : r'.write = r.write)
    (ht : r'.tags = r.tags) (hn : r'.waiting = r.waiting) : Told r r' :=
  ⟨he, hf, hw, ht, fun e => .inl (by rw [hn])⟩

theorem Told.trans {r'' : ReportWriter} (h : Told r r') (h' : Told r' r'') : Told r r'' := by
  refine ⟨h'.enable.trans h.enable, h'.frames.trans h.frames, h'.write.trans h.write, h'.tags.trans h.tags, fun e => ?_⟩
  have hw := h.waiting e
  rcases h'.waiting e with he | ⟨hn, hg⟩
  · rwa [he]
  · rw [h.enable] at hg
    rcases hw with he | ⟨-, hc | ⟨hc, -⟩⟩
    · exact .inr ⟨he ▸ hn, hg⟩
    · rw [hn] at hc; cases hc
    · rw [hn] at hc; cases hc

theorem Told.mark (r : ReportWriter) : Told r r.mark := .of_eq rfl rfl rfl rfl rfl

theorem Told.flag (r : ReportWriter) (e : Event) : Told r (r.flag e) := .of_eq rfl rfl rfl rfl rfl

theorem Told.occur (r : ReportWriter) (x : Source) {c : Condition}
    (hc : c = .released ∨ (c = .nextWrite ∧ r.enable = true)) : Told r (r.occur x c) := by
  refine ⟨rfl, rfl, rfl, rfl, fun e => ?_⟩
  rw [notified_occur r x c e]
  split_ifs with hs
  · exact .inl rfl
  · refine .inr ⟨by simpa using hs, ?_⟩
    rcases hc with rfl | ⟨rfl, he⟩
    · exact .inl rfl
    · exact .inr ⟨rfl, he⟩
  · exact .inl (Option.not_isSome_iff_eq_none.1 hs).symm

theorem Told.raiseQuietly (r : ReportWriter) (e : Event) : Told r (r.raiseQuietly e) := by
  refine (Told.flag r e).trans (.occur _ _ ?_)
  show r.flagCondition = _ ∨ (r.flagCondition = _ ∧ r.enable = true)
  unfold ReportWriter.flagCondition
  cases r.enable
  · exact .inl rfl
  · exact .inr ⟨rfl, rfl⟩

theorem Told.raise (r : ReportWriter) (e : Event) : Told r (r.raise e) := (Told.raiseQuietly r e).trans (.mark _)

theorem Told.eventTaken {e : Event} (h : EventTaken e r r') : Told r r' := by
  obtain ⟨-, -, -, -, hn, hrest⟩ := h
  have hocc := Told.raise r e
  refine ⟨by rw [hrest], by rw [hrest], by rw [hrest], by rw [hrest], fun d => ?_⟩
  have hd : r'.waiting.get d = (r.raise e).waiting.get d := by
    obtain ⟨-, -, -, -, hn', -⟩ := eventTaken_raise r e
    rw [hn d, hn' d]
  rw [hd]
  exact hocc.waiting d

/-- The REPORT_FAULT of a failed report write (R183, R185, R188). -/
theorem Told.ackFault (r : ReportWriter) (w : ReportWrite) : Told r (r.ackFault w) := by
  cases w with
  | viewBurst => exact .raiseQuietly r _
  | statusBurst => exact .raiseQuietly r _
  | record frame => exact .raise r _
  | notice source =>
    show Told r (r.noticeFault source)
    unfold ReportWriter.noticeFault
    split
    · exact (Told.flag r _).trans (.mark _)
    · exact .raise r _

theorem Told.tagsHolding (h : Told r r') (w : ReportWrite) : tagsHolding r' w = tagsHolding r w := by
  unfold Safety.tagsHolding
  rw [h.tags]

/-- A notice that another condition than those of a gained one holds is not gained. -/
theorem Told.waited (h : Told r r') {e : Fin 8} {c : Condition} (hr : c ≠ .released)
    (hn : c = .nextWrite → r.enable = false) (hc : r'.waiting.get e = some c) : r.waiting.get e = some c := by
  rcases h.waiting e with he | ⟨-, he | ⟨he, hen⟩⟩
  · exact he ▸ hc
  · rw [hc] at he
    exact absurd (Option.some.inj he) hr
  · rw [hc] at he
    rw [hn (Option.some.inj he)] at hen
    cases hen

/-! ## What the changes of the Report Writer keep -/

/-- After a change of a lawful Report Writer it is lawful, and a claim that it presented it presents still. -/
structure ReportsKept (r r' : ReportWriter) : Prop where
  lawful : ReportsLawful r'
  claims : r.claims = true → r'.claims = true

theorem ReportsKept.told (hr : ReportsLawful r) (h : Told r r') : ReportsKept r r' := by
  obtain ⟨hview, hstatus, hwrite, hthis, hrecord, hoff⟩ := hr
  constructor
  · rw [ReportsLawful, h.tagsHolding, h.tagsHolding, h.write, h.frames, h.enable]
    refine ⟨hview, hstatus, hwrite, fun e he => hthis e (h.waited nofun nofun he), fun e f he => ?_, fun hen => ?_⟩
    · rw [h.tagsHolding]
      exact hrecord e f (h.waited nofun nofun he)
    · obtain ⟨hf, hc, hn⟩ := hoff hen
      exact ⟨hf, hc, fun e he => hn e (h.waited nofun (fun _ => hen) he)⟩
  · refine claims_stay (by rw [h.frames]; exact id) (fun w hw hb => ⟨w, by rw [h.write, hw], hb⟩) (fun e he => ?_)
      (fun n hn => by rw [h.tags, hn])
    rcases h.waiting e with hk | ⟨hn, -⟩
    · rw [hk, he]
    · rw [he] at hn; cases hn

/-- The end of a status write that no tag waits for (R182). -/
theorem reportsLawful_endWrite (hview : tagsHolding r .viewBurst = 0) (hstatus : tagsHolding r .statusBurst = 0)
    (hrecord : ∀ (e : Fin 8) frame, r.waiting.get e = some (.record frame) →
      frame ∈ r.frames.map FrameRecord.number ∨ 0 < tagsHolding r (.record frame))
    (hoff : r.enable = false → r.frames = [] ∧ ∀ e : Fin 8, r.waiting.get e ≠ some .nextWrite) :
    ReportsLawful r.endWrite := by
  have hget : ∀ e c, r.endWrite.waiting.get e = some c → c ≠ .released → c ≠ .thisWrite ∧ r.waiting.get e = some c := by
    intro e c hc hr
    rw [ReportWriter.endWrite_waiting, Table.get_map, map_atWriteEnd] at hc
    split_ifs at hc with ht
    · cases hc
      exact absurd rfl hr
    · exact ⟨fun h => ht (h ▸ hc), hc⟩
  refine ⟨hview, hstatus, nofun, fun e he => ?_, fun e f he => hrecord e f (hget e _ he nofun).2, fun hen => ?_⟩
  · exact absurd rfl (hget e _ he nofun).1
  · obtain ⟨hf, hn⟩ := hoff hen
    exact ⟨hf, nofun, fun e he => hn e (hget e _ he nofun).2⟩

/-- The acknowledgement of a view burst of a status write in progress (R174, R182). -/
theorem ackView_write {v : StatusWrite} (h : r.write = some v) : r.ackView =
    if v.cutShort = true ∧ v.viewIssued - (v.viewAcked + 1) + v.recordIssued.toNat = 0 then
      { r with write := some { v with viewAcked := v.viewAcked + 1 } }.endWrite
    else { r with write := some { v with viewAcked := v.viewAcked + 1 } } := by
  unfold ReportWriter.ackView
  rw [h]
  rfl

/-- The end of a write leaves every released notice released. -/
theorem endWrite_released {e : Fin 8} (h : r.waiting.get e = some .released) :
    r.endWrite.waiting.get e = some .released := by
  rw [ReportWriter.endWrite_waiting, Table.get_map, h]
  rfl

/-! ### Acknowledgements (R182, R185, R188) -/

/-- A report tag is freed by its acknowledgement (R179). -/
def tagFreed (r : ReportWriter) (n : Fin 16) : ReportWriter := { r with tags := r.tags.set n none }

section
variable {n : Fin 16}

theorem tagFreed_get_none {m : Fin 16} (h : r.tags.get m = none) : (tagFreed r n).tags.get m = none := by
  show (r.tags.set n none).get m = none
  rw [Table.get_set, h, ite_self]

/-- A waiting notice still has its record where the tag freed held something else. -/
theorem tagFreed_record {w : ReportWrite} (hn : r.tags.get n = some w) {f : BitVec 32} (hw : w ≠ .record f)
    (h : f ∈ r.frames.map FrameRecord.number ∨ 0 < tagsHolding r (.record f)) :
    f ∈ r.frames.map FrameRecord.number ∨ 0 < tagsHolding (tagFreed r n) (.record f) := by
  have hcount := tagsHolding_freed (r' := tagFreed r n) hn rfl (.record f)
  rw [if_neg (Ne.symm hw)] at hcount
  rwa [hcount] at h

/-- A tag that held a view burst belongs to a status write that waits for it (R182). -/
theorem viewBurst_waited (hr : ReportsLawful r) (hn : r.tags.get n = some .viewBurst) :
    ∃ v, r.write = some v ∧ v.viewAcked < v.viewIssued ∧ v.recordIssued = false ∧
      tagsHolding (tagFreed r n) .viewBurst = v.viewIssued - (v.viewAcked + 1) ∧
      tagsHolding (tagFreed r n) .statusBurst = 0 := by
  obtain ⟨hview, hstatus, hwrite, -⟩ := hr
  have hfree := tagsHolding_freed (r' := tagFreed r n) hn rfl
  have hv := hfree .viewBurst
  have hs := hfree .statusBurst
  rw [if_pos rfl, hview] at hv
  rw [if_neg nofun, hstatus] at hs
  cases hw : r.write with
  | none => rw [hw] at hv; cases hv
  | some v =>
    obtain ⟨hacked, hissued, hdone, -⟩ := hwrite v hw
    rw [hw, Option.elim_some] at hv hs
    have hrec : v.recordIssued = false := Bool.eq_false_of_not_eq_true fun h => by have := hdone h; omega
    rw [hrec] at hs
    exact ⟨v, rfl, by omega, hrec, by omega, hs.symm⟩

/-- A view burst is acknowledged: the write in progress counts it, and one that was cut short ends with its last
(R174, R182). -/
theorem ReportsKept.viewAcked (hr : ReportsLawful r) (hn : r.tags.get n = some .viewBurst) :
    ReportsKept r (tagFreed r n).ackView := by
  obtain ⟨v, hv, hless, hrec, hview, hstatus⟩ := viewBurst_waited hr hn
  obtain ⟨-, -, hwrite, hthis, hrecord, hoff⟩ := hr
  obtain ⟨hacked, hissued, hdone, hcut⟩ := hwrite v hv
  have hrecord' := fun e f he => tagFreed_record hn (f := f) nofun (hrecord e f he)
  rw [ackView_write (r := tagFreed r n) hv]
  split_ifs with hend
  · have hzero : v.viewIssued - (v.viewAcked + 1) = 0 := (Nat.add_eq_zero_iff.1 hend.2).1
    refine ⟨reportsLawful_endWrite (hview.trans hzero) hstatus hrecord' fun hen => ⟨(hoff hen).1, (hoff hen).2.2⟩, ?_⟩
    refine claims_stay id (fun w hw hb => ?_) (fun e he => endWrite_released (r := tagFreed r n) he)
      fun m hm => tagFreed_get_none hm
    rw [hv] at hw
    cases hw
    rw [hb.1] at hend
    cases hend.1
  · refine ⟨⟨hview, ?_, fun w hw => ?_, fun e he => ?_, hrecord', fun hen => ?_⟩, ?_⟩
    · exact hstatus.trans (congrArg Bool.toNat hrec).symm
    · cases hw
      refine ⟨hless, hissued, fun h => absurd (hrec.symm.trans h) nofun, fun h => ?_⟩
      exact Nat.pos_of_ne_zero fun hz => hend ⟨h, hz⟩
    · obtain ⟨w, hw, hc⟩ := hthis e he
      rw [hv] at hw
      cases hw
      exact ⟨_, rfl, hc⟩
    · obtain ⟨hf, hc, hn⟩ := hoff hen
      exact ⟨hf, fun w hw => by cases hw; exact hc v hv, hn⟩
    · refine claims_stay id (fun w hw hb => ?_) (fun e he => he) fun m hm => tagFreed_get_none hm
      rw [hv] at hw
      cases hw
      exact ⟨_, rfl, hb.1, hb.2.imp_right fun h => ⟨h.1.trans (Nat.le_succ _), h.2⟩⟩

/-- The status record's burst is acknowledged, and its write ends (R182). -/
theorem ReportsKept.statusAcked (hr : ReportsLawful r) (hn : r.tags.get n = some .statusBurst) :
    ReportsKept r (tagFreed r n).endWrite := by
  obtain ⟨hview, hstatus, hwrite, -, hrecord, hoff⟩ := hr
  have hfree := tagsHolding_freed (r' := tagFreed r n) hn rfl
  have hv := hfree .viewBurst
  have hs := hfree .statusBurst
  rw [if_neg nofun, hview] at hv
  rw [if_pos rfl, hstatus] at hs
  cases hw : r.write with
  | none => rw [hw] at hs; cases hs
  | some v =>
    obtain ⟨hacked, hissued, hdone, -⟩ := hwrite v hw
    rw [hw, Option.elim_some] at hv hs
    have hrec : v.recordIssued = true := Bool.eq_true_of_not_eq_false fun h => by rw [h] at hs; cases hs
    have hdone := hdone hrec
    rw [hrec] at hs
    refine ⟨reportsLawful_endWrite (by omega) (Nat.succ.inj hs.symm)
      (fun e f he => tagFreed_record hn nofun (hrecord e f he)) fun hen => ⟨(hoff hen).1, (hoff hen).2.2⟩, ?_⟩
    refine claims_stay id (fun w hw' hb => ?_) (fun e he => endWrite_released (r := tagFreed r n) he)
      fun m hm => tagFreed_get_none hm
    rw [hw] at hw'
    cases hw'
    obtain ⟨-, hb | ⟨-, hb⟩⟩ := hb
    · unfold viewBursts at hdone
      omega
    · rw [hrec] at hb; cases hb

/-- A frame record is acknowledged, and the notices that waited for it are released (R185, R187). -/
theorem ReportsKept.recordAcked (hr : ReportsLawful r) {f : BitVec 32} (hn : r.tags.get n = some (.record f)) :
    ReportsKept r ((tagFreed r n).onNotices (Condition.atRecord f)) := by
  obtain ⟨hview, hstatus, hwrite, hthis, hrecord, hoff⟩ := hr
  have hfree := tagsHolding_freed (r' := tagFreed r n) hn rfl
  have hget : ∀ e c, ((tagFreed r n).onNotices (Condition.atRecord f)).waiting.get e = some c → c ≠ .released →
      c ≠ .record f ∧ r.waiting.get e = some c := by
    intro e c hc hne
    rw [ReportWriter.onNotices_waiting, Table.get_map, map_atRecord] at hc
    split_ifs at hc with ht
    · cases hc
      exact absurd rfl hne
    · exact ⟨fun h => ht (h ▸ hc), hc⟩
  refine ⟨⟨(hfree .viewBurst).symm.trans hview, (hfree .statusBurst).symm.trans hstatus, hwrite,
    fun e he => hthis e (hget e _ he nofun).2, fun e g he => ?_, fun hen => ?_⟩, ?_⟩
  · obtain ⟨hne, he⟩ := hget e _ he nofun
    exact tagFreed_record hn (fun h => hne (by cases h; rfl)) (hrecord e g he)
  · obtain ⟨hf, hc, hn⟩ := hoff hen
    exact ⟨hf, hc, fun e he => hn e (hget e _ he nofun).2⟩
  · refine claims_stay id (fun w hw hb => ⟨w, hw, hb⟩) (fun e he => ?_) fun m hm => tagFreed_get_none hm
    rw [ReportWriter.onNotices_waiting, Table.get_map]
    exact congrArg (Option.map (Condition.atRecord f)) he

theorem ReportsKept.noticeAcked (hr : ReportsLawful r) {x : Source} (hn : r.tags.get n = some (.notice x)) :
    ReportsKept r (tagFreed r n) := by
  obtain ⟨hview, hstatus, hwrite, hthis, hrecord, hoff⟩ := hr
  have hfree := tagsHolding_freed (r' := tagFreed r n) hn rfl
  exact ⟨⟨(hfree .viewBurst).symm.trans hview, (hfree .statusBurst).symm.trans hstatus, hwrite, hthis,
    fun e f he => tagFreed_record hn nofun (hrecord e f he), hoff⟩,
    claims_stay id (fun w hw hb => ⟨w, hw, hb⟩) (fun e he => he) fun m hm => tagFreed_get_none hm⟩

/-- An acknowledgement on a held tag, whatever it held (R179). -/
theorem ReportsKept.acked (hr : ReportsLawful r) {w : ReportWrite} (hn : r.tags.get n = some w) :
    ReportsKept r ((tagFreed r n).ackWrite w) := by
  cases w with
  | viewBurst => exact .viewAcked hr hn
  | statusBurst => exact .statusAcked hr hn
  | record f => exact .recordAcked hr hn
  | notice x => exact .noticeAcked hr hn

/-- The fault of a failed write does not look at the tags. -/
theorem ackFault_tagFreed (r : ReportWriter) (n : Fin 16) (w : ReportWrite) :
    (tagFreed r n).ackFault w = tagFreed (r.ackFault w) n := by
  cases w with
  | viewBurst | statusBurst | record => rfl
  | notice source =>
    show (tagFreed r n).noticeFault source = tagFreed (r.noticeFault source) n
    unfold ReportWriter.noticeFault
    split <;> rfl

end

/-! ### Issues (R179, R182, R185, R188) -/

/-- What is ready to issue (R179, R182). -/
inductive Ready (r : ReportWriter) : ReadyWrite → Prop
  | frame {f : FrameRecord} {rest : List FrameRecord} (hf : r.frames = f :: rest) : Ready r (.frame f rest)
  | view {w : StatusWrite} (hw : r.write = some w) (hc : w.cutShort = false) (hi : w.viewIssued < 8) : Ready r (.view w)
  | status {w : StatusWrite} (hw : r.write = some w) (hc : w.cutShort = false) (hi : 8 ≤ w.viewIssued)
      (ha : 8 ≤ w.viewAcked) (hr : w.recordIssued = false) : Ready r (.status w)
  | notice {e : Fin 8} (he : r.waiting.get e = some .released) : Ready r (.notice e)

theorem ready_of_ready {w : ReadyWrite} (h : r.ready = some w) : Ready r w := by
  unfold ReportWriter.ready at h
  split at h
  · rename_i hf
    cases h
    exact .frame hf
  · split at h
    · rename_i burst hb
      cases h
      obtain ⟨v, hv, hb⟩ := Option.bind_eq_some_iff.1 hb
      unfold StatusWrite.readyBurst at hb
      split_ifs at hb with hc hi hs <;> cases hb
      · exact .view hv (by simpa using hc) hi
      · exact .status hv (by simpa using hc) (not_lt.1 hi) hs.1 hs.2
    · obtain ⟨e, he, rfl⟩ := Option.map_eq_some_iff.1 h
      exact .notice (by simpa using Table.find_some he)

/-- A ready write is issued with a free tag (R179). -/
theorem reportsLawful_issue (hr : ReportsLawful r) {n : Fin 16} (hn : r.tags.get n = none) {w : ReadyWrite}
    (h : Ready r w) : ReportsLawful (r.issue n w).2 := by
  obtain ⟨hview, hstatus, hwrite, hthis, hrecord, hoff⟩ := hr
  cases h with
  | @frame f rest hf =>
    have htake := tagsHolding_taken (r' := (r.issue n (.frame f rest)).2) hn rfl
    refine ⟨(htake .viewBurst).trans hview, (htake .statusBurst).trans hstatus, hwrite, hthis, fun e g he => ?_,
      fun hen => ?_⟩
    · rw [htake]
      rcases hrecord e g he with hg | hg
      · rw [hf, List.map_cons, List.mem_cons] at hg
        rcases hg with rfl | hg
        · exact .inr (by rw [if_pos rfl]; omega)
        · exact .inl hg
      · exact .inr (by omega)
    · rw [(hoff hen).1] at hf
      cases hf
  | @view w hw hc hi =>
    have htake := tagsHolding_taken (r' := (r.issue n (.view w)).2) hn rfl
    obtain ⟨hacked, hissued, hdone, hcut⟩ := hwrite w hw
    rw [hw, Option.elim_some] at hview hstatus
    refine ⟨?_, (htake .statusBurst).trans hstatus, fun v hv => ?_, fun e he => ⟨_, rfl, hc⟩, fun e f he => ?_,
      fun hen => ?_⟩
    · rw [htake, hview]
      show _ = w.viewIssued + 1 - w.viewAcked
      rw [if_pos rfl]
      omega
    · cases hv
      refine ⟨hacked.trans (Nat.le_succ _), hi, hdone, fun h => absurd (hc.symm.trans h) nofun⟩
    · rw [htake, if_neg nofun]
      exact hrecord e f he
    · rw [(hoff hen).2.1 w hw] at hc
      cases hc
  | @status w hw hc hi ha hr =>
    have htake := tagsHolding_taken (r' := (r.issue n (.status w)).2) hn rfl
    obtain ⟨hacked, hissued, hdone, hcut⟩ := hwrite w hw
    rw [hw, Option.elim_some] at hview hstatus
    refine ⟨(htake .viewBurst).trans hview, ?_, fun v hv => ?_, fun e he => ⟨_, rfl, hc⟩, fun e f he => ?_,
      fun hen => ?_⟩
    · rw [htake, hstatus, hr]
      rfl
    · cases hv
      exact ⟨hacked, hissued, fun _ => le_antisymm (hacked.trans hissued) ha, fun h => absurd (hc.symm.trans h) nofun⟩
    · rw [htake, if_neg nofun]
      exact hrecord e f he
    · rw [(hoff hen).2.1 w hw] at hc
      cases hc
  | @notice x hx =>
    have htake := tagsHolding_taken (r' := (r.issue n (.notice x)).2) hn rfl
    have hget : ∀ e c, (r.issue n (.notice x)).2.waiting.get e = some c → r.waiting.get e = some c := by
      intro e c hc
      replace hc : (r.waiting.set x none).get e = some c := hc
      rw [Table.get_set] at hc
      split at hc
      · cases hc
      · exact hc
    refine ⟨(htake .viewBurst).trans hview, (htake .statusBurst).trans hstatus, hwrite,
      fun e he => hthis e (hget e _ he), fun e f he => ?_, fun hen => ?_⟩
    · rw [htake, if_neg nofun]
      exact hrecord e f (hget e _ he)
    · obtain ⟨hf, hc, hn⟩ := hoff hen
      exact ⟨hf, hc, fun e he => hn e (hget e _ he)⟩

/-! ### Records, snapshots and entries (R182, R185, R186) -/

/-- The finished record is handed over: its notice has the record to wait for, or is released (R185, R187). -/
theorem ReportsKept.recordHanded (hr : ReportsLawful r) {number : BitVec 32} {body : WorkingRecord}
    (h : RecordHanded number body r r') : ReportsKept r r' := by
  obtain ⟨hview, hstatus, hwrite, hthis, hrecord, hoff⟩ := hr
  obtain ⟨hqueued, hlost, hrest⟩ := h
  have htags : r'.tags = r.tags := by rw [hrest]
  have hwrite' : r'.write = r.write := by rw [hrest]
  have henable : r'.enable = r.enable := by rw [hrest]
  have hcount : ∀ w, tagsHolding r' w = tagsHolding r w := fun w => by unfold tagsHolding; rw [htags]
  have hnotices : ∃ c, Notified .frameEnd c r r' ∧ (c = .released ∨ (c = .record number ∧
      number ∈ r'.frames.map FrameRecord.number ∧ r.enable = true)) := by
    by_cases hq : r.enable = true ∧ r.frames.length < 4
    · obtain ⟨hf, hn⟩ := hqueued hq
      exact ⟨_, hn, .inr ⟨rfl, by simp [hf], hq.1⟩⟩
    · exact ⟨_, (hlost hq).2, .inl rfl⟩
  have hframes : ∀ f ∈ r.frames, f ∈ r'.frames := by
    intro f hf
    by_cases hq : r.enable = true ∧ r.frames.length < 4
    · rw [(hqueued hq).1]
      exact List.mem_append_left _ hf
    · rwa [(hlost hq).1]
  obtain ⟨c, hn, hc⟩ := hnotices
  have hget : ∀ e x, r'.waiting.get e = some x → r.waiting.get e = some x ∨ x = c := by
    intro e x hx
    rw [hn e] at hx
    split_ifs at hx
    · exact .inl hx
    · exact .inr (Option.some.inj hx).symm
  refine ⟨?_, claims_stay (fun h => ?_) (fun w hw hb => ⟨w, hwrite'.trans hw, hb⟩) (fun e he => ?_)
    fun n hn => by rw [htags, hn]⟩
  · rw [ReportsLawful, hcount, hcount, hwrite', henable]
    refine ⟨hview, hstatus, hwrite, fun e he => ?_, fun e f he => ?_, fun hen => ?_⟩
    · rcases hget e _ he with he | rfl
      · exact hthis e he
      · rcases hc with hc | ⟨hc, -⟩ <;> cases hc
    · rw [hcount]
      rcases hget e _ he with he | rfl
      · refine (hrecord e f he).imp_left fun hm => ?_
        obtain ⟨x, hx, rfl⟩ := List.mem_map.1 hm
        exact List.mem_map_of_mem (hframes x hx)
      · rcases hc with hc | ⟨hc, hm, -⟩ <;> cases hc
        exact .inl hm
    · obtain ⟨hf, hcut, hnext⟩ := hoff hen
      refine ⟨(hlost fun hq => by rw [hen] at hq; cases hq.1).1.trans hf, hcut, fun e he => ?_⟩
      rcases hget e _ he with he | rfl
      · exact hnext e he
      · rcases hc with hc | ⟨hc, -⟩ <;> cases hc
  · obtain ⟨x, hx⟩ := List.exists_mem_of_ne_nil _ h
    exact List.ne_nil_of_mem (hframes x hx)
  · rw [hn e, he]
    rfl

/-- A status write begins, and takes over the notices held behind the next one (R182, R187). -/
theorem ReportsKept.writeBegun (hr : ReportsLawful r) (hen : r.enable = true) (hnone : r.write = none)
    (sequence : BitVec 32) (dirty : Bool) (view record : List Byte) :
    ReportsKept r ({ r with
      sequence := sequence, dirty := dirty
      write := some { view := view, record := record, viewIssued := 0, viewAcked := 0, recordIssued := false
                      cutShort := false } }.onNotices Condition.atSnapshot) := by
  obtain ⟨hview, hstatus, hwrite, hthis, hrecord, hoff⟩ := hr
  rw [hnone] at hview hstatus
  refine ⟨⟨hview, hstatus, fun v hv => ?_, fun e he => ⟨_, rfl, rfl⟩, fun e f he => ?_, fun hoff => ?_⟩, ?_⟩
  · cases hv
    exact ⟨le_rfl, Nat.zero_le _, nofun, nofun⟩
  · rw [ReportWriter.onNotices_waiting, Table.get_map] at he
    obtain ⟨c, hc, hx⟩ := Option.map_eq_some_iff.1 he
    rw [atSnapshot_eq_record.1 hx] at hc
    exact hrecord e f hc
  · exact absurd (hen.symm.trans hoff) nofun
  · refine claims_stay id (fun v hv => ?_) (fun e he => ?_) fun n hn => hn
    · rw [hnone] at hv
      cases hv
    · rw [ReportWriter.onNotices_waiting, Table.get_map]
      exact congrArg (Option.map Condition.atSnapshot) he

/-- An entry's waiting notice is removed (R186). -/
theorem reportsLawful_noticeRemoved (hr : ReportsLawful r) (e : Fin 8) (notices : Table NoticeEntry 8) :
    ReportsLawful { r with notices := notices, waiting := r.waiting.set e none } := by
  obtain ⟨hview, hstatus, hwrite, hthis, hrecord, hoff⟩ := hr
  have hget : ∀ d c, (r.waiting.set e none).get d = some c → r.waiting.get d = some c := by
    intro d c hc
    rw [Table.get_set] at hc
    split at hc
    · cases hc
    · exact hc
  exact ⟨hview, hstatus, hwrite, fun d hd => hthis d (hget d _ hd), fun d f hd => hrecord d f (hget d _ hd),
    fun hen => ⟨(hoff hen).1, (hoff hen).2.1, fun d hd => (hoff hen).2.2 d (hget d _ hd)⟩⟩

/-! ### The end of the use of the area (R174) -/

theorem cut_eq (w : StatusWrite) : w.cut =
    if w.viewIssued - w.viewAcked + w.recordIssued.toNat = 0 then none else some { w with cutShort := true } := rfl

theorem heldAfresh_foldl (enable : Bool) (l : List FrameRecord) (x : Option Condition) :
    (x.map fun c => (l.foldl (fun c f => c.atRecord f.number) c)).map (Condition.heldAfresh enable) =
      match x with
      | some (.record f) => if f ∈ l.map FrameRecord.number then some .released else some (.record f)
      | some .nextWrite | some .thisWrite => if enable then some .nextWrite else some .released
      | some .released => some .released
      | none => none := by
  cases x with
  | none => rfl
  | some c =>
    simp only [Option.map_some, foldl_atRecord]
    cases c with
    | record f => dsimp only; split_ifs <;> rfl
    | released => rfl
    | nextWrite => cases enable <;> rfl
    | thisWrite => cases enable <;> rfl

/-- The end of the use of an area is what claims say of it (R174). -/
theorem areaEnded_endArea (r : ReportWriter) (base : Addr) (enable : Bool) :
    AreaEnded base enable r (r.endArea base enable) := by
  obtain ⟨n, hn, hget⟩ := foldl_records_frame r.frames r
  unfold ReportWriter.endArea
  dsimp only
  rw [hn]
  refine ⟨rfl, rfl, rfl, fun w hw hz => ?_, fun w hw hp => ?_, fun hw => ?_, fun e => ?_, rfl⟩
  · show r.write.bind StatusWrite.cut = none
    rw [hw, Option.bind_some, cut_eq, if_pos hz]
  · show r.write.bind StatusWrite.cut = _
    rw [hw, Option.bind_some, cut_eq, if_neg (by omega)]
  · show r.write.bind StatusWrite.cut = none
    rw [hw, Option.bind_none]
  · show (n.map fun c => c.map (Condition.heldAfresh enable)).get e = _
    rw [Table.get_map, hget e]
    exact heldAfresh_foldl enable r.frames (r.waiting.get e)

theorem reportsLawful_areaEnded (hr : ReportsLawful r) {base : Addr} {enable : Bool} (h : AreaEnded base enable r r') :
    ReportsLawful r' := by
  obtain ⟨hview, hstatus, hwrite, hthis, hrecord, hoff⟩ := hr
  obtain ⟨hframes, -, hen, hended, hcut, hnone, hwaiting, hrest⟩ := h
  have htags : ∀ w, tagsHolding r' w = tagsHolding r w := fun w => by unfold tagsHolding; rw [hrest]
  have hcond : ∀ e c, r'.waiting.get e = some c → c = .released ∨ (c = .nextWrite ∧ enable = true) ∨
      ∃ f, c = .record f ∧ r.waiting.get e = some (.record f) ∧ f ∉ r.frames.map FrameRecord.number := by
    intro e c hc
    rw [hwaiting e] at hc
    split at hc
    · split_ifs at hc with hf <;> cases hc
      · exact .inl rfl
      · exact .inr (.inr ⟨_, rfl, by assumption, hf⟩)
    · split_ifs at hc with he <;> cases hc
      · exact .inr (.inl ⟨rfl, he⟩)
      · exact .inl rfl
    · split_ifs at hc with he <;> cases hc
      · exact .inr (.inl ⟨rfl, he⟩)
      · exact .inl rfl
    · cases hc
      exact .inl rfl
    · cases hc
  have hcutWrite : ∀ w, r'.write = some w → ∃ v, r.write = some v ∧ w = { v with cutShort := true } ∧
      0 < v.viewIssued - v.viewAcked + v.recordIssued.toNat := by
    intro w hw
    cases hv : r.write with
    | none => rw [hnone hv] at hw; cases hw
    | some v =>
      rcases Nat.eq_zero_or_pos (v.viewIssued - v.viewAcked + v.recordIssued.toNat) with hz | hp
      · rw [hended v hv hz] at hw; cases hw
      · rw [hcut v hv hp] at hw
        exact ⟨v, rfl, (Option.some.inj hw).symm, hp⟩
  have houtstanding : r'.write.elim 0 (fun w => w.viewIssued - w.viewAcked) =
      r.write.elim 0 (fun w => w.viewIssued - w.viewAcked) ∧
      r'.write.elim 0 (fun w => w.recordIssued.toNat) = r.write.elim 0 (fun w => w.recordIssued.toNat) := by
    cases hv : r.write with
    | none => rw [hnone hv]; exact ⟨rfl, rfl⟩
    | some v =>
      rcases Nat.eq_zero_or_pos (v.viewIssued - v.viewAcked + v.recordIssued.toNat) with hz | hp
      · rw [hended v hv hz]
        obtain ⟨h1, h2⟩ := Nat.add_eq_zero_iff.1 hz
        exact ⟨h1.symm, h2.symm⟩
      · rw [hcut v hv hp]
        exact ⟨rfl, rfl⟩
  rw [ReportsLawful, htags, htags, houtstanding.1, houtstanding.2, hframes, hen]
  refine ⟨hview, hstatus, fun w hw => ?_, fun e he => ?_, fun e f he => ?_,
    fun hoff => ⟨rfl, fun w hw => ?_, fun e he => ?_⟩⟩
  · obtain ⟨v, hv, rfl, hp⟩ := hcutWrite w hw
    obtain ⟨h1, h2, h3, -⟩ := hwrite v hv
    exact ⟨h1, h2, h3, fun _ => hp⟩
  · rcases hcond e _ he with hc | ⟨hc, -⟩ | ⟨f, hc, -⟩ <;> cases hc
  · rcases hcond e _ he with hc | ⟨hc, -⟩ | ⟨g, hc, hg, hm⟩ <;> cases hc
    rw [htags]
    exact .inr ((hrecord e f hg).resolve_left hm)
  · obtain ⟨v, -, rfl, -⟩ := hcutWrite w hw
    rfl
  · rcases hcond e _ he with hc | ⟨-, hc⟩ | ⟨f, hc, -⟩
    · cases hc
    · rw [hoff] at hc; cases hc
    · cases hc

end Sys2Proof.Safety
end

