-- ==== Sys2Proof/Proofs/Reporting.lean ====
section
/-! Every step keeps what report tags and waiting notices wait for, and the age law: all but a few of them give the
Report Writer at most new notices. -/

namespace Sys2Proof.Safety

open Sys2Proof.Machine

section
variable {s t : State}

/-- A lawful Report Writer that presents no claim it did not present, at the same age, keeps reporting safe. -/
theorem Reporting.kept (hs : Reporting s) (h : ReportsKept s.rw t.rw) (ha : t.ma.age = s.ma.age) : Reporting t :=
  ⟨h.lawful, fun hc => ha.trans (hs.2 (Bool.eq_false_of_not_eq_true fun hp => by rw [h.claims hp] at hc; cases hc))⟩

theorem Reporting.told (hs : Reporting s) (h : Told s.rw t.rw) (ha : t.ma.age = s.ma.age) : Reporting t :=
  hs.kept (.told hs.1 h) ha

theorem Reporting.congr (hs : Reporting s) (hr : t.rw = s.rw) (ha : t.ma = s.ma) : Reporting t :=
  hs.told (by rw [hr]; exact .of_eq rfl rfl rfl rfl rfl) (by rw [ha])

/-- What every element's step keeps, a fold keeps. -/
theorem Reporting.foldl {α : Type} {f : State → α → State} (hf : ∀ u a, Reporting u → Reporting (f u a)) (l : List α)
    (hs : Reporting s) : Reporting (l.foldl f s) := by
  induction l generalizing s with
  | nil => exact hs
  | cons a l ih => exact ih (hf s a hs)

theorem Told.result (s : State) (l : Lane) (code : BitVec 8) (r : Result) : Told s.rw (s.result l code r).rw := by
  rw [State.result_rw]
  split
  · exact .raise s.rw _
  · exact .mark s.rw

theorem reportsLawful_result (h : ReportsLawful s.rw) (l : Lane) (code : BitVec 8) (r : Result) :
    ReportsLawful (s.result l code r).rw := (ReportsKept.told h (.result s l code r)).lawful

/-- The age is 0 where no claim is left, so a lawful Report Writer suffices (R149). -/
theorem Reporting.settleAge (h : ReportsLawful s.rw) : Reporting s.settleAge := by
  unfold State.settleAge
  split
  · rename_i hc
    exact ⟨h, fun hn => absurd (hc.symm.trans hn) nofun⟩
  · exact ⟨h, fun _ => rfl⟩

end

namespace Reporting

variable {s : State} (hs : Reporting s)

include hs

/-! ## Events, results and surfaces -/

theorem raise (e : Event) : Reporting (s.raise e) := hs.told (.raise s.rw e) rfl

theorem mark : Reporting s.mark := hs.told (.mark s.rw) rfl

theorem signal (x : Source) : Reporting (s.signal x) := hs.told (.occur s.rw x (.inl rfl)) rfl

theorem linkProtocol (c : FaultCause) (n : Nat) : Reporting (s.linkProtocol c n) := hs.told (.raise s.rw _) rfl

theorem result (l : Lane) (code : BitVec 8) (r : Result) : Reporting (s.result l code r) := by
  obtain ⟨-, -, -, -, -, -, -, hma, -⟩ := s.result_frame l code r
  exact hs.told (.result s l code r) (by rw [hma])

theorem setSurface (i : Fin 8) (x : SurfState) : Reporting (s.setSurface i x) := hs.told (.mark s.rw) rfl

theorem freeSurface (i : Fin 8) : Reporting (s.freeSurface i) := hs.told (.mark s.rw) rfl

theorem dropSurface (e : Entry) : Reporting (s.dropSurface e) := (hs.freeSurface e.surface).raise .presentDropped

theorem takeEntry (older : List Entry) (e : Entry) (newer : List Entry) : Reporting (s.takeEntry older e newer) := by
  have hq : Reporting { s with pq := { s.pq with queue := newer, lastTaken := e.number } } := hs
  exact ((Reporting.foldl (f := State.dropOlder) (fun u e hu => hu.dropSurface e) older hq).setSurface e.surface
    .scanning).signal .presentTaken

theorem freeScanning : Reporting s.freeScanning := by
  unfold State.freeScanning
  split
  · exact hs.freeSurface _
  · exact hs

theorem settleSurfaces : Reporting s.settleSurfaces := by
  unfold State.settleSurfaces
  split
  · exact hs
  · split
    · exact (hs.freeSurface _).setSurface _ .held
    · exact hs.setSurface _ .held

/-! ## Lines and settings -/

theorem boundary (r : Raster) (n : Nat) : Reporting (s.boundary r n) := hs.congr rfl rfl

theorem onRecord (f : WorkingRecord → WorkingRecord) : Reporting (s.onRecord f) := hs.congr rfl rfl

theorem sendBlank (kind : Token) : Reporting (s.sendBlank kind) := hs.congr rfl rfl

theorem blankLine (r : Raster) (n : Nat) (kind : Token) : Reporting ((s.boundary r n).sendBlank kind) :=
  (hs.boundary r n).sendBlank kind

theorem enterFrontMin : Reporting s.enterFrontMin := (hs.blankLine .frontMin 0 .front).congr rfl rfl

theorem enterSettle (t : TimingSet) : Reporting (s.enterSettle t) := by
  unfold State.enterSettle
  split
  · exact (hs.raise .settleDone).enterFrontMin
  · exact hs.blankLine ..

theorem freeHeldMisfit (t : TimingSet) : Reporting (s.freeHeldMisfit t) := by
  unfold State.freeHeldMisfit
  split
  · split
    · exact hs
    · exact hs.freeSurface _
  · exact hs

theorem dropMisfits (t : TimingSet) : Reporting (s.dropMisfits t) := by
  unfold State.dropMisfits
  refine Reporting.foldl (fun u e hu => hu.dropSurface e) _ ?_
  exact hs.congr rfl rfl

theorem timingInForce (t : TimingSet) : Reporting (s.timingInForce t) := by
  unfold State.timingInForce
  refine dropMisfits (freeHeldMisfit ?_ t) t
  exact hs.congr rfl rfl

theorem pendingInForce : Reporting s.pendingInForce := by
  unfold State.pendingInForce
  split
  · exact hs.timingInForce _
  · exact hs

theorem waitingInForce : Reporting s.waitingInForce := by
  obtain ⟨-, -, -, -, -, -, hrw, hma, -⟩ := s.waitingInForce_frame
  exact hs.congr hrw hma

theorem enterOff : Reporting s.enterOff := by
  unfold State.enterOff
  refine waitingInForce (pendingInForce ?_)
  exact hs.congr rfl rfl

theorem nextFrame : Reporting s.nextFrame := by
  unfold State.nextFrame
  split
  · dsimp only
    split
    · exact (hs.timingInForce _).enterOff
    · exact (hs.timingInForce _).enterSettle _
  · split
    · exact hs.enterOff
    · exact hs.enterFrontMin

/-! ## Fetch points and frames -/

theorem decideBand (kind : FrameKind) (b : Nat) : Reporting (s.decideBand kind b).2 := by
  unfold State.decideBand
  split
  · exact hs
  · exact hs
  · split
    · exact hs
    · split
      · exact hs
      · exact hs.raise .bandMiss
      · exact hs.raise .bandMiss

theorem fetchPoint (c : FrameControl) (b : Nat) : Reporting (s.fetchPoint c b) := hs.decideBand c.decision b

theorem fetchStart (t : TimingSet) (c : FrameControl) (l : Nat) : Reporting (s.fetchStart t c l) := by
  obtain ⟨-, -, -, -, -, -, -, hrw, hma, -⟩ := s.fetchStart_frame t c l
  exact hs.congr hrw hma

theorem backLine (t : TimingSet) (c : FrameControl) (n : Nat) : Reporting (s.backLine t c n) := by
  have hp : Reporting (s.firstPoint t c n) := by
    unfold State.firstPoint
    split
    · exact hs.fetchPoint c 0
    · exact hs
  unfold State.backLine
  dsimp only
  split
  · exact hp.fetchStart t c _
  · exact hp

theorem beginBackBlank (t : TimingSet) (kind : FrameKind) (source : Option (Fin 8)) (front : Nat) (skipped : Bool)
    (hb nb : Nat) : Reporting (s.beginBackBlank t kind source front skipped hb nb) := by
  unfold State.beginBackBlank
  refine sendBlank (backLine ?_ t _ 0) .back
  exact hs.congr rfl rfl

theorem expire (t : TimingSet) (front : Nat) : Reporting (s.expire t front) := by
  unfold State.expire
  split
  · exact (hs.raise .repeated).beginBackBlank t ..
  · exact (hs.raise .fillFrame).beginBackBlank t ..

/-- A front-blank selection that takes an entry begins a NEW frame (R84, R85). -/
theorem beginNew {u : State} {e : Entry} (h : s.frontSelection = some (e, u)) (t : TimingSet) (front : Nat)
    (skipped : Bool) : Reporting (u.beginNew t e front skipped) := by
  obtain ⟨older, newer, -, rfl⟩ := s.frontSelection_some h
  unfold State.beginNew
  refine beginBackBlank ?_ t ..
  exact (hs.takeEntry older e newer).congr rfl rfl

theorem midActive (c : FrameControl) (k : Nat) : Reporting (s.midActive c k) := by
  unfold State.midActive
  split
  · exact hs
  · split
    · exact hs
    · rename_i e u h
      obtain ⟨older, newer, -, rfl⟩ := s.splitSelection_some h
      exact (hs.freeScanning.takeEntry older e newer).congr rfl rfl

theorem decisionPoint (c : FrameControl) (j : Nat) : Reporting (s.decisionPoint c j) := by
  unfold State.decisionPoint
  split
  · exact hs.midActive c _
  · exact hs

theorem lineDeadline (t : TimingSet) (j : Nat) : Reporting (s.lineDeadline t j) :=
  Reporting.foldl (f := fun u _ => u.lateBurst) (fun _ _ hu => hu.raise .fetchLate) _ hs

theorem bandPoint (c : FrameControl) (j : Nat) : Reporting (s.bandPoint c j) := by
  unfold State.bandPoint
  split
  · exact hs.fetchPoint c _
  · exact hs

theorem activeLine (t : TimingSet) (c : FrameControl) (j : Nat) : Reporting (s.activeLine t c j) := by
  have hlag : Reporting (s.completeLag j) := by
    obtain ⟨-, -, -, -, -, -, -, hrw, hma, -⟩ := s.completeLag_frame j
    exact hs.congr hrw hma
  have hsettings : ∀ u : State, Reporting u → Reporting (u.settingsAt j) := by
    intro u hu
    unfold State.settingsAt
    split
    · exact hu.waitingInForce
    · exact hu
  exact (((hsettings _ (hlag.decisionPoint c j)).lineDeadline t j).bandPoint _ j).fetchStart t _ _

/-! ## The boundaries (chapter 4) -/

theorem lineBoundary : Reporting (lineBoundary s) := by
  unfold Machine.lineBoundary
  split
  · exact hs
  · dsimp only
    split
    · split
      · exact hs.blankLine ..
      · exact hs
    · split
      · exact hs.blankLine ..
      · exact hs
    · split
      · split
        · exact ((hs.boundary ..).backLine ..).sendBlank _
        · exact hs
      · exact hs
    all_goals exact hs

theorem settleDone : Reporting (settleDone s) := by
  unfold Machine.settleDone
  split
  · exact hs
  · split
    · exact (hs.raise .settleDone).enterFrontMin
    · exact hs

theorem frontMinEnd : Reporting (frontMinEnd s) := by
  unfold Machine.frontMinEnd
  split
  · exact hs
  · split
    · split
      · rename_i h
        exact hs.beginNew h ..
      · split
        · exact hs.blankLine ..
        · exact hs.expire ..
    · exact hs

theorem stretchLine (t : TimingSet) (front : Nat) : Reporting (s.stretchLine t front) := by
  unfold State.stretchLine
  split
  · rename_i h
    exact hs.beginNew h ..
  · split
    · exact hs.blankLine ..
    · exact hs.expire t front

theorem stretchBoundary : Reporting (stretchBoundary s) := by
  unfold Machine.stretchBoundary
  split
  · exact hs
  · split
    · exact hs.stretchLine ..
    · exact hs

theorem stretchExpiry : Reporting (stretchExpiry s) := by
  unfold Machine.stretchExpiry
  split
  · exact hs
  · split
    · exact hs.stretchLine ..
    · exact hs

theorem activeStart : Reporting (activeStart s) := by
  unfold Machine.activeStart
  split
  · split
    · exact (((hs.boundary ..).onRecord _).signal .frameStart).activeLine ..
    · exact hs
  · exact hs

theorem activeLineBoundary : Reporting (Machine.activeLine s) := by
  unfold Machine.activeLine
  split
  · dsimp only
    split
    · exact (hs.boundary ..).activeLine ..
    · exact hs
  · exact hs

/-- A frame's record is handed over, its surfaces settle, and what follows begins (R91). -/
theorem endOfActive : Reporting (endOfActive s) := by
  have hhanded : Reporting s.handRecord :=
    hs.kept (.recordHanded hs.1 (recordHanded_takeRecord s.rw s.rtm.frameCount (s.rtm.record.getD .empty))) rfl
  unfold Machine.endOfActive
  split
  · exact hs
  · split
    · exact nextFrame (hhanded.settleSurfaces.congr rfl rfl)
    · exact hs

/-! ## The commands of the command page (R155) -/

theorem openFrame (id : BitVec 8) : Reporting (openFrame id s) := by
  unfold Machine.openFrame
  split
  · exact hs.result ..
  · dsimp only
    split
    · exact hs.result ..
    · split
      · exact hs.result ..
      · refine result ?_ ..
        exact hs.mark.congr rfl rfl

theorem release (id : BitVec 8) (first last : BitVec 16) : Reporting (release id first last s) := by
  unfold Machine.release
  split
  · exact hs.result ..
  · dsimp only
    split_ifs
    · exact hs.result ..
    · exact hs.result ..
    · exact hs.result ..
    · refine result ?_ ..
      exact hs.congr rfl rfl

theorem abandon (id : BitVec 8) : Reporting (abandon id s) := by
  unfold Machine.abandon
  split
  · exact hs.result ..
  · split
    · exact hs.result ..
    · exact hs.result ..
    · exact hs.result ..
    · refine result ?_ ..
      exact hs.mark.congr rfl rfl
    · refine result ?_ ..
      exact hs.mark.congr rfl rfl

theorem present (id : BitVec 8) (a b : BitVec 16) : Reporting (present id a b s) := by
  unfold Machine.present
  split
  · exact hs.result ..
  · split
    · exact hs.result ..
    · split
      · exact hs.result ..
      · exact hs.result ..
      · exact hs.result ..
      · exact hs.result ..
      · split_ifs
        · exact hs.result ..
        · refine result ?_ ..
          exact hs.mark.congr rfl rfl
        · exact hs.result ..

theorem withdraw (id : BitVec 8) : Reporting (withdraw id s) := by
  unfold Machine.withdraw
  split
  · exact hs.result ..
  · split
    · refine result ?_ ..
      exact hs.mark.congr rfl rfl
    · exact hs.result ..

theorem commitSurface (entry : BitVec 16) : Reporting (commitSurface entry s) := by
  have hi : ∀ i g, Reporting (s.installGeometry i g) := fun i g => hs.mark.congr rfl rfl
  unfold Machine.commitSurface
  split
  · exact hs.result ..
  · dsimp only
    split_ifs
    · exact hs.result ..
    · exact result (hi ..) ..
    · unfold State.defineSurface
      split
      · exact hs.result ..
      · split
        · split
          · exact hs.result ..
          · exact result (hi ..) ..
        · exact hs.result ..

theorem commitTiming (entry : BitVec 16) : Reporting (commitTiming entry s) := by
  have hi : ∀ t, Reporting (s.installTiming t) := by
    intro t
    unfold State.installTiming
    split
    · exact hs.timingInForce t
    all_goals exact hs.congr rfl rfl
  unfold Machine.commitTiming
  split_ifs
  · exact hs.result ..
  · exact hs.result ..
  · exact (hi _).result ..
  · exact hs.result ..

theorem commitFetch (entry : BitVec 16) : Reporting (commitFetch entry s) := by
  have hi : ∀ f, Reporting (s.installFetch f) := by
    intro f
    unfold State.installFetch
    split
    all_goals exact hs.congr rfl rfl
  unfold Machine.commitFetch
  split
  · exact hs.result ..
  · split
    · exact hs.result ..
    · exact (hi _).result ..

/-- An entry is installed and its waiting notice removed, and the age settles (R149, R186). -/
theorem commitNotice (entry : BitVec 16) : Reporting (commitNotice entry s) := by
  unfold Machine.commitNotice
  split
  · exact hs.result ..
  · split
    · exact hs.result ..
    · refine settleAge (reportsLawful_result ?_ ..)
      exact reportsLawful_noticeRemoved hs.1 _ _

theorem commitMarker (entry : BitVec 16) : Reporting (commitMarker entry s) := by
  unfold Machine.commitMarker
  split
  · exact hs.result ..
  · split
    · exact hs.result ..
    · refine result ?_ ..
      exact hs.congr rfl rfl

/-- The use of the area in force ends, and the age settles (R149, R174). -/
theorem installReport (base : Addr) (enable : Bool) :
    Reporting ((s.installReport base enable).commitResult .ok).settleAge := by
  refine settleAge (reportsLawful_result ?_ ..)
  exact reportsLawful_areaEnded hs.1 (areaEnded_endArea s.rw base enable)

theorem commitReport (entry : BitVec 16) : Reporting (commitReport entry s) := by
  unfold Machine.commitReport
  split
  · exact hs.result ..
  · dsimp only
    split
    · exact hs.result ..
    · exact hs.installReport ..
    · unfold State.enableReport
      split_ifs
      · exact hs.result ..
      · exact hs.result ..
      · exact hs.installReport ..

theorem outputOn : Reporting (outputOn s) := by
  unfold Machine.outputOn
  split
  · exact hs.result ..
  · split
    · exact (hs.enterSettle _).result ..
    all_goals exact hs.result ..

theorem outputOff : Reporting (outputOff s) := by
  have hr : Reporting s.stopRaster := by
    unfold State.stopRaster
    split
    · exact hs
    · exact hs.enterOff
    · exact hs.enterOff
    · exact hs.enterOff
    · exact hs.congr rfl rfl
    · exact hs.congr rfl rfl
  exact hr.result ..

theorem clearEvents (b c : BitVec 16) : Reporting (clearEvents b c s) := by
  refine result ?_ ..
  exact hs.told (.of_eq rfl rfl rfl rfl rfl) rfl

theorem viewSelect (a : BitVec 16) : Reporting (viewSelect a s) := by
  unfold Machine.viewSelect
  split
  · refine result ?_ ..
    exact hs.told (.of_eq rfl rfl rfl rfl rfl) rfl
  · exact hs.result ..

theorem softReset : Reporting (softReset s) := by
  refine result ?_ ..
  exact hs.told (.of_eq rfl rfl rfl rfl rfl) rfl

theorem tableData (v : BitVec 64) : Reporting (tableData v s) := by
  unfold Machine.tableData
  split
  · exact hs.congr rfl rfl
  · exact hs.result ..

theorem runCommand (i : Instr) : Reporting (runCommand i s) := by
  cases i with
  | openFrame id => exact hs.openFrame id
  | release id first last => exact hs.release id first last
  | abandon id => exact hs.abandon id
  | present id a b => exact hs.present id a b
  | withdraw id => exact hs.withdraw id
  | commitSurface e => exact hs.commitSurface e
  | commitTiming e => exact hs.commitTiming e
  | commitFetch e => exact hs.commitFetch e
  | commitNotice e => exact hs.commitNotice e
  | commitMarker e => exact hs.commitMarker e
  | commitReport e => exact hs.commitReport e
  | outputOn => exact hs.outputOn
  | outputOff => exact hs.outputOff
  | clearEvents b c => exact hs.clearEvents b c
  | viewSelect a => exact hs.viewSelect a
  | softReset => exact hs.softReset
  | unknown lane code => exact hs.result lane code .unknown
  | wrongLane lane code => exact hs.result lane code .wrongLane
  | tableIndex v => exact hs.congr rfl rfl
  | tableData v => exact hs.tableData v
  | reportNow v => exact hs.mark
  | misplacedWrite => exact hs.raise .misplacedWrite
  | powerOnReset | linkReset | crstRelease | linkUpChange | requestAccept | consoleResponse | fetchResponse
  | reportAck | strayResponse | grant | channelFree | statusWriteBegin | lineBoundary | settleDone | frontMinEnd
  | stretchBoundary | stretchExpiry | activeStart | activeLine | endOfActive => exact hs

/-! ## The pins and the console's traffic (R128, R138, R144, R146) -/

theorem linkReset : Reporting (linkReset s) := by
  unfold Machine.linkReset
  split
  · exact hs
  · exact hs.told ((Told.raise s.rw .linkReset).trans (.of_eq rfl rfl rfl rfl rfl)) rfl

theorem linkUpChange (level : Bool) (sent : Nat) : Reporting (linkUpChange level sent s) := by
  unfold Machine.linkUpChange
  split
  · exact hs
  · exact hs.told (.raise s.rw .outputChange) rfl

theorem decodeBeats (r : Request) : Reporting (s.decodeBeats r) :=
  State.decodeBeats_keeps s Reporting (fun i _ hu => hu.runCommand i) (fun _ hu => hu.result .control 0x20 .range) r hs

/-- The checks of an acceptance raise link faults or nothing (R138). -/
theorem checked {r : Request} {reuse : Prop} {u : State} (h : Checked r reuse s u) : Reporting u := by
  have hfault : ∀ {x y : State} {c n}, LinkFaulted c n x y → Reporting x → Reporting y := by
    rintro x y c n ⟨-, hevent, hy⟩ hx
    exact hx.told (.eventTaken hevent) (by rw [hy])
  obtain ⟨v, hcrossing, hwithin, hreuse, hfresh⟩ := h
  have hv : Reporting v := by
    by_cases hc : Crossing r
    · exact hfault (hcrossing hc) hs
    · rwa [hwithin hc]
  by_cases hr : reuse
  · exact hfault (hreuse hr) hv
  · rwa [hfresh hr]

theorem takeOffer (tag : Fin 256) (o : Offer) : Reporting (s.takeOffer tag o) := by
  cases o with
  | notOffered | full => exact hs
  | late i =>
    show Reporting (s.lateWrite i)
    rw [lateWrite_eq]
    exact hs.told (.raise s.rw .lateWrite) rfl
  | reuse => exact hs.linkProtocol ..
  | track i b => exact hs.congr rfl rfl

theorem accept (r : Request) (rest : List Request) (o : Offer) : Reporting (s.accept r rest o) := by
  obtain ⟨u, hchecked, hforwarded, -⟩ := accept_checked s s.tc.arrivals r rest o _ Iff.rfl
  have htaken : Reporting (headTaken rest s) := hs.congr rfl rfl
  have hu := htaken.checked hchecked
  have haction : Reporting (if s.toPage r then u.decodeBeats r else u.takeOffer r.tag o) := by
    split
    · exact hu.decodeBeats r
    · exact hu.takeOffer r.tag o
  obtain ⟨ht, -⟩ := hforwarded
  have hrw := congrArg State.rw ht
  have hma := congrArg State.ma ht
  exact haction.congr hrw hma

theorem tryHead : Reporting s.tryHead := by
  unfold State.tryHead
  split
  · exact hs
  · split
    · split
      · unfold State.stallWrite
        split
        · exact hs
        · exact hs.told (.raise s.rw .trackStall) rfl
      all_goals exact hs.accept ..
    · exact hs

theorem acknowledge (tag : Fin 256) (status : Status) : Reporting (s.acknowledge tag status) := by
  unfold State.acknowledge
  split
  · exact hs
  · dsimp only
    split <;> split
    · exact hs.told (.raise s.rw .writeFault) rfl
    · exact hs.told (.raise s.rw .writeFault) rfl
    · exact hs.congr rfl rfl
    · exact hs.congr rfl rfl

theorem consoleResponse (tag : Fin 256) (kind : RespKind) (status : Status) (data : List (BitVec 64)) :
    Reporting (consoleResponse tag kind status data s) := by
  unfold Machine.consoleResponse
  dsimp only
  split
  · exact hs.congr rfl rfl
  · split
    · refine linkProtocol ?_ ..
      exact hs.congr rfl rfl
    · split
      · have hu : Reporting { s with tc := { s.tc with
            returned := none
            tags := s.tc.tags.modify tag fun c => { c with issued := c.issued - 1 } } } := hs.congr rfl rfl
        exact (hu.acknowledge tag status).congr rfl rfl
      · exact hs.congr rfl rfl

/-! ## The M-port (R112, R151, R179, R182) -/

theorem fetchResponse (n : Fin 64) (kind : RespKind) (status : Status) (data : List (BitVec 64)) :
    Reporting (fetchResponse n kind status data s) := by
  unfold Machine.fetchResponse
  split
  · exact hs.linkProtocol ..
  · exact hs.linkProtocol ..
  · have hu : Reporting (s.freeRead n) := hs.congr rfl rfl
    generalize s.freeRead n = u at hu ⊢
    unfold State.readData
    split
    · exact hu
    · split
      · unfold State.completeBurst
        split
        · exact hu
        · dsimp only
          split
          · exact hu.congr rfl rfl
          · exact hu.congr rfl rfl
      · exact hu.told (.raise u.rw .fetchError) rfl

theorem reportAck (n : Fin 16) (status : Status) : Reporting (reportAck n status s) := by
  unfold Machine.reportAck
  split
  · exact hs.linkProtocol ..
  · rename_i w hn
    cases status with
    | ok => exact hs.kept (.acked hs.1 hn) rfl
    | error =>
      have ht := Told.ackFault s.rw w
      have hu : Reporting { s with rw := s.rw.ackFault w } := hs.told ht rfl
      refine hu.kept ?_ rfl
      show ReportsKept _ (((tagFreed s.rw n).ackFault w).ackWrite w)
      rw [ackFault_tagFreed]
      exact .acked hu.1 (by rw [ht.tags, hn])

theorem strayResponse (tag : Fin 512) (kind : RespKind) (status : Status) :
    Reporting (strayResponse tag kind status s) := by
  unfold Machine.strayResponse
  split_ifs
  · exact hs.linkProtocol ..
  · exact hs.linkProtocol ..
  · exact hs

theorem statusWriteBegin : Reporting (statusWriteBegin s) := by
  unfold Machine.statusWriteBegin
  split
  · rename_i h
    exact hs.kept (.writeBegun hs.1 h.1 h.2.2 ..) rfl
  · exact hs

/-- A grant to another claimant leaves the age 0 while no claim is presented (R149, R152). -/
theorem aged {t : State} (hr : t.rw = s.rw) (ha : t.ma.age = s.aged) : Reporting t := by
  refine ⟨hr ▸ hs.1, fun hc => ?_⟩
  rw [ha, State.aged, ← hr, hc]
  rfl

theorem grant : Reporting (grant s) := by
  have hfetch : ∀ g, Reporting (s.grantFetch g) := by
    intro g
    unfold State.grantFetch
    split
    · exact hs.aged rfl rfl
    · exact hs
  unfold Machine.grant
  split
  · exact hs
  · split
    · exact hs
    · exact hfetch _
    · unfold State.grantPass
      split
      · exact hs
      · exact hs.aged rfl rfl
    · exact hfetch _
    · unfold State.grantReport
      split
      · rename_i w n hw hn
        exact ⟨reportsLawful_issue hs.1 (by simpa using Table.find_some hn) (ready_of_ready hw), fun _ => rfl⟩
      · exact hs

/-! ## Every step -/

theorem exec (c : Instr) {t : State} (h : exec c s = .next t) : Reporting t := by
  cases c with
  | powerOnReset wsel linkUp crst =>
    cases h
    obtain ⟨-, -, -, -, -, hreporting, -⟩ := safe_powerOnReset wsel linkUp crst s
    exact hreporting
  | linkReset => cases h; exact hs.linkReset
  | crstRelease => cases h; exact hs.congr rfl rfl
  | linkUpChange level sent => cases h; exact hs.linkUpChange level sent
  | requestAccept arriving => cases h; exact tryHead (hs.congr rfl rfl)
  | consoleResponse tag kind status data => cases h; exact hs.consoleResponse tag kind status data
  | fetchResponse n kind status data => cases h; exact hs.fetchResponse n kind status data
  | reportAck n status => cases h; exact hs.reportAck n status
  | strayResponse tag kind status => cases h; exact hs.strayResponse tag kind status
  | grant => cases h; exact hs.grant
  | channelFree => cases h; exact hs.kept (.told hs.1 (.of_eq rfl rfl rfl rfl rfl)) rfl
  | statusWriteBegin => cases h; exact hs.statusWriteBegin
  | lineBoundary => cases h; exact hs.lineBoundary
  | settleDone => cases h; exact hs.settleDone
  | frontMinEnd => cases h; exact hs.frontMinEnd
  | stretchBoundary => cases h; exact hs.stretchBoundary
  | stretchExpiry => cases h; exact hs.stretchExpiry
  | activeStart => cases h; exact hs.activeStart
  | activeLine => cases h; exact hs.activeLineBoundary
  | endOfActive => cases h; exact hs.endOfActive
  | openFrame id => cases h; exact hs.runCommand (.openFrame id)
  | release id first last => cases h; exact hs.runCommand (.release id first last)
  | abandon id => cases h; exact hs.runCommand (.abandon id)
  | present id a b => cases h; exact hs.runCommand (.present id a b)
  | withdraw id => cases h; exact hs.runCommand (.withdraw id)
  | commitSurface e => cases h; exact hs.runCommand (.commitSurface e)
  | commitTiming e => cases h; exact hs.runCommand (.commitTiming e)
  | commitFetch e => cases h; exact hs.runCommand (.commitFetch e)
  | commitNotice e => cases h; exact hs.runCommand (.commitNotice e)
  | commitMarker e => cases h; exact hs.runCommand (.commitMarker e)
  | commitReport e => cases h; exact hs.runCommand (.commitReport e)
  | outputOn => cases h; exact hs.runCommand .outputOn
  | outputOff => cases h; exact hs.runCommand .outputOff
  | clearEvents b c => cases h; exact hs.runCommand (.clearEvents b c)
  | viewSelect a => cases h; exact hs.runCommand (.viewSelect a)
  | softReset => cases h; exact hs.runCommand .softReset
  | unknown lane code => cases h; exact hs.runCommand (.unknown lane code)
  | wrongLane lane code => cases h; exact hs.runCommand (.wrongLane lane code)
  | tableIndex v => cases h; exact hs.runCommand (.tableIndex v)
  | tableData v => cases h; exact hs.runCommand (.tableData v)
  | reportNow v => cases h; exact hs.runCommand (.reportNow v)
  | misplacedWrite => cases h; exact hs.runCommand .misplacedWrite

end Reporting

end Sys2Proof.Safety

namespace Sys2Proof.Settled

open Sys2Proof.Machine Sys2Proof.Safety

/-- Settles O57, by the command of the step: an acknowledgement, an issue, a handed record, a status write and the two
commits of reports change what tags and notices wait for, and every other step gives the Report Writer new notices at
most. -/
theorem reportingKept : Obligations.ReportingKept := by
  intro s t hs h
  unfold step at h
  split at h
  · cases h
    exact hs.congr rfl rfl
  · rename_i c rest _
    have hq : Reporting { s with pending := rest } := hs.congr rfl rfl
    exact hq.exec c h

end Sys2Proof.Settled
end

