-- ==== Sys2Proof/Proofs/ReportCommits.lean ====
section
/-! COMMIT(NOTICE) and COMMIT(REPORT): their checks in order, what they install, and the report wait age after them. -/

namespace Sys2Proof.Safety

open Sys2Proof.Machine

/-! ## The age after a commit (R149) -/

theorem settleAge_eq (u : State) :
    u.settleAge = { u with ma := { u.ma with age := if u.rw.claims then u.ma.age else 0 } } := by
  unfold State.settleAge
  split <;> rfl

/-- The result of a commit that is taken marks the record, and the claims stay as the commit left them. -/
theorem resulted_settleAge (u : State) :
    Resulted u.settleAge (u.commitResult .ok).settleAge .control 0x20 .ok := by
  have hcomm : (u.commitResult .ok).settleAge = u.settleAge.commitResult .ok := by
    rw [settleAge_eq, settleAge_eq]
    rfl
  rw [hcomm]
  exact resulted_result ..

/-! ## The staged NOTICE entry (R186) -/

theorem sourceOf_number (v : Event) : sourceOf v.number = some (.flag v) := by
  cases v <;> rfl

theorem sourceOf_beyond {n : Nat} (h : 18 < n) : sourceOf n = none := by
  match n, h with
  | n + 19, _ => rfl

/-- The sources 0 to 18 (R186). -/
theorem sourceOf_of_le {n : Nat} (h : n ≤ 18) : ∃ x, sourceOf n = some x ∧ (∀ v : Event, n = v.number → x = .flag v) ∧
    (n = 16 → x = .frameStart) ∧ (n = 17 → x = .frameEnd) ∧ (n = 18 → x = .presentTaken) := by
  obtain ⟨x, hx⟩ : ∃ x, sourceOf n = some x := by
    interval_cases n <;> exact ⟨_, rfl⟩
  refine ⟨x, hx, fun v hv => ?_, fun hn => ?_, fun hn => ?_, fun hn => ?_⟩
  · rw [hv, sourceOf_number] at hx
    exact (Option.some.inj hx).symm
  all_goals
    subst hn
    exact (Option.some.inj hx).symm

theorem flagOf_of_le {n : Nat} (h : n ≤ 1) : flagOf n = some (n == 1) := by
  interval_cases n <;> rfl

theorem flagOf_beyond {n : Nat} (h : 1 < n) : flagOf n = none := by
  match n, h with
  | n + 2, _ => rfl

section
variable {g : Table (BitVec 32) 5}

/-- The refusals of R186 on a staged NOTICE entry. -/
def NoticeOut (g : Table (BitVec 32) 5) : Prop :=
  18 < (g.get 0).toNat ∨ 1 < (g.get 4).toNat ∨ stagedAddress (g.get 1) (g.get 2) % 4 ≠ 0 ∨
    2 ^ 40 ≤ stagedAddress (g.get 1) (g.get 2)

theorem noticeEntry_out (h : NoticeOut g) : noticeEntry g = none := by
  unfold noticeEntry
  dsimp only
  split
  · rename_i source enabled hsource henabled
    refine if_neg fun ⟨haligned, hroom⟩ => ?_
    rcases h with h | h | h | h
    · rw [sourceOf_beyond h] at hsource; cases hsource
    · rw [flagOf_beyond h] at henabled; cases henabled
    · exact h haligned
    · exact absurd hroom (not_lt.2 h)
  · rfl

theorem noticeEntry_in (h : ¬ NoticeOut g) {x : Source} (hx : sourceOf (g.get 0).toNat = some x) :
    noticeEntry g = some { source := x, addr := BitVec.ofNat 40 (stagedAddress (g.get 1) (g.get 2)), value := g.get 3
                           enabled := (g.get 4).toNat == 1 } := by
  simp only [NoticeOut, not_or, not_lt, not_le, not_not] at h
  obtain ⟨-, henabled, haligned, hroom⟩ := h
  unfold noticeEntry
  rw [hx, flagOf_of_le henabled]
  exact if_pos ⟨haligned, hroom⟩

end

section
variable (s : State) {entry : BitVec 16} {e : Fin 8}

theorem commitNotice_beyond (h : 8 ≤ entry.toNat) : commitNotice entry s = s.commitResult .range := by
  unfold commitNotice
  rw [entryNumber_beyond h]

theorem commitNotice_out (h : entry.toNat = e.val) (ho : NoticeOut (s.cd.staging.notice.get e)) :
    commitNotice entry s = s.commitResult .range := by
  unfold commitNotice
  rw [entryNumber_of h]
  dsimp only
  rw [noticeEntry_out ho]

theorem commitNotice_in (h : entry.toNat = e.val) {n : NoticeEntry}
    (hn : noticeEntry (s.cd.staging.notice.get e) = some n) :
    commitNotice entry s = ((s.installNotice e n).commitResult .ok).settleAge := by
  unfold commitNotice
  rw [entryNumber_of h]
  dsimp only
  rw [hn]

/-! ## COMMIT(REPORT) (R173, R174) -/

/-- The overlaps of R173 of a report area at `base`. -/
def AreaClash (s : State) (base : Nat) : Prop :=
  (base < 0xFFFFF00000 + 0x1000 * s.cd.wsel.toNat + 4096 ∧ 0xFFFFF00000 + 0x1000 * s.cd.wsel.toNat < base + 8192) ∨
    ∃ j : Fin 8, (s.st.get j).geo.defined = true ∧
      base < (s.st.get j).geo.base.toNat + (s.st.get j).geo.pitch * (s.st.get j).geo.height ∧
        (s.st.get j).geo.base.toNat < base + 8192

theorem areaClash_iff (base : Nat) :
    (s.meetsPage base reportAreaSize || s.meetsSurface (fun _ => true) base reportAreaSize) = true ↔
      AreaClash s base := by
  unfold State.meetsSurface State.meetsPage overlaps commandPage Config.commandPageBase reportAreaSize AreaClash
  simp only [Bool.or_eq_true, Bool.and_eq_true, decide_eq_true_eq, List.any_eq_true, List.mem_finRange, true_and]

/-- An area is installed (R174), and the age settles (R149). -/
def AreaInstalled (base : Addr) (enable : Bool) (s t : State) : Prop :=
  ∃ u, Resulted u t .control 0x20 .ok ∧ AreaEnded base enable s.rw u.rw ∧
    u = { s with rw := u.rw, ma := { s.ma with age := if u.rw.claims then s.ma.age else 0 } }

theorem areaInstalled_installReport (base : Addr) (enable : Bool) :
    AreaInstalled base enable s ((s.installReport base enable).commitResult .ok).settleAge :=
  ⟨_, resulted_settleAge (s.installReport base enable), by rw [settleAge_eq]; exact areaEnded_endArea s.rw base enable,
    by rw [settleAge_eq]; rfl⟩

/-- The checks of R173 on a report area at `base`, in their order. -/
theorem enableReport_eq (base : Nat) : s.enableReport base =
    if base % 4096 ≠ 0 ∨ 2 ^ 40 < base + 8192 then s.commitResult .range
    else if (s.meetsPage base reportAreaSize || s.meetsSurface (fun _ => true) base reportAreaSize) = true then
      s.commitResult .overlap
    else ((s.installReport (BitVec.ofNat 40 base) true).commitResult .ok).settleAge :=
  rfl

theorem commitReport_refused (h : entry ≠ 0 ∨ 1 < (s.cd.staging.report.get 2).toNat) :
    commitReport entry s = s.commitResult .range := by
  unfold commitReport
  split
  · rfl
  · rename_i he
    dsimp only
    rw [flagOf_beyond (h.resolve_left he)]

theorem commitReport_taken (h : ¬ (entry ≠ 0 ∨ 1 < (s.cd.staging.report.get 2).toNat)) : commitReport entry s =
    if (s.cd.staging.report.get 2).toNat = 0 then ((s.installReport s.rw.base false).commitResult .ok).settleAge
    else s.enableReport (stagedAddress (s.cd.staging.report.get 0) (s.cd.staging.report.get 1)) := by
  simp only [not_or, not_lt] at h
  obtain ⟨hentry, henable⟩ := h
  unfold commitReport
  rw [if_neg hentry]
  dsimp only
  rw [flagOf_of_le henable]
  split_ifs with hz
  · rw [hz]
    rfl
  · rw [show (s.cd.staging.report.get 2).toNat = 1 by omega]
    rfl

end

end Sys2Proof.Safety

namespace Sys2Proof.Settled

open Sys2Proof.Machine Sys2Proof.Safety

/-- Settles O12, by the checks of R186 in their order. -/
theorem commitNotice : Obligations.CommitNotice := by
  intro entry s
  refine ⟨_, rfl, fun h => ?_, fun e h => ?_⟩
  · rw [commitNotice_beyond s h]
    exact resulted_result ..
  · dsimp only
    split
    · rename_i ho
      rw [commitNotice_out s h ho]
      exact resulted_result ..
    · rename_i ho
      obtain ⟨x, hx, hsource⟩ := sourceOf_of_le (not_lt.1 fun hs => ho (.inl hs))
      rw [commitNotice_in s h (noticeEntry_in ho hx)]
      obtain ⟨hflag, hstart, hend, htaken⟩ := hsource
      refine ⟨_, x, resulted_settleAge _, hflag, hstart, hend, htaken, ?_, ?_⟩
      · rw [settleAge_eq]
        rfl
      · rw [settleAge_eq]
        rfl

/-- Settles O14, by the checks of R166 and R173 in their order. -/
theorem commitReport : Obligations.CommitReport := by
  intro entry s
  refine ⟨_, rfl, ?_⟩
  dsimp only
  split_ifs with hrefused hoff hrange
  · rw [commitReport_refused s hrefused]
    exact resulted_result ..
  · rw [commitReport_taken s hrefused, if_pos hoff]
    exact areaInstalled_installReport s s.rw.base false
  · rw [commitReport_taken s hrefused, if_neg hoff, enableReport_eq]
    rw [stagedAddress, if_pos hrange]
    exact resulted_result ..
  · rw [commitReport_taken s hrefused, if_neg hoff, enableReport_eq, stagedAddress, if_neg hrange]
    refine ⟨fun hc => ?_, fun hc => ?_⟩
    · rw [if_pos ((areaClash_iff s _).2 hc)]
      exact resulted_result ..
    · rw [if_neg (mt (areaClash_iff s _).1 hc)]
      exact areaInstalled_installReport s _ true

end Sys2Proof.Settled
end

