-- ==== Sys2Proof/Proofs/Acceptance.lean ====
section
/-! REQUEST_ACCEPT where no block acts on the write, and a command-page write beat by beat. -/

namespace Sys2Proof.Safety

open Sys2Proof.Machine

/-! ## The command page stays where it is (R154) -/

section
variable (s : State)

@[simp] theorem result_wsel (l : Lane) (c : BitVec 8) (x : Result) : (s.result l c x).cd.wsel = s.cd.wsel := by
  unfold State.result
  (repeat' split) <;> simp

@[simp] theorem commitResult_wsel (x : Result) : (s.commitResult x).cd.wsel = s.cd.wsel :=
  result_wsel s .control 0x20 x

@[simp] theorem enableReport_wsel (base : Nat) : (s.enableReport base).cd.wsel = s.cd.wsel := by
  rw [enableReport_eq]
  (repeat' split) <;> simp

/-- No command of the command page moves it. -/
theorem runCommand_wsel (i : Instr) : (runCommand i s).cd.wsel = s.cd.wsel := by
  unfold runCommand
  cases i with
  | openFrame id => unfold openFrame; dsimp only; (repeat' split) <;> simp
  | release id a b => unfold release; dsimp only; (repeat' split) <;> simp
  | abandon id => unfold abandon; dsimp only; (repeat' split) <;> simp
  | present id a b => unfold present; dsimp only; (repeat' split) <;> simp
  | withdraw id => unfold withdraw; dsimp only; (repeat' split) <;> simp
  | commitSurface e => unfold commitSurface State.defineSurface; dsimp only; (repeat' split) <;> simp
  | commitTiming e => unfold commitTiming State.installTiming; dsimp only; (repeat' split) <;> simp
  | commitFetch e => unfold commitFetch State.installFetch; dsimp only; (repeat' split) <;> simp
  | commitNotice e => unfold commitNotice; dsimp only; (repeat' split) <;> simp
  | commitMarker e => unfold commitMarker; dsimp only; (repeat' split) <;> simp
  | commitReport e => unfold commitReport; dsimp only; (repeat' split) <;> simp
  | outputOn => unfold outputOn; dsimp only; (repeat' split) <;> simp
  | outputOff => unfold outputOff State.stopRaster; dsimp only; (repeat' split) <;> simp
  | clearEvents b c => exact result_wsel ..
  | viewSelect a => unfold viewSelect; dsimp only; split <;> simp
  | softReset => unfold softReset; simp
  | unknown lane code => exact result_wsel ..
  | wrongLane lane code => exact result_wsel ..
  | tableData v => unfold tableData; dsimp only; split <;> simp
  | _ => rfl

theorem runDecoded_wsel (d : Decoded) : (runDecoded d s).cd.wsel = s.cd.wsel := by
  cases d with
  | command i => exact runCommand_wsel s i
  | commitNoTable => exact commitResult_wsel s .range
  | inert => rfl

theorem runBeat_wsel (a : Nat) (p : Beat × Nat) : (runBeat a s p).cd.wsel = s.cd.wsel := by
  unfold runBeat
  dsimp only
  split
  · exact runDecoded_wsel s _
  · rfl

theorem runBeat_in {a k : Nat} {b : Beat} (h : inCommandPage s.cd.wsel (a + 8 * k) = true) :
    runBeat a s (b, k) = runDecoded (decodeBeat (a + 8 * k - commandPage s.cd.wsel) b) s :=
  if_pos h

/-! ## What a beat spells, carried out (R155, R158) -/

theorem beatRun_decodeCommit (id : BitVec 8) (entry : BitVec 16) :
    BeatRun (decodeCommit id entry) s (runDecoded (decodeCommit id entry) s) := by
  unfold decodeCommit
  (iterate 6 (split; rfl))
  exact resulted_result ..

theorem beatRun_decodeCommand (code id : BitVec 8) (a b c : BitVec 16) :
    BeatRun (decodeCommand code id a b c) s (runDecoded (decodeCommand code id a b c) s) := by
  unfold decodeCommand
  (iterate 5 (split; rfl))
  split
  · exact beatRun_decodeCommit s id a
  · (repeat' split) <;> rfl

theorem beatRun_decodeLane (lane : Lane) (w : Word) : BeatRun (decodeLane lane w) s (runDecoded (decodeLane lane w) s) := by
  unfold decodeLane
  dsimp only
  split
  · rfl
  · split
    · exact beatRun_decodeCommand ..
    · rfl

theorem beatRun_decodeWhole (offset : Nat) (w : Word) :
    BeatRun (decodeWhole offset w) s (runDecoded (decodeWhole offset w) s) := by
  unfold decodeWhole
  (iterate 3 (split; exact beatRun_decodeLane ..))
  (repeat' split) <;> rfl

theorem beatRun_decodeBeat (offset : Nat) (b : Beat) :
    BeatRun (decodeBeat offset b) s (runDecoded (decodeBeat offset b) s) := by
  unfold decodeBeat
  split
  · split
    · exact beatRun_decodeWhole ..
    · rfl
  · split <;> rfl

/-- The beats from the `k`-th on, the page where it is. -/
theorem beatsRun_foldl (a : Nat) (data : List Beat) (k : Nat) :
    BeatsRun (commandPage s.cd.wsel) (a + 8 * k) data s ((data.zipIdx k).foldl (runBeat a) s) := by
  induction data generalizing s k with
  | nil => rfl
  | cons b rest ih =>
    have hpage := inCommandPage_iff s (a + 8 * k)
    refine ⟨runBeat a s (b, k), fun h => ?_, fun h => if_neg (mt hpage.1 h), ?_⟩
    · rw [runBeat_in s (hpage.2 h)]
      exact beatRun_decodeBeat s _ b
    · have hrest := ih (runBeat a s (b, k)) (k + 1)
      rwa [runBeat_wsel] at hrest

/-- A whole command-page write (R158). -/
theorem beatsRun_decodeBeats (r : Request) :
    BeatsRun (0xFFFFF00000 + 0x1000 * s.cd.wsel.toNat) r.addr.toNat r.data s (s.decodeBeats r) :=
  beatsRun_foldl s r.addr.toNat r.data 0

/-! ## The head of the C-port (R138, R139) -/

theorem requestAccept_empty (arriving : Option Request) (h : s.tc.arrivals ++ arriving.toList = []) :
    requestAccept arriving s = { s with tc := { s.tc with arrivals := s.tc.arrivals ++ arriving.toList } } := by
  show State.tryHead _ = _
  unfold State.tryHead
  rw [h]

theorem requestAccept_held (arriving : Option Request) {r : Request} {rest : List Request}
    (h : s.tc.arrivals ++ arriving.toList = r :: rest) (ha : ¬ Admitted s r) :
    requestAccept arriving s = { s with tc := { s.tc with arrivals := s.tc.arrivals ++ arriving.toList } } := by
  show State.tryHead _ = _
  unfold State.tryHead
  rw [h]
  exact if_neg (mt (admits_iff s r).1 ha)

/-- An admitted request that is not offered is checked, carried out where it is for the command page, and forwarded. -/
theorem requestAccept_notOffered (arriving : Option Request) {r : Request} {rest : List Request}
    (h : s.tc.arrivals ++ arriving.toList = r :: rest) (ha : Admitted s r) (ho : s.offer r = .notOffered) :
    ∃ u, Checked r (Outstanding s r.tag) (headTaken rest s) u ∧ u.cd = s.cd ∧
      Forwarded r (if s.toPage r then u.decodeBeats r else u) (requestAccept arriving s) := by
  obtain ⟨u, hchecked, hforwarded, -, -, -, hcd⟩ := accept_checked s (r :: rest) r rest .notOffered
    (Outstanding s r.tag) (outstanding_iff s r.tag)
  have hreq := requestAccept_admitted s arriving r rest h ha
  rw [ho] at hreq
  exact ⟨u, hchecked, hcd, hreq ▸ hforwarded⟩

theorem offer_read {r : Request} (h : r.kind = .read) : s.offer r = .notOffered ∧ s.toPage r = false := by
  unfold State.offer State.toPage
  rw [h]
  exact ⟨rfl, rfl⟩

theorem offer_outside {r : Request} (hp : ¬ InPage s r.addr.toNat) (hx : ∀ i, ¬ InExtent s i r.addr) :
    s.offer r = .notOffered ∧ s.toPage r = false := by
  have hpage : s.toPage r = false := by
    unfold State.toPage
    rw [Bool.eq_false_iff.2 (mt (inCommandPage_iff s _).1 hp), Bool.and_false]
  refine ⟨?_, hpage⟩
  unfold State.offer
  rw [hpage, surfaceAt_none s r.addr hx]
  cases r.kind <;> rfl

theorem offer_page {r : Request} (hw : r.kind = .write) (hp : InPage s r.addr.toNat) :
    s.offer r = .notOffered ∧ s.toPage r = true := by
  have hpage : s.toPage r = true := by
    unfold State.toPage
    rw [(inCommandPage_iff s _).2 hp, hw]
    rfl
  refine ⟨?_, hpage⟩
  unfold State.offer
  rw [hw, hpage]
  rfl

end

end Sys2Proof.Safety

namespace Sys2Proof.Settled

open Sys2Proof.Machine Sys2Proof.Safety

/-- Settles O25, by the head of the C-port. -/
theorem acceptOther : Obligations.AcceptOther := by
  intro arriving s
  refine ⟨_, rfl, requestAccept_empty s arriving, fun r rest h => ⟨requestAccept_held s arriving h, fun ha hr => ?_⟩⟩
  obtain ⟨ho, hpage⟩ : s.offer r = .notOffered ∧ s.toPage r = false :=
    hr.elim (offer_read s) fun ⟨hp, hx⟩ => offer_outside s hp hx
  obtain ⟨u, hchecked, -, hforwarded⟩ := requestAccept_notOffered s arriving h ha ho
  rw [hpage] at hforwarded
  exact ⟨u, hchecked, hforwarded⟩

/-- Settles O28, by the beats of the write in their order. -/
theorem acceptCommands : Obligations.AcceptCommands := by
  intro arriving s r rest h ha hw hp
  obtain ⟨ho, hpage⟩ := offer_page s hw hp
  obtain ⟨u, hchecked, hcd, hforwarded⟩ := requestAccept_notOffered s arriving h ha ho
  rw [hpage] at hforwarded
  exact ⟨_, rfl, u, _, hchecked, hcd ▸ beatsRun_decodeBeats u r, hforwarded⟩

end Sys2Proof.Settled
end

