-- ==== Sys2Proof/Proofs/Acknowledgements.lean ====
section
/-! REPORT_ACK and STRAY_RESPONSE: the fault of a failed acknowledgement, and what the acknowledgement advances. -/

namespace Sys2Proof.Safety

open Sys2Proof.Machine

section
variable {r : ReportWriter}

/-! ## The ends that acknowledgements bring (R182, R185, R187) -/

theorem writeEnded_endWrite (r : ReportWriter) : WriteEnded r r.endWrite :=
  ⟨fun e => by rw [ReportWriter.endWrite_waiting, Table.get_map, map_atWriteEnd], rfl⟩

theorem ackView_none (h : r.write = none) : r.ackView = r := by
  unfold ReportWriter.ackView
  rw [h]

theorem onNotices_atRecord_waiting (r : ReportWriter) (f : BitVec 32) (e : Fin 8) :
    (r.onNotices (Condition.atRecord f)).waiting.get e =
      if r.waiting.get e = some (.record f) then some .released else r.waiting.get e :=
  (Table.get_map ..).trans (map_atRecord ..)

/-- What the acknowledgement of a write advances, from the Report Writer after its fault. -/
def Advanced (w : ReportWrite) (x after : ReportWriter) : Prop :=
  (w = .viewBurst → ∀ v, x.write = some v →
    let counted := { x with write := some { v with viewAcked := v.viewAcked + 1 } }
    let ended := v.cutShort = true ∧ v.viewIssued - (v.viewAcked + 1) + v.recordIssued.toNat = 0
    (ended → WriteEnded counted after) ∧ (¬ ended → after = counted)) ∧
  (w = .viewBurst → x.write = none → after = x) ∧
  (w = .statusBurst → WriteEnded x after) ∧
  (∀ f, w = .record f → (∀ e : Fin 8, after.waiting.get e =
      if x.waiting.get e = some (.record f) then some .released else x.waiting.get e) ∧
    after = { x with waiting := after.waiting }) ∧
  (∀ src, w = .notice src → after = x)

theorem advanced_ackWrite (r : ReportWriter) (w : ReportWrite) : Advanced w r (r.ackWrite w) := by
  cases w with
  | viewBurst =>
    refine ⟨fun _ v hv => ⟨fun h => ?_, fun h => ?_⟩, fun _ => ackView_none, nofun, nofun, nofun⟩
    · show WriteEnded _ r.ackView
      rw [ackView_write hv, if_pos h]
      exact writeEnded_endWrite _
    · show r.ackView = _
      rw [ackView_write hv, if_neg h]
  | statusBurst => exact ⟨nofun, nofun, fun _ => writeEnded_endWrite r, nofun, nofun⟩
  | record f =>
    refine ⟨nofun, nofun, nofun, fun g hg => ?_, nofun⟩
    cases hg
    exact ⟨onNotices_atRecord_waiting r f, rfl⟩
  | notice source => exact ⟨nofun, nofun, nofun, nofun, fun _ _ => rfl⟩

/-! ## The fault of an ERROR (R183, R185, R188) -/

/-- The Report Writer after the REPORT_FAULT of a failed write, `y` being it after a plain REPORT_FAULT. -/
def FaultTaken (w : ReportWrite) (r y x : ReportWriter) : Prop :=
  (w = .viewBurst ∨ w = .statusBurst → x = { y with dirty := r.dirty }) ∧
  (w = .notice (.flag .reportFault) → x = { y with waiting := r.waiting }) ∧
  ((∃ f, w = .record f) ∨ (∃ src, w = .notice src ∧ src ≠ .flag .reportFault) → x = y)

theorem faultTaken_ackFault (r : ReportWriter) (w : ReportWrite) :
    FaultTaken w r (r.raise .reportFault) (r.ackFault w) := by
  cases w with
  | viewBurst => exact ⟨fun _ => rfl, nofun, by rintro (⟨_, h⟩ | ⟨_, h, -⟩) <;> cases h⟩
  | statusBurst => exact ⟨fun _ => rfl, nofun, by rintro (⟨_, h⟩ | ⟨_, h, -⟩) <;> cases h⟩
  | record f => exact ⟨(by rintro (h | h) <;> cases h), nofun, fun _ => rfl⟩
  | notice source =>
    refine ⟨(by rintro (h | h) <;> cases h), fun h => ?_, ?_⟩
    · cases h
      rfl
    · rintro (⟨_, h⟩ | ⟨src, h, hsrc⟩) <;> cases h
      exact if_neg hsrc

/-! ## The acknowledgement (R179) -/

theorem reportAck_free {s : State} {n : Fin 16} (status : Status) (h : s.rw.tags.get n = none) :
    reportAck n status s = s.linkProtocol .reportTag (320 + n.val) := by
  unfold reportAck
  rw [h]

/-- The Report Writer after a freed tag's fault, if its acknowledgement was an ERROR. -/
def afterFault (status : Status) (w : ReportWrite) (r : ReportWriter) : ReportWriter :=
  if status = .error then r.ackFault w else r

theorem reportAck_held {s : State} {n : Fin 16} (status : Status) {w : ReportWrite} (h : s.rw.tags.get n = some w) :
    reportAck n status s = { s with rw := (afterFault status w (tagFreed s.rw n)).ackWrite w } := by
  unfold reportAck
  rw [h]
  cases status <;> rfl

end

end Sys2Proof.Safety

namespace Sys2Proof.Settled

open Sys2Proof.Machine Sys2Proof.Safety

/-- Settles O33: a free tag is a fault; on a held one the fault of an ERROR comes before what the acknowledgement
advances. -/
theorem reportAck : Obligations.ReportAck := by
  refine ⟨fun n status s => ⟨_, rfl, fun h => ?_, fun w h => ?_⟩, fun tag kind status s => ⟨_, rfl, fun h => ?_, ?_⟩⟩
  · rw [reportAck_free status h]
    exact linkFaulted_linkProtocol ..
  · rw [reportAck_held status h]
    refine ⟨tagFreed s.rw n, afterFault status w (tagFreed s.rw n), rfl, rfl, ?_, ?_, advanced_ackWrite _ w⟩
    · rintro rfl
      rfl
    · rintro rfl
      exact ⟨_, eventTaken_raise .., faultTaken_ackFault _ w⟩
  · unfold strayResponse
    rw [if_pos h]
    exact linkFaulted_linkProtocol ..
  · intro hlow hhigh hkind
    unfold strayResponse
    rw [if_neg (by omega), if_pos ⟨hlow, hkind⟩]
    exact linkFaulted_linkProtocol ..

end Sys2Proof.Settled
end

