-- ==== Sys2Proof/Proofs/Grants.lean ====
section
/-! The grants of PASS and REPORT: what is issued, with which tag and to which place. -/

namespace Sys2Proof.Safety

open Sys2Proof.Machine

section
variable {s : State}

/-! ## PASS (R141, R151) -/

theorem grant_pass {r : Request} {rest : List Request} (hfree : s.ma.channel = none) (hr : s.tc.forward = r :: rest)
    (hurgent : ¬ (FetchClaims s ∧ Urgent s)) (haged : ¬ (ReportClaims s ∧ 32 ≤ s.ma.age)) : grant s = s.grantPass := by
  obtain ⟨-, -, hpass, -⟩ := granted_order s
  unfold grant
  rw [hfree, hpass hurgent haged (by rw [hr]; exact List.cons_ne_nil r rest)]

/-! ## What is ready (R179, R182) -/

/-- The lowest entry that meets a predicate is the one found. -/
theorem find_of_least {α : Type} {k : Nat} {t : Table α k} {p : α → Bool} {i : Fin k} (hi : p (t.get i) = true)
    (hlow : ∀ j, j < i → p (t.get j) = false) : t.find p = some i := by
  obtain ⟨m, hm⟩ := Option.isSome_iff_exists.1 (Table.find_isSome.2 ⟨i, hi⟩)
  rw [hm]
  rcases lt_trichotomy m i with hlt | rfl | hgt
  · exact absurd (Table.find_some hm) (by rw [hlow m hlt]; decide)
  · rfl
  · exact absurd hi (by rw [Table.find_least hm i hgt]; decide)

theorem readyBurst_view {w : StatusWrite} (h : BurstReady w) (hv : w.viewIssued < 8) : w.readyBurst = some (.view w) := by
  unfold StatusWrite.readyBurst
  rw [h.1]
  exact if_pos hv

theorem readyBurst_status {w : StatusWrite} (h : BurstReady w) (hv : 8 ≤ w.viewIssued) :
    w.readyBurst = some (.status w) := by
  obtain ⟨hcut, hready⟩ := h
  unfold StatusWrite.readyBurst
  rw [hcut]
  exact (if_neg (not_lt.2 hv)).trans (if_pos (hready.resolve_left (not_lt.2 hv)))

section
variable {r : ReportWriter}

theorem ready_frame {f : FrameRecord} {rest : List FrameRecord} (h : r.frames = f :: rest) :
    r.ready = some (.frame f rest) := by
  unfold ReportWriter.ready
  rw [h]

theorem ready_burst {w : StatusWrite} {x : ReadyWrite} (hf : r.frames = []) (hw : r.write = some w)
    (hx : w.readyBurst = some x) : r.ready = some x := by
  unfold ReportWriter.ready
  rw [hf, hw, Option.bind_some, hx]

theorem ready_notice {e : Fin 8} (hf : r.frames = []) (hw : ∀ w, r.write = some w → ¬ BurstReady w)
    (he : r.waiting.get e = some .released) (hlow : ∀ d : Fin 8, d < e → r.waiting.get d ≠ some .released) :
    r.ready = some (.notice e) := by
  have hburst : r.write.bind StatusWrite.readyBurst = none := by
    rw [Option.bind_eq_none_iff]
    intro w h
    rw [← Option.not_isSome_iff_eq_none, readyBurst_isSome]
    exact hw w h
  have hfind : (r.waiting.find fun c => c == some .released) = some e :=
    find_of_least (beq_iff_eq.2 he) fun d hd => beq_eq_false_iff_ne.2 (hlow d hd)
  unfold ReportWriter.ready
  rw [hf]
  dsimp only
  rw [hburst, hfind]
  rfl

end

/-! ## REPORT (R151, R152) -/

/-- A ready write in its turn is issued with the lowest free report tag. -/
theorem grant_ready {n : Fin 16} {w : ReadyWrite} (hfree : s.ma.channel = none) (hurgent : ¬ (FetchClaims s ∧ Urgent s))
    (hn : LowestFree s.rw.tags n) (hturn : 32 ≤ s.ma.age ∨ (s.tc.forward = [] ∧ ¬ FetchClaims s))
    (hw : s.rw.ready = some w) : grant s = { s with
      rw := (s.rw.issue n w).2
      ma := { channel := some { claimant := .report, request := (s.rw.issue n w).1 }, age := 0 } } := by
  have htag : s.rw.freeTag = some n := find_of_lowestFree hn
  have hclaims : ReportClaims s := by
    rw [← reportClaims_iff, ReportWriter.claims, hw, htag]
    rfl
  obtain ⟨-, haged, -, -, hlast, -⟩ := granted_order s
  have hgranted : s.granted = some .report :=
    hturn.elim (fun h => haged hurgent ⟨hclaims, h⟩) fun ⟨hp, hf⟩ => hlast hf (not_not.2 hp) hclaims
  unfold grant
  rw [hfree, hgranted]
  dsimp only
  unfold State.grantReport
  rw [hw, htag]

end

/-! ## The beat of a notice (R188, R196) -/

theorem noticeBeat_upper {a : Addr} (v : BitVec 32) (h : a.toNat % 8 = 4) :
    noticeBeat a v = { data := v ++ (0 : BitVec 32), enables := 0xF0 } := if_pos h

theorem noticeBeat_lower {a : Addr} (v : BitVec 32) (h : a.toNat % 8 ≠ 4) :
    noticeBeat a v = { data := (0 : BitVec 32) ++ v, enables := 0x0F } := if_neg h

/-- The half of the beat that the address names is enabled. -/
theorem noticeBeat_enables (a : Addr) (v : BitVec 32) {k : Nat} (hk : k < 8) :
    (noticeBeat a v).enables.getLsbD k = true ↔ (4 ≤ k ↔ a.toNat % 8 = 4) := by
  by_cases h : a.toNat % 8 = 4
  · rw [noticeBeat_upper v h, iff_true_right h]
    exact (by decide : ∀ k < 8, (0xF0#8).getLsbD k = true ↔ 4 ≤ k) k hk
  · rw [noticeBeat_lower v h, iff_false_right h]
    exact (by decide : ∀ k < 8, (0x0F#8).getLsbD k = true ↔ ¬ 4 ≤ k) k hk

/-- The half of the beat that the address names holds the value, the other one zeros. -/
theorem noticeBeat_data (a : Addr) (v : BitVec 32) {k : Nat} (hk : k < 8) :
    (noticeBeat a v).data.extractLsb' (8 * k) 8 =
      if (4 ≤ k ↔ a.toNat % 8 = 4) then v.extractLsb' (8 * (k % 4)) 8 else 0 := by
  by_cases h : a.toNat % 8 = 4
  · rw [noticeBeat_upper v h]
    by_cases hhalf : 4 ≤ k
    · rw [if_pos (iff_of_true hhalf h), BitVec.extractLsb'_append_eq_of_le (by omega),
        show 8 * k - 32 = 8 * (k % 4) by omega]
    · rw [if_neg (fun hk => hhalf (hk.2 h)), BitVec.extractLsb'_append_eq_of_add_le (by omega)]
      exact BitVec.extractLsb'_zero
  · rw [noticeBeat_lower v h]
    by_cases hhalf : 4 ≤ k
    · rw [if_neg (fun hk => h (hk.1 hhalf)), BitVec.extractLsb'_append_eq_of_le (by omega)]
      exact BitVec.extractLsb'_zero
    · rw [if_pos (iff_of_false hhalf h), BitVec.extractLsb'_append_eq_of_add_le (by omega),
        Nat.mod_eq_of_lt (not_le.1 hhalf)]

end Sys2Proof.Safety

namespace Sys2Proof.Settled

open Sys2Proof.Machine Sys2Proof.Safety

/-- Settles O35, by the place of PASS in the order of R151. -/
theorem grantPass : Obligations.GrantPass := by
  intro s r rest hfree hr hurgent haged
  refine ⟨s.grantPass, congrArg Host.Outcome.next (grant_pass hfree hr hurgent haged), ?_⟩
  unfold State.grantPass
  rw [hr]
  exact ⟨agedBy_aged s, ⟨_, rfl, rfl, rfl, rfl, rfl, rfl⟩, fun tag => Table.get_modify .., rfl⟩

/-- Settles O37, by what is ready: a frame record, a burst of the status write, or the lowest released notice. -/
theorem grantReport : Obligations.GrantReport := by
  intro s n hfree hurgent hn hturn
  refine ⟨fun f rest hf => ?_, fun w hf hw hb => ?_, fun e hf hw he hlow => ?_⟩
  · exact ⟨_, rfl, grant_ready hfree hurgent hn hturn (ready_frame hf)⟩
  · refine ⟨_, rfl, fun hv => ?_, fun hv => ?_⟩
    · exact grant_ready hfree hurgent hn hturn (ready_burst hf hw (readyBurst_view hb hv))
    · exact grant_ready hfree hurgent hn hturn (ready_burst hf hw (readyBurst_status hb hv))
  · exact ⟨_, _, rfl, grant_ready hfree hurgent hn hturn (ready_notice hf hw he hlow),
      fun k hk => ⟨noticeBeat_enables _ _ hk, noticeBeat_data _ _ hk⟩⟩

end Sys2Proof.Settled
end

