-- ==== Sys2Proof/Proofs/Staging.lean ====
section
/-! What TABLE_INDEX and TABLE_DATA stage: one field of one table, or nothing. -/

namespace Sys2Proof.Safety

open Sys2Proof.Machine

/-! ## A write to one place -/

/-- What the write of a value at one place answers, by what may be read before and after: nothing where there is no such
place, and otherwise the value there and every other place as it was. -/
def WritesAt {α ι : Type} [DecidableEq ι] (read : α → ι → Option (BitVec 32)) (x : α) (i : ι) (v : BitVec 32)
    (answer : Option α) : Prop :=
  match answer with
  | none => read x i = none
  | some y => read x i ≠ none ∧ ∀ j, read y j = if j = i then some v else read x j

/-- A write to a part is a write to the whole: the places of the part are the whole's own, and replacing the part changes
no other place. -/
theorem WritesAt.lift {α β ι κ : Type} [DecidableEq ι] [DecidableEq κ] {readPart : β → κ → Option (BitVec 32)}
    {part : β} {k : κ} {v : BitVec 32} {answer : Option β} (h : WritesAt readPart part k v answer)
    {read : α → ι → Option (BitVec 32)} {x : α} {replace : β → α} {place : κ → ι} (hplace : place.Injective)
    (hpart : ∀ j, read x (place j) = readPart part j) (hread : ∀ y j, read (replace y) (place j) = readPart y j)
    (hother : ∀ i, (∃ j, i = place j) ∨ ∀ y, read (replace y) i = read x i) :
    WritesAt read x (place k) v (answer.map replace) := by
  cases answer with
  | none => exact (hpart k).trans h
  | some y =>
    obtain ⟨hsome, hvalue⟩ := h
    refine ⟨by rwa [hpart], fun i => ?_⟩
    by_cases hi : ∃ j, i = place j
    · obtain ⟨j, rfl⟩ := hi
      rw [hread, hpart, hvalue]
      simp only [hplace.eq_iff]
    · rw [if_neg fun h => hi ⟨k, h⟩]
      exact (hother i).resolve_left hi y

/-! ## One field (R163, R165) -/

theorem fieldAt_of_lt {n f : Nat} (row : Table (BitVec 32) n) (h : f < n) : fieldAt row f = some (row.get ⟨f, h⟩) :=
  List.getElem?_eq_getElem (by rw [row.len]; exact h)

theorem fieldAt_beyond {n f : Nat} (row : Table (BitVec 32) n) (h : ¬ f < n) : fieldAt row f = none :=
  List.getElem?_eq_none (by rw [row.len]; exact not_lt.1 h)

theorem stageField_writesAt {n : Nat} (row : Table (BitVec 32) n) (f : Nat) (v : BitVec 32) :
    WritesAt fieldAt row f v (stageField row f v) := by
  unfold stageField
  split
  · rename_i h
    refine ⟨by rw [fieldAt_of_lt row h]; exact Option.some_ne_none _, fun j => ?_⟩
    unfold fieldAt Table.set
    rw [List.getElem?_set]
    by_cases hj : j = f
    · subst hj
      simp [row.len, h]
    · simp [hj, Ne.symm hj]
  · rename_i h
    exact fieldAt_beyond row h

/-! ## One field of one entry (R163, R165) -/

/-- The field of a table of rows that an entry and a field index name, if they name one. -/
def rowFieldAt {k n : Nat} (t : Table (Table (BitVec 32) n) k) (place : Nat × Nat) : Option (BitVec 32) :=
  t.list[place.1]?.bind fun row => fieldAt row place.2

theorem stageEntry_writesAt {k n : Nat} (t : Table (Table (BitVec 32) n) k) (e f : Nat) (v : BitVec 32) :
    WritesAt rowFieldAt t (e, f) v (stageEntry t e f v) := by
  unfold stageEntry
  split
  · rename_i h
    have hlen : e < t.list.length := by rw [t.len]; exact h
    refine (stageField_writesAt (t.get ⟨e, h⟩) f v).lift (Prod.mk_right_injective e) (fun j => ?_) (fun row j => ?_)
      fun ⟨e', f'⟩ => ?_
    · simp [rowFieldAt, Table.get, hlen]
    · simp [rowFieldAt, Table.set, hlen]
    · by_cases he : e' = e
      · exact .inl ⟨f', by rw [he]⟩
      · exact .inr fun row => by simp [rowFieldAt, Table.set, Ne.symm he]
  · rename_i h
    have hnone : t.list[e]? = none := List.getElem?_eq_none (by rw [t.len]; exact not_lt.1 h)
    show rowFieldAt t (e, f) = none
    rw [rowFieldAt, hnone, Option.bind_none]

/-! ## The staging copies (R163, R165) -/

/-- The staged field that a table id, an entry and a field index name together. -/
def stagedAt (g : Staging) (place : Nat × Nat × Nat) : Option (BitVec 32) := stagedField g place.1 place.2.1 place.2.2

/-- TABLE_DATA's staging writes the one field that the index names, if it names one (R165). -/
theorem stage_writesAt (g : Staging) (ix : TableIndex) (v : BitVec 32) :
    WritesAt stagedAt g (ix.table.toNat, ix.entry.toNat, ix.field.toNat) v (g.stage ix v) := by
  unfold Staging.stage
  dsimp only
  generalize ix.table.toNat = k, ix.entry.toNat = e, ix.field.toNat = f
  have hrow : ∀ k : Nat, (fun f => (k, 0, f) : Nat → Nat × Nat × Nat).Injective := fun k _ _ h => by simpa using h
  have hcolumn : (fun e => (5, e, 0) : Nat → Nat × Nat × Nat).Injective := fun _ _ h => by simpa using h
  match k, e, f with
  | 1, e, f =>
    exact (stageEntry_writesAt g.surface e f v).lift (Prod.mk_right_injective 1) (fun _ => rfl) (fun _ _ => rfl) fun
      | (1, p) => .inl ⟨p, rfl⟩
      | (0, _) | (2, _) | (3, _) | (4, _) | (5, _) | (6, _) | (_ + 7, _) => .inr fun _ => rfl
  | 2, 0, f =>
    exact (stageField_writesAt g.timing f v).lift (hrow 2) (fun _ => rfl) (fun _ _ => rfl) fun
      | (2, 0, f) => .inl ⟨f, rfl⟩
      | (0, _) | (1, _) | (2, _ + 1, _) | (3, _) | (4, _) | (5, _) | (6, _) | (_ + 7, _) => .inr fun _ => rfl
  | 3, 0, f =>
    exact (stageField_writesAt g.fetch f v).lift (hrow 3) (fun _ => rfl) (fun _ _ => rfl) fun
      | (3, 0, f) => .inl ⟨f, rfl⟩
      | (0, _) | (1, _) | (2, _) | (3, _ + 1, _) | (4, _) | (5, _) | (6, _) | (_ + 7, _) => .inr fun _ => rfl
  | 4, e, f =>
    exact (stageEntry_writesAt g.notice e f v).lift (Prod.mk_right_injective 4) (fun _ => rfl) (fun _ _ => rfl) fun
      | (4, p) => .inl ⟨p, rfl⟩
      | (0, _) | (1, _) | (2, _) | (3, _) | (5, _) | (6, _) | (_ + 7, _) => .inr fun _ => rfl
  | 5, e, 0 =>
    exact (stageField_writesAt g.marker e v).lift hcolumn (fun _ => rfl) (fun _ _ => rfl) fun
      | (5, e, 0) => .inl ⟨e, rfl⟩
      | (0, _) | (1, _) | (2, _) | (3, _) | (4, _) | (5, _, _ + 1) | (6, _) | (_ + 7, _) => .inr fun _ => rfl
  | 6, 0, f =>
    exact (stageField_writesAt g.report f v).lift (hrow 6) (fun _ => rfl) (fun _ _ => rfl) fun
      | (6, 0, f) => .inl ⟨f, rfl⟩
      | (0, _) | (1, _) | (2, _) | (3, _) | (4, _) | (5, _) | (6, _ + 1, _) | (_ + 7, _) => .inr fun _ => rfl
  | 0, _, _ | 2, _ + 1, _ | 3, _ + 1, _ | 5, _, _ + 1 | 6, _ + 1, _ | _ + 7, _, _ => exact rfl

/-! ## The numbers of the index (R192) -/

theorem indexOf_numbers (v : BitVec 64) : (indexOf v).table.toNat = v.toNat / 2 ^ 16 % 256 ∧
    (indexOf v).entry.toNat = v.toNat / 2 ^ 8 % 256 ∧ (indexOf v).field.toNat = v.toNat % 256 := by
  refine ⟨?_, ?_, ?_⟩ <;> simp [indexOf, BitVec.extractLsb'_toNat, Nat.shiftRight_eq_div_pow]

end Sys2Proof.Safety

namespace Sys2Proof.Settled

open Sys2Proof.Machine Sys2Proof.Safety

/-- Settles O21, by what the staging of a value writes: the one field that the index names, or nothing. -/
theorem tableAccess : Obligations.TableAccess := by
  refine ⟨fun v s => ?_, fun v s => ⟨_, rfl, ?_⟩⟩
  · obtain ⟨htable, hentry, hfield⟩ := indexOf_numbers v
    exact ⟨_, rfl, htable, hentry, hfield, rfl⟩
  · have h := stage_writesAt s.cd.staging s.cd.index (v.extractLsb' 0 32)
    unfold tableData
    cases hstage : s.cd.staging.stage s.cd.index (v.extractLsb' 0 32) with
    | none =>
      rw [hstage] at h
      exact ⟨fun _ => resulted_result .., fun hnamed => absurd h hnamed⟩
    | some g =>
      rw [hstage] at h
      obtain ⟨hnamed, hfields⟩ := h
      refine ⟨fun hnone => absurd hnone hnamed, fun _ => ⟨fun k e f => ?_, rfl, rfl⟩⟩
      simpa [stagedAt] using hfields (k, e, f)

end Sys2Proof.Settled
end

