-- ==== Sys2Proof/Proofs/CommandPage.lean ====
section
/-! What the beats of the command page and the words of its lanes spell, and its beats that have no other effect than a
result, an event or a mark. -/

namespace Sys2Proof.Safety

open Sys2Proof.Machine

/-! ## The codes of the lanes (R161, R162) -/

/-- The codes of a lane's commands. -/
def CodeOf (lane : Lane) (n : Nat) : Prop :=
  match lane with
  | .render => n = 0x01 ∨ n = 0x02 ∨ n = 0x03
  | .present => n = 0x10 ∨ n = 0x11
  | .control => 0x20 ≤ n ∧ n ≤ 0x25

theorem codeLane_eq_some (c : BitVec 8) (lane : Lane) : codeLane c = some lane ↔ CodeOf lane c.toNat := by
  unfold codeLane CodeOf
  split
  · cases lane <;> simp <;> omega
  · split
    · cases lane <;> simp <;> omega
    · split <;> cases lane <;> simp <;> omega

theorem codeLane_eq_none (c : BitVec 8) : codeLane c = none ↔ ∀ lane, ¬ CodeOf lane c.toNat := by
  simp only [Option.eq_none_iff_forall_ne_some, ne_eq, codeLane_eq_some]

/-! ## The code field of a lane word (R191) -/

theorem code_toNat (w : Word) : (w.extractLsb' 56 8).toNat = w.toNat / 2 ^ 56 := by
  simp only [BitVec.extractLsb'_toNat, Nat.shiftRight_eq_div_pow]
  omega

theorem code_ofNat (w : Word) : BitVec.ofNat 8 (w.toNat / 2 ^ 56) = w.extractLsb' 56 8 := by
  rw [← code_toNat, BitVec.ofNat_toNat, BitVec.setWidth_eq]

theorem tableId_toNat (w : Word) : (w.extractLsb' 48 8).toNat = w.toNat / 2 ^ 48 % 256 := by
  simp only [BitVec.extractLsb'_toNat, Nat.shiftRight_eq_div_pow]

/-! ## What the decoder spells (R160, R191, R193) -/

theorem decodeCommit_not_refused (id : BitVec 8) (entry : BitVec 16) (lane : Lane) (c : BitVec 8) :
    decodeCommit id entry ≠ .command (.unknown lane c) ∧ decodeCommit id entry ≠ .command (.wrongLane lane c) := by
  unfold decodeCommit
  (repeat' split) <;> exact ⟨nofun, nofun⟩

/-- A code that belongs to its lane is not refused. -/
theorem decodeCommand_not_refused (code id : BitVec 8) (a b c : BitVec 16) (lane : Lane) (k : BitVec 8) :
    decodeCommand code id a b c ≠ .command (.unknown lane k) ∧
      decodeCommand code id a b c ≠ .command (.wrongLane lane k) := by
  unfold decodeCommand
  (iterate 5 (split; exact ⟨nofun, nofun⟩))
  split
  · exact decodeCommit_not_refused id a lane k
  · (repeat' split) <;> exact ⟨nofun, nofun⟩

section
variable {lane : Lane} {w : Word}

theorem decodeLane_noLane (h : codeLane (w.extractLsb' 56 8) = none) :
    decodeLane lane w = .command (.unknown lane (w.extractLsb' 56 8)) := by
  unfold decodeLane
  dsimp only
  rw [h]

theorem decodeLane_otherLane {l : Lane} (h : codeLane (w.extractLsb' 56 8) = some l) (hl : l ≠ lane) :
    decodeLane lane w = .command (.wrongLane lane (w.extractLsb' 56 8)) := by
  unfold decodeLane
  dsimp only
  rw [h]
  exact if_neg hl

theorem decodeLane_ownLane (h : codeLane (w.extractLsb' 56 8) = some lane) :
    decodeLane lane w = decodeCommand (w.extractLsb' 56 8) (w.extractLsb' 48 8) (w.extractLsb' 32 16)
      (w.extractLsb' 16 16) (w.extractLsb' 0 16) := by
  unfold decodeLane
  dsimp only
  rw [h]
  exact if_pos rfl

theorem decodeLane_unknown_iff :
    decodeLane lane w = .command (.unknown lane (w.extractLsb' 56 8)) ↔ codeLane (w.extractLsb' 56 8) = none := by
  refine ⟨fun h => ?_, decodeLane_noLane⟩
  cases hc : codeLane (w.extractLsb' 56 8) with
  | none => rfl
  | some l =>
    by_cases hl : l = lane
    · subst hl
      exact absurd ((decodeLane_ownLane hc).symm.trans h) (decodeCommand_not_refused ..).1
    · cases (decodeLane_otherLane hc hl).symm.trans h

theorem decodeLane_wrongLane_iff : decodeLane lane w = .command (.wrongLane lane (w.extractLsb' 56 8)) ↔
    ∃ l, codeLane (w.extractLsb' 56 8) = some l ∧ l ≠ lane := by
  refine ⟨fun h => ?_, fun ⟨l, hc, hl⟩ => decodeLane_otherLane hc hl⟩
  cases hc : codeLane (w.extractLsb' 56 8) with
  | none => cases (decodeLane_noLane hc).symm.trans h
  | some l =>
    refine ⟨l, rfl, ?_⟩
    rintro rfl
    exact (decodeCommand_not_refused ..).2 ((decodeLane_ownLane hc).symm.trans h)

/-- A word whose code is one of its lane's spells that code's command. -/
theorem decodeLane_code (c : BitVec 8) (hc : codeLane c = some lane) (h : w.toNat / 2 ^ 56 = c.toNat) :
    decodeLane lane w = decodeCommand c (w.extractLsb' 48 8) (w.extractLsb' 32 16) (w.extractLsb' 16 16)
      (w.extractLsb' 0 16) := by
  have hcode : w.extractLsb' 56 8 = c := BitVec.eq_of_toNat_eq ((code_toNat w).trans h)
  rw [decodeLane_ownLane (hcode ▸ hc), hcode]

/-- A word of COMMIT spells the commit of its table id. -/
theorem decodeLane_commit (id : BitVec 8) (h : w.toNat / 2 ^ 56 = 0x20) (hid : w.toNat / 2 ^ 48 % 256 = id.toNat) :
    decodeLane .control w = decodeCommit id (w.extractLsb' 32 16) := by
  have htable : w.extractLsb' 48 8 = id := BitVec.eq_of_toNat_eq ((tableId_toNat w).trans hid)
  rw [decodeLane_code 0x20 rfl h, htable]
  rfl

end

/-- A table id that is not from 1 to 6 is of no table (R163; log 18). -/
theorem decodeCommit_noTable {id : BitVec 8} (entry : BitVec 16) (h : id.toNat = 0 ∨ 6 < id.toNat) :
    decodeCommit id entry = .commitNoTable := by
  have hne : ∀ k : BitVec 8, 1 ≤ k.toNat → k.toNat ≤ 6 → id ≠ k := fun k h₁ h₂ hk => by
    subst hk
    omega
  unfold decodeCommit
  rw [if_neg (hne 1 _ _), if_neg (hne 2 _ _), if_neg (hne 3 _ _), if_neg (hne 4 _ _), if_neg (hne 5 _ _),
    if_neg (hne 6 _ _)] <;> decide

/-! ## What a beat is (R155 to R157) -/

section
variable {offset : Nat} {b : Beat}

theorem decodeBeat_inert (h : 0x100 ≤ offset) : decodeBeat offset b = .inert := by
  unfold decodeBeat
  rw [if_neg (by omega), if_neg (by omega)]

theorem decodeBeat_reserved (h : 0x030 ≤ offset) (h' : offset < 0x100) :
    decodeBeat offset b = .command .misplacedWrite := by
  unfold decodeBeat
  rw [if_neg (by omega), if_pos h']

theorem decodeBeat_partial (h : offset < 0x030) (hb : b.enables ≠ BitVec.allOnes 8) :
    decodeBeat offset b = .command .misplacedWrite := by
  unfold decodeBeat
  rw [if_pos h, if_neg hb]

theorem decodeBeat_whole (h : offset < 0x030) (hb : b.enables = BitVec.allOnes 8) :
    decodeBeat offset b = decodeWhole offset b.data := by
  unfold decodeBeat
  rw [if_pos h, if_pos hb]

end

end Sys2Proof.Safety

namespace Sys2Proof.Settled

open Sys2Proof.Machine Sys2Proof.Safety

/-- Settles O29, by the place and the enables of a beat and by the lane of a word's code. -/
theorem pageBeats : Obligations.PageBeats := by
  refine ⟨fun offset b => ?_, fun lane w => ?_⟩
  · refine ⟨decodeBeat_inert, decodeBeat_reserved, decodeBeat_partial, fun hb => ?_⟩
    have hword : ∀ o < 0x030, decodeBeat o b = decodeWhole o b.data := fun o ho => decodeBeat_whole ho hb
    exact ⟨hword 0x000 (by decide), hword 0x008 (by decide), hword 0x010 (by decide), hword 0x018 (by decide),
      hword 0x020 (by decide), hword 0x028 (by decide)⟩
  · refine ⟨?_, ?_, ?_, ?_, ?_⟩
    · rw [code_ofNat, decodeLane_unknown_iff, codeLane_eq_none, code_toNat]
      exact ⟨fun ⟨hr, hp, hc⟩ l => by cases l <;> assumption, fun h => ⟨h .render, h .present, h .control⟩⟩
    · rw [code_ofNat, decodeLane_wrongLane_iff]
      simp only [codeLane_eq_some, code_toNat]
      constructor
      · rintro (⟨h, hl⟩ | ⟨h, hl⟩ | ⟨h, hl⟩)
        · exact ⟨.render, h, hl.symm⟩
        · exact ⟨.present, h, hl.symm⟩
        · exact ⟨.control, h, hl.symm⟩
      · rintro ⟨l, h, hl⟩
        cases l with
        | render => exact .inl ⟨h, hl.symm⟩
        | present => exact .inr (.inl ⟨h, hl.symm⟩)
        | control => exact .inr (.inr ⟨h, hl.symm⟩)
    · rintro rfl
      exact ⟨decodeLane_code 0x01 rfl, decodeLane_code 0x02 rfl, decodeLane_code 0x03 rfl⟩
    · rintro rfl
      exact ⟨decodeLane_code 0x10 rfl, decodeLane_code 0x11 rfl⟩
    · rintro rfl
      refine ⟨fun h => ?_, decodeLane_code 0x21 rfl, decodeLane_code 0x22 rfl, decodeLane_code 0x23 rfl,
        decodeLane_code 0x24 rfl, decodeLane_code 0x25 rfl⟩
      refine ⟨decodeLane_commit 1 h, decodeLane_commit 2 h, decodeLane_commit 3 h, decodeLane_commit 4 h,
        decodeLane_commit 5 h, decodeLane_commit 6 h, fun hid => ?_⟩
      rw [← tableId_toNat] at hid
      exact (decodeLane_commit _ h (tableId_toNat w).symm).trans (decodeCommit_noTable _ hid)

/-- Settles O18: the pages are the eleven entry numbers below 11. -/
theorem viewSelectAndReportNow : Obligations.ViewSelectAndReportNow := by
  refine ⟨fun a s => ⟨_, rfl, fun h => ?_, fun page h => ?_⟩, fun v s => rfl⟩ <;> unfold viewSelect
  · rw [entryNumber_beyond h]
    exact resulted_result ..
  · rw [entryNumber_of h]
    exact resulted_result ..

/-- Settles O20, by what a result and an event are. -/
theorem refusedBeats : Obligations.RefusedBeats :=
  ⟨fun lane code s => ⟨⟨_, rfl, resulted_result s lane code .unknown⟩, ⟨_, rfl, resulted_result s lane code .wrongLane⟩⟩,
    fun s => ⟨_, rfl, eventTaken_raise s.rw .misplacedWrite, rfl⟩⟩

end Sys2Proof.Settled
end

