-- ==== Sys2Proof/Proofs/Layouts.lean ====
section
/-! The status record and the frame record: the fields that each of their blocks spells, and where the blocks stand. -/

namespace Sys2Proof.Safety

open Sys2Proof.Machine

/-! ## The blocks as fields (R180, R185, R196) -/

theorem reportBytes_eq (r : ReportWriter) (wsel : BitVec 4) (sequence : BitVec 32) : reportBytes r wsel sequence =
    fieldBytes [(4, sequence.toNat), (2, r.flags.toNat),
      (1, r.summary.toNat + 2 * r.causes.power.toNat + 4 * r.causes.link.toNat + 8 * r.causes.soft.toNat),
      (1, r.page.val), (4, r.counters.bandMisses), (4, r.counters.repeats), (4, r.counters.fillFrames),
      (4, r.counters.lateWrites), (4, r.counters.drops), (4, r.counters.fetchLate), (4, r.counters.fetchErrors),
      (4, r.counters.trackStalls), (8, r.base.toNat), (1, r.enable.toNat), (1, wsel.toNat), (2, 0)] := by
  have hbits : bitsByte [r.summary, r.causes.power, r.causes.link, r.causes.soft] =
      r.summary.toNat + 2 * r.causes.power.toNat + 4 * r.causes.link.toNat + 8 * r.causes.soft.toNat := by
    simp [bitsByte]
    omega
  unfold reportBytes
  simp [fieldBytes, zeros_eq_bytesLE, hbits]

theorem laneBytes_eq (l : LaneRecord) :
    laneBytes l = fieldBytes [(2, l.taken.toNat), (1, l.code.toNat), (1, l.result.code)] := by
  unfold laneBytes
  rw [byte_eq_bytesLE]
  simp [fieldBytes]

theorem decoderBytes_eq (d : Decoder) : decoderBytes d =
    fieldBytes [(2, d.render.taken.toNat), (1, d.render.code.toNat), (1, d.render.result.code),
      (2, d.present.taken.toNat), (1, d.present.code.toNat), (1, d.present.result.code),
      (2, d.control.taken.toNat), (1, d.control.code.toNat), (1, d.control.result.code),
      (1, d.index.field.toNat), (1, d.index.entry.toNat), (1, d.index.table.toNat), (1, 0)] := by
  have hindex : [d.index.field, d.index.entry, d.index.table] =
      fieldBytes [(1, d.index.field.toNat), (1, d.index.entry.toNat), (1, d.index.table.toNat)] := by
    simp [fieldBytes, ← byte_eq_bytesLE]
  unfold decoderBytes
  rw [hindex]
  simp [fieldBytes, laneBytes_eq, zeros_eq_bytesLE]

theorem rasterBytes_eq (q : PresentQueue) (r : RasterTimer) : rasterBytes q r =
    fieldBytes [(1, q.queue.length), (1, 0), (2, q.count.toNat), (2, q.lastTaken.toNat), (1, r.raster.code),
      (1, r.timing.isSome.toNat + 2 * r.pendingSet.isSome.toNat + 4 * r.offPending.toNat), (4, r.now.toNat),
      (4, r.frameCount.toNat)] := by
  have hbits : bitsByte [r.timing.isSome, r.pendingSet.isSome, r.offPending] =
      r.timing.isSome.toNat + 2 * r.pendingSet.isSome.toNat + 4 * r.offPending.toNat := by
    simp [bitsByte]
    omega
  unfold rasterBytes
  simp [fieldBytes, zeros_eq_bytesLE, hbits]

theorem outputBytes_eq (f : Fetcher) (p : PixelPort) : outputBytes f p =
    fieldBytes [(1, f.inForce.lead), (1, f.inForce.mode.code), (1, f.inForce.ppt), (1, f.waiting.isSome.toNat),
      (1, p.level.toNat), (1, p.state.code), (1, (p.routing.get 0).code), (1, (p.routing.get 1).code)] := by
  unfold outputBytes
  simp [fieldBytes]

/-- Without a link fault its three fields are the zeros that stand for it (R180). -/
theorem trafficBytes_eq (t : Classifier) : trafficBytes t =
    fieldBytes [(1, t.cport.code), (1, t.forward.length), (2, t.discard.count id),
      (1, t.fault.elim 0 fun f => f.cause.code), (1, 0), (2, t.fault.elim 0 fun f => f.tag), (28, 0)] := by
  unfold trafficBytes
  cases t.fault with
  | none => simp [fieldBytes, zeros_eq_bytesLE, bytesLE]
  | some f => simp [fieldBytes, zeros_eq_bytesLE]

theorem surfaceBytes_eq (f : Surface) : surfaceBytes f =
    fieldBytes [(1, f.geo.defined.toNat), (1, f.state.code), (1, f.gen.toNat), (1, f.geo.nb), (2, f.late), (2, 0)] := by
  unfold surfaceBytes
  rw [byte_eq_bytesLE]
  simp [fieldBytes, zeros_eq_bytesLE]

theorem frameBytes_eq (f : FrameRecord) : frameBytes f =
    fieldBytes [(4, f.number.toNat), (1, f.body.kind.elim 0 FrameKind.code),
      (1, f.body.skipped.toNat + 2 * f.body.cut.toNat + 4 * f.body.source.isSome.toNat +
        8 * f.body.split.isSome.toNat + 16 * f.body.lag.isSome.toNat + 32 * f.body.firstMissed.isSome.toNat +
        64 * f.body.leastMargin.isSome.toNat),
      (1, f.body.source.elim 0 Fin.val), (1, f.body.split.elim 0 fun p => p.1.val), (1, f.body.split.elim 0 Prod.snd),
      (1, f.body.firstMissed.getD 0), (2, f.body.front), (2, f.body.lag.getD 0), (2, f.body.misses),
      (2, f.body.leastMargin.getD 0), (2, f.body.late), (2, f.body.fetchLate), (2, f.body.fetchError),
      (2, f.body.dropped), (2, 0), (4, f.body.activeLine.toNat), (32, 0)] := by
  have hbits : bitsByte [f.body.skipped, f.body.cut, f.body.source.isSome, f.body.split.isSome, f.body.lag.isSome,
      f.body.firstMissed.isSome, f.body.leastMargin.isSome] =
      f.body.skipped.toNat + 2 * f.body.cut.toNat + 4 * f.body.source.isSome.toNat +
        8 * f.body.split.isSome.toNat + 16 * f.body.lag.isSome.toNat + 32 * f.body.firstMissed.isSome.toNat +
        64 * f.body.leastMargin.isSome.toNat := by
    simp [bitsByte]
    omega
  unfold frameBytes
  simp [fieldBytes, zeros_eq_bytesLE, hbits]

/-! ## The place of each block of the status record (R180) -/

theorem Holds.append {page : List Byte} {a b : List (Nat × Nat × Nat)} (ha : Holds page a) (hb : Holds page b) :
    Holds page (a ++ b) := List.forall_mem_append.2 ⟨ha, hb⟩

theorem reportBytes_length (r : ReportWriter) (wsel : BitVec 4) (sequence : BitVec 32) :
    (reportBytes r wsel sequence).length = 0x34 := by
  simp [reportBytes_eq, fieldBytes_length]

theorem decoderBytes_length (d : Decoder) : (decoderBytes d).length = 0x10 := by
  simp [decoderBytes_eq, fieldBytes_length]

theorem rasterBytes_length (q : PresentQueue) (r : RasterTimer) : (rasterBytes q r).length = 0x10 := by
  simp [rasterBytes_eq, fieldBytes_length]

theorem outputBytes_length (f : Fetcher) (p : PixelPort) : (outputBytes f p).length = 0x08 := by
  simp [outputBytes_eq, fieldBytes_length]

theorem trafficBytes_length (t : Classifier) : (trafficBytes t).length = 0x24 := by
  simp [trafficBytes_eq, fieldBytes_length]

theorem frameBytes_length (f : FrameRecord) : (frameBytes f).length = 64 := by
  simp [frameBytes_eq, fieldBytes_length]

/-- Bytes that stand in a part of a page stand in the page, at the sum of the offsets. -/
theorem BytesAt.inner {page part x : List Byte} {offset place : Nat} (h : BytesAt page offset part)
    (hx : BytesAt part place x) : BytesAt page (offset + place) x := by
  unfold BytesAt
  rw [← List.drop_drop]
  exact hx.trans (h.drop place)

/-- The surfaces' entries of the status record, one after another. -/
def surfacePositions (st : Table Surface 8) : List (List Byte) := st.list.map surfaceBytes

theorem surfacePositions_size (st : Table Surface 8) : ∀ x ∈ surfacePositions st, x.length = 8 := by
  intro x hx
  obtain ⟨f, -, rfl⟩ := List.mem_map.1 hx
  simp [surfaceBytes_eq, fieldBytes_length]

theorem surfacePositions_get (st : Table Surface 8) (i : Fin 8) :
    (surfacePositions st)[i.val]? = some (surfaceBytes (st.get i)) := by
  unfold surfacePositions
  rw [List.getElem?_map, List.getElem?_eq_getElem (st.len.symm ▸ i.isLt)]
  rfl

theorem surfacePositions_flatten_length (st : Table Surface 8) : (surfacePositions st).flatten.length = 64 := by
  rw [flatten_length (surfacePositions_size st), surfacePositions, List.length_map, st.len]

section Status

variable (s : State) (sequence : BitVec 32)

/-- The status record is its blocks, one after another. -/
theorem statusRecord_eq : statusRecord s sequence = reportBytes s.rw s.cd.wsel sequence ++ (decoderBytes s.cd ++
    (rasterBytes s.pq s.rtm ++ (outputBytes s.sf s.po ++ (trafficBytes s.tc ++
      ((surfacePositions s.st).flatten ++ zeros 64))))) := by
  unfold statusRecord surfacePositions
  simp only [List.append_assoc]

theorem statusRecord_blocks :
    BytesAt (statusRecord s sequence) 0x00 (reportBytes s.rw s.cd.wsel sequence) ∧
    BytesAt (statusRecord s sequence) 0x34 (decoderBytes s.cd) ∧
    BytesAt (statusRecord s sequence) 0x44 (rasterBytes s.pq s.rtm) ∧
    BytesAt (statusRecord s sequence) 0x54 (outputBytes s.sf s.po) ∧
    BytesAt (statusRecord s sequence) 0x5C (trafficBytes s.tc) ∧
    BytesAt (statusRecord s sequence) 0x80 (surfacePositions s.st).flatten ∧
    BytesAt (statusRecord s sequence) 0xC0 (zeros 64) := by
  have h : BytesAt (statusRecord s sequence) 0 (statusRecord s sequence) := List.prefix_rfl
  conv at h => arg 3; rw [statusRecord_eq]
  obtain ⟨hreport, h⟩ := h.parts
  rw [reportBytes_length] at h
  obtain ⟨hdecoder, h⟩ := h.parts
  rw [decoderBytes_length] at h
  obtain ⟨hraster, h⟩ := h.parts
  rw [rasterBytes_length] at h
  obtain ⟨houtput, h⟩ := h.parts
  rw [outputBytes_length] at h
  obtain ⟨htraffic, h⟩ := h.parts
  rw [trafficBytes_length] at h
  obtain ⟨hsurfaces, h⟩ := h.parts
  rw [surfacePositions_flatten_length] at h
  exact ⟨hreport, hdecoder, hraster, houtput, htraffic, hsurfaces, h⟩

theorem statusRecord_length : (statusRecord s sequence).length = 256 := by
  rw [statusRecord_eq]
  simp [reportBytes_length, decoderBytes_length, rasterBytes_length, outputBytes_length, trafficBytes_length,
    surfacePositions_flatten_length, zeros_eq_bytesLE, -List.length_flatten]

/-- The entry of a surface in the status record (R180). -/
theorem holds_surfaceBytes (i : Fin 8) : Holds (statusRecord s sequence) [
    (0x80 + 8 * i.val, 1, (s.st.get i).geo.defined.toNat), (0x81 + 8 * i.val, 1, (s.st.get i).state.code),
    (0x82 + 8 * i.val, 1, (s.st.get i).gen.toNat), (0x83 + 8 * i.val, 1, (s.st.get i).geo.nb),
    (0x84 + 8 * i.val, 2, (s.st.get i).late), (0x86 + 8 * i.val, 2, 0)] := by
  obtain ⟨-, -, -, -, -, hsurfaces, -⟩ := statusRecord_blocks s sequence
  have hentry := BytesAt.position (surfacePositions_size s.st) (surfacePositions_get s.st i)
  have hat : BytesAt (statusRecord s sequence) (0x80 + 8 * i.val) (surfaceBytes (s.st.get i)) := hsurfaces.inner hentry
  rw [Nat.add_comm, surfaceBytes_eq] at hat
  simp only [Nat.add_comm _ (8 * i.val)]
  exact hat.holds

end Status

end Sys2Proof.Safety

namespace Sys2Proof.Settled

open Sys2Proof.Machine Sys2Proof.Safety

/-- Settles O49, block by block, from the bytes that stand at each block's offset. -/
theorem recordLayouts : Obligations.RecordLayouts := by
  refine ⟨fun s sequence => ?_, fun f => ?_⟩
  · obtain ⟨hreport, hdecoder, hraster, houtput, htraffic, -, hlast⟩ := statusRecord_blocks s sequence
    rw [reportBytes_eq] at hreport
    rw [decoderBytes_eq] at hdecoder
    rw [rasterBytes_eq] at hraster
    rw [outputBytes_eq] at houtput
    rw [trafficBytes_eq] at htraffic
    have hzeros : BytesAt (statusRecord s sequence) 0xC0 (fieldBytes [(64, 0)]) := by
      rwa [zeros_eq_bytesLE] at hlast
    exact ⟨statusRecord_length s sequence, hreport.holds, hdecoder.holds, hraster.holds.append houtput.holds,
      htraffic.holds.append hzeros.holds, holds_surfaceBytes s sequence⟩
  · refine ⟨frameBytes_length f, ?_⟩
    rw [frameBytes_eq]
    exact BytesAt.holds (offset := 0) List.prefix_rfl

end Sys2Proof.Settled
end

