-- ==== Sys2Proof/Proofs/Reports.lean ====
section
/-! CLEAR_EVENTS and STATUS_WRITE_BEGIN: the flags that stay, and the notices that wait for the write that begins. -/

namespace Sys2Proof.Safety

open Sys2Proof.Machine

/-! ## Flags and their summary (R176) -/

/-- A word is not 0 when one of its bits is 1. -/
theorem ne_zero_iff_exists_bit {w : Nat} (f : BitVec w) : f ≠ 0 ↔ ∃ n < w, f.getLsbD n = true := by
  rw [← not_iff_not, not_not]
  push Not
  constructor
  · rintro rfl n -
    simp
  · exact fun h => BitVec.eq_of_getLsbD_eq fun n hn => by simpa using h n hn

theorem clearFlags_getLsbD (r : ReportWriter) (mask : BitVec 16) {n : Nat} (hn : n < 16) :
    (r.clearFlags mask).flags.getLsbD n = (r.flags.getLsbD n && !mask.getLsbD n) := by
  simp [hn]

theorem clearFlags_summary_iff (r : ReportWriter) (mask : BitVec 16) :
    (r.clearFlags mask).summary = true ↔ ∃ n < 16, (r.clearFlags mask).flags.getLsbD n = true := by
  rw [ReportWriter.clearFlags_summary, ReportWriter.clearFlags_flags, decide_eq_true_iff]
  exact ne_zero_iff_exists_bit _

theorem getLsbD_zero_iff {w : Nat} (b : BitVec w) : b.getLsbD 0 = true ↔ b.toNat % 2 = 1 := by
  simp [BitVec.getLsbD]

/-! ## Notices at a snapshot (R187) -/

/-- Of the notices of one entry, the one that waits for a write yet to begin waits for the write that begins. -/
theorem map_atSnapshot (c : Option Condition) :
    c.map Condition.atSnapshot = if c = some .nextWrite then some .thisWrite else c := by
  cases c with
  | none => rfl
  | some c => cases c <;> rfl

/-! ## The beginning of a status write (R182) -/

variable {s : State}

theorem statusWriteBegin_idle (h : ¬ (s.rw.enable = true ∧ s.rw.dirty = true ∧ s.rw.write = none)) :
    statusWriteBegin s = s := if_neg h

theorem statusWriteBegin_due (h : s.rw.enable = true ∧ s.rw.dirty = true ∧ s.rw.write = none) :
    statusWriteBegin s = { s with rw := { s.rw with
      sequence := s.rw.sequence + 1
      dirty := false
      waiting := s.rw.waiting.map fun c => c.map Condition.atSnapshot
      write := some { view := viewPage s (s.rw.sequence + 1), record := statusRecord s (s.rw.sequence + 1)
                      viewIssued := 0, viewAcked := 0, recordIssued := false, cutShort := false } } } := if_pos h

end Sys2Proof.Safety

namespace Sys2Proof.Settled

open Sys2Proof.Machine Sys2Proof.Safety

/-- Settles O17, by the bits of the flags that stay. -/
theorem clearEvents : Obligations.ClearEvents := by
  intro b c s
  refine ⟨_, rfl, _, resulted_result .., fun n hn => clearFlags_getLsbD s.rw c hn, clearFlags_summary_iff s.rw c, ?_,
    rfl⟩
  exact if_congr (getLsbD_zero_iff b) rfl rfl

/-- Settles O38, by whether a status write is due. -/
theorem statusWriteBegin : Obligations.StatusWriteBegin := by
  refine fun s => ⟨_, rfl, statusWriteBegin_idle, fun due => ?_⟩
  rw [statusWriteBegin_due due]
  refine ⟨fun e => ?_, rfl⟩
  rw [Table.get_map]
  exact map_atSnapshot _

end Sys2Proof.Settled
end

