-- ==== Sys2Proof/Proofs/LaneWords.lean ====
section
/-! The words of the lane commands: their fields, and the reading of each word as the command it was written for. -/

namespace Sys2Proof.Safety

open Sys2Proof.Machine

/-! ## The fields of a command word (R191); its code field is `Laws.Beats.code_of` -/

section
variable {lane : Lane} {code id : BitVec 8} {a b c : BitVec 16}

theorem commandWord_tableId : (commandWord code id a b c).extractLsb' 48 8 = id := by
  unfold commandWord
  rw [BitVec.extractLsb'_append_eq_of_le (by omega), BitVec.extractLsb'_append_eq_of_le (by omega),
    BitVec.extractLsb'_append_eq_of_le (by omega)]
  exact BitVec.extractLsb'_append_eq_right

theorem commandWord_a : (commandWord code id a b c).extractLsb' 32 16 = a := by
  unfold commandWord
  rw [BitVec.extractLsb'_append_eq_of_le (by omega), BitVec.extractLsb'_append_eq_of_le (by omega)]
  exact BitVec.extractLsb'_append_eq_right

theorem commandWord_b : (commandWord code id a b c).extractLsb' 16 16 = b := by
  unfold commandWord
  rw [BitVec.extractLsb'_append_eq_of_le (by omega)]
  exact BitVec.extractLsb'_append_eq_right

theorem commandWord_c : (commandWord code id a b c).extractLsb' 0 16 = c :=
  BitVec.extractLsb'_append_eq_right

/-! ## A command word on a lane (R160) -/

theorem decodeLane_commandWord_ownLane (h : codeLane code = some lane) :
    decodeLane lane (commandWord code id a b c) = decodeCommand code id a b c := by
  rw [decodeLane_ownLane (by rwa [Laws.Beats.code_of]), Laws.Beats.code_of, commandWord_tableId, commandWord_a,
    commandWord_b, commandWord_c]

theorem decodeLane_commandWord_noLane (h : codeLane code = none) :
    decodeLane lane (commandWord code id a b c) = .command (.unknown lane code) := by
  rw [decodeLane_noLane (by rwa [Laws.Beats.code_of]), Laws.Beats.code_of]

theorem decodeLane_commandWord_otherLane {l : Lane} (h : codeLane code = some l) (hl : l ≠ lane) :
    decodeLane lane (commandWord code id a b c) = .command (.wrongLane lane code) := by
  rw [decodeLane_otherLane (by rwa [Laws.Beats.code_of]) hl, Laws.Beats.code_of]

end

/-! ## The operands of a refused command (R161, R162) -/

section
variable {lane : Lane} {code : BitVec 8}

theorem wf_unknown_iff : (Instr.unknown lane code).wf = true ↔ codeLane code = none := by
  simp [Instr.wf]

theorem wf_wrongLane_iff : (Instr.wrongLane lane code).wf = true ↔ ∃ l, codeLane code = some l ∧ l ≠ lane := by
  simp only [Instr.wf, Bool.and_eq_true, bne_iff_ne, Option.ne_none_iff_exists']
  constructor
  · rintro ⟨⟨l, hc⟩, hne⟩
    exact ⟨l, hc, fun hl => hne (hl ▸ hc)⟩
  · rintro ⟨l, hc, hl⟩
    exact ⟨⟨l, hc⟩, fun h => hl (Option.some.inj (hc.symm.trans h))⟩

end

/-! ## The word of a lane command (R191) -/

section
variable {i : Instr} {lane : Lane} {w : Word}

theorem exists_encodeLane (h : LaneCommand i) : ∃ lane w, encodeLane i = some (lane, w) := by
  cases i with
  | openFrame | release | abandon | present | withdraw | commitSurface | commitTiming | commitFetch | commitNotice
  | commitMarker | commitReport | outputOn | outputOff | clearEvents | viewSelect | softReset | unknown | wrongLane =>
    exact ⟨_, _, rfl⟩
  | _ => exact h.elim

/-- The lane reads a command's own word by the code alone: a code of the lane gives its command with the operands of
the row, and any other code the refusal that carries it. -/
theorem decodeLane_encodeLane (hwf : i.wf = true) (h : encodeLane i = some (lane, w)) :
    decodeLane lane w = .command i := by
  cases i with
  | unknown =>
    cases h
    exact decodeLane_commandWord_noLane (wf_unknown_iff.1 hwf)
  | wrongLane =>
    cases h
    obtain ⟨l, hc, hl⟩ := wf_wrongLane_iff.1 hwf
    exact decodeLane_commandWord_otherLane hc hl
  | openFrame | release | abandon | present | withdraw | commitSurface | commitTiming | commitFetch | commitNotice
  | commitMarker | commitReport | outputOn | outputOff | clearEvents | viewSelect | softReset =>
    cases h
    exact decodeLane_commandWord_ownLane rfl
  | _ => cases h

end

end Sys2Proof.Safety

namespace Sys2Proof.Settled

open Sys2Proof.Machine Sys2Proof.Safety

/-- Settles O30, by the fields of each command's word. -/
theorem laneRoundTrip : Obligations.LaneRoundTrip :=
  ⟨fun _ _ _ => decodeLane_encodeLane, fun _ _ => exists_encodeLane⟩

end Sys2Proof.Settled
end

