-- ==== Sys2Proof/Proofs/Completion.lean ====
section
/-! What a step does with the queue of waiting commands: it takes the command at the front, and no command stops or
touches the queue. -/

namespace Sys2Proof.Machine

variable (s : State)

/-! ## The step (logs 1 and 33) -/

theorem RasterTimer.endLine_eq (r : RasterTimer) :
    r.endLine = { r with ended := if r.raster = .off then r.ended else true } := by
  by_cases h : r.raster = .off
  · rw [RasterTimer.endLine_off h, if_pos h]
  · rw [RasterTimer.endLine_on h, if_neg h]

theorem step_of_pending_cons {c : Instr} {rest : List Instr} (h : s.pending = c :: rest) :
    step s = exec c { s with pending := rest } := by
  unfold step
  rw [h]

theorem step_of_pending_nil (h : s.pending = []) : step s = .next { s with rtm := s.rtm.endLine } := by
  unfold step
  rw [h]

/-! ## The pins leave the waiting commands alone (R98, R128, R146) -/

@[simp] theorem linkUpChange_pending (level : Bool) (sent : Nat) :
    (linkUpChange level sent s).pending = s.pending := by
  unfold linkUpChange
  split <;> rfl

/-- The queue is the sender's, and outlives a power-on reset (log 26). -/
@[simp] theorem powerOnReset_pending (wsel : BitVec 4) (linkUp crst : Bool) :
    (powerOnReset wsel linkUp crst s).pending = s.pending :=
  linkUpChange_pending _ linkUp 0

@[simp] theorem linkReset_pending : (linkReset s).pending = s.pending := by
  unfold linkReset
  split <;> rfl

/-! ## The console's traffic leaves them alone (R138, R143, R144) -/

@[simp] theorem State.stallWrite_pending : s.stallWrite.pending = s.pending := by
  unfold State.stallWrite
  split <;> rfl

/-- An accepted write to the command page runs its beats at once: none of them becomes a waiting command (R158). -/
@[simp] theorem State.accept_pending (r : Request) (rest : List Request) (o : Offer) :
    (s.accept r rest o).pending = s.pending := by
  have hfault : ∀ (b : Bool) (c : FaultCause) (n : Nat) (u : State),
      (if b then u.linkProtocol c n else u).pending = u.pending := by
    intro b c n u
    split <;> rfl
  have haction : ∀ u : State, (if u.toPage r then u.decodeBeats r else u.takeOffer r.tag o).pending = u.pending := by
    intro u
    split <;> simp
  unfold State.accept
  exact (haction _).trans ((hfault _ _ _ _).trans (hfault _ _ _ _))

@[simp] theorem State.tryHead_pending : s.tryHead.pending = s.pending := by
  unfold State.tryHead
  (repeat' split) <;> simp

@[simp] theorem requestAccept_pending (arriving : Option Request) :
    (requestAccept arriving s).pending = s.pending :=
  State.tryHead_pending _

@[simp] theorem consoleResponse_pending (tag : Fin 256) (kind : RespKind) (status : Status) (data : List (BitVec 64)) :
    (consoleResponse tag kind status data s).pending = s.pending := by
  unfold consoleResponse
  dsimp only
  (repeat' split) <;> simp

@[simp] theorem strayResponse_pending (tag : Fin 512) (kind : RespKind) (status : Status) :
    (strayResponse tag kind status s).pending = s.pending := by
  unfold strayResponse
  (repeat' split) <;> rfl

/-! ## The M-port leaves them alone (R112, R151, R179, R182) -/

@[simp] theorem fetchResponse_pending (n : Fin 64) (kind : RespKind) (status : Status) (data : List (BitVec 64)) :
    (fetchResponse n kind status data s).pending = s.pending := by
  unfold fetchResponse
  split <;> simp

@[simp] theorem reportAck_pending (n : Fin 16) (status : Status) : (reportAck n status s).pending = s.pending := by
  unfold reportAck
  split <;> rfl

@[simp] theorem grant_pending : (grant s).pending = s.pending := by
  unfold grant
  (repeat' split) <;> simp

@[simp] theorem statusWriteBegin_pending : (statusWriteBegin s).pending = s.pending := by
  unfold statusWriteBegin
  split <;> rfl

/-! ## The boundaries leave them alone (chapter 4) -/

@[simp] theorem lineBoundary_pending : (lineBoundary s).pending = s.pending := by
  unfold lineBoundary
  dsimp only
  (repeat' split) <;> simp

@[simp] theorem settleDone_pending : (settleDone s).pending = s.pending := by
  unfold settleDone
  (repeat' split) <;> rfl

@[simp] theorem frontMinEnd_pending : (frontMinEnd s).pending = s.pending := by
  unfold frontMinEnd
  split
  · rfl
  · split
    · split
      · rename_i h
        simp [s.frontSelection_frame h]
      · split <;> simp
    · rfl

@[simp] theorem stretchBoundary_pending : (stretchBoundary s).pending = s.pending := by
  unfold stretchBoundary
  (repeat' split) <;> simp

@[simp] theorem stretchExpiry_pending : (stretchExpiry s).pending = s.pending := by
  unfold stretchExpiry
  (repeat' split) <;> simp

@[simp] theorem activeStart_pending : (activeStart s).pending = s.pending := by
  unfold activeStart
  (repeat' split) <;> simp

@[simp] theorem activeLine_pending : (activeLine s).pending = s.pending := by
  unfold activeLine
  dsimp only
  (repeat' split) <;> simp

@[simp] theorem endOfActive_pending : (endOfActive s).pending = s.pending := by
  unfold endOfActive
  (repeat' split) <;> simp

end Sys2Proof.Machine

namespace Sys2Proof.Settled

open Sys2Proof.Machine

/-- Settles O1, by the queue: with a command at its front, and empty. -/
theorem stepRunsFrontCommand : Obligations.StepRunsFrontCommand := by
  intro c rest s
  refine ⟨step_of_pending_cons s, fun h => ?_⟩
  rw [step_of_pending_nil s h, RasterTimer.endLine_eq]

/-- Settles O2, by the command: no arm of exec answers anything but a next state, and what the command leaves unchanged
holds the queue. -/
theorem everyCommandCompletes : Obligations.EveryCommandCompletes := by
  intro c s
  cases c with
  | openFrame | release | abandon | present | withdraw | commitSurface | commitTiming | commitFetch | commitNotice
  | commitMarker | commitReport | outputOn | outputOff | clearEvents | viewSelect | softReset | unknown | wrongLane
  | tableIndex | tableData | reportNow | misplacedWrite =>
    exact ⟨_, rfl, by simp⟩
  | powerOnReset wsel linkUp crst => exact ⟨_, rfl, powerOnReset_pending s wsel linkUp crst⟩
  | linkReset => exact ⟨_, rfl, linkReset_pending s⟩
  | crstRelease => exact ⟨_, rfl, rfl⟩
  | linkUpChange level sent => exact ⟨_, rfl, linkUpChange_pending s level sent⟩
  | requestAccept arriving => exact ⟨_, rfl, requestAccept_pending s arriving⟩
  | consoleResponse tag kind status data => exact ⟨_, rfl, consoleResponse_pending s tag kind status data⟩
  | strayResponse tag kind status => exact ⟨_, rfl, strayResponse_pending s tag kind status⟩
  | fetchResponse n kind status data => exact ⟨_, rfl, fetchResponse_pending s n kind status data⟩
  | reportAck n status => exact ⟨_, rfl, reportAck_pending s n status⟩
  | grant => exact ⟨_, rfl, grant_pending s⟩
  | channelFree => exact ⟨_, rfl, rfl⟩
  | statusWriteBegin => exact ⟨_, rfl, statusWriteBegin_pending s⟩
  | lineBoundary => exact ⟨_, rfl, lineBoundary_pending s⟩
  | settleDone => exact ⟨_, rfl, settleDone_pending s⟩
  | frontMinEnd => exact ⟨_, rfl, frontMinEnd_pending s⟩
  | stretchBoundary => exact ⟨_, rfl, stretchBoundary_pending s⟩
  | stretchExpiry => exact ⟨_, rfl, stretchExpiry_pending s⟩
  | activeStart => exact ⟨_, rfl, activeStart_pending s⟩
  | activeLine => exact ⟨_, rfl, activeLine_pending s⟩
  | endOfActive => exact ⟨_, rfl, endOfActive_pending s⟩

end Sys2Proof.Settled
end
